-- ==== Sys2Proof/Word.lean ====
section
/-!
DEFINITION. Sys2Proof/Word.lean: the widths of the Z8000's values (00_scope.md R7) and the address value
(00_scope.md R11). Nothing here computes: bit fields, byte order and address arithmetic stand in Decode.lean
and Machine/Ops.lean.
-/
namespace Sys2Proof

/-- A byte, bits 7 to 0 (00_scope.md R7). -/
abbrev Byte := BitVec 8

/-- A word, bits 15 to 0 (00_scope.md R7). -/
abbrev Word := BitVec 16

/-- A long word, bits 31 to 0 (00_scope.md R7). -/
abbrev Long := BitVec 32

/-- A quadruple word, bits 63 to 0 (00_scope.md R7). -/
abbrev Quad := BitVec 64

/-- A 4-bit register field of an instruction (10_state.md R21). -/
abbrev RegNo := BitVec 4

/-- A 4-bit condition code field (10_state.md R33). -/
abbrev Cc := BitVec 4

/-- A logical address: a 7-bit segment number and a 16-bit offset (00_scope.md R11, 20_memory.md R90). -/
structure Addr where
  seg : BitVec 7
  off : Word
deriving DecidableEq, Repr

end Sys2Proof
end

