-- ==== Sys2Proof/Config.lean ====
section
/-!
DEFINITION. Sys2Proof/Config.lean: the parameters of the architecture (00_scope.md R6) and the values the
manual leaves undefined (00_scope.md R9, 10_state.md R32).
-/
namespace Sys2Proof

/-- VARIANT (00_scope.md R6, decision D1). -/
inductive Variant where
  | z8001 | z8002
deriving DecidableEq, Repr

/-- EIT_SAVED_PC (60_exceptions.md R441, decision D47). -/
inductive EitSavedPc where
  | secondWord | nextInstruction
deriving DecidableEq, Repr

/-- SPACE_MAP (20_memory.md R61, decision D42): the number of the storage each memory space is mapped to.
The default maps all six onto storage 0. -/
structure SpaceMap where
  progSystem  : Nat := 0
  progNormal  : Nat := 0
  dataSystem  : Nat := 0
  dataNormal  : Nat := 0
  stackSystem : Nat := 0
  stackNormal : Nat := 0
deriving DecidableEq, Repr

/-- The seven templates of the extended instructions (49_extended_epa.md R421). -/
inductive EpaTemplate where
  | memFromEpu | epuFromMem | cpuFromEpu | epuFromCpu | fcwFromEpu | epuFromFcw | internal
deriving DecidableEq, Repr

/-- One row of EPA_TEMPLATE_MAP: a first word belongs to the template when it agrees with `value` under `mask`. -/
structure EpaRow where
  template : EpaTemplate
  mask     : Word
  value    : Word
deriving DecidableEq, Repr

/-- EPA_TEMPLATE_MAP (49_extended_epa.md R421, decision D50); the first row that matches decides. -/
abbrev EpaMap := List EpaRow

/-- The default table of 49_extended_epa.md R421 (there marked as general knowledge): log entry 4. -/
def EpaMap.default : EpaMap :=
  [⟨.memFromEpu, 0xBF0C#16, 0x0F0C#16⟩, ⟨.epuFromMem, 0xBF0C#16, 0x0F04#16⟩,
   ⟨.cpuFromEpu, 0xFF0C#16, 0x8F00#16⟩, ⟨.epuFromCpu, 0xFF0C#16, 0x8F08#16⟩,
   ⟨.fcwFromEpu, 0xFF0C#16, 0x8E00#16⟩, ⟨.epuFromFcw, 0xFF0C#16, 0x8E08#16⟩,
   ⟨.internal, 0xFF0C#16, 0x8E04#16⟩]

/-- The parameters a machine is built with (00_scope.md R6). No step changes them. -/
structure Params where
  variant    : Variant    := .z8001
  spaceMap   : SpaceMap   := {}
  epuFitted  : Bool       := false
  epaMap     : EpaMap     := EpaMap.default
  eitSavedPc : EitSavedPc := .secondWord
deriving DecidableEq, Repr

/-- Which undefined value of a step is meant: one name for each value that one step can leave open. -/
inductive Slot where
  /-- the C flag after an instruction that leaves it undefined -/
  | carry
  /-- the Z flag -/
  | zero
  /-- the S flag -/
  | sign
  /-- the P/V flag -/
  | overflow
  /-- word k of a result that is undefined -/
  | result (k : Nat)
  /-- register RH1 after a translate instruction -/
  | rh1
  /-- the unused bits of an FCW or of a flag byte that is read -/
  | fcwUnused
  /-- the unused bits of a segment word that the CPU writes -/
  | segWord
  /-- the reserved bits LDA and LDAR put into the segment register -/
  | ldaSeg
  /-- how many refresh cycles have run -/
  | refreshCount
  /-- bit 0 of ROW as read -/
  | rowBit0
  /-- the PC that an Extended Instruction Trap with EIT_SAVED_PC = next_instruction saves for a first word that belongs
  to no template (log entry 5) -/
  | savedPc
  /-- word k that the outside puts on the bus when its script gives none -/
  | bus (k : Nat)
  /-- the identifier that an acknowledge reads after the end of the script -/
  | ackId
  /-- the level of MI at sample k when the script gives none -/
  | mi (k : Nat)
deriving DecidableEq, Repr

/-- The undefined bits of a run (`undef_1`, 00_scope.md R9): no body, so nothing can be proved of one. -/
opaque Config.freeBit : Nat → Slot → Bool

/-- The undefined bytes of a run (`undef_8`). -/
opaque Config.freeByte : Nat → Slot → Byte

/-- The undefined words of a run (`undef_16`). -/
opaque Config.freeWord : Nat → Slot → Word

end Sys2Proof
end

