-- ==== Sys2Proof/Syntax.lean ====
section
/-!
DEFINITION. Sys2Proof/Syntax.lean: the instructions of the Z8000 (30_encoding.md), one constructor for each
mnemonic of the op code table together with an operand shape; the addressing mode is an argument, so one
constructor stands for the R, IM, IR, DA and X rows of an instruction (log entry 52). Register fields are kept
as the 4-bit fields of the encoding; WellFormed.lean says which values an encoding admits.
-/
namespace Sys2Proof

/-- An address in the instruction stream (30_encoding.md R109): one word in nonsegmented mode; in segmented mode
one word (short offset) or two words (long offset). -/
inductive Adr where
  | ns (off : Word)
  | short (seg : BitVec 7) (off : Byte)
  | long (seg : BitVec 7) (off : Word)
deriving DecidableEq, Repr

/-- A memory operand of the general modes: IR (R108), DA (R109), X (R110). -/
inductive Mem where
  | ir (r : RegNo)
  | da (a : Adr)
  | x (a : Adr) (r : RegNo)
deriving DecidableEq, Repr

/-- A general source of n bits (family F2, R122): R, IM, or memory. -/
inductive Src (n : Nat) where
  | reg (r : RegNo)
  | imm (v : BitVec n)
  | mem (m : Mem)
deriving DecidableEq, Repr

/-- A general operand that is read, written or both (families F1 and F3, R123, R124): a register or memory. -/
inductive Loc where
  | reg (r : RegNo)
  | mem (m : Mem)
deriving DecidableEq, Repr

/-- A memory operand of LD: the general modes, BA (R111) and BX (R112). -/
inductive LdMem where
  | mem (m : Mem)
  | ba (r : RegNo) (disp : Word)
  | bx (r x : RegNo)
deriving DecidableEq, Repr

/-- The source of a register load LD (45_load_exchange.md R313, R315). -/
inductive LdSrc (n : Nat) where
  | reg (r : RegNo)
  | imm (v : BitVec n)
  | mem (m : LdMem)
deriving DecidableEq, Repr

/-- The source of LDA (45_load_exchange.md R319): DA, X, BA or BX. -/
inductive LdaSrc where
  | da (a : Adr)
  | x (a : Adr) (r : RegNo)
  | ba (r : RegNo) (disp : Word)
  | bx (r x : RegNo)
deriving DecidableEq, Repr

/-- The port of IN and OUT (44_input_output.md R275, R277): in a word register or in the instruction. -/
inductive PortOp where
  | ir (r : RegNo)
  | da (port : Word)
deriving DecidableEq, Repr

/-- The control registers LDCTL names (10_state.md R38). -/
inductive CtlReg where
  | fcw | refresh | psapSeg | psapOff | nspSeg | nspOff
deriving DecidableEq, Repr

/-- The instructions. Operand order is that of the assembler, destination first (R141), but for the block
instructions, whose fields stand in the order of their two words. -/
inductive Instr where
  -- arithmetic (40_arithmetic.md)
  | adcb (d s : RegNo) | adc (d s : RegNo)
  | addb (d : RegNo) (src : Src 8) | add (d : RegNo) (src : Src 16) | addl (d : RegNo) (src : Src 32)
  | cpb (d : RegNo) (src : Src 8) | cp (d : RegNo) (src : Src 16) | cpl (d : RegNo) (src : Src 32)
  | cpbMem (m : Mem) (v : Byte) | cpMem (m : Mem) (v : Word)
  | dab (d : RegNo)
  | decb (dst : Loc) (k : BitVec 4) | dec (dst : Loc) (k : BitVec 4)
  | div (d : RegNo) (src : Src 16) | divl (d : RegNo) (src : Src 32)
  | extsb (d : RegNo) | exts (d : RegNo) | extsl (d : RegNo)
  | incb (dst : Loc) (k : BitVec 4) | inc (dst : Loc) (k : BitVec 4)
  | mult (d : RegNo) (src : Src 16) | multl (d : RegNo) (src : Src 32)
  | negb (dst : Loc) | neg (dst : Loc)
  | sbcb (d s : RegNo) | sbc (d s : RegNo)
  | subb (d : RegNo) (src : Src 8) | sub (d : RegNo) (src : Src 16) | subl (d : RegNo) (src : Src 32)
  -- logical (46_logical.md)
  | andb (d : RegNo) (src : Src 8) | and (d : RegNo) (src : Src 16)
  | comb (dst : Loc) | com (dst : Loc)
  | orb (d : RegNo) (src : Src 8) | or (d : RegNo) (src : Src 16)
  | tccb (c : Cc) (d : RegNo) | tcc (c : Cc) (d : RegNo)
  | testb (dst : Loc) | test (dst : Loc) | testl (dst : Loc)
  | xorb (d : RegNo) (src : Src 8) | xor (d : RegNo) (src : Src 16)
  -- bit manipulation (41_bit_manipulation.md)
  | bitbStatic (dst : Loc) (b : BitVec 4) | bitStatic (dst : Loc) (b : BitVec 4)
  | bitbDyn (d s : RegNo) | bitDyn (d s : RegNo)
  | resbStatic (dst : Loc) (b : BitVec 4) | resStatic (dst : Loc) (b : BitVec 4)
  | resbDyn (d s : RegNo) | resDyn (d s : RegNo)
  | setbStatic (dst : Loc) (b : BitVec 4) | setStatic (dst : Loc) (b : BitVec 4)
  | setbDyn (d s : RegNo) | setDyn (d s : RegNo)
  | tsetb (dst : Loc) | tset (dst : Loc)
  -- rotate and shift (48_rotate_shift.md); `two` is the bit s of the rotates, n the count of a shift
  | rlb (d : RegNo) (two : Bool) | rl (d : RegNo) (two : Bool)
  | rlcb (d : RegNo) (two : Bool) | rlc (d : RegNo) (two : Bool)
  | rrb (d : RegNo) (two : Bool) | rr (d : RegNo) (two : Bool)
  | rrcb (d : RegNo) (two : Bool) | rrc (d : RegNo) (two : Bool)
  | rldb (link src : RegNo) | rrdb (link src : RegNo)
  | sdab (d s : RegNo) | sda (d s : RegNo) | sdal (d s : RegNo)
  | sdlb (d s : RegNo) | sdl (d s : RegNo) | sdll (d s : RegNo)
  | slab (d : RegNo) (n : Nat) | sla (d : RegNo) (n : Nat) | slal (d : RegNo) (n : Nat)
  | sllb (d : RegNo) (n : Nat) | sll (d : RegNo) (n : Nat) | slll (d : RegNo) (n : Nat)
  | srab (d : RegNo) (n : Nat) | sra (d : RegNo) (n : Nat) | sral (d : RegNo) (n : Nat)
  | srlb (d : RegNo) (n : Nat) | srl (d : RegNo) (n : Nat) | srll (d : RegNo) (n : Nat)
  -- load and exchange (45_load_exchange.md)
  | clrb (dst : Loc) | clr (dst : Loc)
  | exb (d : RegNo) (src : Loc) | ex (d : RegNo) (src : Loc)
  | ldb (d : RegNo) (src : LdSrc 8) | ld (d : RegNo) (src : LdSrc 16) | ldl (d : RegNo) (src : LdSrc 32)
  | ldbCompact (d : RegNo) (v : Byte)
  | ldbStore (m : LdMem) (s : RegNo) | ldStore (m : LdMem) (s : RegNo) | ldlStore (m : LdMem) (s : RegNo)
  | ldbImm (m : Mem) (v : Byte) | ldImm (m : Mem) (v : Word)
  | lda (d : RegNo) (src : LdaSrc) | ldar (d : RegNo) (disp : Word)
  | ldk (d : RegNo) (n : BitVec 4)
  | ldmLoad (d : RegNo) (m : Mem) (k : BitVec 4) | ldmStore (m : Mem) (s : RegNo) (k : BitVec 4)
  | ldrb (d : RegNo) (disp : Word) | ldr (d : RegNo) (disp : Word) | ldrl (d : RegNo) (disp : Word)
  | ldrbStore (disp : Word) (s : RegNo) | ldrStore (disp : Word) (s : RegNo) | ldrlStore (disp : Word) (s : RegNo)
  | pop (dst : Loc) (sp : RegNo) | popl (dst : Loc) (sp : RegNo)
  | push (sp : RegNo) (src : Loc) | pushImm (sp : RegNo) (v : Word) | pushl (sp : RegNo) (src : Loc)
  -- block transfer and string (42_block_transfer_string.md)
  | cpib (rs r rd : RegNo) (c : Cc) | cpi (rs r rd : RegNo) (c : Cc)
  | cpirb (rs r rd : RegNo) (c : Cc) | cpir (rs r rd : RegNo) (c : Cc)
  | cpdb (rs r rd : RegNo) (c : Cc) | cpd (rs r rd : RegNo) (c : Cc)
  | cpdrb (rs r rd : RegNo) (c : Cc) | cpdr (rs r rd : RegNo) (c : Cc)
  | cpsib (rs r rd : RegNo) (c : Cc) | cpsi (rs r rd : RegNo) (c : Cc)
  | cpsirb (rs r rd : RegNo) (c : Cc) | cpsir (rs r rd : RegNo) (c : Cc)
  | cpsdb (rs r rd : RegNo) (c : Cc) | cpsd (rs r rd : RegNo) (c : Cc)
  | cpsdrb (rs r rd : RegNo) (c : Cc) | cpsdr (rs r rd : RegNo) (c : Cc)
  | ldib (rs r rd : RegNo) | ldi (rs r rd : RegNo) | ldirb (rs r rd : RegNo) | ldir (rs r rd : RegNo)
  | lddb (rs r rd : RegNo) | ldd (rs r rd : RegNo) | lddrb (rs r rd : RegNo) | lddr (rs r rd : RegNo)
  | trib (rd r rs : RegNo) | trirb (rd r rs : RegNo) | trdb (rd r rs : RegNo) | trdrb (rd r rs : RegNo)
  | trtib (ra r rb : RegNo) | trtirb (ra r rb : RegNo) | trtdb (ra r rb : RegNo) | trtdrb (ra r rb : RegNo)
  -- CPU control (43_cpu_control.md)
  | comflg (mask : BitVec 4) | resflg (mask : BitVec 4) | setflg (mask : BitVec 4)
  | nop
  | ei (v n : Bool) | di (v n : Bool)
  | halt
  | ldctlFrom (d : RegNo) (c : CtlReg) | ldctlTo (c : CtlReg) (s : RegNo)
  | ldctlbFrom (d : RegNo) | ldctlbTo (s : RegNo)
  | ldps (m : Mem)
  | mset | mres | mbit | mreq (d : RegNo)
  -- input and output (44_input_output.md)
  | inb (d : RegNo) (p : PortOp) | inw (d : RegNo) (p : PortOp)
  | sinb (d : RegNo) (port : Word) | sin (d : RegNo) (port : Word)
  | outb (p : PortOp) (s : RegNo) | outw (p : PortOp) (s : RegNo)
  | soutb (port : Word) (s : RegNo) | sout (port : Word) (s : RegNo)
  | inib (rs r rd : RegNo) | ini (rs r rd : RegNo) | inirb (rs r rd : RegNo) | inir (rs r rd : RegNo)
  | sinib (rs r rd : RegNo) | sini (rs r rd : RegNo) | sinirb (rs r rd : RegNo) | sinir (rs r rd : RegNo)
  | indb (rs r rd : RegNo) | ind (rs r rd : RegNo) | indrb (rs r rd : RegNo) | indr (rs r rd : RegNo)
  | sindb (rs r rd : RegNo) | sind (rs r rd : RegNo) | sindrb (rs r rd : RegNo) | sindr (rs r rd : RegNo)
  | outib (rs r rd : RegNo) | outi (rs r rd : RegNo) | otirb (rs r rd : RegNo) | otir (rs r rd : RegNo)
  | soutib (rs r rd : RegNo) | souti (rs r rd : RegNo) | sotirb (rs r rd : RegNo) | sotir (rs r rd : RegNo)
  | outdb (rs r rd : RegNo) | outd (rs r rd : RegNo) | otdrb (rs r rd : RegNo) | otdr (rs r rd : RegNo)
  | soutdb (rs r rd : RegNo) | soutd (rs r rd : RegNo) | sotdrb (rs r rd : RegNo) | sotdr (rs r rd : RegNo)
  -- program control (47_program_control.md)
  | call (m : Mem) | calr (disp : BitVec 12)
  | djnz (r : RegNo) (disp : BitVec 7) | dbjnz (r : RegNo) (disp : BitVec 7)
  | iret
  | jp (c : Cc) (m : Mem) | jr (c : Cc) (disp : Byte)
  | ret (c : Cc)
  | sc (v : Byte)
  -- extended instructions (49_extended_epa.md); sel is bits 13:8 of the first word, lo bits 3:0, w1 the second word
  | epaMemFromEpu (sel : BitVec 6) (lo : BitVec 4) (m : Mem) (w1 : Word)
  | epaEpuFromMem (sel : BitVec 6) (lo : BitVec 4) (m : Mem) (w1 : Word)
  | epaCpuFromEpu (w0 w1 : Word) | epaEpuFromCpu (w0 w1 : Word)
  | epaFcwFromEpu (w0 w1 : Word) | epaEpuFromFcw (w0 w1 : Word)
  | epaInternal (w0 w1 : Word)
  -- the eight upper bytes that are reserved as a whole (30_encoding.md R134)
  | rsvd (w : Word)
deriving DecidableEq, Repr

end Sys2Proof
end

