-- ==== Sys2Proof/WellFormed.lean ====
section
/-!
DEFINITION. Sys2Proof/WellFormed.lean: which terms of Instr an encoding stands for, in a mode (`seg`: segmented)
and under an EPA_TEMPLATE_MAP. `Instr.ill` names the first condition that fails; an instruction is well formed
when it names none. The decoder refuses by these names.
-/
namespace Sys2Proof

/-- Why the decoder refuses a word pattern. Every refusal by one of these is safe: the spec's word for the
pattern is `refuse`. -/
inductive Reject where
  /-- a reserved or blank cell of the op code map, or an unlisted field combination (30_encoding.md R134) -/
  | reserved
  /-- a field drawn as fixed zeros is not zero (R121, D48) -/
  | mustBeZero
  /-- a field drawn ≠0 is zero and selects no other mode (R105, R134, D13) -/
  | zeroField
  /-- a register pair field is odd (10_state.md R21) -/
  | oddPair
  /-- a register quad field is no multiple of four (10_state.md R21) -/
  | badQuad
  /-- an address register field is odd in segmented mode (R108) -/
  | oddAddressPair
  /-- an address is not written in the form of the mode (R109); no word pattern decodes to such a term -/
  | wrongAddressForm
  /-- registers overlap where the page forbids it (42_block_transfer_string.md R203, D14; R322, R326, R327, D29) -/
  | overlap
  /-- a translate instruction names R1 (R222, R227) -/
  | translateR1
  /-- the bit number register of a dynamic byte form is R8 to R15 (R117, D13) -/
  | byteBitRegister
  /-- RLDB or RRDB with one register as source and link (R394, R397) -/
  | sameDigitRegister
  /-- an immediate shift count outside the range of the width (R403, D15) -/
  | shiftRange
  /-- LDM loads its own address or index register (R322, D29) -/
  | loadsAddressRegister
  /-- an extended upper byte without a template (49_extended_epa.md R421, D50) -/
  | noTemplate
  /-- fewer bytes than the instruction has -/
  | truncated
deriving DecidableEq, Repr

/-- The template of a first word: that of the first row that matches (49_extended_epa.md R421). -/
def EpaMap.template (m : EpaMap) (w0 : Word) : Option EpaTemplate :=
  (m.find? (fun row => w0 &&& row.mask == row.value)).map EpaRow.template

/-- The first reason of a list of checks. -/
def firstReason : List (Option Reject) → Option Reject
  | [] => none
  | none :: rest => firstReason rest
  | some r :: _ => some r

/-- The reason r when the condition b fails. -/
def require (b : Bool) (r : Reject) : Option Reject := if b then none else some r

/-- An even field names a pair (10_state.md R21). -/
def pairIll (r : RegNo) : Option Reject := require (r &&& 1#4 == 0#4) .oddPair

/-- A multiple of four names a quad (10_state.md R21). -/
def quadIll (r : RegNo) : Option Reject := require (r &&& 3#4 == 0#4) .badQuad

/-- A register field of width n. -/
def regIll (n : Nat) (r : RegNo) : Option Reject := if n = 32 then pairIll r else none

/-- An address register field (R105, R108): nonzero, and even in segmented mode. -/
def addrRegIll (seg : Bool) (r : RegNo) : Option Reject :=
  if r = 0#4 then some .zeroField else require (!seg || r &&& 1#4 == 0#4) .oddAddressPair

/-- A field drawn ≠0 that names a word register in both modes (R110, R271). -/
def nonzeroIll (r : RegNo) : Option Reject := require (r != 0#4) .zeroField

/-- The form of an address word (R109). -/
def Adr.ill (seg : Bool) : Adr → Option Reject
  | .ns _ => require (!seg) .wrongAddressForm
  | .short _ _ => require seg .wrongAddressForm
  | .long _ _ => require seg .wrongAddressForm

/-- A memory operand of the general modes. -/
def Mem.ill (seg : Bool) : Mem → Option Reject
  | .ir r => addrRegIll seg r
  | .da a => a.ill seg
  | .x a r => firstReason [nonzeroIll r, a.ill seg]

/-- A general source. -/
def Src.ill (seg : Bool) {n : Nat} : Src n → Option Reject
  | .reg r => regIll n r
  | .imm _ => none
  | .mem m => m.ill seg

/-- A general operand of width n. -/
def Loc.ill (seg : Bool) (n : Nat) : Loc → Option Reject
  | .reg r => regIll n r
  | .mem m => m.ill seg

/-- A memory operand of LD. R0 is no index register of BX either (10_state.md R24, 70_reset_and_hazards.md R512 a; log
entry 41). -/
def LdMem.ill (seg : Bool) : LdMem → Option Reject
  | .mem m => m.ill seg
  | .ba r _ => addrRegIll seg r
  | .bx r i => firstReason [addrRegIll seg r, nonzeroIll i]

/-- A source of LD. -/
def LdSrc.ill (seg : Bool) {n : Nat} : LdSrc n → Option Reject
  | .reg r => regIll n r
  | .imm _ => none
  | .mem m => m.ill seg

/-- A source of LDA. -/
def LdaSrc.ill (seg : Bool) : LdaSrc → Option Reject
  | .da a => a.ill seg
  | .x a r => firstReason [nonzeroIll r, a.ill seg]
  | .ba r _ => addrRegIll seg r
  | .bx r i => firstReason [addrRegIll seg r, nonzeroIll i]

/-- A port operand (R275, R277). -/
def PortOp.ill : PortOp → Option Reject
  | .ir r => nonzeroIll r
  | .da _ => none

/-- The word registers an address register field names (R108). -/
def addrRegs (seg : Bool) (r : RegNo) : List RegNo := if seg then [r, r + 1] else [r]

/-- The word register that holds a byte register (10_state.md R21). -/
def byteHome (r : RegNo) : RegNo := r &&& 7#4

/-- The word registers a register operand of n bits names. -/
def dataRegs (n : Nat) (r : RegNo) : List RegNo :=
  if n = 8 then [byteHome r] else if n = 16 then [r] else [r, r + 1]

/-- The word registers an operand's address is made of. -/
def Mem.regs (seg : Bool) : Mem → List RegNo
  | .ir r => addrRegs seg r
  | .da _ => []
  | .x _ r => [r]

/-- The word registers a general operand of n bits names. -/
def Loc.regs (seg : Bool) (n : Nat) : Loc → List RegNo
  | .reg r => dataRegs n r
  | .mem m => m.regs seg

/-- The k+1 word registers from r on, R0 after R15 (R322). -/
def runOfRegs (r : RegNo) (k : BitVec 4) : List RegNo :=
  (List.range (k.toNat + 1)).map (fun i => r + BitVec.ofNat 4 i)

/-- No register is in both lists. -/
def apart (a b : List RegNo) : Bool := a.all (fun r => !b.contains r)

/-- The registers of a block instruction: three groups that must not overlap (R203). -/
def blockIll (a b c : List RegNo) : Option Reject :=
  require (apart a b && apart a c && apart b c) .overlap

/-- CPI and its kin: address register, count, compared register of n bits (R203, R204). -/
def cpxIll (seg : Bool) (n : Nat) (rs r rd : RegNo) : Option Reject :=
  firstReason [addrRegIll seg rs, blockIll (addrRegs seg rs) [r] (dataRegs n rd)]

/-- Two address registers and a count (R203, R209, R214). -/
def twoPointersIll (seg : Bool) (rs r rd : RegNo) : Option Reject :=
  firstReason [addrRegIll seg rs, addrRegIll seg rd, blockIll (addrRegs seg rs) [r] (addrRegs seg rd)]

/-- A translate instruction (R222, R227). -/
def translateIll (seg : Bool) (ra r rb : RegNo) : Option Reject :=
  firstReason [addrRegIll seg ra, addrRegIll seg rb,
    require (ra != 1#4 && r != 1#4 && rb != 1#4) .translateR1,
    blockIll (addrRegs seg ra) [r] (addrRegs seg rb)]

/-- Block input: port register, count, memory pointer (R271, R272). -/
def blockInIll (seg : Bool) (rs r rd : RegNo) : Option Reject :=
  firstReason [nonzeroIll rs, addrRegIll seg rd, blockIll [rs] [r] (addrRegs seg rd)]

/-- Block output: memory pointer, count, port register (R271, R272). -/
def blockOutIll (seg : Bool) (rs r rd : RegNo) : Option Reject :=
  firstReason [addrRegIll seg rs, nonzeroIll rd, blockIll (addrRegs seg rs) [r] [rd]]

/-- A dynamic bit instruction on bytes (R117). -/
def byteBitIll (s : RegNo) : Option Reject := require (s &&& 8#4 == 0#4) .byteBitRegister

/-- PUSH and POP: the stack pointer must not overlap the operand (R326, R327). -/
def stackIll (seg : Bool) (n : Nat) (sp : RegNo) (l : Loc) : Option Reject :=
  firstReason [addrRegIll seg sp, l.ill seg n, require (apart (addrRegs seg sp) (l.regs seg n)) .overlap]

/-- The shift counts of an operand of n bits: 0 to n to the left, 1 to n to the right (R403). -/
def leftIll (n count : Nat) : Option Reject := require (count ≤ n) .shiftRange
def rightIll (n count : Nat) : Option Reject := require (1 ≤ count && count ≤ n) .shiftRange

/-- An extended instruction with a memory operand: sel and lo make its first word (R421). -/
def epaMemIll (m : EpaMap) (seg : Bool) (t : EpaTemplate) (sel : BitVec 6) (lo : BitVec 4) (op : Mem) :
    Option Reject :=
  let w0 : Word := match op with
    | .ir r => 0#2 ++ sel ++ r ++ lo
    | .da _ => 1#2 ++ sel ++ 0#4 ++ lo
    | .x _ r => 1#2 ++ sel ++ r ++ lo
  firstReason [require (sel == 0x0E#6 || sel == 0x0F#6) .noTemplate, require (m.template w0 == some t) .noTemplate,
    op.ill seg]

/-- An extended instruction without a memory operand (R421). -/
def epaRegIll (m : EpaMap) (t : EpaTemplate) (w0 : Word) : Option Reject :=
  firstReason [require (w0 >>> 8 == 0x8E#16 || w0 >>> 8 == 0x8F#16) .noTemplate,
    require (m.template w0 == some t) .noTemplate]

/-- The flag templates draw bits 11:8 and 3:0 of their second word as zeros (R421, R121). -/
def epaFlagsIll (m : EpaMap) (t : EpaTemplate) (w0 w1 : Word) : Option Reject :=
  firstReason [epaRegIll m t w0, require (w1 &&& 0x0F0F#16 == 0#16) .mustBeZero]

/-- The upper bytes reserved as a whole (R134). -/
def rsvdUpper (w : Word) : Bool :=
  [0x36#16, 0x38#16, 0x78#16, 0x7E#16, 0x9D#16, 0x9F#16, 0xB9#16, 0xBF#16].contains (w >>> 8)

/-- Why an instruction has no encoding in the mode `seg`, or none. -/
def Instr.ill (m : EpaMap) (seg : Bool) : Instr → Option Reject
  | .adcb _ _ | .adc _ _ | .sbcb _ _ | .sbc _ _ => none
  | .addb _ src | .cpb _ src | .subb _ src | .andb _ src | .orb _ src | .xorb _ src => src.ill seg
  | .add _ src | .cp _ src | .sub _ src | .and _ src | .or _ src | .xor _ src => src.ill seg
  | .addl d src | .cpl d src | .subl d src => firstReason [pairIll d, src.ill seg]
  | .mult d src | .div d src => firstReason [pairIll d, src.ill seg]
  | .multl d src | .divl d src => firstReason [quadIll d, src.ill seg]
  | .cpbMem op _ | .ldbImm op _ => op.ill seg
  | .cpMem op _ | .ldImm op _ => op.ill seg
  | .dab _ | .extsb _ => none
  | .exts d => pairIll d
  | .extsl d => quadIll d
  | .decb dst _ | .incb dst _ | .bitbStatic dst _ | .resbStatic dst _ | .setbStatic dst _ => dst.ill seg 8
  | .dec dst _ | .inc dst _ | .bitStatic dst _ | .resStatic dst _ | .setStatic dst _ => dst.ill seg 16
  | .negb dst | .comb dst | .testb dst | .tsetb dst | .clrb dst => dst.ill seg 8
  | .neg dst | .com dst | .test dst | .tset dst | .clr dst => dst.ill seg 16
  | .testl dst => dst.ill seg 32
  | .tccb _ _ | .tcc _ _ => none
  | .bitbDyn _ s | .resbDyn _ s | .setbDyn _ s => byteBitIll s
  | .bitDyn _ _ | .resDyn _ _ | .setDyn _ _ => none
  | .rlb _ _ | .rl _ _ | .rlcb _ _ | .rlc _ _ | .rrb _ _ | .rr _ _ | .rrcb _ _ | .rrc _ _ => none
  | .rldb l s | .rrdb l s => require (l != s) .sameDigitRegister
  | .sdab _ _ | .sda _ _ | .sdlb _ _ | .sdl _ _ => none
  | .sdal d _ | .sdll d _ => pairIll d
  | .slab _ n | .sllb _ n => leftIll 8 n
  | .sla _ n | .sll _ n => leftIll 16 n
  | .slal d n | .slll d n => firstReason [pairIll d, leftIll 32 n]
  | .srab _ n | .srlb _ n => rightIll 8 n
  | .sra _ n | .srl _ n => rightIll 16 n
  | .sral d n | .srll d n => firstReason [pairIll d, rightIll 32 n]
  | .exb _ src => src.ill seg 8
  | .ex _ src => src.ill seg 16
  | .ldb _ src => src.ill seg
  | .ld _ src => src.ill seg
  | .ldl d src => firstReason [pairIll d, src.ill seg]
  | .ldbCompact _ _ | .ldk _ _ => none
  | .ldbStore op _ | .ldStore op _ => op.ill seg
  | .ldlStore op s => firstReason [pairIll s, op.ill seg]
  | .lda d src => firstReason [if seg then pairIll d else none, src.ill seg]
  | .ldar d _ => if seg then pairIll d else none
  | .ldmLoad d op k => firstReason [op.ill seg, require (apart (op.regs seg) (runOfRegs d k)) .loadsAddressRegister]
  | .ldmStore op _ _ => op.ill seg
  | .ldrb _ _ | .ldr _ _ | .ldrbStore _ _ | .ldrStore _ _ => none
  | .ldrl d _ => pairIll d
  | .ldrlStore _ s => pairIll s
  | .pop l sp | .push sp l => stackIll seg 16 sp l
  | .popl l sp | .pushl sp l => stackIll seg 32 sp l
  | .pushImm sp _ => addrRegIll seg sp
  | .cpib rs r rd _ | .cpirb rs r rd _ | .cpdb rs r rd _ | .cpdrb rs r rd _ => cpxIll seg 8 rs r rd
  | .cpi rs r rd _ | .cpir rs r rd _ | .cpd rs r rd _ | .cpdr rs r rd _ => cpxIll seg 16 rs r rd
  | .cpsib rs r rd _ | .cpsi rs r rd _ | .cpsirb rs r rd _ | .cpsir rs r rd _
  | .cpsdb rs r rd _ | .cpsd rs r rd _ | .cpsdrb rs r rd _ | .cpsdr rs r rd _ => twoPointersIll seg rs r rd
  | .ldib rs r rd | .ldi rs r rd | .ldirb rs r rd | .ldir rs r rd
  | .lddb rs r rd | .ldd rs r rd | .lddrb rs r rd | .lddr rs r rd => twoPointersIll seg rs r rd
  | .trib a r b | .trirb a r b | .trdb a r b | .trdrb a r b
  | .trtib a r b | .trtirb a r b | .trtdb a r b | .trtdrb a r b => translateIll seg a r b
  | .comflg _ | .resflg _ | .setflg _ | .nop | .ei _ _ | .di _ _ | .halt => none
  | .ldctlFrom _ _ | .ldctlTo _ _ | .ldctlbFrom _ | .ldctlbTo _ => none
  | .ldps op => op.ill seg
  | .mset | .mres | .mbit | .mreq _ => none
  | .inb _ p | .inw _ p | .outb p _ | .outw p _ => p.ill
  | .sinb _ _ | .sin _ _ | .soutb _ _ | .sout _ _ => none
  | .inib rs r rd | .ini rs r rd | .inirb rs r rd | .inir rs r rd
  | .sinib rs r rd | .sini rs r rd | .sinirb rs r rd | .sinir rs r rd
  | .indb rs r rd | .ind rs r rd | .indrb rs r rd | .indr rs r rd
  | .sindb rs r rd | .sind rs r rd | .sindrb rs r rd | .sindr rs r rd => blockInIll seg rs r rd
  | .outib rs r rd | .outi rs r rd | .otirb rs r rd | .otir rs r rd
  | .soutib rs r rd | .souti rs r rd | .sotirb rs r rd | .sotir rs r rd
  | .outdb rs r rd | .outd rs r rd | .otdrb rs r rd | .otdr rs r rd
  | .soutdb rs r rd | .soutd rs r rd | .sotdrb rs r rd | .sotdr rs r rd => blockOutIll seg rs r rd
  | .call op | .jp _ op => op.ill seg
  | .calr _ | .djnz _ _ | .dbjnz _ _ | .iret | .jr _ _ | .ret _ | .sc _ => none
  | .epaMemFromEpu sel lo op _ => epaMemIll m seg .memFromEpu sel lo op
  | .epaEpuFromMem sel lo op _ => epaMemIll m seg .epuFromMem sel lo op
  | .epaCpuFromEpu w0 _ => epaRegIll m .cpuFromEpu w0
  | .epaEpuFromCpu w0 _ => epaRegIll m .epuFromCpu w0
  | .epaFcwFromEpu w0 w1 => epaFlagsIll m .fcwFromEpu w0 w1
  | .epaEpuFromFcw w0 w1 => epaFlagsIll m .epuFromFcw w0 w1
  | .epaInternal w0 _ => epaRegIll m .internal w0
  | .rsvd w => require (rsvdUpper w) .reserved

/-- An instruction that has an encoding in the mode `seg`. -/
abbrev WellFormed (m : EpaMap) (seg : Bool) (i : Instr) : Prop := i.ill m seg = none

end Sys2Proof
end

