-- ==== Sys2Proof/Machine/State.lean ====
section
/-!
DEFINITION. Sys2Proof/Machine/State.lean: everything the spec gives the machine (10_state.md, 60_exceptions.md
R485 to R496), as plain data, the reasons a step can stop, and the state after reset.
-/
namespace Sys2Proof.Machine

/-- The Flag and Control Word (10_state.md R27). Its unused bits 10:8 and 1:0 hold no state (R29). -/
structure Fcw where
  /-- bit 15, segmented mode (Z8001) -/
  seg  : Bool
  /-- bit 14, S/N: system mode -/
  sn   : Bool
  /-- bit 13 -/
  epa  : Bool
  /-- bit 12 -/
  vie  : Bool
  /-- bit 11 -/
  nvie : Bool
  /-- bit 7 -/
  c    : Bool
  /-- bit 6 -/
  z    : Bool
  /-- bit 5 -/
  s    : Bool
  /-- bit 4, P/V -/
  pv   : Bool
  /-- bit 3 -/
  d    : Bool
  /-- bit 2 -/
  h    : Bool
deriving DecidableEq, Repr

/-- The refresh counter (10_state.md R37): RE bit 15, RATE bits 14:9, ROW bits 8:0. -/
structure Refresh where
  re   : Bool
  rate : BitVec 6
  row  : BitVec 9
deriving DecidableEq, Repr

/-- The CPU states (60_exceptions.md R490). The halted condition is a sub-state of Running: a field of its own. -/
inductive CpuState where
  | running | stopRefresh | busDisconnect
deriving DecidableEq, Repr

/-- The exceptions that load a block of the Program Status Area (60_exceptions.md R440, R460). -/
inductive Exc where
  | extendedInstruction | privilegedInstruction | systemCall | segmentTrap | nmi | nvi | vi
deriving DecidableEq, Repr

/-- The two I/O spaces (20_memory.md R73). -/
inductive IoSpace where
  | standard | special
deriving DecidableEq, Repr

/-- The kinds of memory space (20_memory.md R60). -/
inductive SpaceKind where
  | prog | data | stack
deriving DecidableEq, Repr

/-- A memory space: a kind in system or normal mode (20_memory.md R60). -/
structure Space where
  kind   : SpaceKind
  system : Bool
deriving DecidableEq, Repr

/-- A transaction on the bus, as it is recorded, with what the status lines and N/S tell of it (00_scope.md R4;
20_memory.md R61, R70 to R72, R75; 60_exceptions.md R453, R491; 49_extended_epa.md R428). N/S has a place where the rules
leave it to the mode: I/O and acknowledge transactions always show system mode (20_memory.md R73, 60_exceptions.md
R453). -/
inductive BusEvent where
  /-- an instruction word is fetched from a program space: the first word of an instruction (status 1101) or a later one
  (1100) -/
  | fetch (first : Bool) (space : Space) (addr : Addr) (value : Word)
  /-- the fetch before an acknowledge (status 1101), whose data is thrown away (20_memory.md R72) -/
  | abortedFetch (space : Space) (addr : Addr)
  /-- a read from memory: space, byte or word, address, the value (a byte in bits 7:0) -/
  | memRead (space : Space) (byte : Bool) (addr : Addr) (value : Word)
  /-- a write to memory -/
  | memWrite (space : Space) (byte : Bool) (addr : Addr) (value : Word)
  /-- an input transaction: space, byte or word, port, the value read (a byte in bits 7:0) -/
  | ioRead (space : IoSpace) (byte : Bool) (port : Word) (value : Word)
  /-- an output transaction -/
  | ioWrite (space : IoSpace) (byte : Bool) (port : Word) (value : Word)
  /-- an acknowledge transaction with the identifier read -/
  | acknowledge (kind : Exc) (id : Word)
  /-- an extended instruction handed to the EPU: its two op code words -/
  | epuInstruction (w0 w1 : Word)
  /-- a word the EPU supplied, in system mode or not: a transfer of its own (status 1110), or the data of the memory
  write recorded after it (1010) -/
  | epuSupply (system : Bool) (w : Word)
  /-- a word handed to the EPU: a transfer of its own, or the data of the memory read recorded before it -/
  | epuCapture (system : Bool) (w : Word)
  /-- the flag byte the EPU supplied (status 1110) -/
  | epuSupplyByte (system : Bool) (b : Byte)
  /-- the flag byte handed to the EPU (status 1110) -/
  | epuCaptureByte (system : Bool) (b : Byte)
  /-- the bus was granted, and other bus masters wrote these cells -/
  | busGranted (writes : List Host.Cell)
deriving DecidableEq, Repr

/-- The input levels of one sample, true for an active (Low) line, and the identifier word that a device puts on
the bus if one of them is acknowledged (60_exceptions.md R450, R453). -/
structure Lines where
  segt  : Bool
  vi    : Bool
  nvi   : Bool
  ackId : Word
deriving DecidableEq, Repr

/-- What the environment does just before a transaction of the CPU (20_memory.md R80, 60_exceptions.md R488, R491,
70_reset_and_hazards.md R500). -/
inductive BusAction where
  /-- nothing -/
  | pass
  /-- the bus is granted and given back: `elapsed` refresh periods pass, other bus masters write these cells -/
  | grant (elapsed : Nat) (writes : List Host.Cell)
  /-- STOP is Low; looked at before the second word of an extended instruction only (R488) -/
  | stop
  /-- RESET is held Low for this many clock cycles -/
  | reset (clocks : Nat)
deriving DecidableEq, Repr

/-- What the environment does in one step (00_scope.md R14). -/
inductive EnvEvent where
  /-- the CPU runs, with these inputs -/
  | run (lines : Lines)
  /-- a High-to-Low edge on NMI (60_exceptions.md R447) -/
  | nmiEdge
  /-- STOP is Low at an instruction fetch, after a sample of these inputs where one is due: one refresh cycle of the
  Stop/Refresh state (R488, R493) -/
  | stop (lines : Lines)
  /-- the bus is granted: `elapsed` refresh periods pass and other bus masters write these cells (R487, R491) -/
  | busGrant (elapsed : Nat) (writes : List Host.Cell)
  /-- RESET is held Low for this many clock cycles (70_reset_and_hazards.md R500) -/
  | reset (clocks : Nat)
deriving DecidableEq, Repr

/-- The environment as plain data: a script of events, one for each step, what comes before each transaction of the
CPU, the words it will put on the bus, and the levels of MI (true for Low). Where a list has ended: the CPU runs, no line
active; nothing comes before a transaction; a word or level is open. -/
structure Env where
  events : List EnvEvent
  bus    : List BusAction
  busIn  : List Word
  miLow  : List Bool
deriving DecidableEq, Repr

/-- The machine. -/
structure State where
  /-- the parameters of this machine; no step changes them -/
  params        : Params
  /-- R0 to R15 as entries 0 to 15, with the normal copies of R14 and R15; entry 16 is R14', entry 17 is R15'
  (10_state.md R20, R22) -/
  regs          : Vector Word 18
  /-- 10_state.md R27 -/
  fcw           : Fcw
  /-- the program counter, segment and offset (10_state.md R25); on a Z8002 the segment stays 0 -/
  pc            : Addr
  /-- 10_state.md R35 -/
  psapSeg       : Word
  /-- 10_state.md R35; PSAP on a Z8002 -/
  psapOff       : Word
  /-- 10_state.md R37 -/
  refresh       : Refresh
  /-- refresh periods recorded while the bus was not available, 0 to 2 (60_exceptions.md R487) -/
  skipped       : Nat
  /-- the NMI latch (60_exceptions.md R447) -/
  nmiLatch      : Bool
  /-- the MO output latch, true when MO is Low, active (10_state.md R40 e) -/
  moActive      : Bool
  /-- 60_exceptions.md R490 -/
  cpuState      : CpuState
  /-- the halted condition (43_cpu_control.md R245) -/
  halted        : Bool
  /-- RESET was active and the reset reads are still to come (70_reset_and_hazards.md R500) -/
  resetDue      : Bool
  /-- the first word of the extended instruction that STOP holds before its second word (60_exceptions.md R488) -/
  heldWord      : Option Word
  /-- the MODEL's: a sampling point stands before the next fetch (60_exceptions.md R450) -/
  sampleDue     : Bool
  /-- VIE as the next sample uses it (10_state.md R42) -/
  sampleVie     : Bool
  /-- NVIE as the next sample uses it (10_state.md R42) -/
  sampleNvie    : Bool
  /-- memory: bytes by key, keys strictly rising, no entry equal to what an unlisted byte reads as -/
  mem           : List Host.Cell
  /-- the MODEL's: transactions with the outside, newest first -/
  busLog        : List BusEvent
  /-- the MODEL's: what the environment will do -/
  env           : Env
  /-- the MODEL's: how many draws of undefined values were made, one for each step -/
  draws         : Nat
deriving DecidableEq, Repr

/-- Why a step stops with a fault. Each is safe: the spec gives the case no effect (its word is `refuse`), so the
model stops where hardware would do something the spec does not tell. -/
inductive Fault where
  /-- a word or long access at an odd address; raised by every such access (20_memory.md R69) -/
  | oddAddress
  /-- an instruction fetch at an odd PC; raised by the step (20_memory.md R69) -/
  | oddPc
  /-- an odd vector on a Z8001; raised by the entry of a vectored interrupt (60_exceptions.md R461) -/
  | oddVector
  /-- an FCW with bit 15 set is loaded on a Z8002; raised by LDCTL, LDPS, IRET, an entry, reset (D3) -/
  | segBitOnZ8002
  /-- IRET in nonsegmented mode on a Z8001 (47_program_control.md R374) -/
  | iretNonsegmented
  /-- a dynamic shift count outside the range of the width (48_rotate_shift.md R399) -/
  | shiftCount
  /-- a word block instruction with count 0 or above 32768 (42_block_transfer_string.md R202,
  70_reset_and_hazards.md R513) -/
  | blockCount
  /-- an instruction stored into a word of the instruction that comes next (20_memory.md R84, log entry 24) -/
  | storeIntoNextInstruction
  /-- RESET held Low for fewer than five clock cycles (70_reset_and_hazards.md R500) -/
  | shortReset
deriving DecidableEq, Repr

/-- Why a step is refused. Each is safe: the spec gives the case no effect. -/
inductive Refusal where
  /-- an instruction whose meaning is not written; raised by no arm of this model -/
  | notModelled (mnemonic : String)
  /-- the words at the PC are no encoding the spec defines; raised by the step (30_encoding.md R134, R121) -/
  | encoding (r : Reject)
  /-- an upper byte reserved as a whole (30_encoding.md R134); raised by RSVD -/
  | reservedOpcode
  /-- an extended instruction with EPA = 1 and no EPU fitted (49_extended_epa.md R420, D40) -/
  | noEpu
  /-- LDCTL names PSAPSEG or NSPSEG on a Z8002 (10_state.md R36, D28) -/
  | noControlRegister
deriving DecidableEq, Repr

/-- The outcome of an instruction or of a step. -/
abbrev Out := Host.Outcome State Fault Refusal

/-- The machine right after reset with nothing in memory (10_state.md R41, 70_reset_and_hazards.md R500, R501):
the reset reads of FCW and PC find the 0 an unlisted byte reads as; RE, the skipped-refresh counter and MO are as
R41 says; every other register is a value named in log entry 6 (DESIGN CHOICE). -/
def State.reset : State where
  params     := {}
  regs       := Vector.replicate 18 0
  fcw        := ⟨false, false, false, false, false, false, false, false, false, false, false⟩
  pc         := ⟨0, 0⟩
  psapSeg    := 0
  psapOff    := 0
  refresh    := ⟨false, 0, 0⟩
  skipped    := 0
  nmiLatch   := false
  moActive   := false
  cpuState   := .running
  halted     := false
  resetDue   := false
  heldWord   := none
  sampleDue  := false
  sampleVie  := false
  sampleNvie := false
  mem        := []
  busLog     := []
  env        := ⟨[], [], [], []⟩
  draws      := 0

end Sys2Proof.Machine
end

