-- ==== Sys2Proof/Machine/Flags.lean ====
section
/-!
DEFINITION. Sys2Proof/Machine/Flags.lean: the flag computations and the arithmetic they go with (10_state.md R30 to
R33, 40_arithmetic.md R150, R157, R159, R162, 46_logical.md R350, 48_rotate_shift.md R390 to R398).
-/
namespace Sys2Proof.Machine

/-! ## Condition codes -/

/-- Condition codes 0 to 7 over C, Z, S and P/V (10_state.md R33). -/
def ccLow (c z s v : Bool) (k : Nat) : Bool :=
  match k with
  | 0 => false
  | 1 => s ^^ v
  | 2 => z || (s ^^ v)
  | 3 => c || z
  | 4 => v
  | 5 => s
  | 6 => z
  | _ => c

/-- cc_true (R33): bit 3 of the code negates the predicate of the low three bits. -/
def ccTrue (c z s v : Bool) (cc : Cc) : Bool :=
  ccLow c z s v (cc.toNat % 8) ^^ cc.getLsbD 3

/-- The condition code on the flags of an FCW. -/
def Fcw.holds (f : Fcw) (cc : Cc) : Bool := ccTrue f.c f.z f.s f.pv cc

/-! ## Addition and subtraction -/

/-- A result with its flags (40_arithmetic.md R150). -/
structure Alu (n : Nat) where
  r : BitVec n
  c : Bool
  z : Bool
  s : Bool
  v : Bool
  h : Bool

/-- add_N(a, b, cin) (40_arithmetic.md R150). -/
def addN {n : Nat} (a b : BitVec n) (cin : Bool) : Alu n :=
  let r := BitVec.ofNat n (a.toNat + b.toNat + cin.toNat)
  { r := r
    c := decide (2 ^ n ≤ a.toNat + b.toNat + cin.toNat)
    z := r == 0
    s := r.msb
    v := a.msb == b.msb && r.msb != a.msb
    h := decide (15 < a.toNat % 16 + b.toNat % 16 + cin.toNat) }

/-- sub_N(a, b, bin) (40_arithmetic.md R150): C and H are borrows. -/
def subN {n : Nat} (a b : BitVec n) (bin : Bool) : Alu n :=
  let r := a - b - BitVec.ofNat n bin.toNat
  { r := r
    c := decide (a.toNat < b.toNat + bin.toNat)
    z := r == 0
    s := r.msb
    v := a.msb != b.msb && r.msb == b.msb
    h := decide (a.toNat % 16 < b.toNat % 16 + bin.toNat) }

/-- C, Z, S and P/V from a result (word and long forms; CP of every width). -/
def Fcw.czsv (f : Fcw) {n : Nat} (x : Alu n) : Fcw := { f with c := x.c, z := x.z, s := x.s, pv := x.v }

/-- C, Z, S, P/V and H from a byte result, D as given (R151, R152, R164, R165). -/
def Fcw.czsvdh (f : Fcw) (d : Bool) {n : Nat} (x : Alu n) : Fcw :=
  { f with c := x.c, z := x.z, s := x.s, pv := x.v, d := d, h := x.h }

/-- The flags of ADD and SUB by width: the byte forms write D and H too. -/
def Fcw.arith (f : Fcw) (d : Bool) {n : Nat} (x : Alu n) : Fcw := if n = 8 then f.czsvdh d x else f.czsv x

/-- Z, S and P/V from a result, C kept (INC, DEC: R158, R161). -/
def Fcw.zsv (f : Fcw) {n : Nat} (x : Alu n) : Fcw := { f with z := x.z, s := x.s, pv := x.v }

/-! ## Logic -/

/-- An even number of 1 bits (10_state.md R30). -/
def evenParity (b : Byte) : Bool := !((List.range 8).foldl (fun p i => p ^^ b.getLsbD i) false)

/-- logic_flags (46_logical.md R350): bytes write the parity, words leave P/V. -/
def Fcw.logic (f : Fcw) {n : Nat} (r : BitVec n) : Fcw :=
  if n = 8 then { f with z := r == 0, s := r.msb, pv := evenParity (r.setWidth 8) }
  else { f with z := r == 0, s := r.msb }

/-! ## Decimal adjust -/

/-- A row of the table of DAB (40_arithmetic.md R157): the flags and digit ranges it is for, what is added, C. -/
structure DabRow where
  d   : Bool
  c   : Bool
  h   : Bool
  hi0 : Nat
  hi1 : Nat
  lo0 : Nat
  lo1 : Nat
  add : Byte
  cy  : Bool

/-- The table of 40_arithmetic.md R157. -/
def dabTable : List DabRow :=
  [⟨false, false, false, 0, 9, 0, 9, 0x00#8, false⟩, ⟨false, false, false, 0, 8, 10, 15, 0x06#8, false⟩,
   ⟨false, false, true, 0, 9, 0, 3, 0x06#8, false⟩, ⟨false, false, false, 10, 15, 0, 9, 0x60#8, true⟩,
   ⟨false, false, false, 9, 15, 10, 15, 0x66#8, true⟩, ⟨false, false, true, 10, 15, 0, 3, 0x66#8, true⟩,
   ⟨false, true, false, 0, 2, 0, 9, 0x60#8, true⟩, ⟨false, true, false, 0, 2, 10, 15, 0x66#8, true⟩,
   ⟨false, true, true, 0, 3, 0, 3, 0x66#8, true⟩, ⟨true, false, false, 0, 9, 0, 9, 0x00#8, false⟩,
   ⟨true, false, true, 0, 8, 6, 15, 0xFA#8, false⟩, ⟨true, true, false, 7, 15, 0, 9, 0xA0#8, true⟩,
   ⟨true, true, true, 6, 15, 6, 15, 0x9A#8, true⟩]

/-- The row applies to these flags and this byte. -/
def DabRow.applies (row : DabRow) (f : Fcw) (b : Byte) : Bool :=
  row.d == f.d && row.c == f.c && row.h == f.h &&
    decide (row.hi0 ≤ b.toNat / 16) && decide (b.toNat / 16 ≤ row.hi1) &&
    decide (row.lo0 ≤ b.toNat % 16) && decide (b.toNat % 16 ≤ row.lo1)

/-- The row of the table for these flags and this byte, if there is one. -/
def dabRow (f : Fcw) (b : Byte) : Option DabRow := dabTable.find? (fun row => row.applies f b)

/-! ## Multiply and divide -/

/-- x is a two's complement number of n bits. -/
def fitsSigned (n : Nat) (x : Int) : Bool := decide (-(2 ^ (n - 1) : Int) ≤ x) && decide (x < (2 ^ (n - 1) : Int))

/-- Quotient, rounded toward zero, and remainder, if the divisor is not 0 and the quotient fits n bits
(40_arithmetic.md R159). -/
def divide (n : Nat) (a b : Int) : Option (Int × Int) :=
  if b ≠ 0 ∧ fitsSigned n (a.tdiv b) then some (a.tdiv b, a - a.tdiv b * b) else none

/-! ## Rotates and shifts -/

/-- A shift under way: the operand, the last bit moved out, whether some step changed the sign
(48_rotate_shift.md R391). -/
structure Shift (n : Nat) where
  r       : BitVec n
  c       : Bool
  changed : Bool

/-- One step that leaves r with the carry c. -/
def Shift.to {n : Nat} (x : Shift n) (r : BitVec n) (c : Bool) : Shift n :=
  ⟨r, c, x.changed || x.r.msb != r.msb⟩

/-- RL by one (48_rotate_shift.md R392). -/
def Shift.rl {n : Nat} (x : Shift n) : Shift n := x.to (x.r.rotateLeft 1) x.r.msb
/-- RLC by one (R393). -/
def Shift.rlc {n : Nat} (x : Shift n) : Shift n := x.to (x.r <<< 1 ||| BitVec.ofNat n x.c.toNat) x.r.msb
/-- RR by one (R395). -/
def Shift.rr {n : Nat} (x : Shift n) : Shift n := x.to (x.r.rotateRight 1) (x.r.getLsbD 0)
/-- RRC by one (R396). -/
def Shift.rrc {n : Nat} (x : Shift n) : Shift n :=
  x.to (x.r >>> 1 ||| BitVec.ofNat n x.c.toNat <<< (n - 1)) (x.r.getLsbD 0)
/-- shl1 (R398). -/
def Shift.shl {n : Nat} (x : Shift n) : Shift n := x.to (x.r <<< 1) x.r.msb
/-- shr1_l (R398). -/
def Shift.shrL {n : Nat} (x : Shift n) : Shift n := x.to (x.r >>> 1) (x.r.getLsbD 0)
/-- shr1_a (R398). -/
def Shift.shrA {n : Nat} (x : Shift n) : Shift n := x.to (x.r.sshiftRight 1) (x.r.getLsbD 0)

/-- k steps. -/
def times {α : Type} (f : α → α) : Nat → α → α
  | 0, x => x
  | k + 1, x => times f k (f x)

/-- P/V of rotates and arithmetic shifts (R391): whether the sign changed at some step, when that is also whether
it differs at the end; else the undefined bit u. -/
def Shift.overflow {n : Nat} (before : BitVec n) (x : Shift n) (u : Bool) : Bool :=
  if x.changed = (before.msb != x.r.msb) then x.changed else u

/-- C, Z, S and P/V of a rotate or shift (R390 b). -/
def Fcw.shifted (f : Fcw) {n : Nat} (r : BitVec n) (c v : Bool) : Fcw :=
  { f with c := c, z := r == 0, s := r.msb, pv := v }

end Sys2Proof.Machine
end

