-- ==== Sys2Proof/Decode.lean ====
section
/-!
DEFINITION. Sys2Proof/Decode.lean: from instruction words to instructions (30_encoding.md R100 to R140) and back.
`decode` is total and refuses by name; `encode` is written from the same formats.
-/
namespace Sys2Proof

/-! ## Fields of words -/

/-- A first word: mode bits 15:14, operation bits 13:8, two 4-bit fields (R102). -/
def asm (mm : BitVec 2) (op : BitVec 6) (a b : BitVec 4) : Word := mm ++ op ++ a ++ b

/-- Bits 15:14. -/
def fMode (w : Word) : BitVec 2 := w.extractLsb' 14 2
/-- Bits 13:8. -/
def fOp (w : Word) : BitVec 6 := w.extractLsb' 8 6
/-- Bits 15:12. -/
def nib3 (w : Word) : BitVec 4 := w.extractLsb' 12 4
/-- Bits 11:8. -/
def nib2 (w : Word) : BitVec 4 := w.extractLsb' 8 4
/-- Bits 7:4. -/
def nib1 (w : Word) : BitVec 4 := w.extractLsb' 4 4
/-- Bits 3:0. -/
def nib0 (w : Word) : BitVec 4 := w.extractLsb' 0 4
/-- Bits 15:8. -/
def hiByte (w : Word) : Byte := w.extractLsb' 8 8
/-- Bits 7:0. -/
def loByte (w : Word) : Byte := w.extractLsb' 0 8
/-- The segment number of a segment word: bits 14:8 (20_memory.md R90). -/
def segField (w : Word) : BitVec 7 := w.extractLsb' 8 7

/-- A word of four 4-bit fields, most significant first. -/
def word4 (a b c d : BitVec 4) : Word := a ++ b ++ c ++ d

/-- An immediate count word: the two's complement of the shift, in the width of the operand (48_rotate_shift.md
R403). -/
def countWord (byte left : Bool) (n : Nat) : Word :=
  if left then BitVec.ofNat 16 n
  else if byte then (0#8 : BitVec 8) ++ (-(BitVec.ofNat 8 n)) else -(BitVec.ofNat 16 n)

/-- The count of a count word as a signed number (R403). -/
def countOf (byte : Bool) (w : Word) : Int := if byte then (loByte w).toInt else w.toInt

/-! ## Encoding -/

/-- The address words (R109). -/
def Adr.words : Adr → List Word
  | .ns off => [off]
  | .short seg off => [(0#1 ++ seg) ++ off]
  | .long seg off => [(1#1 ++ seg) ++ 0#8, off]

/-- The words of an immediate operand (R107): a byte is doubled, a long word is two words, high word first. -/
def immWords {n : Nat} (v : BitVec n) : List Word :=
  if n = 8 then [v.setWidth 8 ++ v.setWidth 8]
  else if n = 16 then [v.setWidth 16]
  else [(v >>> 16).setWidth 16, v.setWidth 16]

/-- A first word with a memory operand in bits 7:4, the words `mid` that follow it, and the address words
(R122 to R124). -/
def encMem (op : BitVec 6) (m : Mem) (b : BitVec 4) (mid : List Word) : List Word :=
  match m with
  | .ir r => asm 0 op r b :: mid
  | .da a => asm 1 op 0 b :: (mid ++ a.words)
  | .x a r => asm 1 op r b :: (mid ++ a.words)

/-- Family F2 (R122). -/
def encF2 (op : BitVec 6) {n : Nat} (d : RegNo) : Src n → List Word
  | .reg r => [asm 2 op r d]
  | .imm v => asm 0 op 0 d :: immWords v
  | .mem m => encMem op m d []

/-- Families F1 and F3 (R123, R124). -/
def encLoc (op : BitVec 6) (b : BitVec 4) : Loc → List Word
  | .reg r => [asm 2 op r b]
  | .mem m => encMem op m b []

/-- A memory operand of LD: the operations of the general modes and of BA and BX (R313, R316). -/
def encLdMem (op ba : BitVec 6) (d : RegNo) : LdMem → List Word
  | .mem m => encMem op m d []
  | .ba r disp => [asm 0 ba r d, disp]
  | .bx r x => [asm 1 ba r d, word4 0 x 0 0]

/-- The source of LD (R313, R315). -/
def encLdSrc (op ba : BitVec 6) {n : Nat} (d : RegNo) : LdSrc n → List Word
  | .reg r => [asm 2 op r d]
  | .imm v => asm 0 op 0 d :: immWords v
  | .mem m => encLdMem op ba d m

/-- PUSH and POP with a general operand: the stack pointer in bits 7:4, the operand's register in bits 3:0
(45_load_exchange.md R326, R327). -/
def encStack (op : BitVec 6) (sp : RegNo) : Loc → List Word
  | .reg r => [asm 2 op sp r]
  | .mem (.ir r) => [asm 0 op sp r]
  | .mem (.da a) => asm 1 op sp 0 :: a.words
  | .mem (.x a r) => asm 1 op sp r :: a.words

/-- A block instruction (42_block_transfer_string.md R200, 44_input_output.md R271). -/
def encBlock (mm : BitVec 2) (op : BitVec 6) (a t r b x : BitVec 4) : List Word :=
  [asm mm op a t, word4 0 r b x]

/-- Two-register forms of mode bits 10 (R102). -/
def encRR (op : BitVec 6) (s d : RegNo) : List Word := [asm 2 op s d]

/-- Dynamic bit instructions (41_bit_manipulation.md R190). -/
def encBitDyn (op : BitVec 6) (d s : RegNo) : List Word := [asm 0 op 0 s, word4 0 d 0 0]

/-- Dynamic shifts (48_rotate_shift.md R399, R400). -/
def encShiftDyn (op : BitVec 6) (t : BitVec 4) (d s : RegNo) : List Word := [asm 2 op d t, word4 0 s 0 0]

/-- Immediate shifts (R403 to R407). -/
def encShift (op : BitVec 6) (t : BitVec 4) (d : RegNo) (byte left : Bool) (n : Nat) : List Word :=
  [asm 2 op d t, countWord byte left n]

/-- A rotate (R392): bit 1 of the nibble is the count minus one. -/
def encRot (op : BitVec 6) (t : BitVec 4) (d : RegNo) (two : Bool) : List Word :=
  [asm 2 op d (if two then t + 2 else t)]

/-- A transfer of IN and OUT (44_input_output.md R275, R277). -/
def encPort (ir da : BitVec 6) (t : BitVec 4) (d : RegNo) : PortOp → List Word
  | .ir r => [asm 0 ir r d]
  | .da port => [asm 0 da d t, port]

/-- The nibble of a control register (30_encoding.md R140). -/
def CtlReg.nibble : CtlReg → BitVec 4
  | .fcw => 2 | .refresh => 3 | .psapSeg => 4 | .psapOff => 5 | .nspSeg => 6 | .nspOff => 7

/-- The interrupt mask of EI and DI (R120): a 0 bit names the interrupt. -/
def maskBits (v n : Bool) : BitVec 2 := BitVec.ofBool (!v) ++ BitVec.ofBool (!n)

/-- The words of a load or store of a relative operand (R324, R325). -/
def encRel (op : BitVec 6) (d : RegNo) (disp : Word) : List Word := [asm 0 op 0 d, disp]

/-- The words of an instruction, first word first. -/
def encode : Instr → List Word
  | .addb d src => encF2 0x00 d src
  | .add d src => encF2 0x01 d src
  | .subb d src => encF2 0x02 d src
  | .sub d src => encF2 0x03 d src
  | .orb d src => encF2 0x04 d src
  | .or d src => encF2 0x05 d src
  | .andb d src => encF2 0x06 d src
  | .and d src => encF2 0x07 d src
  | .xorb d src => encF2 0x08 d src
  | .xor d src => encF2 0x09 d src
  | .cpb d src => encF2 0x0A d src
  | .cp d src => encF2 0x0B d src
  | .cpl d src => encF2 0x10 d src
  | .subl d src => encF2 0x12 d src
  | .addl d src => encF2 0x16 d src
  | .multl d src => encF2 0x18 d src
  | .mult d src => encF2 0x19 d src
  | .divl d src => encF2 0x1A d src
  | .div d src => encF2 0x1B d src
  | .cpbMem m v => encMem 0x0C m 1 [] ++ immWords v
  | .cpMem m v => encMem 0x0D m 1 [] ++ immWords v
  | .ldbImm m v => encMem 0x0C m 5 [] ++ immWords v
  | .ldImm m v => encMem 0x0D m 5 [] ++ immWords v
  | .comb l => encLoc 0x0C 0 l
  | .com l => encLoc 0x0D 0 l
  | .negb l => encLoc 0x0C 2 l
  | .neg l => encLoc 0x0D 2 l
  | .testb l => encLoc 0x0C 4 l
  | .test l => encLoc 0x0D 4 l
  | .tsetb l => encLoc 0x0C 6 l
  | .tset l => encLoc 0x0D 6 l
  | .clrb l => encLoc 0x0C 8 l
  | .clr l => encLoc 0x0D 8 l
  | .testl l => encLoc 0x1C 8 l
  | .pushImm sp v => asm 0 0x0D sp 9 :: immWords v
  | .ldctlbFrom d => [asm 2 0x0C d 1]
  | .ldctlbTo s => [asm 2 0x0C s 9]
  | .setflg k => [asm 2 0x0D k 1]
  | .resflg k => [asm 2 0x0D k 3]
  | .comflg k => [asm 2 0x0D k 5]
  | .nop => [asm 2 0x0D 0 7]
  | .pushl sp l => encStack 0x11 sp l
  | .push sp l => encStack 0x13 sp l
  | .popl l sp => encStack 0x15 sp l
  | .pop l sp => encStack 0x17 sp l
  | .ldmLoad d m k => encMem 0x1C m 1 [word4 0 d 0 k]
  | .ldmStore m s k => encMem 0x1C m 9 [word4 0 s 0 k]
  | .jp c m => encMem 0x1E m c []
  | .call m => encMem 0x1F m 0 []
  | .ret c => [asm 2 0x1E 0 c]
  | .ldb d src => encLdSrc 0x20 0x30 d src
  | .ld d src => encLdSrc 0x21 0x31 d src
  | .ldl d src => encLdSrc 0x14 0x35 d src
  | .ldbStore m s => encLdMem 0x2E 0x32 s m
  | .ldStore m s => encLdMem 0x2F 0x33 s m
  | .ldlStore m s => encLdMem 0x1D 0x37 s m
  | .resbStatic l b => encLoc 0x22 b l
  | .resStatic l b => encLoc 0x23 b l
  | .setbStatic l b => encLoc 0x24 b l
  | .setStatic l b => encLoc 0x25 b l
  | .bitbStatic l b => encLoc 0x26 b l
  | .bitStatic l b => encLoc 0x27 b l
  | .resbDyn d s => encBitDyn 0x22 d s
  | .resDyn d s => encBitDyn 0x23 d s
  | .setbDyn d s => encBitDyn 0x24 d s
  | .setDyn d s => encBitDyn 0x25 d s
  | .bitbDyn d s => encBitDyn 0x26 d s
  | .bitDyn d s => encBitDyn 0x27 d s
  | .incb l k => encLoc 0x28 k l
  | .inc l k => encLoc 0x29 k l
  | .decb l k => encLoc 0x2A k l
  | .dec l k => encLoc 0x2B k l
  | .exb d l => encLoc 0x2C d l
  | .ex d l => encLoc 0x2D d l
  | .tccb c d => [asm 2 0x2E d c]
  | .tcc c d => [asm 2 0x2F d c]
  | .ldrb d disp => encRel 0x30 d disp
  | .ldr d disp => encRel 0x31 d disp
  | .ldrbStore disp s => encRel 0x32 s disp
  | .ldrStore disp s => encRel 0x33 s disp
  | .ldar d disp => encRel 0x34 d disp
  | .ldrl d disp => encRel 0x35 d disp
  | .ldrlStore disp s => encRel 0x37 s disp
  | .lda d (.ba r disp) => [asm 0 0x34 r d, disp]
  | .lda d (.bx r x) => [asm 1 0x34 r d, word4 0 x 0 0]
  | .lda d (.da a) => asm 1 0x36 0 d :: a.words
  | .lda d (.x a r) => asm 1 0x36 r d :: a.words
  | .ldps m => encMem 0x39 m 0 []
  | .inib a r b => encBlock 0 0x3A a 0 r b 8
  | .inirb a r b => encBlock 0 0x3A a 0 r b 0
  | .sinib a r b => encBlock 0 0x3A a 1 r b 8
  | .sinirb a r b => encBlock 0 0x3A a 1 r b 0
  | .outib a r b => encBlock 0 0x3A a 2 r b 8
  | .otirb a r b => encBlock 0 0x3A a 2 r b 0
  | .soutib a r b => encBlock 0 0x3A a 3 r b 8
  | .sotirb a r b => encBlock 0 0x3A a 3 r b 0
  | .indb a r b => encBlock 0 0x3A a 8 r b 8
  | .indrb a r b => encBlock 0 0x3A a 8 r b 0
  | .sindb a r b => encBlock 0 0x3A a 9 r b 8
  | .sindrb a r b => encBlock 0 0x3A a 9 r b 0
  | .outdb a r b => encBlock 0 0x3A a 10 r b 8
  | .otdrb a r b => encBlock 0 0x3A a 10 r b 0
  | .soutdb a r b => encBlock 0 0x3A a 11 r b 8
  | .sotdrb a r b => encBlock 0 0x3A a 11 r b 0
  | .ini a r b => encBlock 0 0x3B a 0 r b 8
  | .inir a r b => encBlock 0 0x3B a 0 r b 0
  | .sini a r b => encBlock 0 0x3B a 1 r b 8
  | .sinir a r b => encBlock 0 0x3B a 1 r b 0
  | .outi a r b => encBlock 0 0x3B a 2 r b 8
  | .otir a r b => encBlock 0 0x3B a 2 r b 0
  | .souti a r b => encBlock 0 0x3B a 3 r b 8
  | .sotir a r b => encBlock 0 0x3B a 3 r b 0
  | .ind a r b => encBlock 0 0x3B a 8 r b 8
  | .indr a r b => encBlock 0 0x3B a 8 r b 0
  | .sind a r b => encBlock 0 0x3B a 9 r b 8
  | .sindr a r b => encBlock 0 0x3B a 9 r b 0
  | .outd a r b => encBlock 0 0x3B a 10 r b 8
  | .otdr a r b => encBlock 0 0x3B a 10 r b 0
  | .soutd a r b => encBlock 0 0x3B a 11 r b 8
  | .sotdr a r b => encBlock 0 0x3B a 11 r b 0
  | .inb d p => encPort 0x3C 0x3A 4 d p
  | .inw d p => encPort 0x3D 0x3B 4 d p
  | .outb p s => encPort 0x3E 0x3A 6 s p
  | .outw p s => encPort 0x3F 0x3B 6 s p
  | .sinb d port => [asm 0 0x3A d 5, port]
  | .sin d port => [asm 0 0x3B d 5, port]
  | .soutb port s => [asm 0 0x3A s 7, port]
  | .sout port s => [asm 0 0x3B s 7, port]
  | .halt => [asm 1 0x3A 0 0]
  | .iret => [asm 1 0x3B 0 0]
  | .mset => [asm 1 0x3B 0 8]
  | .mres => [asm 1 0x3B 0 9]
  | .mbit => [asm 1 0x3B 0 10]
  | .mreq d => [asm 1 0x3B d 13]
  | .di v n => [asm 1 0x3C 0 (0#2 ++ maskBits v n)]
  | .ei v n => [asm 1 0x3C 0 (1#2 ++ maskBits v n)]
  | .ldctlFrom d c => [asm 1 0x3D d c.nibble]
  | .ldctlTo c s => [asm 1 0x3D s (c.nibble + 8)]
  | .sc v => [0x7F#8 ++ v]
  | .dab d => [asm 2 0x30 d 0]
  | .extsb d => [asm 2 0x31 d 0]
  | .extsl d => [asm 2 0x31 d 7]
  | .exts d => [asm 2 0x31 d 10]
  | .rlb d t => encRot 0x32 0 d t
  | .rl d t => encRot 0x33 0 d t
  | .rrb d t => encRot 0x32 4 d t
  | .rr d t => encRot 0x33 4 d t
  | .rlcb d t => encRot 0x32 8 d t
  | .rlc d t => encRot 0x33 8 d t
  | .rrcb d t => encRot 0x32 12 d t
  | .rrc d t => encRot 0x33 12 d t
  | .sllb d n => encShift 0x32 1 d true true n
  | .srlb d n => encShift 0x32 1 d true false n
  | .sll d n => encShift 0x33 1 d false true n
  | .srl d n => encShift 0x33 1 d false false n
  | .slll d n => encShift 0x33 5 d false true n
  | .srll d n => encShift 0x33 5 d false false n
  | .slab d n => encShift 0x32 9 d true true n
  | .srab d n => encShift 0x32 9 d true false n
  | .sla d n => encShift 0x33 9 d false true n
  | .sra d n => encShift 0x33 9 d false false n
  | .slal d n => encShift 0x33 13 d false true n
  | .sral d n => encShift 0x33 13 d false false n
  | .sdlb d s => encShiftDyn 0x32 3 d s
  | .sdl d s => encShiftDyn 0x33 3 d s
  | .sdll d s => encShiftDyn 0x33 7 d s
  | .sdab d s => encShiftDyn 0x32 11 d s
  | .sda d s => encShiftDyn 0x33 11 d s
  | .sdal d s => encShiftDyn 0x33 15 d s
  | .adcb d s => encRR 0x34 s d
  | .adc d s => encRR 0x35 s d
  | .sbcb d s => encRR 0x36 s d
  | .sbc d s => encRR 0x37 s d
  | .trib a r b => encBlock 2 0x38 a 0 r b 0
  | .trtib a r b => encBlock 2 0x38 a 2 r b 0
  | .trirb a r b => encBlock 2 0x38 a 4 r b 0
  | .trtirb a r b => encBlock 2 0x38 a 6 r b 14
  | .trdb a r b => encBlock 2 0x38 a 8 r b 0
  | .trtdb a r b => encBlock 2 0x38 a 10 r b 0
  | .trdrb a r b => encBlock 2 0x38 a 12 r b 0
  | .trtdrb a r b => encBlock 2 0x38 a 14 r b 14
  | .cpib a r b c => encBlock 2 0x3A a 0 r b c
  | .cpsib a r b c => encBlock 2 0x3A a 2 r b c
  | .cpirb a r b c => encBlock 2 0x3A a 4 r b c
  | .cpsirb a r b c => encBlock 2 0x3A a 6 r b c
  | .cpdb a r b c => encBlock 2 0x3A a 8 r b c
  | .cpsdb a r b c => encBlock 2 0x3A a 10 r b c
  | .cpdrb a r b c => encBlock 2 0x3A a 12 r b c
  | .cpsdrb a r b c => encBlock 2 0x3A a 14 r b c
  | .ldib a r b => encBlock 2 0x3A a 1 r b 8
  | .ldirb a r b => encBlock 2 0x3A a 1 r b 0
  | .lddb a r b => encBlock 2 0x3A a 9 r b 8
  | .lddrb a r b => encBlock 2 0x3A a 9 r b 0
  | .cpi a r b c => encBlock 2 0x3B a 0 r b c
  | .cpsi a r b c => encBlock 2 0x3B a 2 r b c
  | .cpir a r b c => encBlock 2 0x3B a 4 r b c
  | .cpsir a r b c => encBlock 2 0x3B a 6 r b c
  | .cpd a r b c => encBlock 2 0x3B a 8 r b c
  | .cpsd a r b c => encBlock 2 0x3B a 10 r b c
  | .cpdr a r b c => encBlock 2 0x3B a 12 r b c
  | .cpsdr a r b c => encBlock 2 0x3B a 14 r b c
  | .ldi a r b => encBlock 2 0x3B a 1 r b 8
  | .ldir a r b => encBlock 2 0x3B a 1 r b 0
  | .ldd a r b => encBlock 2 0x3B a 9 r b 8
  | .lddr a r b => encBlock 2 0x3B a 9 r b 0
  | .rrdb l s => encRR 0x3C s l
  | .ldk d n => encRR 0x3D d n
  | .rldb l s => encRR 0x3E s l
  | .ldbCompact d v => [0xC#4 ++ d ++ v]
  | .calr disp => [0xD#4 ++ disp]
  | .jr c disp => [0xE#4 ++ c ++ disp]
  | .dbjnz r disp => [0xF#4 ++ r ++ 0#1 ++ disp]
  | .djnz r disp => [0xF#4 ++ r ++ 1#1 ++ disp]
  | .epaMemFromEpu sel lo m w1 => encMem sel m lo [w1]
  | .epaEpuFromMem sel lo m w1 => encMem sel m lo [w1]
  | .epaCpuFromEpu w0 w1 => [w0, w1]
  | .epaEpuFromCpu w0 w1 => [w0, w1]
  | .epaFcwFromEpu w0 w1 => [w0, w1]
  | .epaEpuFromFcw w0 w1 => [w0, w1]
  | .epaInternal w0 w1 => [w0, w1]
  | .rsvd w => [w]

/-- The first word of an instruction: the identifier of the internal traps (60_exceptions.md R457). -/
def firstWord (i : Instr) : Word := (encode i).headD 0

/-! ## Decoding -/

/-- What a decoding of an operand answers. -/
abbrev Dec := Except Reject Instr

/-- The address in the words v and w (R109); the low byte of a long address's first word is drawn as zeros
(R121). `k` gets the address and whether it took two words. -/
def withAdr (seg : Bool) (v w : Word) (k : Adr → Bool → Dec) : Dec :=
  if !seg then k (.ns v) false
  else if v.getLsbD 15 then
    if loByte v = 0 then k (.long (segField v) w) true else .error .mustBeZero
  else k (.short (segField v) (loByte v)) false

/-- A DA or X operand (mode bits 01): field 0 selects DA (R105). -/
def withDaX (seg : Bool) (a : BitVec 4) (v w : Word) (k : Mem → Bool → Dec) : Dec :=
  withAdr seg v w (fun adr long => if a = 0 then k (.da adr) long else k (.x adr a) long)

/-- An IR operand in a form where a zero field selects nothing else. -/
def withIr (a : BitVec 4) (k : Mem → Dec) : Dec := if a = 0 then .error .zeroField else k (.ir a)

/-- The immediate of n bits in the words v and w (R107): of a byte's word the low byte is used. -/
def immOf (n : Nat) (v w : Word) : BitVec n := if n ≤ 16 then v.setWidth n else (v ++ w).setWidth n

/-- Family F2 (R122). -/
def decF2 (mm : Nat) (seg : Bool) (n : Nat) (a : BitVec 4) (w1 w2 : Word) (k : Src n → Instr) : Dec :=
  match mm with
  | 0 => .ok (if a = 0 then k (.imm (immOf n w1 w2)) else k (.mem (.ir a)))
  | 1 => withDaX seg a w1 w2 (fun m _ => .ok (k (.mem m)))
  | _ => .ok (k (.reg a))

/-- Families F1 and F3 with a register or a memory operand (R123, R124). -/
def decLoc (mm : Nat) (seg : Bool) (a : BitVec 4) (w1 w2 : Word) (k : Loc → Instr) : Dec :=
  match mm with
  | 0 => withIr a (fun m => .ok (k (.mem m)))
  | 1 => withDaX seg a w1 w2 (fun m _ => .ok (k (.mem m)))
  | _ => .ok (k (.reg a))

/-- A memory operand alone: mode bits 00 or 01. -/
def decMem (mm : Nat) (seg : Bool) (a : BitVec 4) (w1 w2 : Word) (k : Mem → Instr) : Dec :=
  match mm with
  | 0 => withIr a (fun m => .ok (k m))
  | _ => withDaX seg a w1 w2 (fun m _ => .ok (k m))

/-- A memory operand with an immediate after it (R107): mode bits 00 or 01. -/
def decMemImm (mm : Nat) (seg : Bool) (n : Nat) (a : BitVec 4) (w1 w2 w3 : Word) (k : Mem → BitVec n → Instr) :
    Dec :=
  match mm with
  | 0 => withIr a (fun m => .ok (k m (immOf n w1 w2)))
  | _ => withDaX seg a w1 w2 (fun m long => .ok (k m (immOf n (if long then w3 else w2) 0)))

/-- The source of LD (R313, R315), general modes. -/
def decLd (mm : Nat) (seg : Bool) (n : Nat) (a : BitVec 4) (w1 w2 : Word) (k : LdSrc n → Instr) : Dec :=
  match mm with
  | 0 => .ok (if a = 0 then k (.imm (immOf n w1 w2)) else k (.mem (.mem (.ir a))))
  | 1 => withDaX seg a w1 w2 (fun m _ => .ok (k (.mem (.mem m))))
  | _ => .ok (k (.reg a))

/-- A second word that must hold one field in bits 11:8 and zeros elsewhere (R112, R190, R399). -/
def withField2 (w1 : Word) (k : BitVec 4 → Dec) : Dec :=
  if nib3 w1 = 0 ∧ nib1 w1 = 0 ∧ nib0 w1 = 0 then k (nib2 w1) else .error .mustBeZero

/-- The second word of LDM: register in bits 11:8, count minus one in bits 3:0 (R322). -/
def withLdm (w1 : Word) (k : BitVec 4 → BitVec 4 → Dec) : Dec :=
  if nib3 w1 = 0 ∧ nib1 w1 = 0 then k (nib2 w1) (nib0 w1) else .error .mustBeZero

/-- The second word of a block instruction (R200, R271): count, second register, last nibble. -/
def withBlock (w1 : Word) (k : BitVec 4 → BitVec 4 → BitVec 4 → Dec) : Dec :=
  if nib3 w1 = 0 then k (nib2 w1) (nib1 w1) (nib0 w1) else .error .mustBeZero

/-- A block instruction whose second word ends in a fixed nibble: 8 for the single form, 0 for the repeating
form (R214, R271). -/
def decBlock (w1 : Word) (single repeated : BitVec 4 → BitVec 4 → Instr) : Dec :=
  withBlock w1 (fun r b x =>
    if x = 8 then .ok (single r b) else if x = 0 then .ok (repeated r b) else .error .mustBeZero)

/-- A translate instruction, whose second word ends in the nibble x0 (R222, R227). -/
def decTr (w1 : Word) (x0 : BitVec 4) (k : BitVec 4 → BitVec 4 → Instr) : Dec :=
  withBlock w1 (fun r b x => if x = x0 then .ok (k r b) else .error .mustBeZero)

/-- A compare block instruction (R204, R209). -/
def decCp (w1 : Word) (k : BitVec 4 → BitVec 4 → BitVec 4 → Instr) : Dec :=
  withBlock w1 (fun r b x => .ok (k r b x))

/-- An immediate shift: the sign of the count tells left from right (R403). -/
def decShift (byte : Bool) (w1 : Word) (left right : Nat → Instr) : Dec :=
  if byte ∧ hiByte w1 ≠ 0 then .error .mustBeZero
  else if 0 ≤ countOf byte w1 then .ok (left (countOf byte w1).toNat)
  else .ok (right (-(countOf byte w1)).toNat)

/-- A field that must be zero. -/
def zeroField (a : BitVec 4) (i : Instr) : Dec := if a = 0 then .ok i else .error .mustBeZero

/-- PUSH and POP with a general operand (R326, R327): sp in bits 7:4, the operand's register in bits 3:0. -/
def decStack (mm : Nat) (seg : Bool) (b : BitVec 4) (w1 w2 : Word) (k : Loc → Instr) : Dec :=
  match mm with
  | 0 => withIr b (fun m => .ok (k (.mem m)))
  | 1 => withDaX seg b w1 w2 (fun m _ => .ok (k (.mem m)))
  | _ => .ok (k (.reg b))

/-- Table 1 (R128), upper bytes 0C, 4C, 8C: the byte forms. -/
def decTable1b (mm : Nat) (seg : Bool) (a b : BitVec 4) (w1 w2 w3 : Word) : Dec :=
  match b.toNat with
  | 0 => decLoc mm seg a w1 w2 .comb
  | 1 => if mm = 2 then .ok (.ldctlbFrom a) else decMemImm mm seg 8 a w1 w2 w3 .cpbMem
  | 2 => decLoc mm seg a w1 w2 .negb
  | 4 => decLoc mm seg a w1 w2 .testb
  | 5 => if mm = 2 then .error .reserved else decMemImm mm seg 8 a w1 w2 w3 .ldbImm
  | 6 => decLoc mm seg a w1 w2 .tsetb
  | 8 => decLoc mm seg a w1 w2 .clrb
  | 9 => if mm = 2 then .ok (.ldctlbTo a) else .error .reserved
  | _ => .error .reserved

/-- Table 1 (R128), upper bytes 0D, 4D, 8D: the word forms. -/
def decTable1w (mm : Nat) (seg : Bool) (a b : BitVec 4) (w1 w2 w3 : Word) : Dec :=
  match b.toNat with
  | 0 => decLoc mm seg a w1 w2 .com
  | 1 => if mm = 2 then .ok (.setflg a) else decMemImm mm seg 16 a w1 w2 w3 .cpMem
  | 2 => decLoc mm seg a w1 w2 .neg
  | 3 => if mm = 2 then .ok (.resflg a) else .error .reserved
  | 4 => decLoc mm seg a w1 w2 .test
  | 5 => if mm = 2 then .ok (.comflg a) else decMemImm mm seg 16 a w1 w2 w3 .ldImm
  | 6 => decLoc mm seg a w1 w2 .tset
  | 7 => if mm = 2 then zeroField a .nop else .error .reserved
  | 8 => decLoc mm seg a w1 w2 .clr
  | 9 => if mm = 0 then .ok (.pushImm a w1) else .error .reserved
  | _ => .error .reserved

/-- Table 2 (R129), upper bytes 1C, 5C, 9C. -/
def decTable2 (mm : Nat) (seg : Bool) (a b : BitVec 4) (w1 w2 w3 : Word) : Dec :=
  match b.toNat with
  | 1 => if mm = 2 then .error .reserved else withLdm w1 (fun d k => decMem mm seg a w2 w3 (.ldmLoad d · k))
  | 8 => decLoc mm seg a w1 w2 .testl
  | 9 => if mm = 2 then .error .reserved else withLdm w1 (fun d k => decMem mm seg a w2 w3 (.ldmStore · d k))
  | _ => .error .reserved

/-- Table 3 (R130), upper byte 3A: byte input and output. -/
def decTable3b (a b : BitVec 4) (w1 : Word) : Dec :=
  match b.toNat with
  | 0 => decBlock w1 (.inib a) (.inirb a)
  | 1 => decBlock w1 (.sinib a) (.sinirb a)
  | 2 => decBlock w1 (.outib a) (.otirb a)
  | 3 => decBlock w1 (.soutib a) (.sotirb a)
  | 4 => .ok (.inb a (.da w1))
  | 5 => .ok (.sinb a w1)
  | 6 => .ok (.outb (.da w1) a)
  | 7 => .ok (.soutb w1 a)
  | 8 => decBlock w1 (.indb a) (.indrb a)
  | 9 => decBlock w1 (.sindb a) (.sindrb a)
  | 10 => decBlock w1 (.outdb a) (.otdrb a)
  | 11 => decBlock w1 (.soutdb a) (.sotdrb a)
  | _ => .error .reserved

/-- Table 3 (R130), upper byte 3B: word input and output. -/
def decTable3w (a b : BitVec 4) (w1 : Word) : Dec :=
  match b.toNat with
  | 0 => decBlock w1 (.ini a) (.inir a)
  | 1 => decBlock w1 (.sini a) (.sinir a)
  | 2 => decBlock w1 (.outi a) (.otir a)
  | 3 => decBlock w1 (.souti a) (.sotir a)
  | 4 => .ok (.inw a (.da w1))
  | 5 => .ok (.sin a w1)
  | 6 => .ok (.outw (.da w1) a)
  | 7 => .ok (.sout w1 a)
  | 8 => decBlock w1 (.ind a) (.indr a)
  | 9 => decBlock w1 (.sind a) (.sindr a)
  | 10 => decBlock w1 (.outd a) (.otdr a)
  | 11 => decBlock w1 (.soutd a) (.sotdr a)
  | _ => .error .reserved

/-- Table 4 (R131), upper byte B2: byte rotates and shifts. -/
def decTable4b (a b : BitVec 4) (w1 : Word) : Dec :=
  match b.toNat with
  | 0 => .ok (.rlb a false)
  | 1 => decShift true w1 (.sllb a) (.srlb a)
  | 2 => .ok (.rlb a true)
  | 3 => withField2 w1 (fun s => .ok (.sdlb a s))
  | 4 => .ok (.rrb a false)
  | 6 => .ok (.rrb a true)
  | 8 => .ok (.rlcb a false)
  | 9 => decShift true w1 (.slab a) (.srab a)
  | 10 => .ok (.rlcb a true)
  | 11 => withField2 w1 (fun s => .ok (.sdab a s))
  | 12 => .ok (.rrcb a false)
  | 14 => .ok (.rrcb a true)
  | _ => .error .reserved

/-- Table 4 (R131), upper byte B3: word and long rotates and shifts. -/
def decTable4w (a b : BitVec 4) (w1 : Word) : Dec :=
  match b.toNat with
  | 0 => .ok (.rl a false)
  | 1 => decShift false w1 (.sll a) (.srl a)
  | 2 => .ok (.rl a true)
  | 3 => withField2 w1 (fun s => .ok (.sdl a s))
  | 4 => .ok (.rr a false)
  | 5 => decShift false w1 (.slll a) (.srll a)
  | 6 => .ok (.rr a true)
  | 7 => withField2 w1 (fun s => .ok (.sdll a s))
  | 8 => .ok (.rlc a false)
  | 9 => decShift false w1 (.sla a) (.sra a)
  | 10 => .ok (.rlc a true)
  | 11 => withField2 w1 (fun s => .ok (.sda a s))
  | 12 => .ok (.rrc a false)
  | 13 => decShift false w1 (.slal a) (.sral a)
  | 14 => .ok (.rrc a true)
  | _ => withField2 w1 (fun s => .ok (.sdal a s))

/-- Table 5 (R132), upper byte B8: translate. -/
def decTable5t (a b : BitVec 4) (w1 : Word) : Dec :=
  match b.toNat with
  | 0 => decTr w1 0 (.trib a)
  | 2 => decTr w1 0 (.trtib a)
  | 4 => decTr w1 0 (.trirb a)
  | 6 => decTr w1 14 (.trtirb a)
  | 8 => decTr w1 0 (.trdb a)
  | 10 => decTr w1 0 (.trtdb a)
  | 12 => decTr w1 0 (.trdrb a)
  | 14 => decTr w1 14 (.trtdrb a)
  | _ => .error .reserved

/-- Table 5 (R132), upper byte BA: byte block instructions. -/
def decTable5b (a b : BitVec 4) (w1 : Word) : Dec :=
  match b.toNat with
  | 0 => decCp w1 (.cpib a)
  | 1 => decBlock w1 (.ldib a) (.ldirb a)
  | 2 => decCp w1 (.cpsib a)
  | 4 => decCp w1 (.cpirb a)
  | 6 => decCp w1 (.cpsirb a)
  | 8 => decCp w1 (.cpdb a)
  | 9 => decBlock w1 (.lddb a) (.lddrb a)
  | 10 => decCp w1 (.cpsdb a)
  | 12 => decCp w1 (.cpdrb a)
  | 14 => decCp w1 (.cpsdrb a)
  | _ => .error .reserved

/-- Table 5 (R132), upper byte BB: word block instructions. -/
def decTable5w (a b : BitVec 4) (w1 : Word) : Dec :=
  match b.toNat with
  | 0 => decCp w1 (.cpi a)
  | 1 => decBlock w1 (.ldi a) (.ldir a)
  | 2 => decCp w1 (.cpsi a)
  | 4 => decCp w1 (.cpir a)
  | 6 => decCp w1 (.cpsir a)
  | 8 => decCp w1 (.cpd a)
  | 9 => decBlock w1 (.ldd a) (.lddr a)
  | 10 => decCp w1 (.cpsd a)
  | 12 => decCp w1 (.cpdr a)
  | 14 => decCp w1 (.cpsdr a)
  | _ => .error .reserved

/-- Table 6 (R133), upper byte 7B. -/
def decTable6 (a b : BitVec 4) : Dec :=
  match b.toNat with
  | 0 => zeroField a .iret
  | 8 => zeroField a .mset
  | 9 => zeroField a .mres
  | 10 => zeroField a .mbit
  | 13 => .ok (.mreq a)
  | _ => .error .reserved

/-- Upper byte 7C: EI and DI (R120). -/
def decEiDi (a b : BitVec 4) : Dec :=
  if a = 0 then
    match b.toNat with
    | 0 => .ok (.di true true)
    | 1 => .ok (.di true false)
    | 2 => .ok (.di false true)
    | 3 => .ok (.di false false)
    | 4 => .ok (.ei true true)
    | 5 => .ok (.ei true false)
    | 6 => .ok (.ei false true)
    | 7 => .ok (.ei false false)
    | _ => .error .mustBeZero
  else .error .mustBeZero

/-- Table 7 (R140), upper byte 7D: LDCTL. -/
def decTable7 (a b : BitVec 4) : Dec :=
  match b.toNat with
  | 2 => .ok (.ldctlFrom a .fcw)
  | 3 => .ok (.ldctlFrom a .refresh)
  | 4 => .ok (.ldctlFrom a .psapSeg)
  | 5 => .ok (.ldctlFrom a .psapOff)
  | 6 => .ok (.ldctlFrom a .nspSeg)
  | 7 => .ok (.ldctlFrom a .nspOff)
  | 10 => .ok (.ldctlTo .fcw a)
  | 11 => .ok (.ldctlTo .refresh a)
  | 12 => .ok (.ldctlTo .psapSeg a)
  | 13 => .ok (.ldctlTo .psapOff a)
  | 14 => .ok (.ldctlTo .nspSeg a)
  | 15 => .ok (.ldctlTo .nspOff a)
  | _ => .error .reserved

/-- An extended instruction with a memory operand (49_extended_epa.md R421): the address follows the second
word. -/
def decEpaMem (mm : Nat) (seg : Bool) (a : BitVec 4) (w2 w3 : Word) (k : Mem → Instr) : Dec :=
  if mm = 2 then .error .noTemplate else decMem mm seg a w2 w3 k

/-- An extended instruction without a memory operand: mode bits 10. -/
def decEpaReg (mm : Nat) (i : Instr) : Dec := if mm = 2 then .ok i else .error .noTemplate

/-- The extended upper bytes (R135, 49_extended_epa.md R421). -/
def decEpa (m : EpaMap) (mm : Nat) (seg : Bool) (w0 w1 w2 w3 : Word) : Dec :=
  match m.template w0 with
  | some .memFromEpu => decEpaMem mm seg (nib1 w0) w2 w3 (.epaMemFromEpu (fOp w0) (nib0 w0) · w1)
  | some .epuFromMem => decEpaMem mm seg (nib1 w0) w2 w3 (.epaEpuFromMem (fOp w0) (nib0 w0) · w1)
  | some .cpuFromEpu => decEpaReg mm (.epaCpuFromEpu w0 w1)
  | some .epuFromCpu => decEpaReg mm (.epaEpuFromCpu w0 w1)
  | some .fcwFromEpu => decEpaReg mm (.epaFcwFromEpu w0 w1)
  | some .epuFromFcw => decEpaReg mm (.epaEpuFromFcw w0 w1)
  | some .internal => decEpaReg mm (.epaInternal w0 w1)
  | none => .error .noTemplate

/-- Rows 0x, 4x, 8x of the map (R125 to R127). -/
def decRow0 (m : EpaMap) (mm op : Nat) (seg : Bool) (w0 w1 w2 w3 : Word) : Dec :=
  let a := nib1 w0
  let d := nib0 w0
  match op with
  | 0x00 => decF2 mm seg 8 a w1 w2 (.addb d)
  | 0x01 => decF2 mm seg 16 a w1 w2 (.add d)
  | 0x02 => decF2 mm seg 8 a w1 w2 (.subb d)
  | 0x03 => decF2 mm seg 16 a w1 w2 (.sub d)
  | 0x04 => decF2 mm seg 8 a w1 w2 (.orb d)
  | 0x05 => decF2 mm seg 16 a w1 w2 (.or d)
  | 0x06 => decF2 mm seg 8 a w1 w2 (.andb d)
  | 0x07 => decF2 mm seg 16 a w1 w2 (.and d)
  | 0x08 => decF2 mm seg 8 a w1 w2 (.xorb d)
  | 0x09 => decF2 mm seg 16 a w1 w2 (.xor d)
  | 0x0A => decF2 mm seg 8 a w1 w2 (.cpb d)
  | 0x0B => decF2 mm seg 16 a w1 w2 (.cp d)
  | 0x0C => decTable1b mm seg a d w1 w2 w3
  | 0x0D => decTable1w mm seg a d w1 w2 w3
  | _ => decEpa m mm seg w0 w1 w2 w3

/-- Rows 1x, 5x, 9x of the map. -/
def decRow1 (mm op : Nat) (seg : Bool) (w0 w1 w2 w3 : Word) : Dec :=
  let a := nib1 w0
  let d := nib0 w0
  match op with
  | 0x10 => decF2 mm seg 32 a w1 w2 (.cpl d)
  | 0x11 => decStack mm seg d w1 w2 (.pushl a)
  | 0x12 => decF2 mm seg 32 a w1 w2 (.subl d)
  | 0x13 => decStack mm seg d w1 w2 (.push a)
  | 0x14 => decLd mm seg 32 a w1 w2 (.ldl d)
  | 0x15 => decStack mm seg d w1 w2 (.popl · a)
  | 0x16 => decF2 mm seg 32 a w1 w2 (.addl d)
  | 0x17 => decStack mm seg d w1 w2 (.pop · a)
  | 0x18 => decF2 mm seg 32 a w1 w2 (.multl d)
  | 0x19 => decF2 mm seg 16 a w1 w2 (.mult d)
  | 0x1A => decF2 mm seg 32 a w1 w2 (.divl d)
  | 0x1B => decF2 mm seg 16 a w1 w2 (.div d)
  | 0x1C => decTable2 mm seg a d w1 w2 w3
  | 0x1D => if mm = 2 then .ok (.rsvd w0) else decMem mm seg a w1 w2 (fun o => .ldlStore (.mem o) d)
  | 0x1E => if mm = 2 then zeroField a (.ret d) else decMem mm seg a w1 w2 (.jp d)
  | _ => if mm = 2 then .ok (.rsvd w0)
         else if d = 0 then decMem mm seg a w1 w2 .call else .error .mustBeZero

/-- A static bit instruction, or with mode 00 and field 0 the dynamic one (R105, R124). -/
def decBit (mm : Nat) (seg : Bool) (a b : BitVec 4) (w1 w2 : Word) (static : Loc → BitVec 4 → Instr)
    (dyn : BitVec 4 → BitVec 4 → Instr) : Dec :=
  if mm = 0 ∧ a = 0 then withField2 w1 (fun d => .ok (dyn d b)) else decLoc mm seg a w1 w2 (static · b)

/-- Rows 2x, 6x, Ax of the map. -/
def decRow2 (mm op : Nat) (seg : Bool) (w0 w1 w2 : Word) : Dec :=
  let a := nib1 w0
  let d := nib0 w0
  match op with
  | 0x20 => decLd mm seg 8 a w1 w2 (.ldb d)
  | 0x21 => decLd mm seg 16 a w1 w2 (.ld d)
  | 0x22 => decBit mm seg a d w1 w2 .resbStatic .resbDyn
  | 0x23 => decBit mm seg a d w1 w2 .resStatic .resDyn
  | 0x24 => decBit mm seg a d w1 w2 .setbStatic .setbDyn
  | 0x25 => decBit mm seg a d w1 w2 .setStatic .setDyn
  | 0x26 => decBit mm seg a d w1 w2 .bitbStatic .bitbDyn
  | 0x27 => decBit mm seg a d w1 w2 .bitStatic .bitDyn
  | 0x28 => decLoc mm seg a w1 w2 (.incb · d)
  | 0x29 => decLoc mm seg a w1 w2 (.inc · d)
  | 0x2A => decLoc mm seg a w1 w2 (.decb · d)
  | 0x2B => decLoc mm seg a w1 w2 (.dec · d)
  | 0x2C => decLoc mm seg a w1 w2 (.exb d)
  | 0x2D => decLoc mm seg a w1 w2 (.ex d)
  | 0x2E => if mm = 2 then .ok (.tccb d a) else decMem mm seg a w1 w2 (fun o => .ldbStore (.mem o) d)
  | _ => if mm = 2 then .ok (.tcc d a) else decMem mm seg a w1 w2 (fun o => .ldStore (.mem o) d)

/-- BA when the field is nonzero, RA when it is zero (R105). -/
def decBaRa (a : BitVec 4) (ba ra : Instr) : Dec := .ok (if a = 0 then ra else ba)

/-- BX: the base field must not be zero (R112). -/
def decBx (a : BitVec 4) (w1 : Word) (k : BitVec 4 → Instr) : Dec :=
  if a = 0 then .error .zeroField else withField2 w1 (fun x => .ok (k x))

/-- Row 3x of the map (R125). -/
def decRow3 (op : Nat) (w0 w1 : Word) : Dec :=
  let a := nib1 w0
  let d := nib0 w0
  match op with
  | 0x30 => decBaRa a (.ldb d (.mem (.ba a w1))) (.ldrb d w1)
  | 0x31 => decBaRa a (.ld d (.mem (.ba a w1))) (.ldr d w1)
  | 0x32 => decBaRa a (.ldbStore (.ba a w1) d) (.ldrbStore w1 d)
  | 0x33 => decBaRa a (.ldStore (.ba a w1) d) (.ldrStore w1 d)
  | 0x34 => decBaRa a (.lda d (.ba a w1)) (.ldar d w1)
  | 0x35 => decBaRa a (.ldl d (.mem (.ba a w1))) (.ldrl d w1)
  | 0x36 => .ok (.rsvd w0)
  | 0x37 => decBaRa a (.ldlStore (.ba a w1) d) (.ldrlStore w1 d)
  | 0x38 => .ok (.rsvd w0)
  | 0x39 => if d = 0 then withIr a (fun o => .ok (.ldps o)) else .error .mustBeZero
  | 0x3A => decTable3b a d w1
  | 0x3B => decTable3w a d w1
  | 0x3C => withIr a (fun _ => .ok (.inb d (.ir a)))
  | 0x3D => withIr a (fun _ => .ok (.inw d (.ir a)))
  | 0x3E => withIr a (fun _ => .ok (.outb (.ir a) d))
  | _ => withIr a (fun _ => .ok (.outw (.ir a) d))

/-- Row 7x of the map (R126). -/
def decRow7 (op : Nat) (seg : Bool) (w0 w1 w2 : Word) : Dec :=
  let a := nib1 w0
  let d := nib0 w0
  match op with
  | 0x30 => decBx a w1 (fun x => .ldb d (.mem (.bx a x)))
  | 0x31 => decBx a w1 (fun x => .ld d (.mem (.bx a x)))
  | 0x32 => decBx a w1 (fun x => .ldbStore (.bx a x) d)
  | 0x33 => decBx a w1 (fun x => .ldStore (.bx a x) d)
  | 0x34 => decBx a w1 (fun x => .lda d (.bx a x))
  | 0x35 => decBx a w1 (fun x => .ldl d (.mem (.bx a x)))
  | 0x36 => withAdr seg w1 w2 (fun adr _ => .ok (if a = 0 then .lda d (.da adr) else .lda d (.x adr a)))
  | 0x37 => decBx a w1 (fun x => .ldlStore (.bx a x) d)
  | 0x38 => .ok (.rsvd w0)
  | 0x39 => if d = 0 then withDaX seg a w1 w2 (fun o _ => .ok (.ldps o)) else .error .mustBeZero
  | 0x3A => if d = 0 then zeroField a .halt else .error .mustBeZero
  | 0x3B => decTable6 a d
  | 0x3C => decEiDi a d
  | 0x3D => decTable7 a d
  | 0x3E => .ok (.rsvd w0)
  | _ => .ok (.sc (loByte w0))

/-- Row Bx of the map (R127). -/
def decRowB (op : Nat) (w0 w1 : Word) : Dec :=
  let a := nib1 w0
  let d := nib0 w0
  match op with
  | 0x30 => if d = 0 then .ok (.dab a) else .error .reserved
  | 0x31 =>
    if d = 0 then .ok (.extsb a) else if d = 7 then .ok (.extsl a) else if d = 10 then .ok (.exts a)
    else .error .reserved
  | 0x32 => decTable4b a d w1
  | 0x33 => decTable4w a d w1
  | 0x34 => .ok (.adcb d a)
  | 0x35 => .ok (.adc d a)
  | 0x36 => .ok (.sbcb d a)
  | 0x37 => .ok (.sbc d a)
  | 0x38 => decTable5t a d w1
  | 0x39 => .ok (.rsvd w0)
  | 0x3A => decTable5b a d w1
  | 0x3B => decTable5w a d w1
  | 0x3C => .ok (.rrdb d a)
  | 0x3D => .ok (.ldk a d)
  | 0x3E => .ok (.rldb d a)
  | _ => .ok (.rsvd w0)

/-- Rows Cx to Fx of the map (R127): the compact formats of mode bits 11 (R102). -/
def decCompact (w0 : Word) : Dec :=
  match (nib3 w0).toNat with
  | 0xC => .ok (.ldbCompact (nib2 w0) (loByte w0))
  | 0xD => .ok (.calr (w0.extractLsb' 0 12))
  | 0xE => .ok (.jr (nib2 w0) (loByte w0))
  | _ =>
    if w0.getLsbD 7 then .ok (.djnz (nib2 w0) (w0.extractLsb' 0 7)) else .ok (.dbjnz (nib2 w0) (w0.extractLsb' 0 7))

/-- The instruction of the words by the op code map (R125 to R140), before the conditions on its registers. -/
def decodeRaw (m : EpaMap) (seg : Bool) (w0 w1 w2 w3 : Word) : Dec :=
  let mm := (fMode w0).toNat
  let op := (fOp w0).toNat
  if mm = 3 then decCompact w0
  else if op < 0x10 then decRow0 m mm op seg w0 w1 w2 w3
  else if op < 0x20 then decRow1 mm op seg w0 w1 w2 w3
  else if op < 0x30 then decRow2 mm op seg w0 w1 w2
  else if mm = 0 then decRow3 op w0 w1
  else if mm = 1 then decRow7 op seg w0 w1 w2
  else decRowB op w0 w1

/-- Refuses an instruction whose registers or counts the spec forbids (WellFormed.lean). -/
def accept (m : EpaMap) (seg : Bool) (i : Instr) : Dec :=
  match i.ill m seg with
  | none => .ok i
  | some r => .error r

/-- The instruction four words begin with (R137); `seg` is segmented mode. No instruction is longer (R100). -/
def decode (m : EpaMap) (seg : Bool) (w0 w1 w2 w3 : Word) : Dec :=
  match decodeRaw m seg w0 w1 w2 w3 with
  | .error r => .error r
  | .ok i => accept m seg i

/-! ## Lengths (R101) -/

/-- Words of an address whose first word is v. -/
def adrCount (seg : Bool) (v : Word) : Nat := if seg && v.getLsbD 15 then 2 else 1

/-- Words of an instruction with one op code word: k words more with mode bits 00 and field 0, the address words with
mode bits 01. -/
def countF (mm : Nat) (seg : Bool) (a : BitVec 4) (w1 : Word) (k : Nat) : Nat :=
  if mm = 0 ∧ a = 0 then 1 + k else if mm = 1 then 1 + adrCount seg w1 else 1

/-- Words of Table 1 (R128): k words of an immediate follow the address for nibbles 1 and 5; PUSH of an immediate. -/
def countTable1 (mm : Nat) (seg word : Bool) (b : BitVec 4) (w1 : Word) : Nat :=
  if mm = 2 then 1
  else if b = 1 ∨ b = 5 then (if mm = 1 then 2 + adrCount seg w1 else 2)
  else if b = 9 then (if word ∧ mm = 0 then 2 else 1)
  else if mm = 1 ∧ b ∈ [0#4, 2, 4, 6, 8] then 1 + adrCount seg w1 else 1

/-- Words of an instruction with two op code words and a memory operand, the address after them. -/
def countTwo (mm : Nat) (seg : Bool) (w2 : Word) : Nat := if mm = 1 then 2 + adrCount seg w2 else 2

/-- How many words the first words of an instruction call for (R101): fixed by the first word and, for an address in
segmented mode, by bit 15 of its first word. A reserved first word calls for no more; an extended upper byte calls for
the two words every template has (49_extended_epa.md R421). -/
def wordsOf (seg : Bool) (w0 w1 w2 : Word) : Nat :=
  let mm := (fMode w0).toNat
  let op := (fOp w0).toNat
  let a := nib1 w0
  let b := nib0 w0
  if mm = 3 then 1
  else if op < 0x0C then countF mm seg a w1 1
  else if op < 0x0E then countTable1 mm seg (op == 0x0D) b w1
  else if op < 0x10 then countTwo mm seg w2
  else if op ∈ [0x11, 0x13, 0x15, 0x17] then countF mm seg a w1 0
  else if op ∈ [0x19, 0x1B] then countF mm seg a w1 1
  else if op < 0x1C then countF mm seg a w1 2
  else if op = 0x1C then
    if mm = 2 then 1 else if b = 1 ∨ b = 9 then countTwo mm seg w2
    else if b = 8 then countF mm seg a w1 0 else 1
  else if op < 0x20 then countF mm seg a w1 0
  else if op < 0x28 then countF mm seg a w1 1
  else if op < 0x30 then countF mm seg a w1 0
  else if mm = 0 then
    if op ∈ [0x30, 0x31, 0x32, 0x33, 0x34, 0x35, 0x37] ∨ (op ∈ [0x3A, 0x3B] ∧ b.toNat < 12) then 2 else 1
  else if mm = 1 then
    if op ∈ [0x30, 0x31, 0x32, 0x33, 0x34, 0x35, 0x37] then 2
    else if op ∈ [0x36, 0x39] then 1 + adrCount seg w1 else 1
  else
    if (op = 0x32 ∧ b ∈ [1#4, 3, 9, 11]) ∨ (op = 0x33 ∧ b.getLsbD 0) ∨ (op = 0x38 ∧ !b.getLsbD 0) ∨
        (op ∈ [0x3A, 0x3B] ∧ b ∈ [0#4, 1, 2, 4, 6, 8, 9, 10, 12, 14]) then 2 else 1

/-- How many words the template of a first word has, the address words among them, whatever is wrong with its other
fields; none where it belongs to no template (49_extended_epa.md R421, 60_exceptions.md R441; log entry 5). -/
def templateWords (m : EpaMap) (seg : Bool) (w0 w2 : Word) : Option Nat :=
  match m.template w0 with
  | none => none
  | some .memFromEpu => if fMode w0 = 2 then none else some (countTwo (fMode w0).toNat seg w2)
  | some .epuFromMem => if fMode w0 = 2 then none else some (countTwo (fMode w0).toNat seg w2)
  | some _ => if fMode w0 = 2 then some 2 else none

/-- The word of two bytes, high byte first (20_memory.md R65). -/
def wordOf (hi lo : Byte) : Word := hi ++ lo

/-- Word k of a list of bytes, as if zeros followed it. -/
def wordAtByte (bs : List Byte) (k : Nat) : Word := wordOf (bs.getD (2 * k) 0) (bs.getD (2 * k + 1) 0)

/-- The instruction a list of bytes begins with, and the bytes after it. Any list of bytes has an answer. -/
def decodeBytes (m : EpaMap) (seg : Bool) (bs : List Byte) : Except Reject (Instr × List Byte) :=
  if bs.length < 2 then .error .truncated
  else match decode m seg (wordAtByte bs 0) (wordAtByte bs 1) (wordAtByte bs 2) (wordAtByte bs 3) with
    | .error r => .error r
    | .ok i =>
      if bs.length < 2 * (encode i).length then .error .truncated else .ok (i, bs.drop (2 * (encode i).length))

/-- Word k of a row of the op code table. The table writes the first word of a row in its HIGH bits
(spec/opcode_table.json: `fixed` of a 32-bit row gives the first word the bits 31 to 16), so the first word is
bits nbits-1 to nbits-16 (log entry 50). -/
def tableWord (nbits w k : Nat) : Word := BitVec.ofNat 16 ((w <<< (16 * k)) >>> (nbits - 16))

/-- The instruction the decoder reads from a row of the op code table; words above the row are zero, and the mode
is nonsegmented, that of the table's rows. -/
def decodeTableWord (nbits w : Nat) : Option Instr :=
  match decodeBytes EpaMap.default false
      ((List.range 4).flatMap (fun k => [hiByte (tableWord nbits w k), loByte (tableWord nbits w k)])) with
  | .ok (i, _) => some i
  | .error _ => none

end Sys2Proof
end

