-- ==== Sys2Proof/Machine/Ops.lean ====
section
/-!
DEFINITION. Sys2Proof/Machine/Ops.lean: the named operations over registers, memory, the FCW, the stack and the
outside, and taking an exception and returning from one. Every meaning is written over these.
-/
namespace Sys2Proof

/-- Address arithmetic: on the offset alone, modulo 2^16 (20_memory.md R64). -/
def Addr.plus (a : Addr) (k : Word) : Addr := { a with off := a.off + k }

namespace Machine

/-! ## Variant and mode -/

/-- VARIANT is Z8001. -/
def State.isZ8001 (s : State) : Bool := s.params.variant == .z8001

/-- Segmented mode: a Z8001 with FCW.SEG = 1 (10_state.md R28). -/
def State.segmented (s : State) : Bool := s.isZ8001 && s.fcw.seg

/-! ## Memory -/

/-- The storage a space is mapped to (SPACE_MAP, 20_memory.md R61). -/
def storageOf (m : SpaceMap) : Space → Nat
  | ⟨.prog, true⟩ => m.progSystem
  | ⟨.prog, false⟩ => m.progNormal
  | ⟨.data, true⟩ => m.dataSystem
  | ⟨.data, false⟩ => m.dataNormal
  | ⟨.stack, true⟩ => m.stackSystem
  | ⟨.stack, false⟩ => m.stackNormal

/-- The key of a byte: storage, segment number, offset. -/
def State.key (s : State) (sp : Space) (a : Addr) : Nat :=
  storageOf s.params.spaceMap sp * 2 ^ 23 + a.seg.toNat * 2 ^ 16 + a.off.toNat

/-- What a byte that nothing has written reads as: DESIGN CHOICE, unsafe (log entry 8). -/
def unlistedByte : Byte := 0

/-- The byte at a key. -/
def memRead : List Host.Cell → Nat → Byte
  | [], _ => unlistedByte
  | (a, v) :: rest, k => if a = k then v else memRead rest k

/-- The cells without those of a key. -/
def memErase (m : List Host.Cell) (k : Nat) : List Host.Cell := m.filter (fun c => c.1 != k)

/-- A cell put at its place in the rising order. -/
def memInsert : List Host.Cell → Nat → Byte → List Host.Cell
  | [], k, v => [(k, v)]
  | (a, w) :: rest, k, v => if k < a then (k, v) :: (a, w) :: rest else (a, w) :: memInsert rest k v

/-- The memory after a byte is stored: the value an unlisted byte reads as removes the entry. -/
def memWrite (m : List Host.Cell) (k : Nat) (v : Byte) : List Host.Cell :=
  if v = unlistedByte then memErase m k else memInsert (memErase m k) k v

/-- The canonical form: keys strictly rising, no entry equal to what an unlisted byte reads as. -/
abbrev Memory.wf (m : List Host.Cell) : Prop :=
  m.Pairwise (fun x y => x.1 < y.1) ∧ ∀ c ∈ m, c.2 ≠ unlistedByte

/-- MemRead of one byte (20_memory.md R66). -/
def State.byteAt (s : State) (sp : Space) (a : Addr) : Byte := memRead s.mem (s.key sp a)

/-- MemWrite of one byte. -/
def State.putByte (s : State) (sp : Space) (a : Addr) (v : Byte) : State :=
  { s with mem := memWrite s.mem (s.key sp a) v }

/-- MemRead of a word: the high byte at the address (20_memory.md R65, R66). -/
def State.wordAt (s : State) (sp : Space) (a : Addr) : Word := wordOf (s.byteAt sp a) (s.byteAt sp (a.plus 1))

/-- MemWrite of a word. -/
def State.putWord (s : State) (sp : Space) (a : Addr) (v : Word) : State :=
  (s.putByte sp a (hiByte v)).putByte sp (a.plus 1) (loByte v)

/-- The high word of a long word. -/
def hiWord (v : Long) : Word := v.extractLsb' 16 16
/-- The low word of a long word. -/
def loWord (v : Long) : Word := v.extractLsb' 0 16

/-- MemRead of a long word: the high word at the address (R66). -/
def State.longAt (s : State) (sp : Space) (a : Addr) : Long := s.wordAt sp a ++ s.wordAt sp (a.plus 2)

/-- MemWrite of a long word: lower address first (R66, D46). -/
def State.putLong (s : State) (sp : Space) (a : Addr) (v : Long) : State :=
  (s.putWord sp a (hiWord v)).putWord sp (a.plus 2) (loWord v)

/-- MemRead of n bits, n = 8, 16 or 32. -/
def State.readMem (s : State) (n : Nat) (sp : Space) (a : Addr) : BitVec n :=
  if n = 8 then (s.byteAt sp a).setWidth n
  else if n = 16 then (s.wordAt sp a).setWidth n
  else (s.longAt sp a).setWidth n

/-- MemWrite of n bits, n = 8, 16 or 32. -/
def State.putMem (s : State) {n : Nat} (sp : Space) (a : Addr) (v : BitVec n) : State :=
  if n = 8 then s.putByte sp a (v.setWidth 8)
  else if n = 16 then s.putWord sp a (v.setWidth 16)
  else s.putLong sp a (v.setWidth 32)

/-- Words put at successive addresses, in order. -/
def State.putWords (s : State) (sp : Space) (a : Addr) : List Word → State
  | [] => s
  | w :: ws => (s.putWord sp a w).putWords sp (a.plus 2) ws

/-- Goes on when every address of a word or long access is even; an odd one stops (20_memory.md R69). -/
def checked (as : List Addr) (k : Out) : Out :=
  if as.all (fun a => !a.off.getLsbD 0) then k else .fault .oddAddress

/-- The addresses that must be even for an access of n bits. -/
def evens (n : Nat) (a : Addr) : List Addr := if n = 8 then [] else [a]

/-- The data space of the current mode (20_memory.md R62). -/
def State.dataSp (s : State) : Space := ⟨.data, s.fcw.sn⟩
/-- The stack space of the current mode. -/
def State.stackSp (s : State) : Space := ⟨.stack, s.fcw.sn⟩
/-- The program space of the current mode. -/
def State.progSp (s : State) : Space := ⟨.prog, s.fcw.sn⟩

/-! ## Registers -/

/-- Where a word register is held: R15, and on a Z8001 R14, have a system copy (10_state.md R22). -/
def State.phys (s : State) (r : RegNo) : Fin 18 :=
  if r = 15 ∧ s.fcw.sn = true then 17
  else if r = 14 ∧ s.fcw.sn = true ∧ s.isZ8001 = true then 16
  else ⟨r.toNat, by have := r.isLt; omega⟩

/-- R[r] (10_state.md R20). -/
def State.regW (s : State) (r : RegNo) : Word := s.regs.get (s.phys r)

/-- R[r] <- v. -/
def State.setRegW (s : State) (r : RegNo) (v : Word) : State :=
  { s with regs := s.regs.set (s.phys r).val v (s.phys r).isLt }

/-- RB[r]: codes 0 to 7 are the high bytes, 8 to 15 the low bytes of R0 to R7 (10_state.md R21). -/
def State.regB (s : State) (r : RegNo) : Byte :=
  if r.getLsbD 3 then loByte (s.regW (byteHome r)) else hiByte (s.regW (byteHome r))

/-- RB[r] <- v: the other half of the word register keeps its value. -/
def State.setRegB (s : State) (r : RegNo) (v : Byte) : State :=
  s.setRegW (byteHome r)
    (if r.getLsbD 3 then wordOf (hiByte (s.regW (byteHome r))) v else wordOf v (loByte (s.regW (byteHome r))))

/-- RR[r]: R[r] is the high word (10_state.md R21). -/
def State.regL (s : State) (r : RegNo) : Long := s.regW r ++ s.regW (r + 1)

/-- RR[r] <- v. -/
def State.setRegL (s : State) (r : RegNo) (v : Long) : State :=
  (s.setRegW r (hiWord v)).setRegW (r + 1) (loWord v)

/-- RQ[r] (10_state.md R21). -/
def State.regQ (s : State) (r : RegNo) : Quad := s.regL r ++ s.regL (r + 2)

/-- RQ[r] <- v. -/
def State.setRegQ (s : State) (r : RegNo) (v : Quad) : State :=
  (s.setRegL r (v.extractLsb' 32 32)).setRegL (r + 2) (v.extractLsb' 0 32)

/-- A register operand of n bits, n = 8, 16, 32 or 64. -/
def State.reg (s : State) (n : Nat) (r : RegNo) : BitVec n :=
  if n = 8 then (s.regB r).setWidth n
  else if n = 16 then (s.regW r).setWidth n
  else if n = 32 then (s.regL r).setWidth n
  else (s.regQ r).setWidth n

/-- A register operand of n bits is written. -/
def State.setReg (s : State) {n : Nat} (r : RegNo) (v : BitVec n) : State :=
  if n = 8 then s.setRegB r (v.setWidth 8)
  else if n = 16 then s.setRegW r (v.setWidth 16)
  else if n = 32 then s.setRegL r (v.setWidth 32)
  else s.setRegQ r (v.setWidth 64)

/-- Word registers r, r+1, … read in order, R0 after R15 (45_load_exchange.md R322). -/
def State.regRun (s : State) (r : RegNo) (k : Nat) : List Word :=
  (List.range k).map (fun i => s.regW (r + BitVec.ofNat 4 i))

/-- Word registers r, r+1, … written in order, R0 after R15. -/
def State.setRegRun (s : State) (r : RegNo) : List Word → State
  | [] => s
  | w :: ws => (s.setRegW r w).setRegRun (r + 1) ws

/-- AddrReg(r) (00_scope.md R11): a pair in segmented mode, else a word register, with the segment of the PC
(20_memory.md R63). -/
def State.addrReg (s : State) (r : RegNo) : Addr :=
  if s.segmented then ⟨segField (s.regW r), s.regW (r + 1)⟩ else ⟨s.pc.seg, s.regW r⟩

/-- The word register that holds the offset of AddrReg(r). -/
def State.offReg (s : State) (r : RegNo) : RegNo := if s.segmented then r + 1 else r

/-- AddrReg(r) <- AddrReg(r) + k: the offset alone changes (00_scope.md R11). -/
def State.stepReg (s : State) (r : RegNo) (k : Word) : State :=
  s.setRegW (s.offReg r) (s.regW (s.offReg r) + k)

/-! ## Undefined values -/

/-- `undef_1` of this step. -/
def State.undef1 (s : State) (slot : Slot) : Bool := Config.freeBit s.draws slot
/-- `undef_8` of this step. -/
def State.undef8 (s : State) (slot : Slot) : Byte := Config.freeByte s.draws slot
/-- `undef_16` of this step. -/
def State.undef16 (s : State) (slot : Slot) : Word := Config.freeWord s.draws slot

/-! ## Program counter -/

/-- The PC moved past n instruction words (10_state.md R26). -/
def State.skip (s : State) (n : Nat) : State := { s with pc := s.pc.plus (BitVec.ofNat 16 (2 * n)) }

/-- A branch: in nonsegmented mode the offset alone is replaced (47_program_control.md R370 d). -/
def State.jump (s : State) (t : Addr) : State :=
  { s with pc := if s.segmented then t else { s.pc with off := t.off } }

/-! ## The Flag and Control Word -/

/-- The fields of an FCW word (10_state.md R27); the unused bits are dropped (R29). -/
def Fcw.ofWord (w : Word) : Fcw :=
  ⟨w.getLsbD 15, w.getLsbD 14, w.getLsbD 13, w.getLsbD 12, w.getLsbD 11,
   w.getLsbD 7, w.getLsbD 6, w.getLsbD 5, w.getLsbD 4, w.getLsbD 3, w.getLsbD 2⟩

/-- The flag byte: C Z S P/V D H in bits 7 to 2, the unused bits from `u` (R27, R29, R34). -/
def Fcw.flagByte (f : Fcw) (u : Word) : Byte :=
  BitVec.ofBool f.c ++ BitVec.ofBool f.z ++ BitVec.ofBool f.s ++ BitVec.ofBool f.pv ++ BitVec.ofBool f.d ++
    BitVec.ofBool f.h ++ u.extractLsb' 0 2

/-- The control byte: SEG S/N EPA VIE NVIE in bits 15 to 11, the unused bits from `u`. -/
def Fcw.controlByte (f : Fcw) (u : Word) : Byte :=
  BitVec.ofBool f.seg ++ BitVec.ofBool f.sn ++ BitVec.ofBool f.epa ++ BitVec.ofBool f.vie ++
    BitVec.ofBool f.nvie ++ u.extractLsb' 8 3

/-- The FCW as a word, the unused bits from `u`. -/
def Fcw.toWord (f : Fcw) (u : Word) : Word := wordOf (f.controlByte u) (f.flagByte u)

/-- The six flags taken from bits 7 to 2 of a byte (43_cpu_control.md R249). -/
def Fcw.withFlagByte (f : Fcw) (b : Byte) : Fcw :=
  { f with c := b.getLsbD 7, z := b.getLsbD 6, s := b.getLsbD 5, pv := b.getLsbD 4, d := b.getLsbD 3,
           h := b.getLsbD 2 }

/-- The FCW as it is read: unused bits undefined (10_state.md R29). -/
def State.fcwWord (s : State) : Word := s.fcw.toWord (s.undef16 .fcwUnused)

/-- Loads an FCW word: bit 15 on a Z8002 stops (43_cpu_control.md R248 a, D3). -/
def State.loadFcw (s : State) (w : Word) (k : Fcw → Out) : Out :=
  if !s.isZ8001 && w.getLsbD 15 then .fault .segBitOnZ8002 else k (Fcw.ofWord w)

/-- The state with its FCW replaced. -/
def State.withFcw (s : State) (f : Fcw) : State := { s with fcw := f }

/-! ## Stack and return addresses -/

/-- The implied stack pointer of the current mode (47_program_control.md R370 b). -/
def State.sp (s : State) : Addr :=
  if s.segmented then ⟨segField (s.regW 14), s.regW 15⟩ else ⟨s.pc.seg, s.regW 15⟩

/-- A segment word the CPU writes: bits 15 and 7:0 undefined (47_program_control.md R370 c). -/
def State.segWord (s : State) (slot : Slot) (seg : BitVec 7) : Word :=
  (s.undef16 slot).extractLsb' 15 1 ++ seg ++ loByte (s.undef16 slot)

/-- The bytes of a return address: 2, or 4 in segmented mode. -/
def State.retSize (s : State) : Word := if s.segmented then 4 else 2

/-! ## The outside -/

/-- A transaction is recorded. -/
def State.record (s : State) (e : BusEvent) : State := { s with busLog := e :: s.busLog }

/-- The next word the outside puts on the bus, the i-th of this step; undefined where its script has ended. -/
def State.busWord (s : State) (i : Nat) : Word := s.env.busIn.getD 0 (s.undef16 (.bus i))

/-- A word is taken from the script. -/
def State.dropBus (s : State) : State := { s with env := { s.env with busIn := s.env.busIn.drop 1 } }

/-- The level of MI at the k-th test of this step, true for Low (60_exceptions.md R492). -/
def State.miAt (s : State) (k : Nat) : Bool := s.env.miLow.getD k (s.undef1 (.mi k))

/-- k levels of MI are taken from the script. -/
def State.dropMi (s : State) (k : Nat) : State :=
  { s with env := { s.env with miLow := s.env.miLow.drop k } }

/-! ## Refresh and CPU states -/

/-- k refresh cycles: ROW advances by two for each (60_exceptions.md R486). -/
def State.refreshCycles (s : State) (k : Nat) : State :=
  { s with refresh := { s.refresh with row := s.refresh.row + BitVec.ofNat 9 (2 * k) } }

/-- A bus grant: up to two elapsed refresh periods are recorded if periodic refresh is enabled (R487), and the
other bus masters write (R491, 20_memory.md R80). -/
def State.grantBus (s : State) (elapsed : Nat) (writes : List Host.Cell) : State :=
  { s with
    skipped := if s.refresh.re then min 2 (s.skipped + elapsed) else s.skipped
    mem     := writes.foldl (fun m c => memWrite m c.1 c.2) s.mem
    busLog  := .busGranted writes :: s.busLog }

/-- The CPU has the bus again: the skipped refresh cycles are issued (R487). -/
def State.regainBus (s : State) : State := { s.refreshCycles s.skipped with skipped := 0 }

/-- The CPU while RESET is active (70_reset_and_hazards.md R500, 10_state.md R41): memory keeps its contents, what R41
leaves unspecified takes the values of log entry 6, and the reset reads are to come. The parameters, the record and the
script are not part of the CPU. -/
def State.resetState (s : State) : State :=
  { State.reset with
    params := s.params, mem := s.mem, busLog := s.busLog, env := s.env, draws := s.draws, resetDue := true }

/-- RESET held Low for that many clocks (R500): fewer than five are no proper reset. -/
def State.onReset (s : State) (clocks : Nat) : Out := if clocks < 5 then .fault .shortReset else .next s.resetState

/-! ## Transactions

A meaning is a sequence of transactions: each operation here makes one, or a few at successive addresses, and goes on
with `k`. Before each one comes what the environment's script has for it (20_memory.md R80, 70_reset_and_hazards.md
R500). -/

/-- The action of the environment is consumed. -/
def State.popBus (s : State) : State := { s with env := { s.env with bus := s.env.bus.tail } }

/-- The point before a transaction: a bus grant changes memory and is over, a reset abandons what is under way. -/
def State.turn (s : State) (k : State → Out) : Out :=
  match s.env.bus with
  | [] => k s
  | .grant elapsed writes :: _ => k (s.popBus.grantBus elapsed writes).regainBus
  | .reset clocks :: _ => s.popBus.onReset clocks
  | .pass :: _ => k s.popBus
  | .stop :: _ => k s.popBus

/-- The point between the read and the write of TSET: the bus is not granted there (20_memory.md R82), so what the
script has for it waits; a reset does not. -/
def State.lockedTurn (s : State) (k : State → Out) : Out :=
  match s.env.bus with
  | .reset clocks :: _ => s.popBus.onReset clocks
  | _ => k s

/-- A byte is read from memory. -/
def State.loadByte (s : State) (sp : Space) (a : Addr) (k : Byte → State → Out) : Out :=
  s.turn (fun t => k (t.byteAt sp a) (t.record (.memRead sp true a ((t.byteAt sp a).setWidth 16))))

/-- A word is read from memory. -/
def State.loadWord (s : State) (sp : Space) (a : Addr) (k : Word → State → Out) : Out :=
  s.turn (fun t => k (t.wordAt sp a) (t.record (.memRead sp false a (t.wordAt sp a))))

/-- n bits are read from memory, n = 8, 16 or 32; a long word as two words, the lower address first (R66, D46). -/
def State.load (s : State) (n : Nat) (sp : Space) (a : Addr) (k : BitVec n → State → Out) : Out :=
  if n = 8 then s.loadByte sp a (fun v t => k (v.setWidth n) t)
  else if n = 16 then s.loadWord sp a (fun v t => k (v.setWidth n) t)
  else s.loadWord sp a (fun h t => t.loadWord sp (a.plus 2) (fun l u => k ((h ++ l).setWidth n) u))

/-- Words are read at successive addresses. -/
def State.loadWords (s : State) (sp : Space) (a : Addr) : Nat → (List Word → State → Out) → Out
  | 0, k => k [] s
  | n + 1, k => s.loadWord sp a (fun w t => t.loadWords sp (a.plus 2) n (fun ws u => k (w :: ws) u))

/-- The state after a byte was written by the CPU. -/
def State.wroteByte (s : State) (sp : Space) (a : Addr) (v : Byte) : State :=
  (s.putByte sp a v).record (.memWrite sp true a (v.setWidth 16))

/-- The state after a word was written by the CPU. -/
def State.wroteWord (s : State) (sp : Space) (a : Addr) (v : Word) : State :=
  (s.putWord sp a v).record (.memWrite sp false a v)

/-- A word is written to memory. -/
def State.storeWord (s : State) (sp : Space) (a : Addr) (v : Word) (k : State → Out) : Out :=
  s.turn (fun t => k (t.wroteWord sp a v))

/-- n bits are written to memory, n = 8, 16 or 32; a long word as two words, the lower address first (R66, D46). -/
def State.store (s : State) {n : Nat} (sp : Space) (a : Addr) (v : BitVec n) (k : State → Out) : Out :=
  if n = 8 then s.turn (fun t => k (t.wroteByte sp a (v.setWidth 8)))
  else if n = 16 then s.storeWord sp a (v.setWidth 16) k
  else s.storeWord sp a (hiWord (v.setWidth 32)) (fun t => t.storeWord sp (a.plus 2) (loWord (v.setWidth 32)) k)

/-- The write of TSET: 8 or 16 bits, with no bus grant before it (R82). -/
def State.storeLocked (s : State) {n : Nat} (sp : Space) (a : Addr) (v : BitVec n) (k : State → Out) : Out :=
  s.lockedTurn (fun t => k (if n = 8 then t.wroteByte sp a (v.setWidth 8) else t.wroteWord sp a (v.setWidth 16)))

/-- Words are written at successive addresses, in order. -/
def State.storeWords (s : State) (sp : Space) (a : Addr) : List Word → (State → Out) → Out
  | [], k => k s
  | w :: ws, k => s.storeWord sp a w (fun t => t.storeWords sp (a.plus 2) ws k)

/-- Words are written at falling addresses below one, in order. -/
def State.pushWords (s : State) (sp : Space) (a : Addr) : List Word → (State → Out) → Out
  | [], k => k s
  | w :: ws, k => s.storeWord sp (a.plus (-2)) w (fun t => t.pushWords sp (a.plus (-2)) ws k)

/-- A return address is pushed on the current stack (47_program_control.md R371). -/
def State.pushReturn (s : State) (a : Addr) (k : State → Out) : Out :=
  let sp := s.sp.plus (-s.retSize)
  (s.setRegW 15 sp.off).storeWords s.stackSp sp
    (if s.segmented then [s.segWord .segWord a.seg, a.off] else [a.off]) k

/-- The return address on top of the current stack is read (47_program_control.md R377). -/
def State.loadReturn (s : State) (k : Addr → State → Out) : Out :=
  if s.segmented then
    s.loadWord s.stackSp s.sp (fun g t => t.loadWord s.stackSp (s.sp.plus 2) (fun o u => k ⟨segField g, o⟩ u))
  else s.loadWord s.stackSp s.sp (fun o t => k ⟨s.pc.seg, o⟩ t)

/-! ## Exceptions -/

/-- Byte offset of an exception's block in the Program Status Area (60_exceptions.md R460). For VI it is the
offset of the FCW's block; its PCs lie where R461 says. -/
def blockOffset (z8001 : Bool) : Exc → Word
  | .extendedInstruction => if z8001 then 0x08 else 4
  | .privilegedInstruction => if z8001 then 0x10 else 8
  | .systemCall => if z8001 then 0x18 else 12
  | .segmentTrap => if z8001 then 0x20 else 16
  | .nmi => if z8001 then 0x28 else 20
  | .nvi => if z8001 then 0x30 else 24
  | .vi => if z8001 then 0x38 else 28

/-- Base of the Program Status Area: the low byte of the pointer reads as zero (60_exceptions.md R460). -/
def State.psa (s : State) : Addr :=
  ⟨if s.isZ8001 then segField s.psapSeg else s.pc.seg, wordOf (hiByte s.psapOff) 0⟩

/-- The system stack pointer: RR14' on a Z8001 whatever FCW.SEG is, R15' on a Z8002 (60_exceptions.md R455). -/
def State.ssp (s : State) : Addr :=
  if s.isZ8001 then ⟨segField (s.regs.get 16), s.regs.get 17⟩ else ⟨s.pc.seg, s.regs.get 17⟩

/-- Bytes of the frame an exception pushes (60_exceptions.md R458). -/
def State.frameSize (s : State) : Word := if s.isZ8001 then 8 else 6

/-- The words of the frame in the order they are pushed (60_exceptions.md R455): PC offset, on a Z8001 the PC segment,
FCW, identifier. -/
def State.frame (s : State) (id : Word) (saved : Addr) : List Word :=
  if s.isZ8001 then [saved.off, s.segWord .segWord saved.seg, s.fcwWord, id] else [saved.off, s.fcwWord, id]

/-- Where the FCW of an exception's block lies (60_exceptions.md R455, R460). -/
def State.newFcwAt (s : State) (k : Exc) : Addr :=
  s.psa.plus (if s.isZ8001 then blockOffset true k + 2 else blockOffset false k)

/-- Where the PC of an exception's block lies: the segment word on a Z8001, the offset on a Z8002. That of a vectored
interrupt is chosen by the vector, the low byte of the identifier (60_exceptions.md R455, R461). -/
def State.newPcAt (s : State) (k : Exc) (id : Word) : Addr :=
  (s.newFcwAt k).plus (2 + if k = .vi then (loByte id).setWidth 16 * 2 else 0)

/-- A program counter is read from memory: on a Z8001 a segment word and an offset word, on a Z8002 an offset. -/
def State.loadPc (s : State) (sp : Space) (a : Addr) (k : Addr → State → Out) : Out :=
  if s.isZ8001 then s.loadWord sp a (fun g t => t.loadWord sp (a.plus 2) (fun o u => k ⟨segField g, o⟩ u))
  else s.loadWord sp a (fun o t => k ⟨s.pc.seg, o⟩ t)

/-- The service routine begins: the sample before it uses the enables of the new FCW (60_exceptions.md R450). -/
def State.serve (s : State) (f : Fcw) (pc : Addr) : State :=
  { s with fcw := f, pc := pc, halted := false, sampleDue := true, sampleVie := f.vie, sampleNvie := f.nvie }

/-- TAKING AN EXCEPTION (60_exceptions.md R455 to R461): the frame is pushed on the system stack, whatever the mode,
and FCW and PC come from the exception's block. -/
def State.enter (s : State) (k : Exc) (id : Word) (saved : Addr) : Out :=
  checked [s.ssp]
    (if s.isZ8001 ∧ k = .vi ∧ id.getLsbD 0 then .fault .oddVector
     else s.pushWords ⟨.stack, true⟩ s.ssp (s.frame id saved) (fun t =>
       State.loadWord { t with regs := t.regs.set 17 (s.ssp.off - s.frameSize) } ⟨.prog, true⟩ (s.newFcwAt k) (fun w u =>
         u.loadPc ⟨.prog, true⟩ (s.newPcAt k id) (fun pc v => v.loadFcw w (fun f => .next (v.serve f pc))))))

/-- RETURNING FROM AN EXCEPTION (47_program_control.md R374): the identifier is read and discarded, FCW and PC are
restored; the stack pointer raised is the system one. Runs in system mode. -/
def State.leave (s : State) : Out :=
  let st : Space := ⟨.stack, true⟩
  if s.isZ8001 ∧ s.fcw.seg = false then .fault .iretNonsegmented
  else checked [s.ssp]
    (s.loadWord st s.ssp (fun _ t => t.loadWord st (s.ssp.plus 2) (fun w u => u.loadPc st (s.ssp.plus 4) (fun pc v =>
      v.loadFcw w (fun f => .next { v with fcw := f, pc := pc, regs := s.regs.set 17 (s.ssp.off + s.frameSize) })))))

/-- A privileged instruction (60_exceptions.md R481): in normal mode it takes the Privileged Instruction Trap, with
the first word as identifier and the address after it as saved PC, before anything else. -/
def privileged (i : Instr) (s : State) (k : Out) : Out :=
  if s.fcw.sn then k else s.enter .privilegedInstruction (firstWord i) (s.pc.plus 2)

/-- The Extended Instruction Trap of a first word w0 whose template has n words, or which belongs to none
(60_exceptions.md R441). For EIT_SAVED_PC = next_instruction a word without a template saves a free offset: the model's
choice (log entry 5). -/
def State.extendedTrap (s : State) (w0 : Word) (n : Option Nat) : Out :=
  s.enter .extendedInstruction w0
    (match s.params.eitSavedPc, n with
     | .secondWord, _ => s.pc.plus 2
     | .nextInstruction, some k => s.pc.plus (BitVec.ofNat 16 (2 * k))
     | .nextInstruction, none => { s.pc with off := s.undef16 .savedPc })

/-! ## Reset -/

/-- The reset reads (70_reset_and_hazards.md R501): FCW and PC come from system program memory, segment 0. No sample
stands before the first instruction. -/
def State.resetReads (s : State) : Out :=
  State.loadWord { s with resetDue := false } ⟨.prog, true⟩ ⟨0, 2⟩ (fun w t =>
    State.loadPc { t with pc := ⟨0, 0⟩ } ⟨.prog, true⟩ ⟨0, 4⟩ (fun pc u =>
      u.loadFcw w (fun f => .next { u with fcw := f, pc := pc, sampleVie := f.vie, sampleNvie := f.nvie })))

end Machine
end Sys2Proof
end

