-- ==== Sys2Proof/Machine/Operands.lean ====
section
/-!
DEFINITION. Sys2Proof/Machine/Operands.lean: the operand forms (30_encoding.md R105 to R116): how many words they
add, which addresses must be even, and how they are read and written.
-/
namespace Sys2Proof

/-! ## Lengths -/

/-- Words of an address (30_encoding.md R109). -/
def Adr.extra : Adr → Nat
  | .ns _ => 1
  | .short _ _ => 1
  | .long _ _ => 2

/-- Words a memory operand adds to the instruction. -/
def Mem.extra : Mem → Nat
  | .ir _ => 0
  | .da a => a.extra
  | .x a _ => a.extra

/-- Words of an immediate of n bits (R107). -/
def immExtra (n : Nat) : Nat := if n = 32 then 2 else 1

/-- Words a general source adds. -/
def Src.extra {n : Nat} : Src n → Nat
  | .reg _ => 0
  | .imm _ => immExtra n
  | .mem m => m.extra

/-- Words a general operand adds. -/
def Loc.extra : Loc → Nat
  | .reg _ => 0
  | .mem m => m.extra

/-- Words a memory operand of LD adds. -/
def LdMem.extra : LdMem → Nat
  | .mem m => m.extra
  | .ba _ _ => 1
  | .bx _ _ => 1

/-- Words a source of LD adds. -/
def LdSrc.extra {n : Nat} : LdSrc n → Nat
  | .reg _ => 0
  | .imm _ => immExtra n
  | .mem m => m.extra

/-- Words a source of LDA adds. -/
def LdaSrc.extra : LdaSrc → Nat
  | .da a => a.extra
  | .x a _ => a.extra
  | .ba _ _ => 1
  | .bx _ _ => 1

/-- Words a port operand adds. -/
def PortOp.extra : PortOp → Nat
  | .ir _ => 0
  | .da _ => 1

/-! ## Effective addresses -/

/-- The address of the address words (R109); in nonsegmented mode with the segment of the PC (20_memory.md R63). -/
def Adr.addr (s : Machine.State) : Adr → Addr
  | .ns off => ⟨s.pc.seg, off⟩
  | .short seg off => ⟨seg, off.setWidth 16⟩
  | .long seg off => ⟨seg, off⟩

/-- The effective address of IR, DA and X (R108 to R110). -/
def Mem.addr (s : Machine.State) : Mem → Addr
  | .ir r => s.addrReg r
  | .da a => a.addr s
  | .x a r => (a.addr s).plus (s.regW r)

/-- The effective address of a memory operand of LD: BA (R111), BX (R112). -/
def LdMem.addr (s : Machine.State) : LdMem → Addr
  | .mem m => m.addr s
  | .ba r disp => (s.addrReg r).plus disp
  | .bx r i => (s.addrReg r).plus (s.regW i)

/-- The effective address LDA loads (45_load_exchange.md R319). -/
def LdaSrc.addr (s : Machine.State) : LdaSrc → Addr
  | .da a => a.addr s
  | .x a r => (a.addr s).plus (s.regW r)
  | .ba r disp => (s.addrReg r).plus disp
  | .bx r i => (s.addrReg r).plus (s.regW i)

/-- The address of an instruction of `words` words plus a displacement (RA, R114). -/
def Machine.State.relative (s : Machine.State) (words : Nat) (disp : Word) : Addr :=
  (s.pc.plus (BitVec.ofNat 16 (2 * words))).plus disp

/-- The port address of IN and OUT (44_input_output.md R275, R277). -/
def PortOp.port (s : Machine.State) : PortOp → Word
  | .ir r => s.regW r
  | .da p => p

/-! ## Reading and writing -/

/-- Addresses a general source of n bits needs even. -/
def Src.evens (s : Machine.State) {n : Nat} : Src n → List Addr
  | .mem m => Machine.evens n (m.addr s)
  | _ => []

/-- A general source is read (R116); memory is in the data space (20_memory.md R62). -/
def Src.fetch (s : Machine.State) {n : Nat} (src : Src n) (k : BitVec n → Machine.State → Machine.Out) : Machine.Out :=
  match src with
  | .reg r => k (s.reg n r) s
  | .imm v => k v s
  | .mem m => s.load n s.dataSp (m.addr s) k

/-- Addresses a general operand of n bits needs even. -/
def Loc.evens (s : Machine.State) (n : Nat) : Loc → List Addr
  | .reg _ => []
  | .mem m => Machine.evens n (m.addr s)

/-- A general operand of n bits is read. -/
def Loc.fetch (s : Machine.State) (n : Nat) (l : Loc) (k : BitVec n → Machine.State → Machine.Out) : Machine.Out :=
  match l with
  | .reg r => k (s.reg n r) s
  | .mem m => s.load n s.dataSp (m.addr s) k

/-- A general operand is written. -/
def Loc.write (s : Machine.State) {n : Nat} (l : Loc) (v : BitVec n) (k : Machine.State → Machine.Out) : Machine.Out :=
  match l with
  | .reg r => k (s.setReg r v)
  | .mem m => s.store s.dataSp (m.addr s) v k

/-- The operand of TSET is written: no bus grant since it was read (20_memory.md R82). -/
def Loc.writeLocked (s : Machine.State) {n : Nat} (l : Loc) (v : BitVec n) (k : Machine.State → Machine.Out) :
    Machine.Out :=
  match l with
  | .reg r => k (s.setReg r v)
  | .mem m => s.storeLocked s.dataSp (m.addr s) v k

/-- Addresses a source of LD needs even. -/
def LdSrc.evens (s : Machine.State) {n : Nat} : LdSrc n → List Addr
  | .mem m => Machine.evens n (m.addr s)
  | _ => []

/-- A source of LD is read. -/
def LdSrc.fetch (s : Machine.State) {n : Nat} (src : LdSrc n) (k : BitVec n → Machine.State → Machine.Out) :
    Machine.Out :=
  match src with
  | .reg r => k (s.reg n r) s
  | .imm v => k v s
  | .mem m => s.load n s.dataSp (m.addr s) k

/-- A one-operand instruction that reads its operand, writes f of it back and replaces the FCW (20_memory.md R82: the
bus can be granted in between). -/
def Machine.State.modify (s : Machine.State) (n : Nat) (dst : Loc) (f : BitVec n → BitVec n × Machine.Fcw) : Machine.Out :=
  Machine.checked (dst.evens s n) (dst.fetch s n (fun v t =>
    dst.write t (f v).1 (fun u => .next ((u.withFcw (f v).2).skip (1 + dst.extra)))))

end Sys2Proof
end

