-- ==== Sys2Proof/Machine/Arithmetic.lean ====
section
/-!
DEFINITION. Sys2Proof/Machine/Arithmetic.lean: the arithmetic instructions (40_arithmetic.md R150 to R165).
-/
namespace Sys2Proof.Machine

/-- A result x goes to register d of n bits with the flags f; `words` is the instruction's length. -/
def State.aluReg (s : State) {n : Nat} (d : RegNo) (x : Alu n) (f : Fcw) (words : Nat) : State :=
  ((s.setReg d x.r).withFcw f).skip words

/-- ADD and its kin with a general source (R152). -/
def State.addSrc (s : State) {n : Nat} (d : RegNo) (src : Src n) : Out :=
  checked (src.evens s) (src.fetch s (fun v t =>
    .next (t.aluReg d (addN (s.reg n d) v false) (s.fcw.arith false (addN (s.reg n d) v false)) (1 + src.extra))))

/-- SUB and its kin with a general source (R165). -/
def State.subSrc (s : State) {n : Nat} (d : RegNo) (src : Src n) : Out :=
  checked (src.evens s) (src.fetch s (fun v t =>
    .next (t.aluReg d (subN (s.reg n d) v false) (s.fcw.arith true (subN (s.reg n d) v false)) (1 + src.extra))))

/-- CP and its kin: the flags of the subtraction alone (R153). -/
def State.compareSrc (s : State) {n : Nat} (d : RegNo) (src : Src n) : Out :=
  checked (src.evens s) (src.fetch s (fun v t =>
    .next ((t.withFcw (s.fcw.czsv (subN (s.reg n d) v false))).skip (1 + src.extra))))

/-- CP of memory with an immediate (R154). -/
def State.compareMem (s : State) {n : Nat} (m : Mem) (v : BitVec n) : Out :=
  checked (evens n (m.addr s)) (s.load n s.dataSp (m.addr s) (fun u t =>
    .next ((t.withFcw (s.fcw.czsv (subN u v false))).skip (2 + m.extra))))

/-- INC (R161): k is the count minus one. -/
def State.increment (s : State) (n : Nat) (dst : Loc) (k : BitVec 4) : Out :=
  s.modify n dst (fun v =>
    let x := addN v (BitVec.ofNat n (k.toNat + 1)) false
    (x.r, s.fcw.zsv x))

/-- DEC (R158): k is the count minus one. -/
def State.decrement (s : State) (n : Nat) (dst : Loc) (k : BitVec 4) : Out :=
  s.modify n dst (fun v =>
    let x := subN v (BitVec.ofNat n (k.toNat + 1)) false
    (x.r, s.fcw.zsv x))

/-- NEG (R163). -/
def State.negate (s : State) (n : Nat) (dst : Loc) : Out :=
  s.modify n dst (fun v =>
    let x := subN 0 v false
    (x.r, s.fcw.czsv x))

/-- C, Z, S and P/V left undefined (R160). -/
def State.undefCzsv (s : State) : Fcw :=
  { s.fcw with c := s.undef1 .carry, z := s.undef1 .zero, s := s.undef1 .sign, pv := s.undef1 .overflow }

/-- The flags of a division with quotient q (R159). -/
def Fcw.quotient (f : Fcw) (q : Int) : Fcw :=
  { f with c := false, z := decide (q = 0), s := decide (q < 0), pv := false }

/-- The flags of a division by zero or with a quotient that does not fit (R159, D16): C, Z, S undefined. -/
def State.undefQuotient (s : State) : Fcw :=
  { s.fcw with c := s.undef1 .carry, z := s.undef1 .zero, s := s.undef1 .sign, pv := true }

/-- The flags of a multiplication of n bits with product p (R162). -/
def Fcw.product (f : Fcw) (n : Nat) (p : Int) : Fcw :=
  { f with c := !fitsSigned n p, z := decide (p = 0), s := decide (p < 0), pv := false }

/-- Two undefined words, high word first. -/
def State.undefLong (s : State) (k : Nat) : Long := s.undef16 (.result k) ++ s.undef16 (.result (k + 1))

/-- ADCB (R151). -/
def execAdcb (d r : RegNo) (s : State) : Out :=
  .next (s.aluReg d (addN (s.reg 8 d) (s.reg 8 r) s.fcw.c)
    (s.fcw.arith false (addN (s.reg 8 d) (s.reg 8 r) s.fcw.c)) 1)

/-- ADC (R151). -/
def execAdc (d r : RegNo) (s : State) : Out :=
  .next (s.aluReg d (addN (s.reg 16 d) (s.reg 16 r) s.fcw.c)
    (s.fcw.arith false (addN (s.reg 16 d) (s.reg 16 r) s.fcw.c)) 1)

/-- SBCB (R164). -/
def execSbcb (d r : RegNo) (s : State) : Out :=
  .next (s.aluReg d (subN (s.reg 8 d) (s.reg 8 r) s.fcw.c)
    (s.fcw.arith true (subN (s.reg 8 d) (s.reg 8 r) s.fcw.c)) 1)

/-- SBC (R164). -/
def execSbc (d r : RegNo) (s : State) : Out :=
  .next (s.aluReg d (subN (s.reg 16 d) (s.reg 16 r) s.fcw.c)
    (s.fcw.arith true (subN (s.reg 16 d) (s.reg 16 r) s.fcw.c)) 1)

/-- ADDB (R152). -/
def execAddb (d : RegNo) (src : Src 8) (s : State) : Out := s.addSrc d src

/-- ADD (R152). -/
def execAdd (d : RegNo) (src : Src 16) (s : State) : Out := s.addSrc d src

/-- ADDL (R152). -/
def execAddl (d : RegNo) (src : Src 32) (s : State) : Out := s.addSrc d src

/-- SUBB (R165). -/
def execSubb (d : RegNo) (src : Src 8) (s : State) : Out := s.subSrc d src

/-- SUB (R165). -/
def execSub (d : RegNo) (src : Src 16) (s : State) : Out := s.subSrc d src

/-- SUBL (R165). -/
def execSubl (d : RegNo) (src : Src 32) (s : State) : Out := s.subSrc d src

/-- CPB (R153). -/
def execCpb (d : RegNo) (src : Src 8) (s : State) : Out := s.compareSrc d src

/-- CP (R153). -/
def execCp (d : RegNo) (src : Src 16) (s : State) : Out := s.compareSrc d src

/-- CPL (R153). -/
def execCpl (d : RegNo) (src : Src 32) (s : State) : Out := s.compareSrc d src

/-- CPB of memory with an immediate (R154). -/
def execCpbMem (m : Mem) (v : Byte) (s : State) : Out := s.compareMem m v

/-- INCB (R161). -/
def execIncb (dst : Loc) (k : BitVec 4) (s : State) : Out := s.increment 8 dst k

/-- DECB (R158). -/
def execDecb (dst : Loc) (k : BitVec 4) (s : State) : Out := s.decrement 8 dst k

/-- NEGB (R163). -/
def execNegb (dst : Loc) (s : State) : Out := s.negate 8 dst

/-- CP of memory with an immediate (R154). -/
def execCpMem (m : Mem) (v : Word) (s : State) : Out := s.compareMem m v

/-- INC (R161). -/
def execInc (dst : Loc) (k : BitVec 4) (s : State) : Out := s.increment 16 dst k

/-- DEC (R158). -/
def execDec (dst : Loc) (k : BitVec 4) (s : State) : Out := s.decrement 16 dst k

/-- NEG (R163). -/
def execNeg (dst : Loc) (s : State) : Out := s.negate 16 dst

/-- DAB (R157): outside the table the byte and C, Z, S are undefined (D19). -/
def execDab (d : RegNo) (s : State) : Out :=
  match dabRow s.fcw (s.regB d) with
  | some row =>
    .next (((s.setRegB d (s.regB d + row.add)).withFcw
      { s.fcw with c := row.cy, z := s.regB d + row.add == 0, s := (s.regB d + row.add).msb }).skip 1)
  | none =>
    .next (((s.setRegB d (s.undef8 (.result 0))).withFcw
      { s.fcw with c := s.undef1 .carry, z := s.undef1 .zero, s := s.undef1 .sign }).skip 1)

/-- EXTSB (R160). -/
def execExtsb (d : RegNo) (s : State) : Out :=
  .next (((s.setRegW d ((loByte (s.regW d)).signExtend 16)).withFcw s.undefCzsv).skip 1)

/-- EXTS (R160). -/
def execExts (d : RegNo) (s : State) : Out :=
  .next (((s.setRegL d ((loWord (s.regL d)).signExtend 32)).withFcw s.undefCzsv).skip 1)

/-- EXTSL (R160). -/
def execExtsl (d : RegNo) (s : State) : Out :=
  .next (((s.setRegQ d ((s.regL (d + 2)).signExtend 64)).withFcw s.undefCzsv).skip 1)

/-- DIV (R159): remainder in R[d], quotient in R[d+1]. -/
def execDiv (d : RegNo) (src : Src 16) (s : State) : Out :=
  checked (src.evens s) (src.fetch s (fun v t =>
    match divide 16 (s.regL d).toInt v.toInt with
    | some (q, r) =>
      .next (((t.setRegL d (BitVec.ofInt 16 r ++ BitVec.ofInt 16 q)).withFcw (s.fcw.quotient q)).skip (1 + src.extra))
    | none => .next (((t.setRegL d (s.undefLong 0)).withFcw s.undefQuotient).skip (1 + src.extra))))

/-- DIVL (R159): remainder in RR[d], quotient in RR[d+2]. -/
def execDivl (d : RegNo) (src : Src 32) (s : State) : Out :=
  checked (src.evens s) (src.fetch s (fun v t =>
    match divide 32 (s.regQ d).toInt v.toInt with
    | some (q, r) =>
      .next (((t.setRegQ d (BitVec.ofInt 32 r ++ BitVec.ofInt 32 q)).withFcw (s.fcw.quotient q)).skip (1 + src.extra))
    | none =>
      .next (((t.setRegQ d (s.undefLong 0 ++ s.undefLong 2)).withFcw s.undefQuotient).skip (1 + src.extra))))

/-- MULT (R162). -/
def execMult (d : RegNo) (src : Src 16) (s : State) : Out :=
  checked (src.evens s) (src.fetch s (fun v t =>
    let p := (s.regW (d + 1)).toInt * v.toInt
    .next (((t.setRegL d (BitVec.ofInt 32 p)).withFcw (s.fcw.product 16 p)).skip (1 + src.extra))))

/-- MULTL (R162). -/
def execMultl (d : RegNo) (src : Src 32) (s : State) : Out :=
  checked (src.evens s) (src.fetch s (fun v t =>
    let p := (s.regL (d + 2)).toInt * v.toInt
    .next (((t.setRegQ d (BitVec.ofInt 64 p)).withFcw (s.fcw.product 32 p)).skip (1 + src.extra))))

end Sys2Proof.Machine
end

