-- ==== Sys2Proof/Machine/BitManipulation.lean ====
section
/-!
DEFINITION. Sys2Proof/Machine/BitManipulation.lean: BIT, RES, SET and TSET (41_bit_manipulation.md R190 to R194).
-/
namespace Sys2Proof.Machine

/-- The bit number of a field or of a register: its low three bits for bytes, its low four for words (R190). -/
def bitNumber (n : Nat) (v : Nat) : Nat := v % n

/-- The word or byte with the one bit set. -/
def oneBit (n k : Nat) : BitVec n := 1#n <<< k

/-- BIT: Z is the complement of the bit (R191). -/
def State.testBit (s : State) (n : Nat) (dst : Loc) (k : Nat) (words : Nat) : Out :=
  checked (dst.evens s n) (dst.fetch s n (fun v t => .next ((t.withFcw { s.fcw with z := !v.getLsbD k }).skip words)))

/-- A bit instruction that writes f of its operand and no flag: `words` is its length. -/
def State.modifyBit (s : State) (n : Nat) (dst : Loc) (f : BitVec n → BitVec n) (words : Nat) : Out :=
  checked (dst.evens s n) (dst.fetch s n (fun v t => dst.write t (f v) (fun u => .next (u.skip words))))

/-- RES: the bit is cleared (R192). -/
def State.resetBit (s : State) (n : Nat) (dst : Loc) (k : Nat) (words : Nat) : Out :=
  s.modifyBit n dst (fun v => v &&& ~~~(oneBit n k)) words

/-- SET: the bit is set (R193). -/
def State.setBit (s : State) (n : Nat) (dst : Loc) (k : Nat) (words : Nat) : Out :=
  s.modifyBit n dst (fun v => v ||| oneBit n k) words

/-- TSET: S is the sign of the operand, which becomes all ones (R194); no bus grant comes between its read and its
write (20_memory.md R82). -/
def State.testAndSet (s : State) (n : Nat) (dst : Loc) : Out :=
  checked (dst.evens s n) (dst.fetch s n (fun v t =>
    dst.writeLocked t (BitVec.allOnes n) (fun u => .next ((u.withFcw { s.fcw with s := v.msb }).skip (1 + dst.extra)))))

/-- BITB, static form (R191). -/
def execBitbStatic (dst : Loc) (b : BitVec 4) (s : State) : Out :=
  s.testBit 8 dst (bitNumber 8 b.toNat) (1 + dst.extra)

/-- BITB, dynamic form (R191). -/
def execBitbDyn (d r : RegNo) (s : State) : Out :=
  s.testBit 8 (.reg d) (bitNumber 8 (s.regW r).toNat) 2

/-- BIT, static form (R191). -/
def execBitStatic (dst : Loc) (b : BitVec 4) (s : State) : Out :=
  s.testBit 16 dst (bitNumber 16 b.toNat) (1 + dst.extra)

/-- BIT, dynamic form (R191). -/
def execBitDyn (d r : RegNo) (s : State) : Out :=
  s.testBit 16 (.reg d) (bitNumber 16 (s.regW r).toNat) 2

/-- RESB, static form (R192). -/
def execResbStatic (dst : Loc) (b : BitVec 4) (s : State) : Out :=
  s.resetBit 8 dst (bitNumber 8 b.toNat) (1 + dst.extra)

/-- RESB, dynamic form (R192). -/
def execResbDyn (d r : RegNo) (s : State) : Out :=
  s.resetBit 8 (.reg d) (bitNumber 8 (s.regW r).toNat) 2

/-- RES, static form (R192). -/
def execResStatic (dst : Loc) (b : BitVec 4) (s : State) : Out :=
  s.resetBit 16 dst (bitNumber 16 b.toNat) (1 + dst.extra)

/-- RES, dynamic form (R192). -/
def execResDyn (d r : RegNo) (s : State) : Out :=
  s.resetBit 16 (.reg d) (bitNumber 16 (s.regW r).toNat) 2

/-- SETB, static form (R193). -/
def execSetbStatic (dst : Loc) (b : BitVec 4) (s : State) : Out :=
  s.setBit 8 dst (bitNumber 8 b.toNat) (1 + dst.extra)

/-- SETB, dynamic form (R193). -/
def execSetbDyn (d r : RegNo) (s : State) : Out :=
  s.setBit 8 (.reg d) (bitNumber 8 (s.regW r).toNat) 2

/-- SET, static form (R193). -/
def execSetStatic (dst : Loc) (b : BitVec 4) (s : State) : Out :=
  s.setBit 16 dst (bitNumber 16 b.toNat) (1 + dst.extra)

/-- SET, dynamic form (R193). -/
def execSetDyn (d r : RegNo) (s : State) : Out :=
  s.setBit 16 (.reg d) (bitNumber 16 (s.regW r).toNat) 2

/-- TSETB (R194). -/
def execTsetb (dst : Loc) (s : State) : Out := s.testAndSet 8 dst

/-- TSET (R194). -/
def execTset (dst : Loc) (s : State) : Out := s.testAndSet 16 dst

end Sys2Proof.Machine
end

