-- ==== Sys2Proof/Machine/Block.lean ====
section
/-!
DEFINITION. Sys2Proof/Machine/Block.lean: block transfer, string and translate instructions
(42_block_transfer_string.md R200 to R231). One basic operation is one step; a repeating form leaves the PC at its
first word until its end condition holds (R201).
-/
namespace Sys2Proof.Machine

/-- A word form with count 0 or above 32768 stops (R202, D32). -/
def State.withBlockCount (s : State) (n : Nat) (r : RegNo) (k : Out) : Out :=
  if n = 16 ∧ (s.regW r = 0 ∨ 32768 < (s.regW r).toNat) then .fault .blockCount else k

/-- The count after this element (R202). -/
def State.countAfter (s : State) (r : RegNo) : Word := s.regW r - 1

/-- The count register is decremented. -/
def State.countDown (s : State) (r : RegNo) : State := s.setRegW r (s.regW r - 1)

/-- The PC after a basic operation: past the two words when it is the last. -/
def State.blockPc (s : State) (last : Bool) : State := if last then s.skip 2 else s

/-- Z from the match, P/V from the count, C and S undefined (R204, R209). -/
def State.matchFlags (s : State) (r : RegNo) (hit : Bool) : Fcw :=
  { s.fcw with z := hit, pv := s.countAfter r == 0, c := s.undef1 .carry, s := s.undef1 .sign }

/-- The condition on the flags of a - b (R204). -/
def elementMatch (cc : Cc) {n : Nat} (a b : BitVec n) : Bool :=
  ccTrue (subN a b false).c (subN a b false).z (subN a b false).s (subN a b false).v cc

/-- Basic operation of CPI, CPD and their repeating forms (R204). -/
def State.compareElement (s : State) (n : Nat) (rs r rd : RegNo) (cc : Cc) (step : Word) (rep : Bool) : Out :=
  s.withBlockCount n r (checked (evens n (s.addrReg rs)) (s.load n s.dataSp (s.addrReg rs) (fun v t =>
    let hit := elementMatch cc (s.reg n rd) v
    .next ((((t.stepReg rs step).countDown r).withFcw (s.matchFlags r hit)).blockPc
      (!rep || hit || s.countAfter r == 0)))))

/-- Basic operation of CPSI, CPSD and their repeating forms (R209). The order of the two reads is not stated there: that
the element at Rd is read first is the model's choice (log entry 61). -/
def State.compareStrings (s : State) (n : Nat) (rs r rd : RegNo) (cc : Cc) (step : Word) (rep : Bool) : Out :=
  s.withBlockCount n r (checked (evens n (s.addrReg rd) ++ evens n (s.addrReg rs))
    (s.load n s.dataSp (s.addrReg rd) (fun v t => t.load n s.dataSp (s.addrReg rs) (fun w u =>
      let hit := elementMatch cc v w
      .next (((((u.stepReg rd step).stepReg rs step).countDown r).withFcw (s.matchFlags r hit)).blockPc
        (!rep || hit || s.countAfter r == 0))))))

/-- Basic operation of LDI, LDD and their repeating forms (R214): only P/V is written. -/
def State.moveElement (s : State) (n : Nat) (rs r rd : RegNo) (step : Word) (rep : Bool) : Out :=
  s.withBlockCount n r (checked (evens n (s.addrReg rs) ++ evens n (s.addrReg rd))
    (s.load n s.dataSp (s.addrReg rs) (fun v t => t.store s.dataSp (s.addrReg rd) v (fun u =>
      .next (((((u.stepReg rd step).stepReg rs step).countDown r).withFcw
        { s.fcw with pv := s.countAfter r == 0 }).blockPc (!rep || s.countAfter r == 0))))))

/-- The table entry for the byte at AddrReg(ra) is read: table at AddrReg(rb), the byte as unsigned index (R222,
R227). -/
def State.loadEntry (s : State) (ra rb : RegNo) (k : Byte → State → Out) : Out :=
  s.loadByte s.dataSp (s.addrReg ra) (fun b t => t.loadByte s.dataSp ((s.addrReg rb).plus (b.setWidth 16)) k)

/-- Basic operation of TRIB, TRDB and their repeating forms (R222): RH1 and Z are undefined afterwards. -/
def State.translate (s : State) (rd r rs : RegNo) (step : Word) (rep : Bool) : Out :=
  s.loadEntry rd rs (fun v t => t.store s.dataSp (s.addrReg rd) v (fun u =>
    .next (((((u.stepReg rd step).countDown r).setRegB 1 (s.undef8 .rh1)).withFcw
      { s.fcw with z := s.undef1 .zero, pv := s.countAfter r == 0 }).blockPc (!rep || s.countAfter r == 0))))

/-- Basic operation of TRTIB, TRTDB and their repeating forms (R227): the repetition ends at a nonzero entry. -/
def State.translateTest (s : State) (ra r rb : RegNo) (step : Word) (rep : Bool) : Out :=
  s.loadEntry ra rb (fun v t =>
    .next (((((t.stepReg ra step).countDown r).setRegB 1 v).withFcw
      { s.fcw with z := v == 0, pv := s.countAfter r == 0 }).blockPc (!rep || v != 0 || s.countAfter r == 0)))

/-- CPIB (R207). -/
def execCpib (rs r rd : RegNo) (c : Cc) (s : State) : Out :=
  s.compareElement 8 rs r rd c 1 false

/-- CPSIB (R212). -/
def execCpsib (rs r rd : RegNo) (c : Cc) (s : State) : Out :=
  s.compareStrings 8 rs r rd c 1 false

/-- LDIB (R217). -/
def execLdib (rs r rd : RegNo) (s : State) : Out :=
  s.moveElement 8 rs r rd 1 false

/-- CPI (R207). -/
def execCpi (rs r rd : RegNo) (c : Cc) (s : State) : Out :=
  s.compareElement 16 rs r rd c 2 false

/-- CPSI (R212). -/
def execCpsi (rs r rd : RegNo) (c : Cc) (s : State) : Out :=
  s.compareStrings 16 rs r rd c 2 false

/-- LDI (R217). -/
def execLdi (rs r rd : RegNo) (s : State) : Out :=
  s.moveElement 16 rs r rd 2 false

/-- TRIB (R225). -/
def execTrib (rd r rs : RegNo) (s : State) : Out := s.translate rd r rs 1 false

/-- TRTIB (R230). -/
def execTrtib (ra r rb : RegNo) (s : State) : Out :=
  s.translateTest ra r rb 1 false

/-- CPIRB (R208). -/
def execCpirb (rs r rd : RegNo) (c : Cc) (s : State) : Out :=
  s.compareElement 8 rs r rd c 1 true

/-- CPSIRB (R213). -/
def execCpsirb (rs r rd : RegNo) (c : Cc) (s : State) : Out :=
  s.compareStrings 8 rs r rd c 1 true

/-- LDIRB (R218). -/
def execLdirb (rs r rd : RegNo) (s : State) : Out :=
  s.moveElement 8 rs r rd 1 true

/-- CPIR (R208). -/
def execCpir (rs r rd : RegNo) (c : Cc) (s : State) : Out :=
  s.compareElement 16 rs r rd c 2 true

/-- CPSIR (R213). -/
def execCpsir (rs r rd : RegNo) (c : Cc) (s : State) : Out :=
  s.compareStrings 16 rs r rd c 2 true

/-- LDIR (R218). -/
def execLdir (rs r rd : RegNo) (s : State) : Out :=
  s.moveElement 16 rs r rd 2 true

/-- TRIRB (R226). -/
def execTrirb (rd r rs : RegNo) (s : State) : Out := s.translate rd r rs 1 true

/-- TRTIRB (R231). -/
def execTrtirb (ra r rb : RegNo) (s : State) : Out :=
  s.translateTest ra r rb 1 true

/-- CPDB (R205). -/
def execCpdb (rs r rd : RegNo) (c : Cc) (s : State) : Out :=
  s.compareElement 8 rs r rd c (-1) false

/-- CPSDB (R210). -/
def execCpsdb (rs r rd : RegNo) (c : Cc) (s : State) : Out :=
  s.compareStrings 8 rs r rd c (-1) false

/-- LDDB (R215). -/
def execLddb (rs r rd : RegNo) (s : State) : Out :=
  s.moveElement 8 rs r rd (-1) false

/-- CPD (R205). -/
def execCpd (rs r rd : RegNo) (c : Cc) (s : State) : Out :=
  s.compareElement 16 rs r rd c (-2) false

/-- CPSD (R210). -/
def execCpsd (rs r rd : RegNo) (c : Cc) (s : State) : Out :=
  s.compareStrings 16 rs r rd c (-2) false

/-- LDD (R215). -/
def execLdd (rs r rd : RegNo) (s : State) : Out :=
  s.moveElement 16 rs r rd (-2) false

/-- TRDB (R223). -/
def execTrdb (rd r rs : RegNo) (s : State) : Out := s.translate rd r rs (-1) false

/-- TRTDB (R228). -/
def execTrtdb (ra r rb : RegNo) (s : State) : Out :=
  s.translateTest ra r rb (-1) false

/-- CPDRB (R206). -/
def execCpdrb (rs r rd : RegNo) (c : Cc) (s : State) : Out :=
  s.compareElement 8 rs r rd c (-1) true

/-- CPSDRB (R211). -/
def execCpsdrb (rs r rd : RegNo) (c : Cc) (s : State) : Out :=
  s.compareStrings 8 rs r rd c (-1) true

/-- LDDRB (R216). -/
def execLddrb (rs r rd : RegNo) (s : State) : Out :=
  s.moveElement 8 rs r rd (-1) true

/-- CPDR (R206). -/
def execCpdr (rs r rd : RegNo) (c : Cc) (s : State) : Out :=
  s.compareElement 16 rs r rd c (-2) true

/-- CPSDR (R211). -/
def execCpsdr (rs r rd : RegNo) (c : Cc) (s : State) : Out :=
  s.compareStrings 16 rs r rd c (-2) true

/-- LDDR (R216). -/
def execLddr (rs r rd : RegNo) (s : State) : Out :=
  s.moveElement 16 rs r rd (-2) true

/-- TRDRB (R224). -/
def execTrdrb (rd r rs : RegNo) (s : State) : Out := s.translate rd r rs (-1) true

/-- TRTDRB (R229). -/
def execTrtdrb (ra r rb : RegNo) (s : State) : Out :=
  s.translateTest ra r rb (-1) true

end Sys2Proof.Machine
end

