-- ==== Sys2Proof/Machine/CpuControl.lean ====
section
/-!
DEFINITION. Sys2Proof/Machine/CpuControl.lean: the CPU control instructions (43_cpu_control.md R240 to R259).
-/
namespace Sys2Proof.Machine

/-- The flags C, Z, S and P/V changed bit by bit with a mask in the order C Z S P/V (R241, R258, R259;
30_encoding.md R119). -/
def Fcw.masked (f : Fcw) (op : Bool → Bool → Bool) (mask : BitVec 4) : Fcw :=
  { f with c := op f.c (mask.getLsbD 3), z := op f.z (mask.getLsbD 2), s := op f.s (mask.getLsbD 1),
           pv := op f.pv (mask.getLsbD 0) }

/-- COMFLG (R241). -/
def execComflg (mask : BitVec 4) (s : State) : Out :=
  .next ((s.withFcw (s.fcw.masked (fun a b => a ^^ b) mask)).skip 1)

/-- RESFLG (R258). -/
def execResflg (mask : BitVec 4) (s : State) : Out :=
  .next ((s.withFcw (s.fcw.masked (fun a b => a && !b) mask)).skip 1)

/-- SETFLG (R259). -/
def execSetflg (mask : BitVec 4) (s : State) : Out :=
  .next ((s.withFcw (s.fcw.masked (fun a b => a || b) mask)).skip 1)

/-- NOP (R257). -/
def execNop (s : State) : Out := .next (s.skip 1)

/-- EI (R243): the interrupts named are enabled. -/
def execEi (v n : Bool) (s : State) : Out :=
  privileged (.ei v n) s
    (.next ((s.withFcw { s.fcw with vie := s.fcw.vie || v, nvie := s.fcw.nvie || n }).skip 1))

/-- DI (R244): the interrupts named are disabled. -/
def execDi (v n : Bool) (s : State) : Out :=
  privileged (.di v n) s
    (.next ((s.withFcw { s.fcw with vie := s.fcw.vie && !v, nvie := s.fcw.nvie && !n }).skip 1))

/-- HALT (R245): the PC moves past it and the halted condition begins. -/
def execHalt (s : State) : Out := privileged .halt s (.next { s.skip 1 with halted := true })

/-- ROW as it is read (10_state.md R37, 60_exceptions.md R486): with RE = 1 an unknown number of refresh cycles has
run; bit 0 is undefined once a 1 was written to it (D44). -/
def State.rowRead (s : State) : BitVec 9 :=
  let row := if s.refresh.re then s.refresh.row + 2 * (s.undef16 .refreshCount).setWidth 9 else s.refresh.row
  if s.refresh.row.getLsbD 0 ∧ s.undef1 .rowBit0 = false then row &&& ~~~1 else row

/-- The REFRESH register as a word (10_state.md R37). -/
def State.refreshWord (s : State) : Word := BitVec.ofBool s.refresh.re ++ s.refresh.rate ++ s.rowRead

/-- The fields of a REFRESH word. -/
def Refresh.ofWord (w : Word) : Refresh := ⟨w.getLsbD 15, w.extractLsb' 9 6, w.extractLsb' 0 9⟩

/-- A control register read, none where the variant has none (10_state.md R36, R38, D28). -/
def State.readCtl (s : State) : CtlReg → Option Word
  | .fcw => some s.fcwWord
  | .refresh => some s.refreshWord
  | .psapSeg => if s.isZ8001 then some s.psapSeg else none
  | .psapOff => some s.psapOff
  | .nspSeg => if s.isZ8001 then some (s.regs.get 14) else none
  | .nspOff => some (s.regs.get 15)

/-- LDCTL from a control register (R248). -/
def execLdctlFrom (d : RegNo) (c : CtlReg) (s : State) : Out :=
  privileged (.ldctlFrom d c) s
    (match s.readCtl c with
     | some w => .next ((s.setRegW d w).skip 1)
     | none => .refused .noControlRegister)

/-- A control register written (R248): NSPSEG and NSPOFF are the normal copies of R14 and R15. -/
def State.writeCtl (s : State) (c : CtlReg) (w : Word) (k : State → Out) : Out :=
  match c with
  | .fcw => s.loadFcw w (fun f => k (s.withFcw f))
  | .refresh => k { s with refresh := Refresh.ofWord w }
  | .psapSeg => if s.isZ8001 then k { s with psapSeg := w } else .refused .noControlRegister
  | .psapOff => k { s with psapOff := w }
  | .nspSeg => if s.isZ8001 then k { s with regs := s.regs.set 14 w } else .refused .noControlRegister
  | .nspOff => k { s with regs := s.regs.set 15 w }

/-- LDCTL into a control register (R248). -/
def execLdctlTo (c : CtlReg) (r : RegNo) (s : State) : Out :=
  privileged (.ldctlTo c r) s (s.writeCtl c (s.regW r) (fun t => .next (t.skip 1)))

/-- LDCTLB from FLAGS (R249): bits 1:0 are undefined. -/
def execLdctlbFrom (d : RegNo) (s : State) : Out :=
  .next ((s.setRegB d (s.fcw.flagByte (s.undef16 .fcwUnused))).skip 1)

/-- LDCTLB into FLAGS (R249). -/
def execLdctlbTo (r : RegNo) (s : State) : Out := .next ((s.withFcw (s.fcw.withFlagByte (s.regB r))).skip 1)

/-- LDPS (R250): a block of two words, or in segmented mode of four, whose first word is not read. -/
def execLdps (m : Mem) (s : State) : Out :=
  let a := m.addr s
  privileged (.ldps m) s (checked [a]
    (if s.segmented then
       s.loadWord s.dataSp (a.plus 2) (fun w t => t.loadWord s.dataSp (a.plus 4) (fun g u =>
         u.loadWord s.dataSp (a.plus 6) (fun o v => v.loadFcw w (fun f =>
           .next { v.withFcw f with pc := ⟨segField g, o⟩ }))))
     else
       s.loadWord s.dataSp a (fun w t => t.loadWord s.dataSp (a.plus 2) (fun o u => u.loadFcw w (fun f =>
         .next { u.withFcw f with pc := ⟨s.pc.seg, o⟩ })))))

/-- MSET (R253). -/
def execMset (s : State) : Out := privileged .mset s (.next { s.skip 1 with moActive := true })

/-- MRES (R255). -/
def execMres (s : State) : Out := privileged .mres s (.next { s.skip 1 with moActive := false })

/-- MBIT (R256): S is set when MI is Low. -/
def execMbit (s : State) : Out :=
  privileged .mbit s (.next (((s.dropMi 1).withFcw { s.fcw with s := s.miAt 0 }).skip 1))

/-- MREQ (R254): with MI Low no request is made; else MO goes Low, the delay runs Rd down to 0, and MI tells whether
the request was granted. -/
def execMreq (d : RegNo) (s : State) : Out :=
  privileged (.mreq d) s
    (if s.miAt 0 then .next (((s.dropMi 1).withFcw { s.fcw with z := false, s := false }).skip 1)
     else .next { (((s.dropMi 2).setRegW d 0).withFcw { s.fcw with z := true, s := s.miAt 1 }).skip 1 with
                  moActive := s.miAt 1 })

end Sys2Proof.Machine
end

