-- ==== Sys2Proof/Machine/Extended.lean ====
section
/-!
DEFINITION. Sys2Proof/Machine/Extended.lean: the CPU's side of the extended instructions (49_extended_epa.md R420 to
R432) and the upper bytes reserved as a whole (30_encoding.md R134).
-/
namespace Sys2Proof.Machine

/-- An extended instruction (R420): with EPA = 0 the Extended Instruction Trap; with EPA = 1 and no EPU fitted it
stops (D40); else the EPU gets both op code words (R422). -/
def extended (i : Instr) (s : State) (k : State → Out) : Out :=
  if s.fcw.epa = false then s.extendedTrap (firstWord i) (some (encode i).length)
  else if s.params.epuFitted = false then .refused .noEpu
  else k (s.record (.epuInstruction (firstWord i) ((encode i).getD 1 0)))

/-- The count of words in bits 3:0 of the second word (R427). -/
def epaCount (w1 : Word) : Nat := (nib0 w1).toNat + 1

/-- The EPU supplies n words, which the CPU has stored at successive addresses (R423, R428): one transaction for each.
`i` counts the words before. -/
def State.storeSupplied (s : State) (sp : Space) (a : Addr) (i : Nat) : Nat → (State → Out) → Out
  | 0, k => k s
  | n + 1, k => s.turn (fun t =>
      ((t.dropBus.record (.epuSupply t.fcw.sn (t.busWord i))).wroteWord sp a (t.busWord i)).storeSupplied sp (a.plus 2) (i + 1) n k)

/-- The EPU captures n words of memory at successive addresses (R424, R428). -/
def State.captureMem (s : State) (sp : Space) (a : Addr) : Nat → (State → Out) → Out
  | 0, k => k s
  | n + 1, k => s.loadWord sp a (fun w t => (t.record (.epuCapture t.fcw.sn w)).captureMem sp (a.plus 2) n k)

/-- The EPU supplies n words to successive registers, R0 after R15 (R425, R427). -/
def State.supplyRegs (s : State) (r : RegNo) (i : Nat) : Nat → (State → Out) → Out
  | 0, k => k s
  | n + 1, k => s.turn (fun t =>
      ((t.dropBus.record (.epuSupply t.fcw.sn (t.busWord i))).setRegW r (t.busWord i)).supplyRegs (r + 1) (i + 1) n k)

/-- The EPU captures words, in order (R426). -/
def State.captureWords (s : State) : List Word → (State → Out) → Out
  | [], k => k s
  | w :: ws, k => s.turn (fun t => (t.record (.epuCapture t.fcw.sn w)).captureWords ws k)

/-- Load Memory from EPU (R423). -/
def execEpaMemFromEpu (sel : BitVec 6) (lo : BitVec 4) (m : Mem) (w1 : Word) (s : State) : Out :=
  extended (.epaMemFromEpu sel lo m w1) s (fun t => checked [m.addr s]
    (t.storeSupplied s.dataSp (m.addr s) 0 (epaCount w1) (fun u => .next (u.skip (2 + m.extra)))))

/-- Load EPU from Memory (R424). -/
def execEpaEpuFromMem (sel : BitVec 6) (lo : BitVec 4) (m : Mem) (w1 : Word) (s : State) : Out :=
  extended (.epaEpuFromMem sel lo m w1) s (fun t => checked [m.addr s]
    (t.captureMem s.dataSp (m.addr s) (epaCount w1) (fun u => .next (u.skip (2 + m.extra)))))

/-- Load CPU from EPU (R425): the first register is in bits 11:8 of the second word. -/
def execEpaCpuFromEpu (w0 w1 : Word) (s : State) : Out :=
  extended (.epaCpuFromEpu w0 w1) s (fun t => t.supplyRegs (nib2 w1) 0 (epaCount w1) (fun u => .next (u.skip 2)))

/-- Load EPU from CPU (R426). -/
def execEpaEpuFromCpu (w0 w1 : Word) (s : State) : Out :=
  extended (.epaEpuFromCpu w0 w1) s (fun t =>
    t.captureWords (s.regRun (nib2 w1) (epaCount w1)) (fun u => .next (u.skip 2)))

/-- Load FCW from EPU (R429): the six flags come from the EPU, R0 is undefined. -/
def execEpaFcwFromEpu (w0 w1 : Word) (s : State) : Out :=
  extended (.epaFcwFromEpu w0 w1) s (fun t => t.turn (fun u =>
    let b := loByte (u.busWord 0)
    .next ((((u.dropBus.record (.epuSupplyByte u.fcw.sn b)).setRegW 0 (s.undef16 (.result 0))).withFcw
      (s.fcw.withFlagByte b)).skip 2)))

/-- Load EPU from FCW (R430). -/
def execEpaEpuFromFcw (w0 w1 : Word) (s : State) : Out :=
  extended (.epaEpuFromFcw w0 w1) s (fun t => t.turn (fun u =>
    .next ((u.record (.epuCaptureByte u.fcw.sn (s.fcw.flagByte (s.undef16 .fcwUnused)))).skip 2)))

/-- Internal EPU Operation (R431): no operation for the CPU. -/
def execEpaInternal (w0 w1 : Word) (s : State) : Out :=
  extended (.epaInternal w0 w1) s (fun t => .next (t.skip 2))

/-- A reserved upper byte (30_encoding.md R134): the result of its execution is not defined. -/
def execRsvd (_w : Word) (_s : State) : Out := .refused .reservedOpcode

end Sys2Proof.Machine
end

