-- ==== Sys2Proof/Machine/InputOutput.lean ====
section
/-!
DEFINITION. Sys2Proof/Machine/InputOutput.lean: input and output (44_input_output.md R270 to R294). All privileged;
each basic operation makes one I/O transaction, which is recorded (20_memory.md R75).
-/
namespace Sys2Proof.Machine

/-- An input transaction of n bits (20_memory.md R75): the value is the next word the outside supplies, its low byte for
a byte. -/
def State.ioRead (s : State) (n : Nat) (io : IoSpace) (port : Word) (k : BitVec n → State → Out) : Out :=
  s.turn (fun t =>
    let v : BitVec n := (t.busWord 0).setWidth n
    k v (t.dropBus.record (.ioRead io (n == 8) port (v.setWidth 16))))

/-- An output transaction of n bits (20_memory.md R75). -/
def State.ioWrite (s : State) {n : Nat} (io : IoSpace) (port : Word) (v : BitVec n) (k : State → Out) : Out :=
  s.turn (fun t => k (t.record (.ioWrite io (n == 8) port (v.setWidth 16))))

/-- IN and SIN (R275, R276). -/
def State.input (s : State) (n : Nat) (io : IoSpace) (d : RegNo) (port : Word) (words : Nat) : Out :=
  s.ioRead n io port (fun v t => .next ((t.setReg d v).skip words))

/-- OUT and SOUT (R277, R278). -/
def State.output (s : State) (n : Nat) (io : IoSpace) (port : Word) (r : RegNo) (words : Nat) : Out :=
  s.ioWrite io port (s.reg n r) (fun t => .next (t.skip words))

/-- Z undefined, P/V from the count (R272, R273). -/
def State.ioFlags (s : State) (r : RegNo) : Fcw :=
  { s.fcw with z := s.undef1 .zero, pv := s.countAfter r == 0 }

/-- Basic operation of block input (R273); the count of a word form is limited in the single forms too
(70_reset_and_hazards.md R513, D32). -/
def State.blockIn (s : State) (n : Nat) (io : IoSpace) (rs r rd : RegNo) (step : Word) (rep : Bool) : Out :=
  s.withBlockCount n r (checked (evens n (s.addrReg rd))
    (s.ioRead n io (s.regW rs) (fun v t => t.store s.dataSp (s.addrReg rd) v (fun u =>
      .next ((((u.stepReg rd step).countDown r).withFcw (s.ioFlags r)).blockPc (!rep || s.countAfter r == 0))))))

/-- Basic operation of block output (R272); the count of a word form is limited in the single forms too. -/
def State.blockOut (s : State) (n : Nat) (io : IoSpace) (rs r rd : RegNo) (step : Word) (rep : Bool) : Out :=
  s.withBlockCount n r (checked (evens n (s.addrReg rs))
    (s.load n s.dataSp (s.addrReg rs) (fun v t => t.ioWrite io (s.regW rd) v (fun u =>
      .next ((((u.stepReg rs step).countDown r).withFcw (s.ioFlags r)).blockPc (!rep || s.countAfter r == 0))))))

/-- INB (R275). -/
def execInb (d : RegNo) (p : PortOp) (s : State) : Out :=
  privileged (.inb d p) s (s.input 8 .standard d (p.port s) (1 + p.extra))

/-- SINB (R276). -/
def execSinb (d : RegNo) (port : Word) (s : State) : Out :=
  privileged (.sinb d port) s (s.input 8 .special d port 2)

/-- OUTB (R277). -/
def execOutb (p : PortOp) (r : RegNo) (s : State) : Out :=
  privileged (.outb p r) s (s.output 8 .standard (p.port s) r (1 + p.extra))

/-- SOUTB (R278). -/
def execSoutb (port : Word) (r : RegNo) (s : State) : Out :=
  privileged (.soutb port r) s (s.output 8 .special port r 2)

/-- IN (R275). -/
def execInw (d : RegNo) (p : PortOp) (s : State) : Out :=
  privileged (.inw d p) s (s.input 16 .standard d (p.port s) (1 + p.extra))

/-- SIN (R276). -/
def execSin (d : RegNo) (port : Word) (s : State) : Out :=
  privileged (.sin d port) s (s.input 16 .special d port 2)

/-- OUT (R277). -/
def execOutw (p : PortOp) (r : RegNo) (s : State) : Out :=
  privileged (.outw p r) s (s.output 16 .standard (p.port s) r (1 + p.extra))

/-- SOUT (R278). -/
def execSout (port : Word) (r : RegNo) (s : State) : Out :=
  privileged (.sout port r) s (s.output 16 .special port r 2)

/-- INIB (R281). -/
def execInib (rs r rd : RegNo) (s : State) : Out :=
  privileged (.inib rs r rd) s (s.blockIn 8 .standard rs r rd 1 false)

/-- OUTIB (R289). -/
def execOutib (rs r rd : RegNo) (s : State) : Out :=
  privileged (.outib rs r rd) s (s.blockOut 8 .standard rs r rd 1 false)

/-- INI (R281). -/
def execIni (rs r rd : RegNo) (s : State) : Out :=
  privileged (.ini rs r rd) s (s.blockIn 16 .standard rs r rd 2 false)

/-- OUTI (R289). -/
def execOuti (rs r rd : RegNo) (s : State) : Out :=
  privileged (.outi rs r rd) s (s.blockOut 16 .standard rs r rd 2 false)

/-- INIRB (R282). -/
def execInirb (rs r rd : RegNo) (s : State) : Out :=
  privileged (.inirb rs r rd) s (s.blockIn 8 .standard rs r rd 1 true)

/-- OTIRB (R290). -/
def execOtirb (rs r rd : RegNo) (s : State) : Out :=
  privileged (.otirb rs r rd) s (s.blockOut 8 .standard rs r rd 1 true)

/-- INIR (R282). -/
def execInir (rs r rd : RegNo) (s : State) : Out :=
  privileged (.inir rs r rd) s (s.blockIn 16 .standard rs r rd 2 true)

/-- OTIR (R290). -/
def execOtir (rs r rd : RegNo) (s : State) : Out :=
  privileged (.otir rs r rd) s (s.blockOut 16 .standard rs r rd 2 true)

/-- INDB (R279). -/
def execIndb (rs r rd : RegNo) (s : State) : Out :=
  privileged (.indb rs r rd) s (s.blockIn 8 .standard rs r rd (-1) false)

/-- OUTDB (R287). -/
def execOutdb (rs r rd : RegNo) (s : State) : Out :=
  privileged (.outdb rs r rd) s (s.blockOut 8 .standard rs r rd (-1) false)

/-- IND (R279). -/
def execInd (rs r rd : RegNo) (s : State) : Out :=
  privileged (.ind rs r rd) s (s.blockIn 16 .standard rs r rd (-2) false)

/-- OUTD (R287). -/
def execOutd (rs r rd : RegNo) (s : State) : Out :=
  privileged (.outd rs r rd) s (s.blockOut 16 .standard rs r rd (-2) false)

/-- INDRB (R280). -/
def execIndrb (rs r rd : RegNo) (s : State) : Out :=
  privileged (.indrb rs r rd) s (s.blockIn 8 .standard rs r rd (-1) true)

/-- OTDRB (R288). -/
def execOtdrb (rs r rd : RegNo) (s : State) : Out :=
  privileged (.otdrb rs r rd) s (s.blockOut 8 .standard rs r rd (-1) true)

/-- INDR (R280). -/
def execIndr (rs r rd : RegNo) (s : State) : Out :=
  privileged (.indr rs r rd) s (s.blockIn 16 .standard rs r rd (-2) true)

/-- OTDR (R288). -/
def execOtdr (rs r rd : RegNo) (s : State) : Out :=
  privileged (.otdr rs r rd) s (s.blockOut 16 .standard rs r rd (-2) true)

/-- SINIB (R285). -/
def execSinib (rs r rd : RegNo) (s : State) : Out :=
  privileged (.sinib rs r rd) s (s.blockIn 8 .special rs r rd 1 false)

/-- SOUTIB (R293). -/
def execSoutib (rs r rd : RegNo) (s : State) : Out :=
  privileged (.soutib rs r rd) s (s.blockOut 8 .special rs r rd 1 false)

/-- SINI (R285). -/
def execSini (rs r rd : RegNo) (s : State) : Out :=
  privileged (.sini rs r rd) s (s.blockIn 16 .special rs r rd 2 false)

/-- SOUTI (R293). -/
def execSouti (rs r rd : RegNo) (s : State) : Out :=
  privileged (.souti rs r rd) s (s.blockOut 16 .special rs r rd 2 false)

/-- SINIRB (R286). -/
def execSinirb (rs r rd : RegNo) (s : State) : Out :=
  privileged (.sinirb rs r rd) s (s.blockIn 8 .special rs r rd 1 true)

/-- SOTIRB (R294). -/
def execSotirb (rs r rd : RegNo) (s : State) : Out :=
  privileged (.sotirb rs r rd) s (s.blockOut 8 .special rs r rd 1 true)

/-- SINIR (R286). -/
def execSinir (rs r rd : RegNo) (s : State) : Out :=
  privileged (.sinir rs r rd) s (s.blockIn 16 .special rs r rd 2 true)

/-- SOTIR (R294). -/
def execSotir (rs r rd : RegNo) (s : State) : Out :=
  privileged (.sotir rs r rd) s (s.blockOut 16 .special rs r rd 2 true)

/-- SINDB (R283). -/
def execSindb (rs r rd : RegNo) (s : State) : Out :=
  privileged (.sindb rs r rd) s (s.blockIn 8 .special rs r rd (-1) false)

/-- SOUTDB (R291). -/
def execSoutdb (rs r rd : RegNo) (s : State) : Out :=
  privileged (.soutdb rs r rd) s (s.blockOut 8 .special rs r rd (-1) false)

/-- SIND (R283). -/
def execSind (rs r rd : RegNo) (s : State) : Out :=
  privileged (.sind rs r rd) s (s.blockIn 16 .special rs r rd (-2) false)

/-- SOUTD (R291). -/
def execSoutd (rs r rd : RegNo) (s : State) : Out :=
  privileged (.soutd rs r rd) s (s.blockOut 16 .special rs r rd (-2) false)

/-- SINDRB (R284). -/
def execSindrb (rs r rd : RegNo) (s : State) : Out :=
  privileged (.sindrb rs r rd) s (s.blockIn 8 .special rs r rd (-1) true)

/-- SOTDRB (R292). -/
def execSotdrb (rs r rd : RegNo) (s : State) : Out :=
  privileged (.sotdrb rs r rd) s (s.blockOut 8 .special rs r rd (-1) true)

/-- SINDR (R284). -/
def execSindr (rs r rd : RegNo) (s : State) : Out :=
  privileged (.sindr rs r rd) s (s.blockIn 16 .special rs r rd (-2) true)

/-- SOTDR (R292). -/
def execSotdr (rs r rd : RegNo) (s : State) : Out :=
  privileged (.sotdr rs r rd) s (s.blockOut 16 .special rs r rd (-2) true)

end Sys2Proof.Machine
end

