-- ==== Sys2Proof/Machine/LoadExchange.lean ====
section
/-!
DEFINITION. Sys2Proof/Machine/LoadExchange.lean: the load and exchange instructions (45_load_exchange.md R310 to
R327). None of them writes a flag.
-/
namespace Sys2Proof.Machine

/-- CLR (R311): one write, no read. -/
def State.clearLoc (s : State) (n : Nat) (dst : Loc) : Out :=
  checked (dst.evens s n) (dst.write s (0 : BitVec n) (fun t => .next (t.skip (1 + dst.extra))))

/-- EX (R312): a read, then a write at the same address. -/
def State.exchange (s : State) (n : Nat) (d : RegNo) (src : Loc) : Out :=
  checked (src.evens s n) (src.fetch s n (fun v t =>
    src.write t (s.reg n d) (fun u => .next ((u.setReg d v).skip (1 + src.extra)))))

/-- LD into a register (R313, R315). -/
def State.loadReg (s : State) {n : Nat} (d : RegNo) (src : LdSrc n) : Out :=
  checked (src.evens s) (src.fetch s (fun v t => .next ((t.setReg d v).skip (1 + src.extra))))

/-- A value of n bits written to memory by an instruction of `words` words. -/
def State.storeAt (s : State) {n : Nat} (sp : Space) (a : Addr) (v : BitVec n) (words : Nat) : Out :=
  checked (evens n a) (s.store sp a v (fun t => .next (t.skip words)))

/-- LD into memory (R316, R317). -/
def State.storeMem (s : State) {n : Nat} (m : LdMem) (v : BitVec n) : Out :=
  s.storeAt s.dataSp (m.addr s) v (1 + m.extra)

/-- LD of an immediate into memory (R318). -/
def State.storeImm (s : State) {n : Nat} (m : Mem) (v : BitVec n) : Out :=
  s.storeAt s.dataSp (m.addr s) v (2 + m.extra)

/-- An address loaded into register d (R319): a word, or in segmented mode a pair whose reserved bits are
undefined. -/
def State.loadAddr (s : State) (d : RegNo) (a : Addr) (words : Nat) : Out :=
  .next ((if s.segmented then (s.setRegW d (s.segWord .ldaSeg a.seg)).setRegW (d + 1) a.off
          else s.setRegW d a.off).skip words)

/-- LDR into a register: program space (R324). -/
def State.loadRel (s : State) (n : Nat) (d : RegNo) (disp : Word) : Out :=
  checked (evens n (s.relative 2 disp))
    (s.load n s.progSp (s.relative 2 disp) (fun v t => .next ((t.setReg d v).skip 2)))

/-- LDR into memory: program space (R325). -/
def State.storeRel (s : State) {n : Nat} (disp : Word) (v : BitVec n) : Out :=
  s.storeAt s.progSp (s.relative 2 disp) v 2

/-- POP (R326): the top of the stack at AddrReg(sp) goes to dst, then the pointer is raised. -/
def State.popTo (s : State) (n : Nat) (dst : Loc) (sp : RegNo) : Out :=
  checked (s.addrReg sp :: dst.evens s n) (s.load n s.stackSp (s.addrReg sp) (fun v t =>
    dst.write t v (fun u => .next ((u.stepReg sp (BitVec.ofNat 16 (n / 8))).skip (1 + dst.extra)))))

/-- PUSH of a value (R327): the pointer is lowered, then the value stored. -/
def State.pushVal (s : State) {n : Nat} (sp : RegNo) (v : BitVec n) (words : Nat) : Out :=
  (s.stepReg sp (-(BitVec.ofNat 16 (n / 8)))).store s.stackSp ((s.addrReg sp).plus (-(BitVec.ofNat 16 (n / 8)))) v
    (fun t => .next (t.skip words))

/-- PUSH of a register or of memory (R327): the operand is read before the pointer changes. -/
def State.pushLoc (s : State) (n : Nat) (sp : RegNo) (src : Loc) : Out :=
  checked (s.addrReg sp :: src.evens s n) (src.fetch s n (fun v t => t.pushVal sp v (1 + src.extra)))

/-- CLRB (R311). -/
def execClrb (dst : Loc) (s : State) : Out := s.clearLoc 8 dst

/-- EXB (R312). -/
def execExb (d : RegNo) (src : Loc) (s : State) : Out := s.exchange 8 d src

/-- LDB of an immediate into memory (R318). -/
def execLdbImm (m : Mem) (v : BitVec 8) (s : State) : Out := s.storeImm m v

/-- CLR (R311). -/
def execClr (dst : Loc) (s : State) : Out := s.clearLoc 16 dst

/-- EX (R312). -/
def execEx (d : RegNo) (src : Loc) (s : State) : Out := s.exchange 16 d src

/-- LD of an immediate into memory (R318). -/
def execLdImm (m : Mem) (v : BitVec 16) (s : State) : Out := s.storeImm m v

/-- LDB into a register (R313). -/
def execLdb (d : RegNo) (src : LdSrc 8) (s : State) : Out := s.loadReg d src

/-- LDB into memory (R316). -/
def execLdbStore (m : LdMem) (r : RegNo) (s : State) : Out := s.storeMem m (s.reg 8 r)

/-- LDRB into a register (R324). -/
def execLdrb (d : RegNo) (disp : Word) (s : State) : Out := s.loadRel 8 d disp

/-- LDRB into memory (R325). -/
def execLdrbStore (disp : Word) (r : RegNo) (s : State) : Out := s.storeRel disp (s.reg 8 r)

/-- LD into a register (R313). -/
def execLd (d : RegNo) (src : LdSrc 16) (s : State) : Out := s.loadReg d src

/-- LD into memory (R316). -/
def execLdStore (m : LdMem) (r : RegNo) (s : State) : Out := s.storeMem m (s.reg 16 r)

/-- LDR into a register (R324). -/
def execLdr (d : RegNo) (disp : Word) (s : State) : Out := s.loadRel 16 d disp

/-- LDR into memory (R325). -/
def execLdrStore (disp : Word) (r : RegNo) (s : State) : Out := s.storeRel disp (s.reg 16 r)

/-- LDL into a register (R315). -/
def execLdl (d : RegNo) (src : LdSrc 32) (s : State) : Out := s.loadReg d src

/-- LDL into memory (R317). -/
def execLdlStore (m : LdMem) (r : RegNo) (s : State) : Out := s.storeMem m (s.reg 32 r)

/-- LDRL into a register (R324). -/
def execLdrl (d : RegNo) (disp : Word) (s : State) : Out := s.loadRel 32 d disp

/-- LDRL into memory (R325). -/
def execLdrlStore (disp : Word) (r : RegNo) (s : State) : Out := s.storeRel disp (s.reg 32 r)

/-- LDB, compact immediate form (R314). -/
def execLdbCompact (d : RegNo) (v : Byte) (s : State) : Out := .next ((s.setRegB d v).skip 1)

/-- LDA (R319). -/
def execLda (d : RegNo) (src : LdaSrc) (s : State) : Out := s.loadAddr d (src.addr s) (1 + src.extra)

/-- LDAR (R320). -/
def execLdar (d : RegNo) (disp : Word) (s : State) : Out := s.loadAddr d (s.relative 2 disp) 2

/-- LDK (R321). -/
def execLdk (d : RegNo) (n : BitVec 4) (s : State) : Out := .next ((s.setRegW d (n.setWidth 16)).skip 1)

/-- LDM into registers (R322): the address is computed once. -/
def execLdmLoad (d : RegNo) (m : Mem) (k : BitVec 4) (s : State) : Out :=
  checked [m.addr s] (s.loadWords s.dataSp (m.addr s) (k.toNat + 1) (fun ws t =>
    .next ((t.setRegRun d ws).skip (2 + m.extra))))

/-- LDM into memory (R323). -/
def execLdmStore (m : Mem) (r : RegNo) (k : BitVec 4) (s : State) : Out :=
  checked [m.addr s] (s.storeWords s.dataSp (m.addr s) (s.regRun r (k.toNat + 1)) (fun t => .next (t.skip (2 + m.extra))))

/-- POP (R326). -/
def execPop (dst : Loc) (sp : RegNo) (s : State) : Out := s.popTo 16 dst sp

/-- POPL (R326). -/
def execPopl (dst : Loc) (sp : RegNo) (s : State) : Out := s.popTo 32 dst sp

/-- PUSH of a register or of memory (R327). -/
def execPush (sp : RegNo) (src : Loc) (s : State) : Out := s.pushLoc 16 sp src

/-- PUSH of an immediate (R327). -/
def execPushImm (sp : RegNo) (v : Word) (s : State) : Out := checked [s.addrReg sp] (s.pushVal sp v 2)

/-- PUSHL (R327). -/
def execPushl (sp : RegNo) (src : Loc) (s : State) : Out := s.pushLoc 32 sp src

end Sys2Proof.Machine
end

