-- ==== Sys2Proof/Machine/Logical.lean ====
section
/-!
DEFINITION. Sys2Proof/Machine/Logical.lean: the logical instructions (46_logical.md R350 to R356).
-/
namespace Sys2Proof.Machine

/-- A two-operand logical instruction (R351, R353, R356). -/
def State.logicSrc (s : State) {n : Nat} (f : BitVec n → BitVec n → BitVec n) (d : RegNo) (src : Src n) : Out :=
  checked (src.evens s) (src.fetch s (fun v t =>
    .next (((t.setReg d (f (s.reg n d) v)).withFcw (s.fcw.logic (f (s.reg n d) v))).skip (1 + src.extra))))

/-- COM (R352). -/
def State.complement (s : State) (n : Nat) (dst : Loc) : Out := s.modify n dst (fun v => (~~~v, s.fcw.logic (~~~v)))

/-- TEST and its kin: the flags f of the operand (R355). -/
def State.testLoc (s : State) (n : Nat) (dst : Loc) (f : BitVec n → Fcw) : Out :=
  checked (dst.evens s n) (dst.fetch s n (fun v t => .next ((t.withFcw (f v)).skip (1 + dst.extra))))

/-- TCC (R354). -/
def State.setOnCondition (s : State) (n : Nat) (c : Cc) (d : RegNo) : Out :=
  .next ((if s.fcw.holds c then s.setReg d (s.reg n d ||| 1) else s).skip 1)

/-- ANDB (R351). -/
def execAndb (d : RegNo) (src : Src 8) (s : State) : Out := s.logicSrc (· &&& ·) d src

/-- AND (R351). -/
def execAnd (d : RegNo) (src : Src 16) (s : State) : Out := s.logicSrc (· &&& ·) d src

/-- ORB (R353). -/
def execOrb (d : RegNo) (src : Src 8) (s : State) : Out := s.logicSrc (· ||| ·) d src

/-- OR (R353). -/
def execOr (d : RegNo) (src : Src 16) (s : State) : Out := s.logicSrc (· ||| ·) d src

/-- XORB (R356). -/
def execXorb (d : RegNo) (src : Src 8) (s : State) : Out := s.logicSrc (· ^^^ ·) d src

/-- XOR (R356). -/
def execXor (d : RegNo) (src : Src 16) (s : State) : Out := s.logicSrc (· ^^^ ·) d src

/-- COMB (R352). -/
def execComb (dst : Loc) (s : State) : Out := s.complement 8 dst

/-- TESTB (R355). -/
def execTestb (dst : Loc) (s : State) : Out := s.testLoc 8 dst s.fcw.logic

/-- TCCB (R354). -/
def execTccb (c : Cc) (d : RegNo) (s : State) : Out := s.setOnCondition 8 c d

/-- COM (R352). -/
def execCom (dst : Loc) (s : State) : Out := s.complement 16 dst

/-- TEST (R355). -/
def execTest (dst : Loc) (s : State) : Out := s.testLoc 16 dst s.fcw.logic

/-- TCC (R354). -/
def execTcc (c : Cc) (d : RegNo) (s : State) : Out := s.setOnCondition 16 c d

/-- TESTL (R355): P/V is undefined. -/
def execTestl (dst : Loc) (s : State) : Out :=
  s.testLoc 32 dst (fun v => { s.fcw with z := v == 0, s := v.msb, pv := s.undef1 .overflow })

end Sys2Proof.Machine
end

