-- ==== Sys2Proof/Machine/ProgramControl.lean ====
section
/-!
DEFINITION. Sys2Proof/Machine/ProgramControl.lean: jumps, calls, returns and system calls (47_program_control.md
R370 to R378).
-/
namespace Sys2Proof.Machine

/-- The call of an address from an instruction of `words` words (R371): the target is that of before the push. -/
def State.callTo (s : State) (t : Addr) (words : Nat) : Out :=
  checked [s.sp] (s.pushReturn (s.skip words).pc (fun u => .next (u.jump t)))

/-- CALL (R371). -/
def execCall (m : Mem) (s : State) : Out := s.callTo (m.addr s) (1 + m.extra)

/-- CALR (R372): the displacement in words is subtracted. -/
def execCalr (disp : BitVec 12) (s : State) : Out :=
  s.callTo ((s.skip 1).pc.plus (-(2 * disp.signExtend 16))) 1

/-- DJNZ and DBJNZ with a register of n bits (R373). -/
def State.decrementJump (s : State) (n : Nat) (r : RegNo) (disp : BitVec 7) : Out :=
  let v : BitVec n := s.reg n r - 1
  let t := (s.setReg r v).skip 1
  .next (if v = 0 then t else { t with pc := t.pc.plus (-(2 * disp.setWidth 16)) })

/-- DJNZ (R373). -/
def execDjnz (r : RegNo) (disp : BitVec 7) (s : State) : Out := s.decrementJump 16 r disp

/-- DBJNZ (R373). -/
def execDbjnz (r : RegNo) (disp : BitVec 7) (s : State) : Out := s.decrementJump 8 r disp

/-- IRET (R374). -/
def execIret (s : State) : Out := privileged .iret s s.leave

/-- JP (R375). -/
def execJp (c : Cc) (m : Mem) (s : State) : Out :=
  .next (if s.fcw.holds c then s.jump (m.addr s) else s.skip (1 + m.extra))

/-- JR (R376): the displacement in words is added to the address after the instruction. -/
def execJr (c : Cc) (disp : Byte) (s : State) : Out :=
  let t := s.skip 1
  .next (if s.fcw.holds c then { t with pc := t.pc.plus (2 * disp.signExtend 16) } else t)

/-- RET (R377). -/
def execRet (c : Cc) (s : State) : Out :=
  if s.fcw.holds c then
    checked [s.sp] (s.loadReturn (fun a t => .next ((t.setRegW 15 (s.sp.off + s.retSize)).jump a)))
  else .next (s.skip 1)

/-- SC (R378): the System Call Trap, with the instruction word as identifier. -/
def execSc (v : Byte) (s : State) : Out := s.enter .systemCall (firstWord (.sc v)) (s.pc.plus 2)

end Sys2Proof.Machine
end

