-- ==== Sys2Proof/Machine/RotateShift.lean ====
section
/-!
DEFINITION. Sys2Proof/Machine/RotateShift.lean: the rotates and shifts (48_rotate_shift.md R390 to R408).
-/
namespace Sys2Proof.Machine

/-- The start of a shift of register d: its value, the carry, no change of sign. -/
def State.shiftOf (s : State) (n : Nat) (d : RegNo) : Shift n := ⟨s.reg n d, s.fcw.c, false⟩

/-- A rotate of k steps (R392 to R396). -/
def State.rotate (s : State) (n : Nat) (f : Shift n → Shift n) (d : RegNo) (two : Bool) : Out :=
  let x := times f (if two then 2 else 1) (s.shiftOf n d)
  .next (((s.setReg d x.r).withFcw
    (s.fcw.shifted x.r x.c (Shift.overflow (s.reg n d) x (s.undef1 .overflow)))).skip 1)

/-- The carry of a shift of k steps: undefined for none (R390 c). -/
def State.shiftCarry (s : State) {n : Nat} (x : Shift n) (k : Nat) : Bool :=
  if k = 0 then s.undef1 .carry else x.c

/-- A shift of k steps with P/V by R391 (arithmetic shifts). -/
def State.shiftArith (s : State) (n : Nat) (f : Shift n → Shift n) (d : RegNo) (k : Nat) : Out :=
  let x := times f k (s.shiftOf n d)
  .next (((s.setReg d x.r).withFcw
    (s.fcw.shifted x.r (s.shiftCarry x k) (Shift.overflow (s.reg n d) x (s.undef1 .overflow)))).skip 2)

/-- A shift of k steps with P/V undefined (logical shifts). -/
def State.shiftLogical (s : State) (n : Nat) (f : Shift n → Shift n) (d : RegNo) (k : Nat) : Out :=
  let x := times f k (s.shiftOf n d)
  .next (((s.setReg d x.r).withFcw
    (s.fcw.shifted x.r (s.shiftCarry x k) (s.undef1 .overflow))).skip 2)

/-- A dynamic count: a word register as a signed number, from -n to n (R399, D15). -/
def State.withCount (s : State) (n : Nat) (r : RegNo) (k : Int → Out) : Out :=
  let c := (s.regW r).toInt
  if c < -(n : Int) ∨ (n : Int) < c then .fault .shiftCount else k c

/-- SDA and its kin (R399). -/
def State.shiftDynArith (s : State) (n : Nat) (d r : RegNo) : Out :=
  s.withCount n r (fun c =>
    if 0 ≤ c then s.shiftArith n Shift.shl d c.toNat else s.shiftArith n Shift.shrA d (-c).toNat)

/-- SDL and its kin (R400). -/
def State.shiftDynLogical (s : State) (n : Nat) (d r : RegNo) : Out :=
  s.withCount n r (fun c =>
    if 0 ≤ c then s.shiftLogical n Shift.shl d c.toNat else s.shiftLogical n Shift.shrL d (-c).toNat)

/-- The low digit of a byte. -/
def lowDigit (b : Byte) : BitVec 4 := b.extractLsb' 0 4
/-- The high digit of a byte. -/
def highDigit (b : Byte) : BitVec 4 := b.extractLsb' 4 4

/-- RLDB and RRDB leave `link` and `src` (R394, R397): Z from the link, S undefined. -/
def State.digits (s : State) (l r : RegNo) (link src : Byte) : Out :=
  .next ((((s.setRegB l link).setRegB r src).withFcw
    { s.fcw with z := link == 0, s := s.undef1 .sign }).skip 1)

/-- RLB (R392). -/
def execRlb (d : RegNo) (two : Bool) (s : State) : Out := s.rotate 8 Shift.rl d two

/-- RL (R392). -/
def execRl (d : RegNo) (two : Bool) (s : State) : Out := s.rotate 16 Shift.rl d two

/-- RLCB (R393). -/
def execRlcb (d : RegNo) (two : Bool) (s : State) : Out := s.rotate 8 Shift.rlc d two

/-- RLC (R393). -/
def execRlc (d : RegNo) (two : Bool) (s : State) : Out := s.rotate 16 Shift.rlc d two

/-- RRB (R395). -/
def execRrb (d : RegNo) (two : Bool) (s : State) : Out := s.rotate 8 Shift.rr d two

/-- RR (R395). -/
def execRr (d : RegNo) (two : Bool) (s : State) : Out := s.rotate 16 Shift.rr d two

/-- RRCB (R396). -/
def execRrcb (d : RegNo) (two : Bool) (s : State) : Out := s.rotate 8 Shift.rrc d two

/-- RRC (R396). -/
def execRrc (d : RegNo) (two : Bool) (s : State) : Out := s.rotate 16 Shift.rrc d two

/-- RLDB (R394). -/
def execRldb (l r : RegNo) (s : State) : Out :=
  s.digits l r (highDigit (s.regB l) ++ highDigit (s.regB r)) (lowDigit (s.regB r) ++ lowDigit (s.regB l))

/-- RRDB (R397). -/
def execRrdb (l r : RegNo) (s : State) : Out :=
  s.digits l r (highDigit (s.regB l) ++ lowDigit (s.regB r)) (lowDigit (s.regB l) ++ highDigit (s.regB r))

/-- SDAB (R399). -/
def execSdab (d r : RegNo) (s : State) : Out := s.shiftDynArith 8 d r

/-- SDA (R399). -/
def execSda (d r : RegNo) (s : State) : Out := s.shiftDynArith 16 d r

/-- SDAL (R399). -/
def execSdal (d r : RegNo) (s : State) : Out := s.shiftDynArith 32 d r

/-- SDLB (R400). -/
def execSdlb (d r : RegNo) (s : State) : Out := s.shiftDynLogical 8 d r

/-- SDL (R400). -/
def execSdl (d r : RegNo) (s : State) : Out := s.shiftDynLogical 16 d r

/-- SDLL (R400). -/
def execSdll (d r : RegNo) (s : State) : Out := s.shiftDynLogical 32 d r

/-- SLAB (R404). -/
def execSlab (d : RegNo) (k : Nat) (s : State) : Out := s.shiftArith 8 Shift.shl d k

/-- SLA (R404). -/
def execSla (d : RegNo) (k : Nat) (s : State) : Out := s.shiftArith 16 Shift.shl d k

/-- SLAL (R404). -/
def execSlal (d : RegNo) (k : Nat) (s : State) : Out := s.shiftArith 32 Shift.shl d k

/-- SLLB (R405). -/
def execSllb (d : RegNo) (k : Nat) (s : State) : Out := s.shiftLogical 8 Shift.shl d k

/-- SLL (R405). -/
def execSll (d : RegNo) (k : Nat) (s : State) : Out := s.shiftLogical 16 Shift.shl d k

/-- SLLL (R405). -/
def execSlll (d : RegNo) (k : Nat) (s : State) : Out := s.shiftLogical 32 Shift.shl d k

/-- SRAB (R406). -/
def execSrab (d : RegNo) (k : Nat) (s : State) : Out := s.shiftArith 8 Shift.shrA d k

/-- SRA (R406). -/
def execSra (d : RegNo) (k : Nat) (s : State) : Out := s.shiftArith 16 Shift.shrA d k

/-- SRAL (R406). -/
def execSral (d : RegNo) (k : Nat) (s : State) : Out := s.shiftArith 32 Shift.shrA d k

/-- SRLB (R407). -/
def execSrlb (d : RegNo) (k : Nat) (s : State) : Out := s.shiftLogical 8 Shift.shrL d k

/-- SRL (R407). -/
def execSrl (d : RegNo) (k : Nat) (s : State) : Out := s.shiftLogical 16 Shift.shrL d k

/-- SRLL (R407). -/
def execSrll (d : RegNo) (k : Nat) (s : State) : Out := s.shiftLogical 32 Shift.shrL d k

end Sys2Proof.Machine
end

