-- ==== Sys2Proof/Machine/Dispatch.lean ====
section
/-!
DEFINITION. Sys2Proof/Machine/Dispatch.lean: one arm for each constructor of Instr, each a call of its meaning.
-/
namespace Sys2Proof.Machine

def exec (i : Instr) (s : State) : Host.Outcome State Fault Refusal :=
  match i with
  | .adcb d r0 => Sys2Proof.Machine.execAdcb d r0 s
  | .adc d r0 => Sys2Proof.Machine.execAdc d r0 s
  | .addb d src => Sys2Proof.Machine.execAddb d src s
  | .add d src => Sys2Proof.Machine.execAdd d src s
  | .addl d src => Sys2Proof.Machine.execAddl d src s
  | .cpb d src => Sys2Proof.Machine.execCpb d src s
  | .cp d src => Sys2Proof.Machine.execCp d src s
  | .cpl d src => Sys2Proof.Machine.execCpl d src s
  | .cpbMem m v => Sys2Proof.Machine.execCpbMem m v s
  | .cpMem m v => Sys2Proof.Machine.execCpMem m v s
  | .dab d => Sys2Proof.Machine.execDab d s
  | .decb dst k => Sys2Proof.Machine.execDecb dst k s
  | .dec dst k => Sys2Proof.Machine.execDec dst k s
  | .div d src => Sys2Proof.Machine.execDiv d src s
  | .divl d src => Sys2Proof.Machine.execDivl d src s
  | .extsb d => Sys2Proof.Machine.execExtsb d s
  | .exts d => Sys2Proof.Machine.execExts d s
  | .extsl d => Sys2Proof.Machine.execExtsl d s
  | .incb dst k => Sys2Proof.Machine.execIncb dst k s
  | .inc dst k => Sys2Proof.Machine.execInc dst k s
  | .mult d src => Sys2Proof.Machine.execMult d src s
  | .multl d src => Sys2Proof.Machine.execMultl d src s
  | .negb dst => Sys2Proof.Machine.execNegb dst s
  | .neg dst => Sys2Proof.Machine.execNeg dst s
  | .sbcb d r0 => Sys2Proof.Machine.execSbcb d r0 s
  | .sbc d r0 => Sys2Proof.Machine.execSbc d r0 s
  | .subb d src => Sys2Proof.Machine.execSubb d src s
  | .sub d src => Sys2Proof.Machine.execSub d src s
  | .subl d src => Sys2Proof.Machine.execSubl d src s
  | .andb d src => Sys2Proof.Machine.execAndb d src s
  | .and d src => Sys2Proof.Machine.execAnd d src s
  | .comb dst => Sys2Proof.Machine.execComb dst s
  | .com dst => Sys2Proof.Machine.execCom dst s
  | .orb d src => Sys2Proof.Machine.execOrb d src s
  | .or d src => Sys2Proof.Machine.execOr d src s
  | .tccb c d => Sys2Proof.Machine.execTccb c d s
  | .tcc c d => Sys2Proof.Machine.execTcc c d s
  | .testb dst => Sys2Proof.Machine.execTestb dst s
  | .test dst => Sys2Proof.Machine.execTest dst s
  | .testl dst => Sys2Proof.Machine.execTestl dst s
  | .xorb d src => Sys2Proof.Machine.execXorb d src s
  | .xor d src => Sys2Proof.Machine.execXor d src s
  | .bitbStatic dst b => Sys2Proof.Machine.execBitbStatic dst b s
  | .bitStatic dst b => Sys2Proof.Machine.execBitStatic dst b s
  | .bitbDyn d r0 => Sys2Proof.Machine.execBitbDyn d r0 s
  | .bitDyn d r0 => Sys2Proof.Machine.execBitDyn d r0 s
  | .resbStatic dst b => Sys2Proof.Machine.execResbStatic dst b s
  | .resStatic dst b => Sys2Proof.Machine.execResStatic dst b s
  | .resbDyn d r0 => Sys2Proof.Machine.execResbDyn d r0 s
  | .resDyn d r0 => Sys2Proof.Machine.execResDyn d r0 s
  | .setbStatic dst b => Sys2Proof.Machine.execSetbStatic dst b s
  | .setStatic dst b => Sys2Proof.Machine.execSetStatic dst b s
  | .setbDyn d r0 => Sys2Proof.Machine.execSetbDyn d r0 s
  | .setDyn d r0 => Sys2Proof.Machine.execSetDyn d r0 s
  | .tsetb dst => Sys2Proof.Machine.execTsetb dst s
  | .tset dst => Sys2Proof.Machine.execTset dst s
  | .rlb d two => Sys2Proof.Machine.execRlb d two s
  | .rl d two => Sys2Proof.Machine.execRl d two s
  | .rlcb d two => Sys2Proof.Machine.execRlcb d two s
  | .rlc d two => Sys2Proof.Machine.execRlc d two s
  | .rrb d two => Sys2Proof.Machine.execRrb d two s
  | .rr d two => Sys2Proof.Machine.execRr d two s
  | .rrcb d two => Sys2Proof.Machine.execRrcb d two s
  | .rrc d two => Sys2Proof.Machine.execRrc d two s
  | .rldb link src => Sys2Proof.Machine.execRldb link src s
  | .rrdb link src => Sys2Proof.Machine.execRrdb link src s
  | .sdab d r0 => Sys2Proof.Machine.execSdab d r0 s
  | .sda d r0 => Sys2Proof.Machine.execSda d r0 s
  | .sdal d r0 => Sys2Proof.Machine.execSdal d r0 s
  | .sdlb d r0 => Sys2Proof.Machine.execSdlb d r0 s
  | .sdl d r0 => Sys2Proof.Machine.execSdl d r0 s
  | .sdll d r0 => Sys2Proof.Machine.execSdll d r0 s
  | .slab d n => Sys2Proof.Machine.execSlab d n s
  | .sla d n => Sys2Proof.Machine.execSla d n s
  | .slal d n => Sys2Proof.Machine.execSlal d n s
  | .sllb d n => Sys2Proof.Machine.execSllb d n s
  | .sll d n => Sys2Proof.Machine.execSll d n s
  | .slll d n => Sys2Proof.Machine.execSlll d n s
  | .srab d n => Sys2Proof.Machine.execSrab d n s
  | .sra d n => Sys2Proof.Machine.execSra d n s
  | .sral d n => Sys2Proof.Machine.execSral d n s
  | .srlb d n => Sys2Proof.Machine.execSrlb d n s
  | .srl d n => Sys2Proof.Machine.execSrl d n s
  | .srll d n => Sys2Proof.Machine.execSrll d n s
  | .clrb dst => Sys2Proof.Machine.execClrb dst s
  | .clr dst => Sys2Proof.Machine.execClr dst s
  | .exb d src => Sys2Proof.Machine.execExb d src s
  | .ex d src => Sys2Proof.Machine.execEx d src s
  | .ldb d src => Sys2Proof.Machine.execLdb d src s
  | .ld d src => Sys2Proof.Machine.execLd d src s
  | .ldl d src => Sys2Proof.Machine.execLdl d src s
  | .ldbCompact d v => Sys2Proof.Machine.execLdbCompact d v s
  | .ldbStore m r0 => Sys2Proof.Machine.execLdbStore m r0 s
  | .ldStore m r0 => Sys2Proof.Machine.execLdStore m r0 s
  | .ldlStore m r0 => Sys2Proof.Machine.execLdlStore m r0 s
  | .ldbImm m v => Sys2Proof.Machine.execLdbImm m v s
  | .ldImm m v => Sys2Proof.Machine.execLdImm m v s
  | .lda d src => Sys2Proof.Machine.execLda d src s
  | .ldar d disp => Sys2Proof.Machine.execLdar d disp s
  | .ldk d n => Sys2Proof.Machine.execLdk d n s
  | .ldmLoad d m k => Sys2Proof.Machine.execLdmLoad d m k s
  | .ldmStore m r0 k => Sys2Proof.Machine.execLdmStore m r0 k s
  | .ldrb d disp => Sys2Proof.Machine.execLdrb d disp s
  | .ldr d disp => Sys2Proof.Machine.execLdr d disp s
  | .ldrl d disp => Sys2Proof.Machine.execLdrl d disp s
  | .ldrbStore disp r0 => Sys2Proof.Machine.execLdrbStore disp r0 s
  | .ldrStore disp r0 => Sys2Proof.Machine.execLdrStore disp r0 s
  | .ldrlStore disp r0 => Sys2Proof.Machine.execLdrlStore disp r0 s
  | .pop dst sp => Sys2Proof.Machine.execPop dst sp s
  | .popl dst sp => Sys2Proof.Machine.execPopl dst sp s
  | .push sp src => Sys2Proof.Machine.execPush sp src s
  | .pushImm sp v => Sys2Proof.Machine.execPushImm sp v s
  | .pushl sp src => Sys2Proof.Machine.execPushl sp src s
  | .cpib rs r rd c => Sys2Proof.Machine.execCpib rs r rd c s
  | .cpi rs r rd c => Sys2Proof.Machine.execCpi rs r rd c s
  | .cpirb rs r rd c => Sys2Proof.Machine.execCpirb rs r rd c s
  | .cpir rs r rd c => Sys2Proof.Machine.execCpir rs r rd c s
  | .cpdb rs r rd c => Sys2Proof.Machine.execCpdb rs r rd c s
  | .cpd rs r rd c => Sys2Proof.Machine.execCpd rs r rd c s
  | .cpdrb rs r rd c => Sys2Proof.Machine.execCpdrb rs r rd c s
  | .cpdr rs r rd c => Sys2Proof.Machine.execCpdr rs r rd c s
  | .cpsib rs r rd c => Sys2Proof.Machine.execCpsib rs r rd c s
  | .cpsi rs r rd c => Sys2Proof.Machine.execCpsi rs r rd c s
  | .cpsirb rs r rd c => Sys2Proof.Machine.execCpsirb rs r rd c s
  | .cpsir rs r rd c => Sys2Proof.Machine.execCpsir rs r rd c s
  | .cpsdb rs r rd c => Sys2Proof.Machine.execCpsdb rs r rd c s
  | .cpsd rs r rd c => Sys2Proof.Machine.execCpsd rs r rd c s
  | .cpsdrb rs r rd c => Sys2Proof.Machine.execCpsdrb rs r rd c s
  | .cpsdr rs r rd c => Sys2Proof.Machine.execCpsdr rs r rd c s
  | .ldib rs r rd => Sys2Proof.Machine.execLdib rs r rd s
  | .ldi rs r rd => Sys2Proof.Machine.execLdi rs r rd s
  | .ldirb rs r rd => Sys2Proof.Machine.execLdirb rs r rd s
  | .ldir rs r rd => Sys2Proof.Machine.execLdir rs r rd s
  | .lddb rs r rd => Sys2Proof.Machine.execLddb rs r rd s
  | .ldd rs r rd => Sys2Proof.Machine.execLdd rs r rd s
  | .lddrb rs r rd => Sys2Proof.Machine.execLddrb rs r rd s
  | .lddr rs r rd => Sys2Proof.Machine.execLddr rs r rd s
  | .trib rd r rs => Sys2Proof.Machine.execTrib rd r rs s
  | .trirb rd r rs => Sys2Proof.Machine.execTrirb rd r rs s
  | .trdb rd r rs => Sys2Proof.Machine.execTrdb rd r rs s
  | .trdrb rd r rs => Sys2Proof.Machine.execTrdrb rd r rs s
  | .trtib ra r rb => Sys2Proof.Machine.execTrtib ra r rb s
  | .trtirb ra r rb => Sys2Proof.Machine.execTrtirb ra r rb s
  | .trtdb ra r rb => Sys2Proof.Machine.execTrtdb ra r rb s
  | .trtdrb ra r rb => Sys2Proof.Machine.execTrtdrb ra r rb s
  | .comflg mask => Sys2Proof.Machine.execComflg mask s
  | .resflg mask => Sys2Proof.Machine.execResflg mask s
  | .setflg mask => Sys2Proof.Machine.execSetflg mask s
  | .nop => Sys2Proof.Machine.execNop s
  | .ei v n => Sys2Proof.Machine.execEi v n s
  | .di v n => Sys2Proof.Machine.execDi v n s
  | .halt => Sys2Proof.Machine.execHalt s
  | .ldctlFrom d c => Sys2Proof.Machine.execLdctlFrom d c s
  | .ldctlTo c r0 => Sys2Proof.Machine.execLdctlTo c r0 s
  | .ldctlbFrom d => Sys2Proof.Machine.execLdctlbFrom d s
  | .ldctlbTo r0 => Sys2Proof.Machine.execLdctlbTo r0 s
  | .ldps m => Sys2Proof.Machine.execLdps m s
  | .mset => Sys2Proof.Machine.execMset s
  | .mres => Sys2Proof.Machine.execMres s
  | .mbit => Sys2Proof.Machine.execMbit s
  | .mreq d => Sys2Proof.Machine.execMreq d s
  | .inb d p => Sys2Proof.Machine.execInb d p s
  | .inw d p => Sys2Proof.Machine.execInw d p s
  | .sinb d port => Sys2Proof.Machine.execSinb d port s
  | .sin d port => Sys2Proof.Machine.execSin d port s
  | .outb p r0 => Sys2Proof.Machine.execOutb p r0 s
  | .outw p r0 => Sys2Proof.Machine.execOutw p r0 s
  | .soutb port r0 => Sys2Proof.Machine.execSoutb port r0 s
  | .sout port r0 => Sys2Proof.Machine.execSout port r0 s
  | .inib rs r rd => Sys2Proof.Machine.execInib rs r rd s
  | .ini rs r rd => Sys2Proof.Machine.execIni rs r rd s
  | .inirb rs r rd => Sys2Proof.Machine.execInirb rs r rd s
  | .inir rs r rd => Sys2Proof.Machine.execInir rs r rd s
  | .sinib rs r rd => Sys2Proof.Machine.execSinib rs r rd s
  | .sini rs r rd => Sys2Proof.Machine.execSini rs r rd s
  | .sinirb rs r rd => Sys2Proof.Machine.execSinirb rs r rd s
  | .sinir rs r rd => Sys2Proof.Machine.execSinir rs r rd s
  | .indb rs r rd => Sys2Proof.Machine.execIndb rs r rd s
  | .ind rs r rd => Sys2Proof.Machine.execInd rs r rd s
  | .indrb rs r rd => Sys2Proof.Machine.execIndrb rs r rd s
  | .indr rs r rd => Sys2Proof.Machine.execIndr rs r rd s
  | .sindb rs r rd => Sys2Proof.Machine.execSindb rs r rd s
  | .sind rs r rd => Sys2Proof.Machine.execSind rs r rd s
  | .sindrb rs r rd => Sys2Proof.Machine.execSindrb rs r rd s
  | .sindr rs r rd => Sys2Proof.Machine.execSindr rs r rd s
  | .outib rs r rd => Sys2Proof.Machine.execOutib rs r rd s
  | .outi rs r rd => Sys2Proof.Machine.execOuti rs r rd s
  | .otirb rs r rd => Sys2Proof.Machine.execOtirb rs r rd s
  | .otir rs r rd => Sys2Proof.Machine.execOtir rs r rd s
  | .soutib rs r rd => Sys2Proof.Machine.execSoutib rs r rd s
  | .souti rs r rd => Sys2Proof.Machine.execSouti rs r rd s
  | .sotirb rs r rd => Sys2Proof.Machine.execSotirb rs r rd s
  | .sotir rs r rd => Sys2Proof.Machine.execSotir rs r rd s
  | .outdb rs r rd => Sys2Proof.Machine.execOutdb rs r rd s
  | .outd rs r rd => Sys2Proof.Machine.execOutd rs r rd s
  | .otdrb rs r rd => Sys2Proof.Machine.execOtdrb rs r rd s
  | .otdr rs r rd => Sys2Proof.Machine.execOtdr rs r rd s
  | .soutdb rs r rd => Sys2Proof.Machine.execSoutdb rs r rd s
  | .soutd rs r rd => Sys2Proof.Machine.execSoutd rs r rd s
  | .sotdrb rs r rd => Sys2Proof.Machine.execSotdrb rs r rd s
  | .sotdr rs r rd => Sys2Proof.Machine.execSotdr rs r rd s
  | .call m => Sys2Proof.Machine.execCall m s
  | .calr disp => Sys2Proof.Machine.execCalr disp s
  | .djnz r disp => Sys2Proof.Machine.execDjnz r disp s
  | .dbjnz r disp => Sys2Proof.Machine.execDbjnz r disp s
  | .iret => Sys2Proof.Machine.execIret s
  | .jp c m => Sys2Proof.Machine.execJp c m s
  | .jr c disp => Sys2Proof.Machine.execJr c disp s
  | .ret c => Sys2Proof.Machine.execRet c s
  | .sc v => Sys2Proof.Machine.execSc v s
  | .epaMemFromEpu sel lo m w1 => Sys2Proof.Machine.execEpaMemFromEpu sel lo m w1 s
  | .epaEpuFromMem sel lo m w1 => Sys2Proof.Machine.execEpaEpuFromMem sel lo m w1 s
  | .epaCpuFromEpu w0 w1 => Sys2Proof.Machine.execEpaCpuFromEpu w0 w1 s
  | .epaEpuFromCpu w0 w1 => Sys2Proof.Machine.execEpaEpuFromCpu w0 w1 s
  | .epaFcwFromEpu w0 w1 => Sys2Proof.Machine.execEpaFcwFromEpu w0 w1 s
  | .epaEpuFromFcw w0 w1 => Sys2Proof.Machine.execEpaEpuFromFcw w0 w1 s
  | .epaInternal w0 w1 => Sys2Proof.Machine.execEpaInternal w0 w1 s
  | .rsvd w => Sys2Proof.Machine.execRsvd w s

end Sys2Proof.Machine
end

