-- ==== Sys2Proof/Machine/Fetch.lean ====
section
/-!
DEFINITION. Sys2Proof/Machine/Fetch.lean: what the step does around an instruction: the environment's events, the
sampling of requests and their acknowledge (60_exceptions.md R450 to R453), the CPU states (R485 to R493), fetching and
decoding, and the store rule (20_memory.md R84).
-/
namespace Sys2Proof.Machine

/-! ## The environment's script -/

/-- No input line is active. An NMI that is acknowledged reads an open identifier (60_exceptions.md R453). -/
def State.idleLines (s : State) : Lines := ⟨false, false, false, s.undef16 .ackId⟩

/-- What the environment does in this step; after the end of its script the CPU runs with no line active. -/
def State.event (s : State) : EnvEvent := s.env.events.headD (.run s.idleLines)

/-- The event is consumed. -/
def State.popEvent (s : State) : State := { s with env := { s.env with events := s.env.events.tail } }

/-- A step advances the counter of undefined values. -/
def bump : Out → Out
  | .next t => .next { t with draws := t.draws + 1 }
  | .fault r => .fault r
  | .refused r => .refused r

/-! ## Requests -/

/-- The request accepted at a sampling point, by priority (60_exceptions.md R451). -/
def State.pick (s : State) (l : Lines) : Option Exc :=
  if s.nmiLatch then some .nmi
  else if l.segt && s.isZ8001 then some .segmentTrap
  else if l.vi && s.sampleVie then some .vi
  else if l.nvi && s.sampleNvie then some .nvi
  else none

/-- The request of this step, none where no sampling point stands before the fetch (R450). -/
def State.request (s : State) (l : Lines) : Option Exc := if s.sampleDue then s.pick l else none

/-- The aborted fetch (R450, 20_memory.md R72; in the program space of the interrupted mode, the model's choice: log entry
57), the acknowledge transaction (R453), which clears the NMI latch for an
NMI (R447), and the entry with the current PC saved (R452, R454). -/
def State.accept (s : State) (k : Exc) (l : Lines) : Out :=
  s.turn (fun t => (t.record (.abortedFetch t.progSp t.pc)).turn (fun u =>
    State.enter { u.record (.acknowledge k l.ackId) with nmiLatch := if k = .nmi then false else u.nmiLatch }
      k l.ackId u.pc))

/-! ## CPU states -/

/-- STOP is High again: one more refresh cycle (R488). -/
def State.leaveStop (s : State) : State :=
  if s.cpuState = .stopRefresh then { s.refreshCycles 1 with cpuState := .running } else s

/-- The bus is the CPU's again (R487, R491). -/
def State.leaveBusDisconnect (s : State) : State :=
  if s.cpuState = .busDisconnect then { s.regainBus with cpuState := .running } else s

/-- The Stop/Refresh state begins with one refresh cycle, whatever RE is (R488). The sample before the fetch is taken:
when STOP is High again the original instruction goes on (R493). -/
def State.enterStop (s : State) : State :=
  { s.refreshCycles 1 with cpuState := .stopRefresh, sampleDue := false }

/-- STOP is Low at the fetch of an instruction: a request is accepted first (R450); else the CPU is held in the fetch. A
halted CPU is held too (43_cpu_control.md R245); it goes on sampling afterwards. -/
def State.stopFetch (s : State) (l : Lines) : Out :=
  match s.request l with
  | some k => s.accept k l
  | none =>
    if s.halted then .next { s.enterStop with sampleDue := s.sampleDue }
    else if s.pc.off.getLsbD 0 then .fault .oddPc
    else .next s.enterStop

/-- A step with STOP Low: in the Stop/Refresh state one more refresh cycle (R488). The reset reads are no instruction
fetches (R493). -/
def State.onStop (s : State) (l : Lines) : Out :=
  if s.cpuState = .stopRefresh then .next (s.refreshCycles 1)
  else if s.resetDue then s.leaveBusDisconnect.resetReads
  else s.leaveBusDisconnect.stopFetch l

/-- A step with the bus granted (R491). In the Stop/Refresh state the CPU is inside a transaction and does not grant the
bus (R490): one more refresh cycle. -/
def State.onBusGrant (s : State) (elapsed : Nat) (writes : List Host.Cell) : State :=
  if s.cpuState = .stopRefresh then s.refreshCycles 1
  else { s.grantBus elapsed writes with cpuState := .busDisconnect }

/-! ## Fetching -/

/-- Instruction word k at an address (20_memory.md R71). -/
def State.instrWord (s : State) (a : Addr) (k : Nat) : Word := s.wordAt s.progSp (a.plus (BitVec.ofNat 16 (2 * k)))

/-- Word k of the instruction at the PC is fetched from the program space of the mode (R61, R62): one transaction. -/
def State.fetchWord (s : State) (k : Nat) (f : Word → State → Out) : Out :=
  s.turn (fun t => f (t.instrWord t.pc k)
    (t.record (.fetch (k == 0) t.progSp (t.pc.plus (BitVec.ofNat 16 (2 * k))) (t.instrWord t.pc k))))

/-- Up to n further words of the instruction at the PC are fetched, while those at hand call for more (30_encoding.md
R101). -/
def State.fetchMore (s : State) (ws : List Word) : Nat → (List Word → State → Out) → Out
  | 0, k => k ws s
  | n + 1, k =>
    if ws.length < wordsOf s.segmented (ws.getD 0 0) (ws.getD 1 0) (ws.getD 2 0) then
      s.fetchWord ws.length (fun w t => t.fetchMore (ws ++ [w]) n k)
    else k ws s

/-- The instruction that the fetched words begin with. The words behind them in memory are shown to the decoder, which
does not use them (log entry 56). -/
def State.decodeFetched (s : State) (ws : List Word) : Except Reject Instr :=
  let w (k : Nat) : Word := ws.getD k (s.instrWord s.pc k)
  decode s.params.epaMap s.segmented (w 0) (w 1) (w 2) (w 3)

/-- How many words the words at an address call for. -/
def State.lengthAt (s : State) (a : Addr) : Nat :=
  wordsOf s.segmented (s.instrWord a 0) (s.instrWord a 1) (s.instrWord a 2)

/-- The extended upper bytes (30_encoding.md R135). -/
def extendedUpper (w : Word) : Bool :=
  [0x0E#8, 0x0F#8, 0x4E#8, 0x4F#8, 0x8E#8, 0x8F#8].contains (hiByte w)

/-- The upper bytes of the privileged instructions (30_encoding.md R136). -/
def privilegedUpper (w : Word) : Bool :=
  [0x39#8, 0x79#8, 0x3A#8, 0x3B#8, 0x3C#8, 0x3D#8, 0x3E#8, 0x3F#8, 0x7A#8, 0x7B#8, 0x7C#8, 0x7D#8].contains (hiByte w)

/-- The trap that a first word takes before any further word is fetched, whatever those words are: an extended upper
byte with EPA = 0, a privileged one in normal mode (30_encoding.md R135 to R137; log entries 5 and 46). -/
def State.firstWordTrap (s : State) (w0 : Word) : Option Out :=
  if extendedUpper w0 && !s.fcw.epa then
    some (s.extendedTrap w0 (templateWords s.params.epaMap s.segmented w0 (s.instrWord s.pc 2)))
  else if privilegedUpper w0 && !s.fcw.sn then some (s.enter .privilegedInstruction w0 (s.pc.plus 2))
  else none

/-- STOP is Low before the second word of an extended instruction (60_exceptions.md R488). -/
def State.stopAhead (s : State) (w0 : Word) : Bool := extendedUpper w0 && s.env.bus.head? == some .stop

/-- Before an instruction runs: a sampling point will stand after it, with the enables as they are now (10_state.md
R42, 60_exceptions.md R450). -/
def State.begin (s : State) : State :=
  { s with sampleDue := true, sampleVie := s.fcw.vie, sampleNvie := s.fcw.nvie }

/-! ## Stores into the next instruction (20_memory.md R84) -/

/-- The instructions a store may have come too late for: the next one; and where the PC did not move, the one after the
instruction of `words` words too, for a repeating instruction under way, and so for a call, trap or jump to itself: the
model's choice, as is that an odd PC has no instruction at it (log entry 24). -/
def followers (s t : State) (words : Nat) : List Addr :=
  (if t.pc = s.pc then [t.pc, s.pc.plus (BitVec.ofNat 16 (2 * words))] else [t.pc]).filter
    (fun a => !a.off.getLsbD 0)

/-- The keys of the bytes of the instruction at an address. -/
def State.instrKeys (s : State) (a : Addr) : List Nat :=
  (List.range (2 * s.lengthAt a)).map (fun j => s.key s.progSp (a.plus (BitVec.ofNat 16 j)))

/-- The cells a write transaction of the CPU stores into. -/
def State.cellsOf (s : State) : BusEvent → List Host.Cell
  | .memWrite sp true a v => [(s.key sp a, loByte v)]
  | .memWrite sp false a v => [(s.key sp a, hiByte v), (s.key sp (a.plus 1), loByte v)]
  | _ => []

/-- The cells another bus master stores into. -/
def grantedCells : BusEvent → List Host.Cell
  | .busGranted ws => ws
  | _ => []

/-- Some write of the CPU among these transactions, the oldest first, changes a byte with one of the keys; m is memory
before them. -/
def storeChanges (s : State) (keys : List Nat) (m : List Host.Cell) : List BusEvent → Bool
  | [] => false
  | e :: es =>
    (s.cellsOf e).any (fun c => keys.contains c.1 && memRead m c.1 != c.2) ||
      storeChanges s keys ((s.cellsOf e ++ grantedCells e).foldl (fun m c => memWrite m c.1 c.2) m) es

/-- The transactions from s to t, the oldest first. -/
def transactions (s t : State) : List BusEvent := (t.busLog.take (t.busLog.length - s.busLog.length)).reverse

/-- The instruction of `words` words that led from s to t stored into an instruction that comes next (D10). A reset
leaves no instruction that comes next. -/
def clobbers (s t : State) (words : Nat) : Bool :=
  !t.resetDue && storeChanges s ((followers s t words).flatMap t.instrKeys) s.mem (transactions s t)

/-- An outcome of an instruction of `words` words at s, with the store rule applied. -/
def guardStore (s : State) (words : Nat) : Out → Out
  | .next t => if clobbers s t words then .fault .storeIntoNextInstruction else .next t
  | .fault r => .fault r
  | .refused r => .refused r

/-- The four words of a table row put in memory from the PC on, in the current program space. -/
def State.placeWords (s : State) (nbits w : Nat) : State :=
  s.putWords s.progSp s.pc ((List.range 4).map (tableWord nbits w))

end Sys2Proof.Machine
end

