-- ==== Sys2Proof/Machine/Step.lean ====
section
/-!
DEFINITION. Sys2Proof/Machine/Step.lean: one step of the machine. The environment's event decides: reset, an NMI
edge, STOP, a bus grant, or a run of the CPU, which accepts a request or carries out one instruction.
-/
namespace Sys2Proof.Machine

/-- The fetched words are decoded and carried out. -/
def State.runWords (s : State) (ws : List Word) : Out :=
  match s.decodeFetched ws with
  | .ok i => guardStore s (encode i).length (exec i s)
  | .error r => .refused (.encoding r)

/-- The instruction with the first word w0, which is fetched, is carried out (30_encoding.md R137). -/
def State.runFrom (s : State) (w0 : Word) : Out :=
  match s.firstWordTrap w0 with
  | some o => guardStore s (s.lengthAt s.pc) o
  | none =>
    if s.stopAhead w0 then .next { s.popBus.enterStop with heldWord := some w0 }
    else s.fetchMore [w0] 3 (fun ws t => t.runWords ws)

/-- The instruction at the PC is fetched, decoded and carried out. -/
def State.runInstr (s : State) : Out :=
  if s.pc.off.getLsbD 0 then .fault .oddPc else s.begin.fetchWord 0 (fun w0 t => t.runFrom w0)

/-- The CPU runs with these inputs: the reset reads, the instruction STOP has held, a request, the halted condition, or
an instruction (60_exceptions.md R452). -/
def State.runWith (s : State) (l : Lines) : Out :=
  if s.resetDue then s.resetReads
  else match s.heldWord with
    | some w0 => State.runFrom { s.begin with heldWord := none } w0
    | none =>
      match s.request l with
      | some k => s.accept k l
      | none => if s.halted then .next s else s.runInstr

/-- What the environment's event does to s. -/
def State.handle (s : State) : EnvEvent → Out
  | .reset clocks => s.onReset clocks
  | .nmiEdge => .next { s with nmiLatch := true }
  | .stop l => s.onStop l
  | .busGrant elapsed writes => .next (s.onBusGrant elapsed writes)
  | .run l => s.leaveBusDisconnect.leaveStop.runWith l

/-- One step. -/
def step (s : State) : Host.Outcome State Fault Refusal := bump (s.popEvent.handle s.event)

/-- The instruction of a row of the op code table stored where the next step fetches, with nothing else due before
it (log entry 50). -/
def State.withFetchWord (s : State) (nbits w : Nat) : State :=
  { s.placeWords nbits w with
    sampleDue := false
    halted    := false
    resetDue  := false
    heldWord  := none
    cpuState  := .running
    env       := { s.env with events := [], bus := [] } }

end Sys2Proof.Machine
end

