-- ==== Sys2Proof/Safety.lean ====
section
/-!
DEFINITION. Sys2Proof/Safety.lean: the invariant of the machine and what a safe run is, in the terms the claims
use.
-/
namespace Sys2Proof
namespace Machine

/-- What every reachable state has: memory in its canonical form; at most two skipped refreshes (60_exceptions.md
R487); a first word held only in the Stop/Refresh state (R488), and none
after a reset; on a Z8002 no segmented mode and no segment number in
the PC (10_state.md R25, R28). -/
structure Inv (s : State) : Prop where
  memory  : Memory.wf s.mem
  skipped : s.skipped ≤ 2
  held    : s.heldWord ≠ none → s.cpuState = .stopRefresh
  noHeld  : s.resetDue = true → s.heldWord = none
  noSeg   : s.isZ8001 = false → s.fcw.seg = false
  noSegPc : s.isZ8001 = false → s.pc.seg = 0

/-! ## What one instruction changes -/

/-- Every address of the list is even (20_memory.md R68). -/
def AllEven (as : List Addr) : Prop := ∀ a ∈ as, a.off.getLsbD 0 = false

/-- Every word register but those named (in the mode of s) is unchanged, the other bank among them. -/
def OnlyRegs (s t : State) (l : List RegNo) : Prop :=
  ∀ p : Fin 18, (∀ r ∈ l, p ≠ s.phys r) → t.regs.get p = s.regs.get p

/-- Every byte of memory reads as before. -/
def SameMem (s t : State) : Prop := ∀ sp a, t.byteAt sp a = s.byteAt sp a

/-- Every byte of memory but the k bytes from an address on reads as before. -/
def OnlyMem (s t : State) (sp : Space) (a : Addr) (k : Nat) : Prop :=
  ∀ sp' a', (∀ j < k, s.key sp' a' ≠ s.key sp (a.plus (BitVec.ofNat 16 j))) → t.byteAt sp' a' = s.byteAt sp' a'

/-- Nothing of the environment comes between the transactions: no bus grant, no reset (20_memory.md R80). -/
def Alone (s : State) : Prop := s.env.bus = []

/-- Everything but registers, FCW, PC and memory is unchanged: control registers, latches, CPU state, script,
parameters. The record has grown by the transactions of `log`, the newest first. -/
def Quiet (s t : State) (log : List BusEvent := []) : Prop :=
  { t with regs := s.regs, fcw := s.fcw, pc := s.pc, mem := s.mem, busLog := s.busLog } = s ∧
    t.busLog = log ++ s.busLog

/-- As `Quiet`, but the record and the input script may change too (input, output, extended instructions). -/
def QuietCpu (s t : State) : Prop :=
  { t with regs := s.regs, fcw := s.fcw, pc := s.pc, mem := s.mem, busLog := s.busLog, env := s.env } = s

/-- The PC is past the instruction's words, in the same segment (10_state.md R26). -/
def Advances (s t : State) (words : Nat) : Prop := t.pc = s.pc.plus (BitVec.ofNat 16 (2 * words))

/-- The word registers a register operand of n bits is made of (10_state.md R21). -/
def regsOf (n : Nat) (r : RegNo) : List RegNo :=
  if n = 8 then [byteHome r] else if n = 16 then [r] else if n = 32 then [r, r + 1] else [r, r + 1, r + 2, r + 3]

/-! ## Transactions of an instruction, the newest first -/

/-- The transactions of a read of n bits of memory (20_memory.md R66, R70). -/
def readEvents (s : State) (n : Nat) (sp : Space) (a : Addr) : List BusEvent :=
  if n = 8 then [.memRead sp true a ((s.byteAt sp a).setWidth 16)]
  else if n = 16 then [.memRead sp false a (s.wordAt sp a)]
  else [.memRead sp false (a.plus 2) (s.wordAt sp (a.plus 2)), .memRead sp false a (s.wordAt sp a)]

/-- The transactions of a write of n bits to memory. -/
def writeEvents {n : Nat} (sp : Space) (a : Addr) (v : BitVec n) : List BusEvent :=
  if n = 8 then [.memWrite sp true a (v.setWidth 16)]
  else if n = 16 then [.memWrite sp false a (v.setWidth 16)]
  else [.memWrite sp false (a.plus 2) (loWord (v.setWidth 32)), .memWrite sp false a (hiWord (v.setWidth 32))]

/-- The reads of k words at successive addresses. -/
def readRun (s : State) (sp : Space) (a : Addr) (k : Nat) : List BusEvent :=
  ((List.range k).map (fun j => .memRead sp false (a.plus (BitVec.ofNat 16 (2 * j)))
    (s.wordAt sp (a.plus (BitVec.ofNat 16 (2 * j)))))).reverse

/-- The writes of words at successive addresses. -/
def writeRun (sp : Space) (a : Addr) (ws : List Word) : List BusEvent :=
  ((List.range ws.length).map (fun j => .memWrite sp false (a.plus (BitVec.ofNat 16 (2 * j))) (ws.getD j 0))).reverse

/-- The fetches of instruction words `first` up to `last` - 1 at the PC. -/
def fetchRun (s : State) (first last : Nat) : List BusEvent :=
  ((List.range' first (last - first)).map (fun k =>
    .fetch (k == 0) s.progSp (s.pc.plus (BitVec.ofNat 16 (2 * k))) (s.instrWord s.pc k))).reverse

/-- The state after the transactions of `log`, the newest first, that change nothing else. -/
def State.logged (s : State) (log : List BusEvent) : State := { s with busLog := log ++ s.busLog }

/-- Words put at falling addresses below one, in order. -/
def State.putBelow (s : State) (sp : Space) (a : Addr) : List Word → State
  | [] => s
  | w :: ws => (s.putWord sp (a.plus (-2)) w).putBelow sp (a.plus (-2)) ws

end Machine

/-! ## Operands: the value, the transactions, and when the access completes as one -/

open Machine

/-- The value of a general source. -/
def Src.val (s : State) {n : Nat} : Src n → BitVec n
  | .reg r => s.reg n r
  | .imm v => v
  | .mem m => s.readMem n s.dataSp (m.addr s)

/-- The transactions of its read. -/
def Src.reads (s : State) {n : Nat} : Src n → List BusEvent
  | .mem m => readEvents s n s.dataSp (m.addr s)
  | _ => []

/-- An operand in memory is at an even address where it has to be, and nothing comes between the transactions. -/
def Src.Ready (s : State) {n : Nat} : Src n → Prop
  | .mem m => AllEven (Machine.evens n (m.addr s)) ∧ Alone s
  | _ => True

/-- The value of a general operand of n bits. -/
def Loc.val (s : State) (n : Nat) : Loc → BitVec n
  | .reg r => s.reg n r
  | .mem m => s.readMem n s.dataSp (m.addr s)

/-- The transactions of its read. -/
def Loc.reads (s : State) (n : Nat) : Loc → List BusEvent
  | .mem m => readEvents s n s.dataSp (m.addr s)
  | _ => []

/-- The transactions of the write of v to it. -/
def Loc.writes (s : State) {n : Nat} (v : BitVec n) : Loc → List BusEvent
  | .mem m => writeEvents s.dataSp (m.addr s) v
  | _ => []

/-- As `Src.Ready`. -/
def Loc.Ready (s : State) (n : Nat) : Loc → Prop
  | .mem m => AllEven (Machine.evens n (m.addr s)) ∧ Alone s
  | _ => True

/-- The value of a source of LD. -/
def LdSrc.val (s : State) {n : Nat} : LdSrc n → BitVec n
  | .reg r => s.reg n r
  | .imm v => v
  | .mem m => s.readMem n s.dataSp (m.addr s)

/-- The transactions of its read. -/
def LdSrc.reads (s : State) {n : Nat} : LdSrc n → List BusEvent
  | .mem m => readEvents s n s.dataSp (m.addr s)
  | _ => []

/-- As `Src.Ready`. -/
def LdSrc.Ready (s : State) {n : Nat} : LdSrc n → Prop
  | .mem m => AllEven (Machine.evens n (m.addr s)) ∧ Alone s
  | _ => True

namespace Machine

/-! ## Results -/

/-- The register d of n bits holds v, the FCW is f, the PC is past the instruction, and nothing else changed. -/
structure RegResult {n : Nat} (s t : State) (d : RegNo) (v : BitVec n) (f : Fcw) (words : Nat)
    (log : List BusEvent := []) : Prop where
  value : t.reg n d = v
  flags : t.fcw = f
  pc    : Advances s t words
  regs  : OnlyRegs s t (regsOf n d)
  bytes : n = 8 → ∀ c, c ≠ d → t.regB c = s.regB c
  mem   : SameMem s t
  rest  : Quiet s t log

/-- The n bits at an address hold v, the FCW is f, the PC is past the instruction, and nothing else changed. -/
structure MemResult {n : Nat} (s t : State) (sp : Space) (a : Addr) (v : BitVec n) (f : Fcw) (words : Nat)
    (log : List BusEvent) : Prop where
  value : t.readMem n sp a = v
  flags : t.fcw = f
  pc    : Advances s t words
  regs  : t.regs = s.regs
  mem   : OnlyMem s t sp a (n / 8)
  rest  : Quiet s t log

/-- The general operand holds v, the FCW is f, the PC is past the instruction, and nothing else changed. A memory
operand lies at the address its mode gives in the state before. -/
def LocResult {n : Nat} (s t : State) (dst : Loc) (v : BitVec n) (f : Fcw) (words : Nat) (log : List BusEvent) : Prop :=
  match dst with
  | .reg r => RegResult s t r v f words
  | .mem m => MemResult s t s.dataSp (m.addr s) v f words log

/-- Only the FCW and the PC changed. -/
structure FlagResult (s t : State) (f : Fcw) (words : Nat) (log : List BusEvent := []) : Prop where
  flags : t.fcw = f
  pc    : Advances s t words
  regs  : t.regs = s.regs
  mem   : t.mem = s.mem
  rest  : Quiet s t log

/-- The privileged instructions (30_encoding.md R136). -/
def isPrivileged : Instr → Bool
  | .di _ _ | .ei _ _ | .halt | .iret | .ldctlFrom _ _ | .ldctlTo _ _ | .ldps _ | .mbit | .mreq _ | .mres | .mset
  | .inb _ _ | .inw _ _ | .sinb _ _ | .sin _ _ | .outb _ _ | .outw _ _ | .soutb _ _ | .sout _ _
  | .inib _ _ _ | .ini _ _ _ | .inirb _ _ _ | .inir _ _ _ | .sinib _ _ _ | .sini _ _ _ | .sinirb _ _ _ | .sinir _ _ _
  | .indb _ _ _ | .ind _ _ _ | .indrb _ _ _ | .indr _ _ _ | .sindb _ _ _ | .sind _ _ _ | .sindrb _ _ _ | .sindr _ _ _
  | .outib _ _ _ | .outi _ _ _ | .otirb _ _ _ | .otir _ _ _
  | .soutib _ _ _ | .souti _ _ _ | .sotirb _ _ _ | .sotir _ _ _
  | .outdb _ _ _ | .outd _ _ _ | .otdrb _ _ _ | .otdr _ _ _
  | .soutdb _ _ _ | .soutd _ _ _ | .sotdrb _ _ _ | .sotdr _ _ _ => true
  | _ => false

/-- The extended instructions (30_encoding.md R135). -/
def isExtended : Instr → Bool
  | .epaMemFromEpu _ _ _ _ | .epaEpuFromMem _ _ _ _ | .epaCpuFromEpu _ _ | .epaEpuFromCpu _ _
  | .epaFcwFromEpu _ _ | .epaEpuFromFcw _ _ | .epaInternal _ _ => true
  | _ => false

/-- k steps go by without a fault or a refusal. -/
def SafeFor (k : Nat) (s : State) : Prop := ∃ t, Host.Core.run Sys2Proof.core k s = .next t

end Machine
end Sys2Proof
end

