-- ==== Sys2Proof/Certificates/Slice0/Obligations.lean ====
section
/-!
DEFINITION. Sys2Proof/Certificates/Slice0/Obligations.lean: what the machine is claimed to do, as statements for the
provers. A word in brackets such as [log 34] names the assumption log entry of a choice the statement rests on.
-/
namespace Sys2Proof.Claims
open Sys2Proof Sys2Proof.Machine

/-! ## Shapes of results -/

/-- i at s completes: register d of n bits gets v, the FCW becomes f, the PC passes `words` words, the transactions are
those of `log`, the newest first, and nothing else changes. -/
def RunsReg (i : Instr) (s : State) {n : Nat} (d : RegNo) (v : BitVec n) (f : Fcw) (words : Nat)
    (log : List BusEvent := []) : Prop :=
  ∃ t, exec i s = .next t ∧ RegResult s t d v f words log

/-- As `RunsReg`, for a general operand. -/
def RunsLoc (i : Instr) (s : State) {n : Nat} (dst : Loc) (v : BitVec n) (f : Fcw) (words : Nat)
    (log : List BusEvent) : Prop :=
  ∃ t, exec i s = .next t ∧ LocResult s t dst v f words log

/-- As `RunsReg`, for n bits of memory. -/
def RunsMem (i : Instr) (s : State) {n : Nat} (sp : Space) (a : Addr) (v : BitVec n) (f : Fcw) (words : Nat)
    (log : List BusEvent) : Prop :=
  ∃ t, exec i s = .next t ∧ MemResult s t sp a v f words log

/-- i at s completes with the FCW f, the PC past `words` words and the transactions of `log`, and nothing else
changes. -/
def RunsFlag (i : Instr) (s : State) (f : Fcw) (words : Nat) (log : List BusEvent := []) : Prop :=
  ∃ t, exec i s = .next t ∧ FlagResult s t f words log

/-- Flags C, Z, S and P/V replaced. -/
def czsv (f : Fcw) (c z s v : Bool) : Fcw := { f with c := c, z := z, s := s, pv := v }

/-! ## Arithmetic -/

/-- The flags of a + b + cin on n bits: C is the unsigned carry, P/V the signed overflow of the exact sum; a byte sum
also clears D and writes the carry out of the low digit to H. -/
def sumFlags (f : Fcw) {n : Nat} (a b : BitVec n) (cin : Bool) : Fcw :=
  let g := czsv f (decide (2 ^ n ≤ a.toNat + b.toNat + cin.toNat))
    (decide ((a.toNat + b.toNat + cin.toNat) % 2 ^ n = 0)) (a + b + BitVec.ofNat n cin.toNat).msb
    (!fitsSigned n (a.toInt + b.toInt + cin.toNat))
  if n = 8 then { g with d := false, h := decide (16 ≤ a.toNat % 16 + b.toNat % 16 + cin.toNat) } else g

/-- C, Z, S and P/V of a - b - bin on n bits: C is the borrow, P/V the signed overflow of the exact difference. -/
def diffCzsv (f : Fcw) {n : Nat} (a b : BitVec n) (bin : Bool) : Fcw :=
  czsv f (decide (a.toNat < b.toNat + bin.toNat)) (decide (a = b + BitVec.ofNat n bin.toNat))
    (a - b - BitVec.ofNat n bin.toNat).msb (!fitsSigned n (a.toInt - b.toInt - bin.toNat))

/-- The flags of a subtraction: a byte difference also sets D and writes the borrow of the low digit to H. -/
def diffFlags (f : Fcw) {n : Nat} (a b : BitVec n) (bin : Bool) : Fcw :=
  let g := diffCzsv f a b bin
  if n = 8 then { g with d := true, h := decide (a.toNat % 16 < b.toNat % 16 + bin.toNat) } else g

def addsSource {n : Nat} (mk : RegNo → Src n → Instr) : Prop :=
  ∀ s d (src : Src n), src.Ready s →
    RunsReg (mk d src) s d (s.reg n d + src.val s) (sumFlags s.fcw (s.reg n d) (src.val s) false) (1 + src.extra)
      (src.reads s)

def subtractsSource {n : Nat} (mk : RegNo → Src n → Instr) : Prop :=
  ∀ s d (src : Src n), src.Ready s →
    RunsReg (mk d src) s d (s.reg n d - src.val s) (diffFlags s.fcw (s.reg n d) (src.val s) false) (1 + src.extra)
      (src.reads s)

def addsCarry (n : Nat) (mk : RegNo → RegNo → Instr) : Prop :=
  ∀ s d r, RunsReg (mk d r) s d (s.reg n d + s.reg n r + BitVec.ofNat n s.fcw.c.toNat)
    (sumFlags s.fcw (s.reg n d) (s.reg n r) s.fcw.c) 1

def subtractsBorrow (n : Nat) (mk : RegNo → RegNo → Instr) : Prop :=
  ∀ s d r, RunsReg (mk d r) s d (s.reg n d - s.reg n r - BitVec.ofNat n s.fcw.c.toNat)
    (diffFlags s.fcw (s.reg n d) (s.reg n r) s.fcw.c) 1

def comparesSource {n : Nat} (mk : RegNo → Src n → Instr) : Prop :=
  ∀ s d (src : Src n), src.Ready s →
    RunsFlag (mk d src) s (diffCzsv s.fcw (s.reg n d) (src.val s) false) (1 + src.extra) (src.reads s)

def comparesMem {n : Nat} (mk : Mem → BitVec n → Instr) : Prop :=
  ∀ s (m : Mem) (v : BitVec n), AllEven (evens n (m.addr s)) → Alone s →
    RunsFlag (mk m v) s (diffCzsv s.fcw (s.readMem n s.dataSp (m.addr s)) v false) (2 + m.extra)
      (readEvents s n s.dataSp (m.addr s))

/-- The count of INC and DEC: the field plus one. -/
def counted (n : Nat) (k : BitVec 4) : BitVec n := BitVec.ofNat n (k.toNat + 1)

def increments (n : Nat) (mk : Loc → BitVec 4 → Instr) : Prop :=
  ∀ s (dst : Loc) k, dst.Ready s n →
    RunsLoc (mk dst k) s dst (dst.val s n + counted n k)
      { s.fcw with
        z := decide (dst.val s n + counted n k = 0), s := (dst.val s n + counted n k).msb,
        pv := !fitsSigned n ((dst.val s n).toInt + (k.toNat + 1)) }
      (1 + dst.extra) (dst.writes s (dst.val s n + counted n k) ++ dst.reads s n)

def decrements (n : Nat) (mk : Loc → BitVec 4 → Instr) : Prop :=
  ∀ s (dst : Loc) k, dst.Ready s n →
    RunsLoc (mk dst k) s dst (dst.val s n - counted n k)
      { s.fcw with
        z := decide (dst.val s n = counted n k), s := (dst.val s n - counted n k).msb,
        pv := !fitsSigned n ((dst.val s n).toInt - (k.toNat + 1)) }
      (1 + dst.extra) (dst.writes s (dst.val s n - counted n k) ++ dst.reads s n)

def negates (n : Nat) (mk : Loc → Instr) : Prop :=
  ∀ s (dst : Loc), dst.Ready s n →
    RunsLoc (mk dst) s dst (-(dst.val s n))
      (czsv s.fcw (decide (dst.val s n ≠ 0)) (decide (dst.val s n = 0)) (-(dst.val s n)).msb
        (decide (dst.val s n = BitVec.intMin n)))
      (1 + dst.extra) (dst.writes s (-(dst.val s n)) ++ dst.reads s n)

/-- q and r are quotient and remainder of a by b, the quotient rounded toward zero. -/
def DividesTo (a b q r : Int) : Prop := a = q * b + r ∧ r.natAbs < b.natAbs ∧ (r = 0 ∨ (r < 0 ↔ a < 0))

def dividesFitting {n : Nat} (wide : Nat) (mk : RegNo → Src n → Instr) : Prop :=
  ∀ s d (src : Src n) (q r : Int), src.Ready s → DividesTo (s.reg wide d).toInt (src.val s).toInt q r →
    fitsSigned n q = true →
    RunsReg (mk d src) s d (BitVec.ofInt n r ++ BitVec.ofInt n q)
      (czsv s.fcw false (decide (q = 0)) (decide (q < 0)) false) (1 + src.extra) (src.reads s)

def dividesOpen {n : Nat} (wide : Nat) (mk : RegNo → Src n → Instr) : Prop :=
  ∀ s d (src : Src n), src.Ready s →
    ((src.val s).toInt = 0 ∨ ∃ q r, DividesTo (s.reg wide d).toInt (src.val s).toInt q r ∧ fitsSigned n q = false) →
    ∃ (v : BitVec wide) (c z sg : Bool), RunsReg (mk d src) s d v (czsv s.fcw c z sg true) (1 + src.extra) (src.reads s)

/-- The rows of the decimal adjust: D, C, H, range of the high digit, range of the low digit, what is added, C after. -/
def dabRows : List (Bool × Bool × Bool × (Nat × Nat) × (Nat × Nat) × Byte × Bool) :=
  [(false, false, false, (0, 9), (0, 9), 0x00, false), (false, false, false, (0, 8), (10, 15), 0x06, false),
   (false, false, true, (0, 9), (0, 3), 0x06, false), (false, false, false, (10, 15), (0, 9), 0x60, true),
   (false, false, false, (9, 15), (10, 15), 0x66, true), (false, false, true, (10, 15), (0, 3), 0x66, true),
   (false, true, false, (0, 2), (0, 9), 0x60, true), (false, true, false, (0, 2), (10, 15), 0x66, true),
   (false, true, true, (0, 3), (0, 3), 0x66, true), (true, false, false, (0, 9), (0, 9), 0x00, false),
   (true, false, true, (0, 8), (6, 15), 0xFA, false), (true, true, false, (7, 15), (0, 9), 0xA0, true),
   (true, true, true, (6, 15), (6, 15), 0x9A, true)]

/-- A row is for these flags and this byte. -/
def InRow (f : Fcw) (b : Byte) : Bool × Bool × Bool × (Nat × Nat) × (Nat × Nat) × Byte × Bool → Prop
  | (d, c, h, (h0, h1), (l0, l1), _, _) =>
    f.d = d ∧ f.c = c ∧ f.h = h ∧ h0 ≤ b.toNat / 16 ∧ b.toNat / 16 ≤ h1 ∧ l0 ≤ b.toNat % 16 ∧ b.toNat % 16 ≤ l1

/-! ## Bits -/

def testsBit (n : Nat) (static : Loc → BitVec 4 → Instr) (dyn : RegNo → RegNo → Instr) : Prop :=
  (∀ s (dst : Loc) b, dst.Ready s n →
    RunsFlag (static dst b) s { s.fcw with z := !(dst.val s n).getLsbD (b.toNat % n) } (1 + dst.extra)
      (dst.reads s n)) ∧
  ∀ s d r, RunsFlag (dyn d r) s { s.fcw with z := !(s.reg n d).getLsbD ((s.regW r).toNat % n) } 2

/-- v differs from x at most in bit k, which is b. -/
def BitIs {n : Nat} (x v : BitVec n) (k : Nat) (b : Bool) : Prop :=
  ∀ j < n, v.getLsbD j = if j = k then b else x.getLsbD j

def writesBit (n : Nat) (b : Bool) (static : Loc → BitVec 4 → Instr) (dyn : RegNo → RegNo → Instr) : Prop :=
  (∀ s (dst : Loc) k, dst.Ready s n →
    ∃ v : BitVec n, BitIs (dst.val s n) v (k.toNat % n) b ∧
      RunsLoc (static dst k) s dst v s.fcw (1 + dst.extra) (dst.writes s v ++ dst.reads s n)) ∧
  ∀ s d r, ∃ v : BitVec n, BitIs (s.reg n d) v ((s.regW r).toNat % n) b ∧ RunsReg (dyn d r) s d v s.fcw 2

def testsAndSets (n : Nat) (mk : Loc → Instr) : Prop :=
  ∀ s (dst : Loc), dst.Ready s n →
    RunsLoc (mk dst) s dst (BitVec.allOnes n) { s.fcw with s := (dst.val s n).msb } (1 + dst.extra)
      (dst.writes s (BitVec.allOnes n) ++ dst.reads s n)

/-! ## Logic -/

/-- The number of 1 bits of a byte is even. -/
def evenOnes (b : Byte) : Bool := decide ((List.range 8).countP (fun i => b.getLsbD i) % 2 = 0)

/-- Z and S of a result, and for a byte the parity. -/
def logicFlags (f : Fcw) {n : Nat} (r : BitVec n) : Fcw :=
  { f with z := decide (r = 0), s := r.getLsbD (n - 1), pv := if n = 8 then evenOnes (r.setWidth 8) else f.pv }

def combines {n : Nat} (mk : RegNo → Src n → Instr) (f : Bool → Bool → Bool) : Prop :=
  ∀ s d (src : Src n), src.Ready s →
    ∃ v : BitVec n, (∀ j < n, v.getLsbD j = f ((s.reg n d).getLsbD j) ((src.val s).getLsbD j)) ∧
      RunsReg (mk d src) s d v (logicFlags s.fcw v) (1 + src.extra) (src.reads s)

def complements (n : Nat) (mk : Loc → Instr) : Prop :=
  ∀ s (dst : Loc), dst.Ready s n →
    ∃ v : BitVec n, (∀ j < n, v.getLsbD j = !(dst.val s n).getLsbD j) ∧
      RunsLoc (mk dst) s dst v (logicFlags s.fcw v) (1 + dst.extra) (dst.writes s v ++ dst.reads s n)

def tests (n : Nat) (mk : Loc → Instr) : Prop :=
  ∀ s (dst : Loc), dst.Ready s n →
    RunsFlag (mk dst) s (logicFlags s.fcw (dst.val s n)) (1 + dst.extra) (dst.reads s n)

def setsOnCondition (n : Nat) (mk : Cc → RegNo → Instr) : Prop :=
  ∀ s c d, ∃ v : BitVec n, BitIs (s.reg n d) v 0 (s.fcw.holds c || (s.reg n d).getLsbD 0) ∧
    RunsReg (mk c d) s d v s.fcw 1

/-! ## Rotates and shifts -/

/-- x rotated with the carry as one more bit on top, k places to the left. -/
def throughCarry {n : Nat} (c : Bool) (x : BitVec n) (k : Nat) : BitVec (1 + n) :=
  (BitVec.ofBool c ++ x).rotateLeft k

/-- The sign readings a, b, c of a one or two step rotate agree on overflow: then it is that. -/
def signRule (before middle after pv : Bool) : Prop :=
  ((before != middle) || (middle != after)) = (before != after) → pv = (before != after)

/-- A rotate: `rot c x k` is the result of k steps and `out c x k` the carry. -/
def rotates (n : Nat) (mk : RegNo → Bool → Instr) (rot : Bool → BitVec n → Nat → BitVec n)
    (out : Bool → BitVec n → Nat → Bool) : Prop :=
  ∀ s d two, ∃ pv,
    signRule (s.reg n d).msb (rot s.fcw.c (s.reg n d) 1).msb (rot s.fcw.c (s.reg n d) (if two then 2 else 1)).msb pv ∧
    RunsReg (mk d two) s d (rot s.fcw.c (s.reg n d) (if two then 2 else 1))
      (czsv s.fcw (out s.fcw.c (s.reg n d) (if two then 2 else 1))
        (decide (rot s.fcw.c (s.reg n d) (if two then 2 else 1) = 0))
        (rot s.fcw.c (s.reg n d) (if two then 2 else 1)).msb pv) 1

/-- The outcome o is that register d is shifted left by k places: C is the last bit moved out, and open for k = 0.
For an arithmetic shift P/V is whether the sign changed at some step, where that is also whether it differs at the
end; for a logical shift it is open. -/
def ShiftsLeft (n : Nat) (arith : Bool) (s : State) (d : RegNo) (k : Nat) (o : Out) : Prop :=
  ∃ t c pv, o = .next t ∧ (1 ≤ k → c = (s.reg n d).getLsbD (n - k)) ∧
    (arith = true → (∃ j < k, (s.reg n d <<< j).msb ≠ (s.reg n d <<< (j + 1)).msb) →
      (s.reg n d).msb ≠ (s.reg n d <<< k).msb → pv = true) ∧
    (arith = true → (∀ j < k, (s.reg n d <<< j).msb = (s.reg n d <<< (j + 1)).msb) → pv = false) ∧
    RegResult s t d (s.reg n d <<< k) (czsv s.fcw c (decide (s.reg n d <<< k = 0)) (s.reg n d <<< k).msb pv) 2

/-- The outcome o is that register d is shifted right by k places, the sign copied for an arithmetic shift. -/
def ShiftsRight (n : Nat) (arith : Bool) (s : State) (d : RegNo) (k : Nat) (o : Out) : Prop :=
  ∃ t c pv, ∃ v : BitVec n, o = .next t ∧
    (∀ j < n, v.getLsbD j = if j + k < n then (s.reg n d).getLsbD (j + k) else arith && (s.reg n d).msb) ∧
    (1 ≤ k → c = (s.reg n d).getLsbD (k - 1)) ∧ (arith = true → pv = false) ∧
    RegResult s t d v (czsv s.fcw c (decide (v = 0)) v.msb pv) 2

def shiftsImmediate (n : Nat) (arith : Bool) (left right : RegNo → Nat → Instr) : Prop :=
  (∀ s d k, k ≤ n → ShiftsLeft n arith s d k (exec (left d k) s)) ∧
  ∀ s d k, 1 ≤ k → k ≤ n → ShiftsRight n arith s d k (exec (right d k) s)

def shiftsByRegister (n : Nat) (arith : Bool) (mk : RegNo → RegNo → Instr) : Prop :=
  (∀ s d r (k : Nat), k ≤ n → (s.regW r).toInt = (k : Int) → ShiftsLeft n arith s d k (exec (mk d r) s)) ∧
  (∀ s d r (k : Nat), 1 ≤ k → k ≤ n → (s.regW r).toInt = -(k : Int) → ShiftsRight n arith s d k (exec (mk d r) s)) ∧
  ∀ s d r, n < (s.regW r).toInt.natAbs → exec (mk d r) s = .fault .shiftCount

/-! ## Loads and stores -/

def clears (n : Nat) (mk : Loc → Instr) : Prop :=
  ∀ s (dst : Loc), dst.Ready s n →
    RunsLoc (mk dst) s dst (0 : BitVec n) s.fcw (1 + dst.extra) (dst.writes s (0 : BitVec n))

/-- The register and the general operand change places; the operand's address is that of before. -/
def exchanges (n : Nat) (mk : RegNo → Loc → Instr) : Prop :=
  ∀ s d (src : Loc), src.Ready s n →
    ∃ t, exec (mk d src) s = .next t ∧ t.reg n d = src.val s n ∧ t.fcw = s.fcw ∧ Advances s t (1 + src.extra) ∧
      Quiet s t (src.writes s (s.reg n d) ++ src.reads s n) ∧
      match src with
      | .reg r => t.reg n r = s.reg n d ∧ OnlyRegs s t (regsOf n d ++ regsOf n r) ∧ SameMem s t ∧
          (n = 8 → ∀ c, c ≠ d → c ≠ r → t.regB c = s.regB c)
      | .mem m => t.readMem n s.dataSp (m.addr s) = s.reg n d ∧ OnlyRegs s t (regsOf n d) ∧
          OnlyMem s t s.dataSp (m.addr s) (n / 8) ∧ (n = 8 → ∀ c, c ≠ d → t.regB c = s.regB c)

def loads {n : Nat} (mk : RegNo → LdSrc n → Instr) : Prop :=
  ∀ s d (src : LdSrc n), src.Ready s → RunsReg (mk d src) s d (src.val s) s.fcw (1 + src.extra) (src.reads s)

def stores (n : Nat) (mk : LdMem → RegNo → Instr) : Prop :=
  ∀ s (m : LdMem) r, AllEven (evens n (m.addr s)) → Alone s →
    RunsMem (mk m r) s s.dataSp (m.addr s) (s.reg n r) s.fcw (1 + m.extra)
      (writeEvents s.dataSp (m.addr s) (s.reg n r))

def storesImmediate {n : Nat} (mk : Mem → BitVec n → Instr) : Prop :=
  ∀ s (m : Mem) (v : BitVec n), AllEven (evens n (m.addr s)) → Alone s →
    RunsMem (mk m v) s s.dataSp (m.addr s) v s.fcw (2 + m.extra) (writeEvents s.dataSp (m.addr s) v)

/-- An address goes to register d: the offset alone in nonsegmented mode, else a pair whose reserved bits are open. -/
def loadsAddress (i : Instr) (s : State) (d : RegNo) (a : Addr) (words : Nat) : Prop :=
  ∃ t, exec i s = .next t ∧ t.fcw = s.fcw ∧ Advances s t words ∧ SameMem s t ∧ Quiet s t ∧
    if s.segmented then segField (t.regW d) = a.seg ∧ t.regW (d + 1) = a.off ∧ OnlyRegs s t [d, d + 1]
    else t.regW d = a.off ∧ OnlyRegs s t [d]

/-- Address of an instruction of two words plus a displacement, in the segment of the PC. -/
def relTo (s : State) (disp : Word) : Addr := ⟨s.pc.seg, s.pc.off + 4 + disp⟩

def loadsRelative (n : Nat) (mk : RegNo → Word → Instr) : Prop :=
  ∀ s d disp, AllEven (evens n (relTo s disp)) → Alone s →
    RunsReg (mk d disp) s d (s.readMem n s.progSp (relTo s disp)) s.fcw 2 (readEvents s n s.progSp (relTo s disp))

def storesRelative (n : Nat) (mk : Word → RegNo → Instr) : Prop :=
  ∀ s disp r, AllEven (evens n (relTo s disp)) → Alone s →
    RunsMem (mk disp r) s s.progSp (relTo s disp) (s.reg n r) s.fcw 2
      (writeEvents s.progSp (relTo s disp) (s.reg n r))

def pops (n : Nat) (mk : Loc → RegNo → Instr) : Prop :=
  ∀ s (dst : Loc) sp, stackIll s.segmented n sp dst = none → AllEven (s.addrReg sp :: dst.evens s n) →
    Alone s →
    ∃ t, exec (mk dst sp) s = .next t ∧ t.fcw = s.fcw ∧ Advances s t (1 + dst.extra) ∧
      Quiet s t (dst.writes s (s.readMem n s.stackSp (s.addrReg sp)) ++ readEvents s n s.stackSp (s.addrReg sp)) ∧
      t.regW (s.offReg sp) = s.regW (s.offReg sp) + BitVec.ofNat 16 (n / 8) ∧
      match dst with
      | .reg r => t.reg n r = s.readMem n s.stackSp (s.addrReg sp) ∧
          OnlyRegs s t (s.offReg sp :: regsOf n r) ∧ SameMem s t
      | .mem m => t.readMem n s.dataSp (m.addr s) = s.readMem n s.stackSp (s.addrReg sp) ∧
          OnlyRegs s t [s.offReg sp] ∧ OnlyMem s t s.dataSp (m.addr s) (n / 8)

/-- v is pushed with the stack pointer sp, after the reads of `log`. -/
def Pushes (i : Instr) (s : State) {n : Nat} (sp : RegNo) (v : BitVec n) (words : Nat) (log : List BusEvent) : Prop :=
  ∃ t, exec i s = .next t ∧ t.fcw = s.fcw ∧ Advances s t words ∧
    Quiet s t (writeEvents s.stackSp ((s.addrReg sp).plus (-(BitVec.ofNat 16 (n / 8)))) v ++ log) ∧
    t.regW (s.offReg sp) = s.regW (s.offReg sp) - BitVec.ofNat 16 (n / 8) ∧ OnlyRegs s t [s.offReg sp] ∧
    t.readMem n s.stackSp ((s.addrReg sp).plus (-(BitVec.ofNat 16 (n / 8)))) = v ∧
    OnlyMem s t s.stackSp ((s.addrReg sp).plus (-(BitVec.ofNat 16 (n / 8)))) (n / 8)

/-! ## Block instructions -/

/-- The count register of a basic operation of n bits is in range: any count for bytes, 1 to 32768 for words. -/
def CountOk (n : Nat) (s : State) (r : RegNo) : Prop :=
  n = 8 ∨ (1 ≤ (s.regW r).toNat ∧ (s.regW r).toNat ≤ 32768)

/-- One basic operation: the address registers listed moved by `step`, the count r down by one, no other register but
those of `extra` changed, the PC past the two words when it was the last operation and at them else. -/
structure BlockStep (s t : State) (pointers : List RegNo) (step : Word) (r : RegNo) (extra : List RegNo)
    (last : Bool) : Prop where
  moved : ∀ p ∈ pointers, t.regW (s.offReg p) = s.regW (s.offReg p) + step
  count : t.regW r = s.regW r - 1
  regs  : OnlyRegs s t (pointers.map s.offReg ++ r :: extra)
  pc    : t.pc = if last then s.pc.plus 4 else s.pc

/-- cc on the flags of a - b. -/
def hit {n : Nat} (f : Fcw) (cc : Cc) (a b : BitVec n) : Bool := (diffCzsv f a b false).holds cc

def comparesElement (n : Nat) (mk : RegNo → RegNo → RegNo → Cc → Instr) (step : Word) (rep : Bool) : Prop :=
  ∀ s rs r rd cc, cpxIll s.segmented n rs r rd = none → CountOk n s r → AllEven (evens n (s.addrReg rs)) →
    Alone s →
    ∃ t c sg, exec (mk rs r rd cc) s = .next t ∧ SameMem s t ∧ Quiet s t (readEvents s n s.dataSp (s.addrReg rs)) ∧
      t.fcw = czsv s.fcw c (hit s.fcw cc (s.reg n rd) (s.readMem n s.dataSp (s.addrReg rs))) sg
        (decide (s.regW r = 1)) ∧
      BlockStep s t [rs] step r []
        (!rep || hit s.fcw cc (s.reg n rd) (s.readMem n s.dataSp (s.addrReg rs)) || decide (s.regW r = 1))

def comparesStrings (n : Nat) (mk : RegNo → RegNo → RegNo → Cc → Instr) (step : Word) (rep : Bool) : Prop :=
  ∀ s rs r rd cc, twoPointersIll s.segmented rs r rd = none → CountOk n s r →
    AllEven (evens n (s.addrReg rd) ++ evens n (s.addrReg rs)) → Alone s →
    ∃ t c sg, exec (mk rs r rd cc) s = .next t ∧ SameMem s t ∧
      Quiet s t (readEvents s n s.dataSp (s.addrReg rs) ++ readEvents s n s.dataSp (s.addrReg rd)) ∧
      t.fcw = czsv s.fcw c
        (hit s.fcw cc (s.readMem n s.dataSp (s.addrReg rd)) (s.readMem n s.dataSp (s.addrReg rs))) sg
        (decide (s.regW r = 1)) ∧
      BlockStep s t [rd, rs] step r []
        (!rep || hit s.fcw cc (s.readMem n s.dataSp (s.addrReg rd)) (s.readMem n s.dataSp (s.addrReg rs)) ||
          decide (s.regW r = 1))

def movesElement (n : Nat) (mk : RegNo → RegNo → RegNo → Instr) (step : Word) (rep : Bool) : Prop :=
  ∀ s rs r rd, twoPointersIll s.segmented rs r rd = none → CountOk n s r →
    AllEven (evens n (s.addrReg rs) ++ evens n (s.addrReg rd)) → Alone s →
    ∃ t, exec (mk rs r rd) s = .next t ∧
      Quiet s t (writeEvents s.dataSp (s.addrReg rd) (s.readMem n s.dataSp (s.addrReg rs)) ++
        readEvents s n s.dataSp (s.addrReg rs)) ∧
      t.fcw = { s.fcw with pv := decide (s.regW r = 1) } ∧
      t.readMem n s.dataSp (s.addrReg rd) = s.readMem n s.dataSp (s.addrReg rs) ∧
      OnlyMem s t s.dataSp (s.addrReg rd) (n / 8) ∧
      BlockStep s t [rd, rs] step r [] (!rep || decide (s.regW r = 1))

/-- Where the entry of the table at AddrReg(rb) lies that the byte at AddrReg(ra) selects. -/
def entryAt (s : State) (ra rb : RegNo) : Addr :=
  ⟨(s.addrReg rb).seg, BitVec.ofNat 16 ((s.addrReg rb).off.toNat + (s.byteAt s.dataSp (s.addrReg ra)).toNat)⟩

/-- That entry. -/
def entryOf (s : State) (ra rb : RegNo) : Byte := s.byteAt s.dataSp (entryAt s ra rb)

/-- The reads of the byte at AddrReg(ra) and of its entry. -/
def entryReads (s : State) (ra rb : RegNo) : List BusEvent :=
  readEvents s 8 s.dataSp (entryAt s ra rb) ++ readEvents s 8 s.dataSp (s.addrReg ra)

def translates (mk : RegNo → RegNo → RegNo → Instr) (step : Word) (rep : Bool) : Prop :=
  ∀ s rd r rs, translateIll s.segmented rd r rs = none → Alone s →
    ∃ t z, exec (mk rd r rs) s = .next t ∧
      Quiet s t (writeEvents s.dataSp (s.addrReg rd) (entryOf s rd rs) ++ entryReads s rd rs) ∧
      t.fcw = { s.fcw with z := z, pv := decide (s.regW r = 1) } ∧ t.regB 9 = s.regB 9 ∧
      t.byteAt s.dataSp (s.addrReg rd) = entryOf s rd rs ∧ OnlyMem s t s.dataSp (s.addrReg rd) 1 ∧
      BlockStep s t [rd] step r [1] (!rep || decide (s.regW r = 1))

def translatesTest (mk : RegNo → RegNo → RegNo → Instr) (step : Word) (rep : Bool) : Prop :=
  ∀ s ra r rb, translateIll s.segmented ra r rb = none → Alone s →
    ∃ t, exec (mk ra r rb) s = .next t ∧ Quiet s t (entryReads s ra rb) ∧ SameMem s t ∧
      t.fcw = { s.fcw with z := decide (entryOf s ra rb = 0), pv := decide (s.regW r = 1) } ∧
      t.regB 1 = entryOf s ra rb ∧ t.regB 9 = s.regB 9 ∧
      BlockStep s t [ra] step r [1] (!rep || decide (entryOf s ra rb ≠ 0) || decide (s.regW r = 1))

/-! ## Input and output -/

/-- v is the next word the outside supplies, cut to n bits; open when its script gives none. -/
def Supplied (s : State) {n : Nat} (v : BitVec n) : Prop := ∀ w ws, s.env.busIn = w :: ws → v = w.setWidth n

/-- One word of the script is used up. -/
def dropOne (e : Env) : Env := { e with busIn := e.busIn.drop 1 }

def inputs (n : Nat) (io : IoSpace) (i : Instr) (s : State) (d : RegNo) (port : Word) (words : Nat) : Prop :=
  s.fcw.sn = true → Alone s → ∃ (t : State) (v : BitVec n), exec i s = .next t ∧ Supplied s v ∧ t.reg n d = v ∧
    t.fcw = s.fcw ∧ Advances s t words ∧ OnlyRegs s t (regsOf n d) ∧
    (n = 8 → ∀ c, c ≠ d → t.regB c = s.regB c) ∧ SameMem s t ∧
    QuietCpu s t ∧ t.busLog = .ioRead io (n == 8) port (v.setWidth 16) :: s.busLog ∧ t.env = dropOne s.env

def outputs (n : Nat) (io : IoSpace) (i : Instr) (s : State) (port : Word) (r : RegNo) (words : Nat) : Prop :=
  s.fcw.sn = true → Alone s →
    ∃ t, exec i s = .next t ∧ t.fcw = s.fcw ∧ Advances s t words ∧ t.regs = s.regs ∧ SameMem s t ∧ QuietCpu s t ∧
    t.busLog = .ioWrite io (n == 8) port ((s.reg n r).setWidth 16) :: s.busLog ∧ t.env = s.env

def inputsBlock (n : Nat) (io : IoSpace) (mk : RegNo → RegNo → RegNo → Instr) (step : Word) (rep : Bool) : Prop :=
  ∀ s rs r rd, s.fcw.sn = true → blockInIll s.segmented rs r rd = none → CountOk n s r →
    AllEven (evens n (s.addrReg rd)) → Alone s →
    ∃ (t : State) (v : BitVec n) (z : Bool), exec (mk rs r rd) s = .next t ∧ Supplied s v ∧
      t.fcw = { s.fcw with z := z, pv := decide (s.regW r = 1) } ∧
      t.readMem n s.dataSp (s.addrReg rd) = v ∧ OnlyMem s t s.dataSp (s.addrReg rd) (n / 8) ∧ QuietCpu s t ∧
      t.busLog = writeEvents s.dataSp (s.addrReg rd) v ++
        .ioRead io (n == 8) (s.regW rs) (v.setWidth 16) :: s.busLog ∧ t.env = dropOne s.env ∧
      BlockStep s t [rd] step r [] (!rep || decide (s.regW r = 1))

def outputsBlock (n : Nat) (io : IoSpace) (mk : RegNo → RegNo → RegNo → Instr) (step : Word) (rep : Bool) : Prop :=
  ∀ s rs r rd, s.fcw.sn = true → blockOutIll s.segmented rs r rd = none → CountOk n s r →
    AllEven (evens n (s.addrReg rs)) → Alone s →
    ∃ (t : State) (z : Bool), exec (mk rs r rd) s = .next t ∧
      t.fcw = { s.fcw with z := z, pv := decide (s.regW r = 1) } ∧ SameMem s t ∧ QuietCpu s t ∧ t.env = s.env ∧
      t.busLog = .ioWrite io (n == 8) (s.regW rd) ((s.readMem n s.dataSp (s.addrReg rs)).setWidth 16) ::
        (readEvents s n s.dataSp (s.addrReg rs) ++ s.busLog) ∧
      BlockStep s t [rs] step r [] (!rep || decide (s.regW r = 1))

/-! ## Program control -/

/-- The PC of a branch to a: in nonsegmented mode its segment stays. -/
def branchTo (s : State) (a : Addr) : Addr := if s.segmented then a else ⟨s.pc.seg, a.off⟩

/-- A call of a from an instruction of `words` words. -/
def Calls (i : Instr) (s : State) (a : Addr) (words : Nat) : Prop :=
  ∃ t, exec i s = .next t ∧ t.fcw = s.fcw ∧ t.pc = branchTo s a ∧ OnlyRegs s t [15] ∧
    Quiet s t (if s.segmented then
        writeRun s.stackSp (s.sp.plus (-4)) [t.wordAt s.stackSp (s.sp.plus (-4)), t.wordAt s.stackSp (s.sp.plus (-2))]
      else writeRun s.stackSp (s.sp.plus (-2)) [t.wordAt s.stackSp (s.sp.plus (-2))]) ∧
    t.regW 15 = s.regW 15 - (if s.segmented then 4 else 2) ∧
    t.wordAt s.stackSp (s.sp.plus (-2)) = s.pc.off + BitVec.ofNat 16 (2 * words) ∧
    (s.segmented = true → segField (t.wordAt s.stackSp (s.sp.plus (-4))) = s.pc.seg) ∧
    OnlyMem s t s.stackSp (s.sp.plus (if s.segmented then -4 else -2)) (if s.segmented then 4 else 2)

/-! ## Exceptions -/

/-- Byte offset in the Program Status Area of the FCW of an exception. -/
def fcwOffset (z8001 : Bool) : Exc → Word
  | .extendedInstruction => if z8001 then 0x0A else 4
  | .privilegedInstruction => if z8001 then 0x12 else 8
  | .systemCall => if z8001 then 0x1A else 12
  | .segmentTrap => if z8001 then 0x22 else 16
  | .nmi => if z8001 then 0x2A else 20
  | .nvi => if z8001 then 0x32 else 24
  | .vi => if z8001 then 0x3A else 28

/-- The base of the Program Status Area: a 256-byte boundary. -/
def psaBase (s : State) : Addr :=
  ⟨if s.isZ8001 then s.psapSeg.extractLsb' 8 7 else s.pc.seg, s.psapOff &&& 0xFF00⟩

/-- Where the FCW of an exception's block lies. -/
def fcwPlace (s : State) (k : Exc) : Addr := (psaBase s).plus (fcwOffset s.isZ8001 k)

/-- Where its PC lies: a vectored interrupt selects one by the low byte of the identifier. -/
def pcPlace (s : State) (k : Exc) (id : Word) : Addr :=
  (psaBase s).plus (fcwOffset s.isZ8001 k + 2 + (if k = .vi then BitVec.ofNat 16 (2 * (loByte id).toNat) else 0))

/-- The lowest address of the frame. -/
def frameBase (s : State) : Addr := s.ssp.plus (if s.isZ8001 then -8 else -6)

/-- What an entry needs for going on to its end: an even system stack pointer, an even vector on a Z8001, on a Z8002 a
new FCW, read with the frame in memory, whose bit 15 is 0, and nothing between the transactions. -/
def EntryReady (s : State) (k : Exc) (id : Word) (saved : Addr) : Prop :=
  s.ssp.off.getLsbD 0 = false ∧ (s.isZ8001 = true → k = .vi → id.getLsbD 0 = false) ∧
    (s.isZ8001 = false →
      ((s.putBelow ⟨.stack, true⟩ s.ssp (s.frame id saved)).wordAt ⟨.prog, true⟩ (fcwPlace s k)).getLsbD 15 = false) ∧
    Alone s

/-- The transactions of an entry from s to t, the newest first: the frame is written from the top down, then the FCW
and the PC are read. -/
def entryEvents (s t : State) (k : Exc) (id : Word) : List BusEvent :=
  readRun t ⟨.prog, true⟩ (pcPlace s k id) (if s.isZ8001 then 2 else 1) ++ readRun t ⟨.prog, true⟩ (fcwPlace s k) 1 ++
    (List.range (if s.isZ8001 then 4 else 3)).map (fun j =>
      .memWrite ⟨.stack, true⟩ false ((frameBase s).plus (BitVec.ofNat 16 (2 * j)))
        (t.wordAt ⟨.stack, true⟩ ((frameBase s).plus (BitVec.ofNat 16 (2 * j)))))

/-- t is s after the exception k was taken with the identifier id and the saved PC: the old status and the identifier
lie on the system stack, whose pointer alone of the registers moved, and PC and FCW come from the Program Status Area.
A sample, with the enables of the new FCW, stands before the next fetch. -/
structure Entered (s t : State) (k : Exc) (id : Word) (saved : Addr) : Prop where
  savedOff : t.wordAt ⟨.stack, true⟩ (s.ssp.plus (-2)) = saved.off
  savedSeg : s.isZ8001 = true → segField (t.wordAt ⟨.stack, true⟩ (s.ssp.plus (-4))) = saved.seg
  savedFcw : Fcw.ofWord (t.wordAt ⟨.stack, true⟩ (s.ssp.plus (if s.isZ8001 then -6 else -4))) = s.fcw
  ident    : t.wordAt ⟨.stack, true⟩ (frameBase s) = id
  sysStack : t.regs.get 17 = s.ssp.off - (if s.isZ8001 then 8 else 6)
  regs     : ∀ p : Fin 18, p ≠ 17 → t.regs.get p = s.regs.get p
  mem      : OnlyMem s t ⟨.stack, true⟩ (frameBase s) (if s.isZ8001 then 8 else 6)
  newFcw   : t.fcw = Fcw.ofWord (t.wordAt ⟨.prog, true⟩ (fcwPlace s k))
  newPc    : t.pc = if s.isZ8001 then
      ⟨segField (t.wordAt ⟨.prog, true⟩ (pcPlace s k id)), t.wordAt ⟨.prog, true⟩ ((pcPlace s k id).plus 2)⟩
    else ⟨s.pc.seg, t.wordAt ⟨.prog, true⟩ (pcPlace s k id)⟩
  awake    : t.halted = false
  sample   : t.sampleDue = true ∧ t.sampleVie = t.fcw.vie ∧ t.sampleNvie = t.fcw.nvie
  log      : t.busLog = entryEvents s t k id ++ s.busLog
  rest     : { t with regs := s.regs, fcw := s.fcw, pc := s.pc, mem := s.mem, halted := s.halted, busLog := s.busLog,
                      sampleDue := s.sampleDue, sampleVie := s.sampleVie, sampleNvie := s.sampleNvie } = s

/-! ## Extended instructions -/

/-- t hands both op code words of i to the EPU and then has the transactions of `log`, the newest first; `taken` words
are taken from the bus script. -/
def EpuDone (i : Instr) (s t : State) (log : List BusEvent) (taken words : Nat) : Prop :=
  t.busLog = log ++ .epuInstruction ((encode i).getD 0 0) ((encode i).getD 1 0) :: s.busLog ∧
  t.env = { s.env with busIn := s.env.busIn.drop taken } ∧ Advances s t words ∧ QuietCpu s t

/-- ws are k words the EPU supplies: the script's, and open ones where it gives none. -/
def EpuWords (s : State) (k : Nat) (ws : List Word) : Prop :=
  ws.length = k ∧ ∀ j w, j < k → s.env.busIn[j]? = some w → ws[j]? = some w

/-- The count of words of a template: bits 3:0 of the second word plus one. -/
def epaN (w1 : Word) : Nat := w1.toNat % 16 + 1

/-- Transactions number 0 to k - 1, the newest first. -/
def inTurn (k : Nat) (f : Nat → List BusEvent) : List BusEvent := ((List.range k).flatMap f).reverse

/-! ## Modes -/

/-- What a program in normal mode cannot change: the control bits of the FCW, the control registers, the system stack
pointer, MO, the halted condition. -/
structure ControlKept (s t : State) : Prop where
  seg     : t.fcw.seg = s.fcw.seg
  sn      : t.fcw.sn = s.fcw.sn
  epa     : t.fcw.epa = s.fcw.epa
  vie     : t.fcw.vie = s.fcw.vie
  nvie    : t.fcw.nvie = s.fcw.nvie
  psapSeg : t.psapSeg = s.psapSeg
  psapOff : t.psapOff = s.psapOff
  re      : t.refresh.re = s.refresh.re
  rate    : t.refresh.rate = s.refresh.rate
  r14     : t.regs.get 16 = s.regs.get 16
  r15     : t.regs.get 17 = s.regs.get 17
  mo      : t.moActive = s.moActive
  halted  : t.halted = s.halted
  params  : t.params = s.params

/-- The instruction words at the PC. -/
def fetched (s : State) (k : Nat) : Word :=
  s.wordAt s.progSp ⟨s.pc.seg, s.pc.off + BitVec.ofNat 16 (2 * k)⟩

/-- What the decoder reads from the words at the PC. -/
def decoded (s : State) : Except Reject Instr :=
  decode s.params.epaMap s.segmented (fetched s 0) (fetched s 1) (fetched s 2) (fetched s 3)

/-- The next step of s, in which the CPU runs with these inputs, goes to the fetch of the instruction at the PC: no
reset is under way, no instruction held, no request accepted, the CPU not halted. -/
structure AtFetch (s : State) (l : Lines) : Prop where
  event   : s.event = .run l
  running : s.cpuState = .running
  noReset : s.resetDue = false
  noHeld  : s.heldWord = none
  request : s.request l = none
  awake   : s.halted = false

/-- As `AtFetch`, with an even PC and nothing between the transactions. -/
structure AtInstruction (s : State) (l : Lines) : Prop where
  atFetch : AtFetch s l
  even    : s.pc.off.getLsbD 0 = false
  alone   : Alone s

/-- The first word takes a trap before any further word is fetched. -/
def trapsFirst (s : State) : Bool :=
  (extendedUpper (fetched s 0) && !s.fcw.epa) || (privilegedUpper (fetched s 0) && !s.fcw.sn)

/-- s when k words of the instruction at the PC are fetched: the environment's event is consumed, a sample will stand
after the instruction, with the enables as they are now. -/
def afterFetch (s : State) (k : Nat) : State :=
  { s with env := { s.env with events := s.env.events.tail }, sampleDue := true, sampleVie := s.fcw.vie,
           sampleNvie := s.fcw.nvie, busLog := fetchRun s 0 k ++ s.busLog }

/-- The outcome o of an instruction of `words` words at s as the step gives it: with the store rule applied and the
counter of draws advanced. -/
def asStep (s : State) (words : Nat) : Out → Out
  | .next t => if clobbers s t words then .fault .storeIntoNextInstruction else .next { t with draws := t.draws + 1 }
  | .fault f => .fault f
  | .refused r => .refused r

/-! ## Stops -/

/-- An address that no word or long access may have. -/
def OddAddr (a : Addr) : Prop := a.off.getLsbD 0 = true

/-- A source in memory at an odd address stops. -/
def oddSource {n : Nat} (mk : RegNo → Src n → Instr) : Prop :=
  ∀ s d (m : Mem), OddAddr (m.addr s) → exec (mk d (.mem m)) s = .fault .oddAddress

/-- A general operand in memory at an odd address stops. -/
def oddOperand (mk : Loc → Instr) : Prop := ∀ s (m : Mem), OddAddr (m.addr s) → exec (mk (.mem m)) s = .fault .oddAddress

/-- A word block instruction (in system mode where it is privileged) stops on a count of 0 or above 32768, and on an odd
pointer with a count in range. -/
def wordBlockStops (system : Bool) (mk : RegNo → RegNo → RegNo → Instr)
    (pointers : State → RegNo → RegNo → List Addr) : Prop :=
  ∀ s rs r rd, (system = true → s.fcw.sn = true) →
    (¬CountOk 16 s r → exec (mk rs r rd) s = .fault .blockCount) ∧
    (CountOk 16 s r → (∃ a ∈ pointers s rs rd, OddAddr a) → exec (mk rs r rd) s = .fault .oddAddress)

end Sys2Proof.Claims

section
open Sys2Proof Sys2Proof.Machine Sys2Proof.Claims

/-! ## State and its primitives -/

/-- R33: the sixteen condition codes, and that a code with its top bit inverted is the negation. -/
def Obligations.ConditionCodes : Prop :=
  ∀ f : Fcw,
    f.holds 0 = false ∧ f.holds 1 = (f.s ^^ f.pv) ∧ f.holds 2 = (f.z || (f.s ^^ f.pv)) ∧ f.holds 3 = (f.c || f.z) ∧
    f.holds 4 = f.pv ∧ f.holds 5 = f.s ∧ f.holds 6 = f.z ∧ f.holds 7 = f.c ∧ f.holds 8 = true ∧
    f.holds 9 = !(f.s ^^ f.pv) ∧ f.holds 10 = !(f.z || (f.s ^^ f.pv)) ∧ f.holds 11 = !(f.c || f.z) ∧
    f.holds 12 = !f.pv ∧ f.holds 13 = !f.s ∧ f.holds 14 = !f.z ∧ f.holds 15 = !f.c ∧
    ∀ cc : Cc, f.holds (cc ^^^ 0b1000#4) = !f.holds cc

/-- R350: the flags of a logical result of 8 or 16 bits. -/
def Obligations.LogicalFlags : Prop :=
  ∀ f : Fcw,
    (∀ r : Word, f.logic r = { f with z := decide (r = 0), s := r.getLsbD 15 }) ∧
    ∀ r : Byte, f.logic r = { f with z := decide (r = 0), s := r.getLsbD 7, pv := evenOnes r }

/-- A write to a register of 8, 16, 32 or 64 bits is read back, and the registers apart from it keep their values. -/
def Obligations.RegistersHoldWhatIsWritten : Prop :=
  ∀ (s : State) (n : Nat) (r : RegNo) (v : BitVec n), n = 8 ∨ n = 16 ∨ n = 32 ∨ n = 64 →
    (s.setReg r v).reg n r = v ∧ OnlyRegs s (s.setReg r v) (regsOf n r) ∧
    (n = 8 → ∀ c, c ≠ r → (s.setReg r v).regB c = s.regB c) ∧ { s.setReg r v with regs := s.regs } = s

/-- The byte, pair and quad names of the word registers. -/
def Obligations.RegisterViews : Prop :=
  ∀ (s : State) (k : RegNo),
    (k.toNat < 8 → s.regB k = (s.regW k).extractLsb' 8 8 ∧ s.regB (k + 8) = (s.regW k).extractLsb' 0 8) ∧
    (s.regL k).extractLsb' 16 16 = s.regW k ∧ (s.regL k).extractLsb' 0 16 = s.regW (k + 1) ∧
    (s.regQ k).extractLsb' 48 16 = s.regW k ∧ (s.regQ k).extractLsb' 32 16 = s.regW (k + 1) ∧
    (s.regQ k).extractLsb' 16 16 = s.regW (k + 2) ∧ (s.regQ k).extractLsb' 0 16 = s.regW (k + 3)

/-- R15, and on a Z8001 R14, name the system copy in system mode and the normal copy in normal mode; no write in one
mode reaches the other mode's copy. -/
def Obligations.StackPointersAreBanked : Prop :=
  ∀ (s : State) (v : Word),
    (s.fcw.sn = true → s.regW 15 = s.regs.get 17 ∧ (s.setRegW 15 v).regs.get 17 = v ∧
      (s.setRegW 15 v).regs.get 15 = s.regs.get 15) ∧
    (s.fcw.sn = false → s.regW 15 = s.regs.get 15 ∧ (s.setRegW 15 v).regs.get 15 = v ∧
      (s.setRegW 15 v).regs.get 17 = s.regs.get 17) ∧
    (s.fcw.sn = true → s.isZ8001 = true → s.regW 14 = s.regs.get 16 ∧ (s.setRegW 14 v).regs.get 16 = v ∧
      (s.setRegW 14 v).regs.get 14 = s.regs.get 14) ∧
    (s.fcw.sn = false ∨ s.isZ8001 = false → s.regW 14 = s.regs.get 14 ∧ (s.setRegW 14 v).regs.get 14 = v ∧
      (s.setRegW 14 v).regs.get 16 = s.regs.get 16)

/-- What is stored is read back, every other byte stays, and the canonical form of memory is kept. -/
def Obligations.MemoryHoldsWhatIsStored : Prop :=
  ∀ (s : State) (n : Nat) (sp : Space) (a : Addr) (v : BitVec n), n = 8 ∨ n = 16 ∨ n = 32 →
    (s.putMem sp a v).readMem n sp a = v ∧ OnlyMem s (s.putMem sp a v) sp a (n / 8) ∧
    (Memory.wf s.mem → Memory.wf (s.putMem sp a v).mem) ∧ { s.putMem sp a v with mem := s.mem } = s

/-- R65: big-endian order, of words, long words and instruction words, whatever the FCW holds. -/
def Obligations.BigEndian : Prop :=
  ∀ (s : State) (sp : Space) (a : Addr), a.off.getLsbD 0 = false →
    (s.wordAt sp a).extractLsb' 8 8 = s.byteAt sp a ∧ (s.wordAt sp a).extractLsb' 0 8 = s.byteAt sp (a.plus 1) ∧
    (s.longAt sp a).extractLsb' 16 16 = s.wordAt sp a ∧ (s.longAt sp a).extractLsb' 0 16 = s.wordAt sp (a.plus 2) ∧
    (s.longAt sp a).extractLsb' 24 8 = s.byteAt sp a ∧ (s.longAt sp a).extractLsb' 16 8 = s.byteAt sp (a.plus 1) ∧
    (s.longAt sp a).extractLsb' 8 8 = s.byteAt sp (a.plus 2) ∧
    (s.longAt sp a).extractLsb' 0 8 = s.byteAt sp (a.plus 3) ∧
    (∀ k : Nat, s.instrWord a k =
      s.byteAt s.progSp (a.plus (BitVec.ofNat 16 (2 * k))) ++ s.byteAt s.progSp (a.plus (BitVec.ofNat 16 (2 * k + 1)))) ∧
    ∀ v : Word, (s.putWord sp a v).byteAt sp a = v.extractLsb' 8 8 ∧
      (s.putWord sp a v).byteAt sp (a.plus 1) = v.extractLsb' 0 8

/-- The effective addresses of IR, DA, X, BA, BX and RA; no segment number is changed by arithmetic. In nonsegmented
mode the segment is that of the PC [log 13]. -/
def Obligations.EffectiveAddresses : Prop :=
  ∀ (s : State) (r x : RegNo) (d off : Word) (o8 : Byte) (g : BitVec 7),
    (s.segmented = false →
      (Mem.ir r).addr s = ⟨s.pc.seg, s.regW r⟩ ∧ (Mem.da (.ns off)).addr s = ⟨s.pc.seg, off⟩ ∧
      (Mem.x (.ns off) x).addr s = ⟨s.pc.seg, off + s.regW x⟩ ∧
      (LdMem.ba r d).addr s = ⟨s.pc.seg, s.regW r + d⟩ ∧ (LdMem.bx r x).addr s = ⟨s.pc.seg, s.regW r + s.regW x⟩) ∧
    (s.segmented = true →
      (Mem.ir r).addr s = ⟨(s.regW r).extractLsb' 8 7, s.regW (r + 1)⟩ ∧
      (LdMem.ba r d).addr s = ⟨(s.regW r).extractLsb' 8 7, s.regW (r + 1) + d⟩ ∧
      (LdMem.bx r x).addr s = ⟨(s.regW r).extractLsb' 8 7, s.regW (r + 1) + s.regW x⟩) ∧
    (Mem.da (.short g o8)).addr s = ⟨g, o8.setWidth 16⟩ ∧ (Mem.da (.long g off)).addr s = ⟨g, off⟩ ∧
    (Mem.x (.short g o8) x).addr s = ⟨g, o8.setWidth 16 + s.regW x⟩ ∧
    (Mem.x (.long g off) x).addr s = ⟨g, off + s.regW x⟩ ∧ s.relative 2 d = relTo s d

/-! ## Encoding -/

/-- Every instruction with an encoding is decoded from it, in both modes and under every EPA_TEMPLATE_MAP. -/
def Obligations.DecodeInvertsEncode : Prop :=
  ∀ (m : EpaMap) (seg : Bool) (i : Instr) (w0 w1 w2 w3 : Word), WellFormed m seg i →
    encode i <+: [w0, w1, w2, w3] → decode m seg w0 w1 w2 w3 = .ok i

/-- What the decoder accepts is well formed, has one to four words, as many as its first words call for, and its first
word is the one decoded. -/
def Obligations.DecodedIsWellFormed : Prop :=
  ∀ (m : EpaMap) (seg : Bool) (i : Instr) (w0 w1 w2 w3 : Word), decode m seg w0 w1 w2 w3 = .ok i →
    WellFormed m seg i ∧ 1 ≤ (encode i).length ∧ (encode i).length ≤ 4 ∧ (encode i).length = wordsOf seg w0 w1 w2 ∧
      firstWord i = w0

/-- Words written out from the formats of the spec, one or more of every family. The place of the count in the second
word of LDM [log 40] and the template of the extended instruction [log 4] are the model's choices. -/
def Obligations.SampleWords : Prop :=
  decode EpaMap.default false 0x8125 0 0 0 = .ok (.add 5 (.reg 2)) ∧
  decode EpaMap.default true 0x4125 0x8500 0x1234 0 = .ok (.add 5 (.mem (.x (.long 5 0x1234) 2))) ∧
  decode EpaMap.default false 0xA743 0 0 0 = .ok (.bitStatic (.reg 4) 3) ∧
  decode EpaMap.default false 0xBA21 0x0310 0 0 = .ok (.ldirb 2 3 1) ∧
  decode EpaMap.default false 0x7D0A 0 0 0 = .ok (.ldctlTo .fcw 0) ∧
  decode EpaMap.default false 0x3BCA 0x0DB0 0 0 = .ok (.otdr 12 13 11) ∧
  decode EpaMap.default false 0x1C51 0x0E03 0 0 = .ok (.ldmLoad 14 (.ir 5) 3) ∧
  decode EpaMap.default false 0x8532 0 0 0 = .ok (.or 2 (.reg 3)) ∧
  decode EpaMap.default false 0xD081 0 0 0 = .ok (.calr 0x081) ∧
  decode EpaMap.default false 0xB30A 0 0 0 = .ok (.rlc 0 true) ∧
  decode EpaMap.default false 0x8F00 0x0203 0 0 = .ok (.epaCpuFromEpu 0x8F00 0x0203)

/-- A reserved upper byte decodes to RSVD, which has no effect to run: it is refused. -/
def Obligations.ReservedOpcodesAreRefused : Prop :=
  ∀ (m : EpaMap) (seg : Bool) (s : State) (u lo : Byte) (w1 w2 w3 : Word),
    u ∈ [0x36#8, 0x38#8, 0x78#8, 0x7E#8, 0x9D#8, 0x9F#8, 0xB9#8, 0xBF#8] →
    decode m seg (u ++ lo) w1 w2 w3 = .ok (.rsvd (u ++ lo)) ∧ exec (.rsvd (u ++ lo)) s = .refused .reservedOpcode

/-! ## Arithmetic -/

/-- ADD, ADC, SUB and SBC of every width: result, flags [log 32] and frame. -/
def Obligations.AddAndSubtract : Prop :=
  addsSource Instr.addb ∧ addsSource Instr.add ∧ addsSource Instr.addl ∧
  subtractsSource Instr.subb ∧ subtractsSource Instr.sub ∧ subtractsSource Instr.subl ∧
  addsCarry 8 .adcb ∧ addsCarry 16 .adc ∧ subtractsBorrow 8 .sbcb ∧ subtractsBorrow 16 .sbc

/-- CP of every width and of memory with an immediate: only C, Z, S and P/V change [log 32]. -/
def Obligations.Compare : Prop :=
  comparesSource Instr.cpb ∧ comparesSource Instr.cp ∧ comparesSource Instr.cpl ∧
  comparesMem Instr.cpbMem ∧ comparesMem Instr.cpMem

/-- INC, DEC and NEG. The V rule of INC and DEC and the flags of NEG are the model's reading [log 32]. -/
def Obligations.IncrementDecrementNegate : Prop :=
  increments 8 .incb ∧ increments 16 .inc ∧ decrements 8 .decb ∧ decrements 16 .dec ∧ negates 8 .negb ∧ negates 16 .neg

/-- MULT and MULTL: the signed product of the low half of the destination and the source [log 31]. -/
def Obligations.Multiply : Prop :=
  (∀ s d (src : Src 16), src.Ready s →
    RunsReg (.mult d src) s d (BitVec.ofInt 32 ((s.regW (d + 1)).toInt * (src.val s).toInt))
      (czsv s.fcw (!fitsSigned 16 ((s.regW (d + 1)).toInt * (src.val s).toInt))
        (decide ((s.regW (d + 1)).toInt * (src.val s).toInt = 0))
        (decide ((s.regW (d + 1)).toInt * (src.val s).toInt < 0)) false) (1 + src.extra) (src.reads s)) ∧
  ∀ s d (src : Src 32), src.Ready s →
    RunsReg (.multl d src) s d (BitVec.ofInt 64 ((s.regL (d + 2)).toInt * (src.val s).toInt))
      (czsv s.fcw (!fitsSigned 32 ((s.regL (d + 2)).toInt * (src.val s).toInt))
        (decide ((s.regL (d + 2)).toInt * (src.val s).toInt = 0))
        (decide ((s.regL (d + 2)).toInt * (src.val s).toInt < 0)) false) (1 + src.extra) (src.reads s)

/-- DIV and DIVL: with a quotient that fits, the remainder in the high half and the quotient in the low half; by zero
or with a quotient that does not fit they complete with P/V set and everything else of the result open [log 30]. -/
def Obligations.Divide : Prop :=
  dividesFitting 32 Instr.div ∧ dividesFitting 64 Instr.divl ∧ dividesOpen 32 Instr.div ∧ dividesOpen 64 Instr.divl

/-- EXTSB, EXTS, EXTSL: the low half is kept and its sign fills the high half; C, Z, S, P/V are open [log 34]. -/
def Obligations.ExtendSign : Prop :=
  (∀ s d, ∃ c z sg v, RunsReg (.extsb d) s d (((s.regW d).extractLsb' 0 8).signExtend 16) (czsv s.fcw c z sg v) 1) ∧
  (∀ s d, ∃ c z sg v, RunsReg (.exts d) s d ((s.regW (d + 1)).signExtend 32) (czsv s.fcw c z sg v) 1) ∧
  ∀ s d, ∃ c z sg v, RunsReg (.extsl d) s d ((s.regL (d + 2)).signExtend 64) (czsv s.fcw c z sg v) 1

/-- DAB: by the table, and outside it the byte and C, Z, S are open [log 33]. -/
def Obligations.DecimalAdjust : Prop :=
  (∀ s d, ∀ row ∈ dabRows, InRow s.fcw (s.regB d) row →
    RunsReg (.dab d) s d (s.regB d + row.2.2.2.2.2.1)
      (czsv s.fcw row.2.2.2.2.2.2 (decide (s.regB d + row.2.2.2.2.2.1 = 0)) (s.regB d + row.2.2.2.2.2.1).msb s.fcw.pv)
      1) ∧
  ∀ s d, (∀ row ∈ dabRows, ¬InRow s.fcw (s.regB d) row) →
    ∃ (v : Byte) (c z sg : Bool), RunsReg (.dab d) s d v (czsv s.fcw c z sg s.fcw.pv) 1

/-! ## Logic and bits -/

/-- AND, OR, XOR and COM: every bit, Z, S, the parity of a byte, and the frame. -/
def Obligations.Logic : Prop :=
  combines Instr.andb (· && ·) ∧ combines Instr.and (· && ·) ∧ combines Instr.orb (· || ·) ∧
  combines Instr.or (· || ·) ∧ combines Instr.xorb (· ^^ ·) ∧ combines Instr.xor (· ^^ ·) ∧
  complements 8 .comb ∧ complements 16 .com

/-- TEST of every width, where TESTL leaves P/V open; TCC changes bit 0 of a register and no flag. -/
def Obligations.TestAndTcc : Prop :=
  tests 8 .testb ∧ tests 16 .test ∧
  (∀ s (dst : Loc), dst.Ready s 32 →
    ∃ v, RunsFlag (.testl dst) s
      { s.fcw with z := decide (dst.val s 32 = 0), s := (dst.val s 32).msb, pv := v } (1 + dst.extra)
      (dst.reads s 32)) ∧
  setsOnCondition 8 .tccb ∧ setsOnCondition 16 .tcc

/-- BIT, RES, SET, static and dynamic, and TSET. -/
def Obligations.BitManipulation : Prop :=
  testsBit 8 .bitbStatic .bitbDyn ∧ testsBit 16 .bitStatic .bitDyn ∧
  writesBit 8 false .resbStatic .resbDyn ∧ writesBit 16 false .resStatic .resDyn ∧
  writesBit 8 true .setbStatic .setbDyn ∧ writesBit 16 true .setStatic .setDyn ∧
  testsAndSets 8 .tsetb ∧ testsAndSets 16 .tset

/-! ## Rotates and shifts -/

/-- RL, RR, RLC and RRC by one or two places. P/V follows the sign where the two readings of the rule agree
[log 29]. -/
def Obligations.Rotates : Prop :=
  rotates 8 .rlb (fun _ x k => x.rotateLeft k) (fun _ x k => (x.rotateLeft k).getLsbD 0) ∧
  rotates 16 .rl (fun _ x k => x.rotateLeft k) (fun _ x k => (x.rotateLeft k).getLsbD 0) ∧
  rotates 8 .rrb (fun _ x k => x.rotateRight k) (fun _ x k => (x.rotateRight k).msb) ∧
  rotates 16 .rr (fun _ x k => x.rotateRight k) (fun _ x k => (x.rotateRight k).msb) ∧
  rotates 8 .rlcb (fun c x k => (throughCarry c x k).setWidth 8) (fun c x k => (throughCarry c x k).msb) ∧
  rotates 16 .rlc (fun c x k => (throughCarry c x k).setWidth 16) (fun c x k => (throughCarry c x k).msb) ∧
  rotates 8 .rrcb (fun c x k => (throughCarry c x (9 - k)).setWidth 8) (fun c x k => (throughCarry c x (9 - k)).msb) ∧
  rotates 16 .rrc (fun c x k => (throughCarry c x (17 - k)).setWidth 16) (fun c x k => (throughCarry c x (17 - k)).msb)

/-- RLDB and RRDB: the low digit of the link and the two digits of the source go round; Z from the link, S open. -/
def Obligations.DigitRotates : Prop :=
  ∀ s (l r : RegNo), l ≠ r →
    (∃ t sg, exec (.rldb l r) s = .next t ∧
      t.regB l = (s.regB l).extractLsb' 4 4 ++ (s.regB r).extractLsb' 4 4 ∧
      t.regB r = (s.regB r).extractLsb' 0 4 ++ (s.regB l).extractLsb' 0 4 ∧
      t.fcw = { s.fcw with z := decide (t.regB l = 0), s := sg } ∧ Advances s t 1 ∧ SameMem s t ∧ Quiet s t ∧
      OnlyRegs s t (regsOf 8 l ++ regsOf 8 r) ∧ ∀ c, c ≠ l → c ≠ r → t.regB c = s.regB c) ∧
    ∃ t sg, exec (.rrdb l r) s = .next t ∧
      t.regB l = (s.regB l).extractLsb' 4 4 ++ (s.regB r).extractLsb' 0 4 ∧
      t.regB r = (s.regB l).extractLsb' 0 4 ++ (s.regB r).extractLsb' 4 4 ∧
      t.fcw = { s.fcw with z := decide (t.regB l = 0), s := sg } ∧ Advances s t 1 ∧ SameMem s t ∧ Quiet s t ∧
      OnlyRegs s t (regsOf 8 l ++ regsOf 8 r) ∧ ∀ c, c ≠ l → c ≠ r → t.regB c = s.regB c

/-- The shifts by an immediate count [log 27, 29]. -/
def Obligations.ShiftsByCount : Prop :=
  shiftsImmediate 8 true .slab .srab ∧ shiftsImmediate 16 true .sla .sra ∧ shiftsImmediate 32 true .slal .sral ∧
  shiftsImmediate 8 false .sllb .srlb ∧ shiftsImmediate 16 false .sll .srl ∧ shiftsImmediate 32 false .slll .srll

/-- The shifts by a signed count in a register, to the left for a positive one; a count outside the range of the width
stops [log 27, 29]. -/
def Obligations.ShiftsByRegister : Prop :=
  shiftsByRegister 8 true .sdab ∧ shiftsByRegister 16 true .sda ∧ shiftsByRegister 32 true .sdal ∧
  shiftsByRegister 8 false .sdlb ∧ shiftsByRegister 16 false .sdl ∧ shiftsByRegister 32 false .sdll

/-! ## Loads and stores -/

/-- CLR and EX. -/
def Obligations.ClearAndExchange : Prop := clears 8 .clrb ∧ clears 16 .clr ∧ exchanges 8 .exb ∧ exchanges 16 .ex

/-- LD into a register of every width, the compact byte form, LDK. -/
def Obligations.LoadRegister : Prop :=
  loads Instr.ldb ∧ loads Instr.ld ∧ loads Instr.ldl ∧
  (∀ s d (v : Byte), RunsReg (.ldbCompact d v) s d v s.fcw 1) ∧
  ∀ s d (k : BitVec 4), RunsReg (.ldk d k) s d (k.setWidth 16) s.fcw 1

/-- LD into memory of every width and of an immediate. -/
def Obligations.StoreMemory : Prop :=
  stores 8 .ldbStore ∧ stores 16 .ldStore ∧ stores 32 .ldlStore ∧ storesImmediate Instr.ldbImm ∧
  storesImmediate Instr.ldImm

/-- LDA and LDAR. -/
def Obligations.LoadAddress : Prop :=
  (∀ s d (src : LdaSrc), loadsAddress (.lda d src) s d (src.addr s) (1 + src.extra)) ∧
  ∀ s d disp, loadsAddress (.ldar d disp) s d (relTo s disp) 2

/-- LDM: k+1 words between consecutive registers, R0 after R15 [log 39], and consecutive words of memory. -/
def Obligations.LoadMultiple : Prop :=
  (∀ s d (m : Mem) (k : BitVec 4), (m.addr s).off.getLsbD 0 = false → Alone s →
    ∃ t, exec (.ldmLoad d m k) s = .next t ∧ t.fcw = s.fcw ∧ Advances s t (2 + m.extra) ∧ SameMem s t ∧
      Quiet s t (readRun s s.dataSp (m.addr s) (k.toNat + 1)) ∧ OnlyRegs s t (runOfRegs d k) ∧
      ∀ j ≤ k.toNat, t.regW (d + BitVec.ofNat 4 j) = s.wordAt s.dataSp ((m.addr s).plus (BitVec.ofNat 16 (2 * j)))) ∧
  ∀ s r (m : Mem) (k : BitVec 4), (m.addr s).off.getLsbD 0 = false → Alone s →
    ∃ t, exec (.ldmStore m r k) s = .next t ∧ t.fcw = s.fcw ∧ Advances s t (2 + m.extra) ∧ t.regs = s.regs ∧
      Quiet s t (writeRun s.dataSp (m.addr s) ((List.range (k.toNat + 1)).map (fun j => s.regW (r + BitVec.ofNat 4 j)))) ∧
      OnlyMem s t s.dataSp (m.addr s) (2 * (k.toNat + 1)) ∧
      ∀ j ≤ k.toNat, t.wordAt s.dataSp ((m.addr s).plus (BitVec.ofNat 16 (2 * j))) = s.regW (r + BitVec.ofNat 4 j)

/-- LDR of every width, to and from program space [log 23]. -/
def Obligations.LoadRelative : Prop :=
  loadsRelative 8 .ldrb ∧ loadsRelative 16 .ldr ∧ loadsRelative 32 .ldrl ∧
  storesRelative 8 .ldrbStore ∧ storesRelative 16 .ldrStore ∧ storesRelative 32 .ldrlStore

/-- PUSH and POP through any address register [log 23]. -/
def Obligations.PushAndPop : Prop :=
  pops 16 .pop ∧ pops 32 .popl ∧
  (∀ s sp (src : Loc), AllEven (s.addrReg sp :: src.evens s 16) → Alone s →
    Pushes (.push sp src) s sp (src.val s 16) (1 + src.extra) (src.reads s 16)) ∧
  (∀ s sp (src : Loc), AllEven (s.addrReg sp :: src.evens s 32) → Alone s →
    Pushes (.pushl sp src) s sp (src.val s 32) (1 + src.extra) (src.reads s 32)) ∧
  ∀ s sp (v : Word), (s.addrReg sp).off.getLsbD 0 = false → Alone s → Pushes (.pushImm sp v) s sp v 2 []

/-! ## Block instructions -/

/-- CPI, CPD, CPSI, CPSD and their repeating forms, one basic operation [log 28, 51, 58]. That the string comparisons read
the element at Rd before that at Rs is the model's choice [log 61]. -/
def Obligations.CompareBlock : Prop :=
  comparesElement 8 .cpib 1 false ∧ comparesElement 16 .cpi 2 false ∧ comparesElement 8 .cpirb 1 true ∧
  comparesElement 16 .cpir 2 true ∧ comparesElement 8 .cpdb (-1) false ∧ comparesElement 16 .cpd (-2) false ∧
  comparesElement 8 .cpdrb (-1) true ∧ comparesElement 16 .cpdr (-2) true ∧
  comparesStrings 8 .cpsib 1 false ∧ comparesStrings 16 .cpsi 2 false ∧ comparesStrings 8 .cpsirb 1 true ∧
  comparesStrings 16 .cpsir 2 true ∧ comparesStrings 8 .cpsdb (-1) false ∧ comparesStrings 16 .cpsd (-2) false ∧
  comparesStrings 8 .cpsdrb (-1) true ∧ comparesStrings 16 .cpsdr (-2) true

/-- LDI, LDD and their repeating forms, one basic operation [log 28, 51]. -/
def Obligations.MoveBlock : Prop :=
  movesElement 8 .ldib 1 false ∧ movesElement 16 .ldi 2 false ∧ movesElement 8 .ldirb 1 true ∧
  movesElement 16 .ldir 2 true ∧ movesElement 8 .lddb (-1) false ∧ movesElement 16 .ldd (-2) false ∧
  movesElement 8 .lddrb (-1) true ∧ movesElement 16 .lddr (-2) true

/-- TRIB, TRDB, TRTIB, TRTDB and their repeating forms, one basic operation: a translation leaves RH1 and Z open, a
test puts the entry into RH1; RL1 is kept. -/
def Obligations.TranslateBlock : Prop :=
  translates .trib 1 false ∧ translates .trirb 1 true ∧ translates .trdb (-1) false ∧ translates .trdrb (-1) true ∧
  translatesTest .trtib 1 false ∧ translatesTest .trtirb 1 true ∧ translatesTest .trtdb (-1) false ∧
  translatesTest .trtdrb (-1) true

/-! ## CPU control -/

/-- COMFLG, RESFLG, SETFLG, NOP and LDCTLB. That D and H are bits 3 and 2 of the flag byte is log 10. -/
def Obligations.FlagControl : Prop :=
  (∀ s (k : BitVec 4), RunsFlag (.comflg k) s
    (czsv s.fcw (s.fcw.c ^^ k.getLsbD 3) (s.fcw.z ^^ k.getLsbD 2) (s.fcw.s ^^ k.getLsbD 1) (s.fcw.pv ^^ k.getLsbD 0)) 1) ∧
  (∀ s (k : BitVec 4), RunsFlag (.resflg k) s
    (czsv s.fcw (s.fcw.c && !k.getLsbD 3) (s.fcw.z && !k.getLsbD 2) (s.fcw.s && !k.getLsbD 1)
      (s.fcw.pv && !k.getLsbD 0)) 1) ∧
  (∀ s (k : BitVec 4), RunsFlag (.setflg k) s
    (czsv s.fcw (s.fcw.c || k.getLsbD 3) (s.fcw.z || k.getLsbD 2) (s.fcw.s || k.getLsbD 1)
      (s.fcw.pv || k.getLsbD 0)) 1) ∧
  (∀ s, RunsFlag .nop s s.fcw 1) ∧
  (∀ s d, ∃ v : Byte, v.getLsbD 7 = s.fcw.c ∧ v.getLsbD 6 = s.fcw.z ∧ v.getLsbD 5 = s.fcw.s ∧ v.getLsbD 4 = s.fcw.pv ∧
    v.getLsbD 3 = s.fcw.d ∧ v.getLsbD 2 = s.fcw.h ∧ RunsReg (.ldctlbFrom d) s d v s.fcw 1) ∧
  ∀ s r, RunsFlag (.ldctlbTo r) s
    { s.fcw with c := (s.regB r).getLsbD 7, z := (s.regB r).getLsbD 6, s := (s.regB r).getLsbD 5,
                 pv := (s.regB r).getLsbD 4, d := (s.regB r).getLsbD 3, h := (s.regB r).getLsbD 2 } 1

/-- EI, DI, HALT and the multi-micro instructions in system mode [log 21, 35]. -/
def Obligations.SystemControl : Prop :=
  ∀ s, s.fcw.sn = true →
    (∀ v n, RunsFlag (.ei v n) s { s.fcw with vie := s.fcw.vie || v, nvie := s.fcw.nvie || n } 1) ∧
    (∀ v n, RunsFlag (.di v n) s { s.fcw with vie := s.fcw.vie && !v, nvie := s.fcw.nvie && !n } 1) ∧
    exec .halt s = .next { s with pc := s.pc.plus 2, halted := true } ∧
    exec .mset s = .next { s with pc := s.pc.plus 2, moActive := true } ∧
    exec .mres s = .next { s with pc := s.pc.plus 2, moActive := false } ∧
    (∀ low rest, s.env.miLow = low :: rest →
      exec .mbit s = .next { s with pc := s.pc.plus 2, fcw := { s.fcw with s := low },
                                    env := { s.env with miLow := rest } }) ∧
    (∀ d rest, s.env.miLow = true :: rest →
      exec (.mreq d) s = .next { s with pc := s.pc.plus 2, fcw := { s.fcw with z := false, s := false },
                                        env := { s.env with miLow := rest } }) ∧
    ∀ d low rest, s.env.miLow = false :: low :: rest →
      ∃ t, exec (.mreq d) s = .next t ∧ t.fcw = { s.fcw with z := true, s := low } ∧ t.moActive = low ∧
        t.regW d = 0 ∧ OnlyRegs s t [d] ∧ t.mem = s.mem ∧
        { t with regs := s.regs, fcw := s.fcw, moActive := s.moActive } =
          { s with pc := s.pc.plus 2, env := { s.env with miLow := rest } }

/-- LDCTL in system mode: every control register read and written [log 10, 11, 22, 36]; the places of RE and RATE in
REFRESH are the model's choice [log 53]. -/
def Obligations.ControlRegisters : Prop :=
  ∀ s d, s.fcw.sn = true →
    (∃ v, Fcw.ofWord v = s.fcw ∧ RunsReg (.ldctlFrom d .fcw) s d v s.fcw 1) ∧
    (∃ v : Word, v.getLsbD 15 = s.refresh.re ∧ v.extractLsb' 9 6 = s.refresh.rate ∧
      (s.refresh.re = false → s.refresh.row.getLsbD 0 = false → v.extractLsb' 0 9 = s.refresh.row) ∧
      RunsReg (.ldctlFrom d .refresh) s d v s.fcw 1) ∧
    (s.isZ8001 = true → RunsReg (.ldctlFrom d .psapSeg) s d s.psapSeg s.fcw 1) ∧
    RunsReg (.ldctlFrom d .psapOff) s d s.psapOff s.fcw 1 ∧
    (s.isZ8001 = true → RunsReg (.ldctlFrom d .nspSeg) s d (s.regs.get 14) s.fcw 1) ∧
    RunsReg (.ldctlFrom d .nspOff) s d (s.regs.get 15) s.fcw 1 ∧
    (s.isZ8001 = true ∨ (s.regW d).getLsbD 15 = false →
      RunsFlag (.ldctlTo .fcw d) s (Fcw.ofWord (s.regW d)) 1) ∧
    exec (.ldctlTo .refresh d) s = .next { s with pc := s.pc.plus 2, refresh :=
      ⟨(s.regW d).getLsbD 15, (s.regW d).extractLsb' 9 6, (s.regW d).extractLsb' 0 9⟩ } ∧
    (s.isZ8001 = true → exec (.ldctlTo .psapSeg d) s = .next { s with pc := s.pc.plus 2, psapSeg := s.regW d }) ∧
    exec (.ldctlTo .psapOff d) s = .next { s with pc := s.pc.plus 2, psapOff := s.regW d } ∧
    (s.isZ8001 = true →
      exec (.ldctlTo .nspSeg d) s = .next { s with pc := s.pc.plus 2, regs := s.regs.set 14 (s.regW d) }) ∧
    exec (.ldctlTo .nspOff d) s = .next { s with pc := s.pc.plus 2, regs := s.regs.set 15 (s.regW d) }

/-- LDPS in system mode: the layout is that of the mode before [log 37]. -/
def Obligations.LoadProgramStatus : Prop :=
  ∀ s (m : Mem), s.fcw.sn = true → (m.addr s).off.getLsbD 0 = false → Alone s →
    (s.segmented = false →
      (s.isZ8001 = true ∨ (s.wordAt s.dataSp (m.addr s)).getLsbD 15 = false) →
      exec (.ldps m) s = .next { s with
        fcw    := Fcw.ofWord (s.wordAt s.dataSp (m.addr s))
        pc     := ⟨s.pc.seg, s.wordAt s.dataSp ((m.addr s).plus 2)⟩
        busLog := readRun s s.dataSp (m.addr s) 2 ++ s.busLog }) ∧
    (s.segmented = true →
      exec (.ldps m) s = .next { s with
        fcw    := Fcw.ofWord (s.wordAt s.dataSp ((m.addr s).plus 2))
        pc     := ⟨(s.wordAt s.dataSp ((m.addr s).plus 4)).extractLsb' 8 7,
                   s.wordAt s.dataSp ((m.addr s).plus 6)⟩
        busLog := readRun s s.dataSp ((m.addr s).plus 2) 3 ++ s.busLog })

/-! ## Input and output -/

/-- IN, SIN, OUT, SOUT in system mode: one transaction with the port, in the space of the mnemonic. -/
def Obligations.InputOutput : Prop :=
  ∀ s d r (p : PortOp) (port : Word),
    inputs 8 .standard (.inb d p) s d (p.port s) (1 + p.extra) ∧
    inputs 16 .standard (.inw d p) s d (p.port s) (1 + p.extra) ∧
    inputs 8 .special (.sinb d port) s d port 2 ∧ inputs 16 .special (.sin d port) s d port 2 ∧
    outputs 8 .standard (.outb p r) s (p.port s) r (1 + p.extra) ∧
    outputs 16 .standard (.outw p r) s (p.port s) r (1 + p.extra) ∧
    outputs 8 .special (.soutb port r) s port r 2 ∧ outputs 16 .special (.sout port r) s port r 2

/-- The block input instructions in system mode, one basic operation [log 28, 51]. -/
def Obligations.BlockInput : Prop :=
  inputsBlock 8 .standard .inib 1 false ∧ inputsBlock 16 .standard .ini 2 false ∧
  inputsBlock 8 .standard .inirb 1 true ∧ inputsBlock 16 .standard .inir 2 true ∧
  inputsBlock 8 .standard .indb (-1) false ∧ inputsBlock 16 .standard .ind (-2) false ∧
  inputsBlock 8 .standard .indrb (-1) true ∧ inputsBlock 16 .standard .indr (-2) true ∧
  inputsBlock 8 .special .sinib 1 false ∧ inputsBlock 16 .special .sini 2 false ∧
  inputsBlock 8 .special .sinirb 1 true ∧ inputsBlock 16 .special .sinir 2 true ∧
  inputsBlock 8 .special .sindb (-1) false ∧ inputsBlock 16 .special .sind (-2) false ∧
  inputsBlock 8 .special .sindrb (-1) true ∧ inputsBlock 16 .special .sindr (-2) true

/-- The block output instructions in system mode, one basic operation [log 28, 51]. -/
def Obligations.BlockOutput : Prop :=
  outputsBlock 8 .standard .outib 1 false ∧ outputsBlock 16 .standard .outi 2 false ∧
  outputsBlock 8 .standard .otirb 1 true ∧ outputsBlock 16 .standard .otir 2 true ∧
  outputsBlock 8 .standard .outdb (-1) false ∧ outputsBlock 16 .standard .outd (-2) false ∧
  outputsBlock 8 .standard .otdrb (-1) true ∧ outputsBlock 16 .standard .otdr (-2) true ∧
  outputsBlock 8 .special .soutib 1 false ∧ outputsBlock 16 .special .souti 2 false ∧
  outputsBlock 8 .special .sotirb 1 true ∧ outputsBlock 16 .special .sotir 2 true ∧
  outputsBlock 8 .special .soutdb (-1) false ∧ outputsBlock 16 .special .soutd (-2) false ∧
  outputsBlock 8 .special .sotdrb (-1) true ∧ outputsBlock 16 .special .sotdr (-2) true

/-! ## Program control -/

/-- CALL and CALR push the address after the instruction and go to the target; RET goes to the address on the stack
when its condition holds, else to the next instruction. That the segment of the PC stays in nonsegmented mode is log 13,
the target of CALR log 43; an odd R15 is in `Obligations.Stops`. -/
def Obligations.CallAndReturn : Prop :=
  (∀ s (m : Mem), (s.regW 15).getLsbD 0 = false → Alone s → Calls (.call m) s (m.addr s) (1 + m.extra)) ∧
  (∀ s (disp : BitVec 12), (s.regW 15).getLsbD 0 = false → Alone s →
    Calls (.calr disp) s ⟨s.pc.seg, s.pc.off + 2 - 2 * disp.signExtend 16⟩ 1) ∧
  ∀ s (c : Cc),
    (s.fcw.holds c = true → (s.regW 15).getLsbD 0 = false → Alone s →
      exec (.ret c) s = .next { s.setRegW 15 (s.regW 15 + if s.segmented then 4 else 2) with
        pc := if s.segmented then
            ⟨(s.wordAt s.stackSp s.sp).extractLsb' 8 7, s.wordAt s.stackSp (s.sp.plus 2)⟩
          else ⟨s.pc.seg, s.wordAt s.stackSp s.sp⟩
        busLog := readRun s s.stackSp s.sp (if s.segmented then 2 else 1) ++ s.busLog }) ∧
    (s.fcw.holds c = false → exec (.ret c) s = .next { s with pc := s.pc.plus 2 })

/-- JP, JR, DJNZ and DBJNZ. That the segment of the PC stays in nonsegmented mode is log 13, the targets of JR, DJNZ
and DBJNZ are log 43. -/
def Obligations.Branch : Prop :=
  (∀ s c (m : Mem), exec (.jp c m) s = .next { s with
    pc := if s.fcw.holds c then branchTo s (m.addr s) else s.pc.plus (BitVec.ofNat 16 (2 * (1 + m.extra))) }) ∧
  (∀ s c (disp : Byte), exec (.jr c disp) s = .next { s with
    pc := if s.fcw.holds c then ⟨s.pc.seg, s.pc.off + 2 + 2 * disp.signExtend 16⟩ else s.pc.plus 2 }) ∧
  (∀ s r (disp : BitVec 7), exec (.djnz r disp) s = .next { s.setRegW r (s.regW r - 1) with
    pc := if s.regW r = 1 then s.pc.plus 2 else ⟨s.pc.seg, s.pc.off + 2 - 2 * disp.setWidth 16⟩ }) ∧
  ∀ s r (disp : BitVec 7), exec (.dbjnz r disp) s = .next { s.setRegB r (s.regB r - 1) with
    pc := if s.regB r = 1 then s.pc.plus 2 else ⟨s.pc.seg, s.pc.off + 2 - 2 * disp.setWidth 16⟩ }

/-! ## Exceptions -/

/-- SC takes the System Call Trap in both modes, with its own word as identifier and the next instruction saved. -/
def Obligations.SystemCall : Prop :=
  ∀ s (v : Byte), EntryReady s .systemCall (0x7F#8 ++ v) (s.pc.plus 2) →
    ∃ t, exec (.sc v) s = .next t ∧ Entered s t .systemCall (0x7F#8 ++ v) (s.pc.plus 2)

/-- A privileged instruction in normal mode takes the Privileged Instruction Trap and does nothing else; a step takes it
on the first word alone, also where the words behind it are no instruction [log 46]. -/
def Obligations.PrivilegedTrap : Prop :=
  (∀ s (i : Instr), isPrivileged i = true → s.fcw.sn = false →
    EntryReady s .privilegedInstruction (firstWord i) (s.pc.plus 2) →
    ∃ t, exec i s = .next t ∧ Entered s t .privilegedInstruction (firstWord i) (s.pc.plus 2)) ∧
  ∀ s l, AtInstruction s l → privilegedUpper (fetched s 0) = true → s.fcw.sn = false →
    EntryReady s .privilegedInstruction (fetched s 0) (s.pc.plus 2) →
    ∃ t, step s = asStep (afterFetch s 1) (s.lengthAt s.pc) (.next t) ∧
      Entered (afterFetch s 1) t .privilegedInstruction (fetched s 0) (s.pc.plus 2)

/-- An extended instruction with EPA = 0 takes the Extended Instruction Trap, in both modes; the saved PC is that of
EIT_SAVED_PC. A step takes it on the first word alone, also where the words behind it are no instruction; for
next_instruction the offset saved is that after the template's words, and open for a word without a template [log 5]. -/
def Obligations.ExtendedTrap : Prop :=
  (∀ s (i : Instr), isExtended i = true → s.fcw.epa = false →
    (s.params.eitSavedPc = .secondWord → EntryReady s .extendedInstruction (firstWord i) (s.pc.plus 2) →
      ∃ t, exec i s = .next t ∧ Entered s t .extendedInstruction (firstWord i) (s.pc.plus 2)) ∧
    (s.params.eitSavedPc = .nextInstruction →
      EntryReady s .extendedInstruction (firstWord i) (s.pc.plus (BitVec.ofNat 16 (2 * (encode i).length))) →
      ∃ t, exec i s = .next t ∧
        Entered s t .extendedInstruction (firstWord i) (s.pc.plus (BitVec.ofNat 16 (2 * (encode i).length))))) ∧
  ∀ s l, AtInstruction s l → extendedUpper (fetched s 0) = true → s.fcw.epa = false →
    (∀ saved, EntryReady s .extendedInstruction (fetched s 0) saved) →
    ∃ t saved, step s = asStep (afterFetch s 1) (s.lengthAt s.pc) (.next t) ∧
      Entered (afterFetch s 1) t .extendedInstruction (fetched s 0) saved ∧ saved.seg = s.pc.seg ∧
      (s.params.eitSavedPc = .secondWord → saved = s.pc.plus 2) ∧
      ∀ n, s.params.eitSavedPc = .nextInstruction →
        templateWords s.params.epaMap s.segmented (fetched s 0) (fetched s 2) = some n →
        saved = s.pc.plus (BitVec.ofNat 16 (2 * n))

/-- The identifier word, where it comes from and where it lies, for decoded instructions and for first words that take
their trap whatever is behind them [log 46]; words that are no instruction and take no trap are refused by name. IRET
discards the identifier; of a vectored interrupt only its low byte selects the PC. -/
def Obligations.IdentifierWord : Prop :=
  (∀ (s t : State) (v : Byte), Alone s → exec (.sc v) s = .next t →
    t.wordAt ⟨.stack, true⟩ ⟨s.ssp.seg, t.regs.get 17⟩ = (encode (.sc v)).getD 0 0) ∧
  (∀ (s t : State) (i : Instr), isPrivileged i = true → s.fcw.sn = false → Alone s → exec i s = .next t →
    t.wordAt ⟨.stack, true⟩ ⟨s.ssp.seg, t.regs.get 17⟩ = (encode i).getD 0 0) ∧
  (∀ (s t : State) (i : Instr), isExtended i = true → s.fcw.epa = false → Alone s → exec i s = .next t →
    t.wordAt ⟨.stack, true⟩ ⟨s.ssp.seg, t.regs.get 17⟩ = (encode i).getD 0 0) ∧
  (∀ (s t : State) l, AtInstruction s l → trapsFirst s = true → step s = .next t →
    t.wordAt ⟨.stack, true⟩ ⟨s.ssp.seg, t.regs.get 17⟩ = fetched s 0) ∧
  (∀ (s : State) l r, AtInstruction s l → trapsFirst s = false → decoded s = .error r →
    step s = .refused (.encoding r)) ∧
  (∀ (s t : State) (k : Exc) (l : Lines), Alone s → s.accept k l = .next t →
    t.wordAt ⟨.stack, true⟩ ⟨s.ssp.seg, t.regs.get 17⟩ = l.ackId) ∧
  (∀ (s : State) (k : Exc) (id id' : Word), loByte id = loByte id' ∨ k ≠ .vi → s.newPcAt k id = s.newPcAt k id') ∧
  ∀ (s : State) (w : Word), Alone s →
    (∀ t, s.leave = .next t → ∃ u, (s.putWord ⟨.stack, true⟩ s.ssp w).leave = .next u ∧
      u.mem = (t.putWord ⟨.stack, true⟩ s.ssp w).mem ∧ { u with mem := t.mem, busLog := t.busLog } = t) ∧
    ∀ f, s.leave = .fault f → (s.putWord ⟨.stack, true⟩ s.ssp w).leave = .fault f

/-- IRET in system mode: FCW and PC come from the frame, the system stack pointer is raised past it. On a Z8001 in
nonsegmented mode the operation is undefined: it stops [log 38]. -/
def Obligations.InterruptReturn : Prop :=
  ∀ s, s.fcw.sn = true →
    (s.isZ8001 = true → s.fcw.seg = true → s.ssp.off.getLsbD 0 = false → Alone s →
      exec .iret s = .next { s with
        fcw := Fcw.ofWord (s.wordAt ⟨.stack, true⟩ (s.ssp.plus 2))
        pc := ⟨(s.wordAt ⟨.stack, true⟩ (s.ssp.plus 4)).extractLsb' 8 7, s.wordAt ⟨.stack, true⟩ (s.ssp.plus 6)⟩
        busLog := readRun s ⟨.stack, true⟩ s.ssp 4 ++ s.busLog
        regs := s.regs.set 17 (s.regW 15 + 8) }) ∧
    (s.isZ8001 = false → s.ssp.off.getLsbD 0 = false → Alone s →
      (s.wordAt ⟨.stack, true⟩ (s.ssp.plus 2)).getLsbD 15 = false →
      exec .iret s = .next { s with
        fcw := Fcw.ofWord (s.wordAt ⟨.stack, true⟩ (s.ssp.plus 2))
        pc := ⟨s.pc.seg, s.wordAt ⟨.stack, true⟩ (s.ssp.plus 4)⟩
        busLog := readRun s ⟨.stack, true⟩ s.ssp 3 ++ s.busLog
        regs := s.regs.set 17 (s.regW 15 + 6) }) ∧
    (s.isZ8001 = true → s.fcw.seg = false → exec .iret s = .fault .iretNonsegmented)

/-- An entry followed by the return restores FCW, PC, the whole register file and all but the frame's bytes of
memory. -/
def Obligations.ReturnUndoesEntry : Prop :=
  ∀ (s t : State) (k : Exc) (id : Word) (saved : Addr), Alone s → s.enter k id saved = .next t →
    (s.isZ8001 = false → s.pc.seg = 0 ∧ saved.seg = 0) → (s.isZ8001 = false → s.fcw.seg = false) →
    t.fcw.sn = true → (s.isZ8001 = true → t.fcw.seg = true) →
    ∃ u, exec .iret t = .next u ∧ u.fcw = s.fcw ∧ u.pc = saved ∧ u.regs = s.regs ∧
      OnlyMem s u ⟨.stack, true⟩ (frameBase s) (if s.isZ8001 then 8 else 6)

/-! ## Extended instructions -/

/-- The seven templates with EPA = 1 and an EPU fitted: what the CPU does for each, one transaction for each word. The
count in bits 3:0 and the register in bits 11:8 of the second word are log 4, the flag byte's D and H bits log 10, R0
after the flag template log 58. Without an EPU they stop [log 3]. -/
def Obligations.ExtendedInstructions : Prop :=
  ∀ s, s.fcw.epa = true →
    (s.params.epuFitted = true →
      (∀ sel lo (m : Mem) w1, (m.addr s).off.getLsbD 0 = false → Alone s →
        ∃ t ws, exec (.epaMemFromEpu sel lo m w1) s = .next t ∧ EpuWords s (epaN w1) ws ∧
          EpuDone (.epaMemFromEpu sel lo m w1) s t (inTurn (epaN w1) (fun j =>
            [.epuSupply s.fcw.sn (ws.getD j 0), .memWrite s.dataSp false ((m.addr s).plus (BitVec.ofNat 16 (2 * j))) (ws.getD j 0)]))
            (epaN w1) (2 + m.extra) ∧
          t.fcw = s.fcw ∧ t.regs = s.regs ∧ OnlyMem s t s.dataSp (m.addr s) (2 * epaN w1) ∧
          ∀ j < epaN w1, some (t.wordAt s.dataSp ((m.addr s).plus (BitVec.ofNat 16 (2 * j)))) = ws[j]?) ∧
      (∀ sel lo (m : Mem) w1, (m.addr s).off.getLsbD 0 = false → Alone s →
        ∃ t, exec (.epaEpuFromMem sel lo m w1) s = .next t ∧ t.fcw = s.fcw ∧ t.regs = s.regs ∧ SameMem s t ∧
          EpuDone (.epaEpuFromMem sel lo m w1) s t (inTurn (epaN w1) (fun j =>
            readEvents s 16 s.dataSp ((m.addr s).plus (BitVec.ofNat 16 (2 * j))) ++
              [.epuCapture s.fcw.sn (s.wordAt s.dataSp ((m.addr s).plus (BitVec.ofNat 16 (2 * j))))])) 0 (2 + m.extra)) ∧
      (∀ w0 w1, Alone s →
        ∃ t ws, exec (.epaCpuFromEpu w0 w1) s = .next t ∧ EpuWords s (epaN w1) ws ∧
          EpuDone (.epaCpuFromEpu w0 w1) s t (inTurn (epaN w1) (fun j => [.epuSupply s.fcw.sn (ws.getD j 0)])) (epaN w1) 2 ∧
          t.fcw = s.fcw ∧ SameMem s t ∧ OnlyRegs s t (runOfRegs (w1.extractLsb' 8 4) (w1.extractLsb' 0 4)) ∧
          ∀ j < epaN w1, some (t.regW (w1.extractLsb' 8 4 + BitVec.ofNat 4 j)) = ws[j]?) ∧
      (∀ w0 w1, Alone s →
        ∃ t, exec (.epaEpuFromCpu w0 w1) s = .next t ∧ t.fcw = s.fcw ∧ t.regs = s.regs ∧ SameMem s t ∧
          EpuDone (.epaEpuFromCpu w0 w1) s t (inTurn (epaN w1) (fun j =>
            [.epuCapture s.fcw.sn (s.regW (w1.extractLsb' 8 4 + BitVec.ofNat 4 j))])) 0 2) ∧
      (∀ w0 w1, Alone s →
        ∃ (t : State) (b : Byte), exec (.epaFcwFromEpu w0 w1) s = .next t ∧ Supplied s b ∧
          t.fcw = { s.fcw with c := b.getLsbD 7, z := b.getLsbD 6, s := b.getLsbD 5, pv := b.getLsbD 4,
                               d := b.getLsbD 3, h := b.getLsbD 2 } ∧
          OnlyRegs s t [0] ∧ SameMem s t ∧ EpuDone (.epaFcwFromEpu w0 w1) s t [.epuSupplyByte s.fcw.sn b] 1 2) ∧
      (∀ w0 w1, Alone s →
        ∃ (t : State) (b : Byte), exec (.epaEpuFromFcw w0 w1) s = .next t ∧
          s.fcw = { s.fcw with c := b.getLsbD 7, z := b.getLsbD 6, s := b.getLsbD 5, pv := b.getLsbD 4,
                               d := b.getLsbD 3, h := b.getLsbD 2 } ∧
          t.fcw = s.fcw ∧ t.regs = s.regs ∧ SameMem s t ∧
          EpuDone (.epaEpuFromFcw w0 w1) s t [.epuCaptureByte s.fcw.sn b] 0 2) ∧
      (∀ w0 w1, ∃ t, exec (.epaInternal w0 w1) s = .next t ∧ t.fcw = s.fcw ∧ t.regs = s.regs ∧ SameMem s t ∧
        EpuDone (.epaInternal w0 w1) s t [] 0 2)) ∧
    (s.params.epuFitted = false → ∀ i, isExtended i = true → exec i s = .refused .noEpu)

/-! ## The machine -/

/-- A step runs the decoded instruction: the environment's event is consumed, the enables of the next sample are those
of now, the words are fetched (the first alone where it takes a trap), the instruction is carried out, the store rule
[log 24] applied, and the counter of draws advanced. -/
def Obligations.StepRunsTheDecodedInstruction : Prop :=
  ∀ (s : State) (i : Instr) (l : Lines), AtInstruction s l → decoded s = .ok i →
    step s = asStep (afterFetch s (if trapsFirst s then 1 else (encode i).length)) (encode i).length
      (exec i (afterFetch s (if trapsFirst s then 1 else (encode i).length)))

/-- The invariant holds at reset. -/
def Obligations.ResetHasInvariant : Prop := Inv State.reset

/-- Every step keeps the invariant: memory in its canonical form, at most two skipped refreshes, a first word held only
in the Stop/Refresh state, and on a Z8002 no segmented mode and no segment number in the PC. -/
def Obligations.StepKeepsInvariant : Prop := ∀ s t : State, Inv s → step s = .next t → Inv t

/-- In normal mode a step without a reset changes no control bit of the FCW, no control register, no system stack
pointer and no interrupt enable, unless it takes an exception. -/
def Obligations.NormalModeIsConfined : Prop :=
  ∀ s t : State, s.fcw.sn = false → (∀ n, s.event ≠ .reset n) → (∀ n, .reset n ∉ s.env.bus) → s.resetDue = false →
    step s = .next t →
    ControlKept s t ∨ ∃ k,
      (Alone s → t.fcw = Fcw.ofWord (t.wordAt ⟨.prog, true⟩ (fcwPlace s k))) ∧
      t.regs.get 17 = s.regs.get 17 - (if s.isZ8001 then 8 else 6) ∧ t.psapSeg = s.psapSeg ∧ t.psapOff = s.psapOff ∧
      t.moActive = s.moActive ∧ t.refresh.re = s.refresh.re ∧ t.refresh.rate = s.refresh.rate ∧ t.params = s.params

/-- A reset of five clocks or more leaves the state of a reset, with memory unchanged and the reset reads to come; a
shorter one stops [log 49]. They load FCW and PC from system program memory and change nothing else. A reset inside an
instruction or an entry cuts it short: what it has written stays, what it has not is not written. The registers after
it are the values of log 6. -/
def Obligations.ResetSequence : Prop :=
  (∀ (s : State) (n : Nat), s.event = .reset n →
    (n < 5 → step s = .fault .shortReset) ∧
    (5 ≤ n → step s = .next { State.reset with
      params := s.params, mem := s.mem, busLog := s.busLog, resetDue := true, draws := s.draws + 1,
      env := { s.env with events := s.env.events.tail } })) ∧
  (∀ (s : State) (l : Lines), s.event = .run l → s.cpuState = .running → s.resetDue = true → Alone s →
    (s.isZ8001 = true ∨ (s.wordAt ⟨.prog, true⟩ ⟨0, 2⟩).getLsbD 15 = false) →
    step s = .next { s with
      fcw := Fcw.ofWord (s.wordAt ⟨.prog, true⟩ ⟨0, 2⟩)
      pc := if s.isZ8001 then
          ⟨(s.wordAt ⟨.prog, true⟩ ⟨0, 4⟩).extractLsb' 8 7, s.wordAt ⟨.prog, true⟩ ⟨0, 6⟩⟩
        else ⟨0, s.wordAt ⟨.prog, true⟩ ⟨0, 4⟩⟩
      resetDue := false
      sampleVie := (s.wordAt ⟨.prog, true⟩ ⟨0, 2⟩).getLsbD 12
      sampleNvie := (s.wordAt ⟨.prog, true⟩ ⟨0, 2⟩).getLsbD 11
      busLog := readRun s ⟨.prog, true⟩ ⟨0, 2⟩ (if s.isZ8001 then 3 else 2) ++ s.busLog
      env := { s.env with events := s.env.events.tail }
      draws := s.draws + 1 }) ∧
  (∀ (s : State) (m : Mem) (r : RegNo) (k : BitVec 4) (n : Nat) rest, (m.addr s).off.getLsbD 0 = false → k ≠ 0 →
    s.env.bus = .pass :: .reset n :: rest →
    (n < 5 → exec (.ldmStore m r k) s = .fault .shortReset) ∧
    (5 ≤ n → ∃ t, exec (.ldmStore m r k) s = .next t ∧ t.resetDue = true ∧ t.regs = State.reset.regs ∧
      t.wordAt s.dataSp (m.addr s) = s.regW r ∧ OnlyMem s t s.dataSp (m.addr s) 2)) ∧
  ∀ (s : State) (k : Exc) (id : Word) (saved : Addr) (n : Nat) rest, 5 ≤ n → s.ssp.off.getLsbD 0 = false →
    (s.isZ8001 = true → k = .vi → id.getLsbD 0 = false) → s.env.bus = .pass :: .reset n :: rest →
    ∃ t, s.enter k id saved = .next t ∧ t.resetDue = true ∧ t.regs = State.reset.regs ∧
      t.wordAt ⟨.stack, true⟩ (s.ssp.plus (-2)) = saved.off ∧ OnlyMem s t ⟨.stack, true⟩ (s.ssp.plus (-2)) 2

/-- Requests at a sampling point, by priority, with the identifier of the acknowledge; an NMI edge is latched and the
latch cleared by the acknowledge of the NMI [log 47]. Without a sampling point none is accepted [log 16]. The fetch is
aborted before the acknowledge [log 57]. -/
def Obligations.InterruptRequests : Prop :=
  (∀ s : State, s.event = .nmiEdge →
    step s = .next { s with nmiLatch := true, env := { s.env with events := s.env.events.tail },
                            draws := s.draws + 1 }) ∧
  (∀ (s : State) (l : Lines), s.sampleDue = false → s.request l = none) ∧
  (∀ (s : State) (l : Lines), s.sampleDue = true → s.request l =
    if s.nmiLatch then some .nmi else if l.segt = true ∧ s.isZ8001 = true then some .segmentTrap
    else if l.vi = true ∧ s.sampleVie = true then some .vi
    else if l.nvi = true ∧ s.sampleNvie = true then some .nvi else none) ∧
  ∀ (s : State) (l : Lines) (k : Exc), s.event = .run l ∨ s.event = .stop l → s.cpuState = .running →
    s.resetDue = false → s.heldWord = none → s.request l = some k → EntryReady s k l.ackId s.pc →
    ∃ t u : State, step s = .next { t with draws := t.draws + 1 } ∧ Entered u t k l.ackId s.pc ∧
      u = { s with env := { s.env with events := s.env.events.tail },
                   busLog := .acknowledge k l.ackId :: .abortedFetch s.progSp s.pc :: s.busLog,
                   nmiLatch := if k = .nmi then false else s.nmiLatch }

/-- Pauses. STOP at a fetch, after its sample: a cycle of the Stop/Refresh state adds two to ROW, a further stop event
another, and one more comes when STOP is High again; then the CPU goes on with no new sample. A halted CPU is held by
STOP too, and goes on sampling afterwards. STOP before the second word of an extended instruction holds the first
word, which goes on with the further words. A bus grant between instructions records at most two elapsed periods,
which are issued when the CPU has the bus again, and then the CPU goes on; one inside an instruction comes between two
transactions, so that LDL can read halves of different times and the operand of INC can be written between its read
and write, but that of TSET can not. A halted CPU with no request stays as it is [log 18, 22]. -/
def Obligations.RefreshAndPauses : Prop :=
  (∀ (s : State) l, s.event = .stop l → s.cpuState = .running → s.resetDue = false → s.halted = false →
    s.request l = none → s.pc.off.getLsbD 0 = false →
    step s = .next { s with
      refresh := { s.refresh with row := s.refresh.row + 2 }, cpuState := .stopRefresh, sampleDue := false,
      env := { s.env with events := s.env.events.tail }, draws := s.draws + 1 }) ∧
  (∀ (s : State) l, s.event = .stop l → s.cpuState = .running → s.resetDue = false → s.halted = true →
    s.request l = none →
    step s = .next { s with
      refresh := { s.refresh with row := s.refresh.row + 2 }, cpuState := .stopRefresh,
      env := { s.env with events := s.env.events.tail }, draws := s.draws + 1 }) ∧
  (∀ (s : State) l, s.event = .stop l → s.cpuState = .stopRefresh →
    step s = .next { s with
      refresh := { s.refresh with row := s.refresh.row + 2 },
      env := { s.env with events := s.env.events.tail }, draws := s.draws + 1 }) ∧
  (∀ (s : State) l, s.event = .run l → s.cpuState = .stopRefresh →
    step s = step { s with cpuState := .running, refresh := { s.refresh with row := s.refresh.row + 2 } }) ∧
  (∀ (s : State) l rest, AtFetch s l → s.pc.off.getLsbD 0 = false → extendedUpper (fetched s 0) = true →
    s.fcw.epa = true → s.env.bus = .pass :: .stop :: rest →
    step s = .next { afterFetch s 1 with
      refresh := { s.refresh with row := s.refresh.row + 2 }, cpuState := .stopRefresh, sampleDue := false,
      heldWord := some (fetched s 0), draws := s.draws + 1,
      env := { s.env with events := s.env.events.tail, bus := rest } }) ∧
  (∀ (s : State) l w0 i, s.event = .run l → s.cpuState = .running → s.resetDue = false → s.heldWord = some w0 →
    extendedUpper w0 = true → s.fcw.epa = true → Alone s →
    decode s.params.epaMap s.segmented w0 (fetched s 1) (fetched s 2) (fetched s 3) = .ok i →
    let s' : State := { afterFetch s 0 with
      heldWord := none, busLog := fetchRun s 1 (encode i).length ++ s.busLog }
    step s = asStep s' (encode i).length (exec i s')) ∧
  (∀ (s : State) n ws, s.event = .busGrant n ws → s.cpuState ≠ .stopRefresh →
    step s = .next { s with
      cpuState := .busDisconnect, skipped := (if s.refresh.re then min 2 (s.skipped + n) else s.skipped),
      mem := ws.foldl (fun m c => memWrite m c.1 c.2) s.mem, busLog := .busGranted ws :: s.busLog,
      env := { s.env with events := s.env.events.tail }, draws := s.draws + 1 }) ∧
  (∀ (s : State) l, s.event = .run l ∨ s.event = .stop l → s.cpuState = .busDisconnect →
    step s = step { s with
      cpuState := .running, skipped := 0,
      refresh := { s.refresh with row := s.refresh.row + BitVec.ofNat 9 (2 * s.skipped) } }) ∧
  (∀ (s : State) (m : Mem) n ws rest, (m.addr s).off.getLsbD 0 = false → s.env.bus = .pass :: .grant n ws :: rest →
    let u : State := { s with mem := ws.foldl (fun m c => memWrite m c.1 c.2) s.mem }
    (∀ d, rest = [] → ∃ t, exec (.ldl d (.mem (.mem m))) s = .next t ∧
      t.reg 32 d = s.wordAt s.dataSp (m.addr s) ++ u.wordAt s.dataSp ((m.addr s).plus 2)) ∧
    (∀ k, ∃ t, exec (.inc (.mem m) k) s = .next t ∧
      t.wordAt s.dataSp (m.addr s) = s.wordAt s.dataSp (m.addr s) + counted 16 k ∧
      OnlyMem u t s.dataSp (m.addr s) 2) ∧
    ∃ t, exec (.tset (.mem m)) s = .next t ∧ t.wordAt s.dataSp (m.addr s) = BitVec.allOnes 16 ∧
      t.fcw = { s.fcw with s := (s.wordAt s.dataSp (m.addr s)).msb } ∧ OnlyMem s t s.dataSp (m.addr s) 2 ∧
      t.env.bus = .grant n ws :: rest) ∧
  ∀ (s : State) l, s.event = .run l → s.cpuState = .running → s.resetDue = false → s.heldWord = none →
    s.halted = true → s.request l = none →
    step s = .next { s with env := { s.env with events := s.env.events.tail }, draws := s.draws + 1 }

/-- Where the spec gives an operand or a run no meaning the machine stops by name: every word or long access to memory
at an odd address, an odd PC [log 15], a word block count of 0 or above 32768 [log 28], PSAPSEG and NSPSEG on a Z8002
[log 36], an FCW with bit 15 set on a Z8002 [log 11], an odd vector on a Z8001 [log 48], a store into the next
instruction [log 24]. -/
def Obligations.Stops : Prop :=
  (oddSource Instr.add ∧ oddSource Instr.addl ∧ oddSource Instr.sub ∧ oddSource Instr.subl ∧ oddSource Instr.cp ∧
    oddSource Instr.cpl ∧ oddSource Instr.mult ∧ oddSource Instr.multl ∧ oddSource Instr.div ∧ oddSource Instr.divl ∧
    oddSource Instr.and ∧ oddSource Instr.or ∧ oddSource Instr.xor) ∧
  (oddOperand Instr.neg ∧ oddOperand Instr.com ∧ oddOperand Instr.clr ∧ oddOperand Instr.test ∧
    oddOperand Instr.testl ∧ oddOperand Instr.tset ∧
    ∀ (k : BitVec 4) (d : RegNo), oddOperand (Instr.inc · k) ∧ oddOperand (Instr.dec · k) ∧
      oddOperand (Instr.bitStatic · k) ∧ oddOperand (Instr.resStatic · k) ∧ oddOperand (Instr.setStatic · k) ∧
      oddOperand (Instr.ex d) ∧ oddOperand (Instr.push d) ∧ oddOperand (Instr.pushl d) ∧
      oddOperand (Instr.pop · d) ∧ oddOperand (Instr.popl · d)) ∧
  (∀ s d (m : LdMem), OddAddr (m.addr s) →
    exec (.ld d (.mem m)) s = .fault .oddAddress ∧ exec (.ldl d (.mem m)) s = .fault .oddAddress ∧
    exec (.ldStore m d) s = .fault .oddAddress ∧ exec (.ldlStore m d) s = .fault .oddAddress) ∧
  (∀ s d (m : Mem) (v : Word) (k : BitVec 4), OddAddr (m.addr s) →
    exec (.cpMem m v) s = .fault .oddAddress ∧ exec (.ldImm m v) s = .fault .oddAddress ∧
    exec (.ldmLoad d m k) s = .fault .oddAddress ∧ exec (.ldmStore m d k) s = .fault .oddAddress ∧
    (s.fcw.sn = true → exec (.ldps m) s = .fault .oddAddress) ∧
    (s.fcw.epa = true → s.params.epuFitted = true → ∀ sel lo w1,
      exec (.epaMemFromEpu sel lo m w1) s = .fault .oddAddress ∧
      exec (.epaEpuFromMem sel lo m w1) s = .fault .oddAddress)) ∧
  (∀ s d disp, OddAddr (relTo s disp) →
    exec (.ldr d disp) s = .fault .oddAddress ∧ exec (.ldrl d disp) s = .fault .oddAddress ∧
    exec (.ldrStore disp d) s = .fault .oddAddress ∧ exec (.ldrlStore disp d) s = .fault .oddAddress) ∧
  (∀ s sp (l : Loc) (v : Word), OddAddr (s.addrReg sp) →
    exec (.push sp l) s = .fault .oddAddress ∧ exec (.pushl sp l) s = .fault .oddAddress ∧
    exec (.pop l sp) s = .fault .oddAddress ∧ exec (.popl l sp) s = .fault .oddAddress ∧
    exec (.pushImm sp v) s = .fault .oddAddress) ∧
  (∀ s (m : Mem) disp c, OddAddr s.sp →
    exec (.call m) s = .fault .oddAddress ∧ exec (.calr disp) s = .fault .oddAddress ∧
    (s.fcw.holds c = true → exec (.ret c) s = .fault .oddAddress)) ∧
  (∀ (s : State) (k : Exc) (id : Word) (saved : Addr), OddAddr s.ssp →
    s.enter k id saved = .fault .oddAddress ∧
    (s.fcw.sn = true → s.segmented = true ∨ s.isZ8001 = false → exec .iret s = .fault .oddAddress)) ∧
  (∀ (s : State) l, AtFetch s l → OddAddr s.pc → step s = .fault .oddPc) ∧
  (∀ cc, wordBlockStops false (fun rs r rd => .cpi rs r rd cc) (fun s rs _ => [s.addrReg rs]) ∧
    wordBlockStops false (fun rs r rd => .cpir rs r rd cc) (fun s rs _ => [s.addrReg rs]) ∧
    wordBlockStops false (fun rs r rd => .cpd rs r rd cc) (fun s rs _ => [s.addrReg rs]) ∧
    wordBlockStops false (fun rs r rd => .cpdr rs r rd cc) (fun s rs _ => [s.addrReg rs]) ∧
    wordBlockStops false (fun rs r rd => .cpsi rs r rd cc) (fun s rs rd => [s.addrReg rs, s.addrReg rd]) ∧
    wordBlockStops false (fun rs r rd => .cpsir rs r rd cc) (fun s rs rd => [s.addrReg rs, s.addrReg rd]) ∧
    wordBlockStops false (fun rs r rd => .cpsd rs r rd cc) (fun s rs rd => [s.addrReg rs, s.addrReg rd]) ∧
    wordBlockStops false (fun rs r rd => .cpsdr rs r rd cc) (fun s rs rd => [s.addrReg rs, s.addrReg rd])) ∧
  (∀ mk ∈ [Instr.ldi, Instr.ldir, Instr.ldd, Instr.lddr],
    wordBlockStops false mk (fun s rs rd => [s.addrReg rs, s.addrReg rd])) ∧
  (∀ mk ∈ [Instr.ini, Instr.inir, Instr.ind, Instr.indr, Instr.sini, Instr.sinir, Instr.sind, Instr.sindr],
    wordBlockStops true mk (fun s _ rd => [s.addrReg rd])) ∧
  (∀ mk ∈ [Instr.outi, Instr.otir, Instr.outd, Instr.otdr, Instr.souti, Instr.sotir, Instr.soutd, Instr.sotdr],
    wordBlockStops true mk (fun s rs _ => [s.addrReg rs])) ∧
  (∀ s d, s.fcw.sn = true → s.isZ8001 = false → ∀ c ∈ [CtlReg.psapSeg, CtlReg.nspSeg],
    exec (.ldctlFrom d c) s = .refused .noControlRegister ∧ exec (.ldctlTo c d) s = .refused .noControlRegister) ∧
  (∀ s, s.isZ8001 = false →
    (∀ d, s.fcw.sn = true → (s.regW d).getLsbD 15 = true → exec (.ldctlTo .fcw d) s = .fault .segBitOnZ8002) ∧
    (Alone s →
      (∀ m : Mem, s.fcw.sn = true → ¬OddAddr (m.addr s) → (s.wordAt s.dataSp (m.addr s)).getLsbD 15 = true →
        exec (.ldps m) s = .fault .segBitOnZ8002) ∧
      (s.fcw.sn = true → ¬OddAddr s.ssp → (s.wordAt ⟨.stack, true⟩ (s.ssp.plus 2)).getLsbD 15 = true →
        exec .iret s = .fault .segBitOnZ8002) ∧
      (∀ k id saved, ¬OddAddr s.ssp →
        ((s.putBelow ⟨.stack, true⟩ s.ssp (s.frame id saved)).wordAt ⟨.prog, true⟩ (fcwPlace s k)).getLsbD 15 = true →
        s.enter k id saved = .fault .segBitOnZ8002) ∧
      ∀ l, s.event = .run l → s.cpuState = .running → s.resetDue = true →
        (s.wordAt ⟨.prog, true⟩ ⟨0, 2⟩).getLsbD 15 = true → step s = .fault .segBitOnZ8002)) ∧
  (∀ (s : State) (id : Word) (saved : Addr), s.isZ8001 = true → ¬OddAddr s.ssp → id.getLsbD 0 = true →
    s.enter .vi id saved = .fault .oddVector) ∧
  ∀ (s : State) l (m : LdMem) r, AtInstruction s l → decoded s = .ok (.ldStore m r) → ¬OddAddr (m.addr s) →
    s.key s.dataSp (m.addr s) = s.key s.progSp (s.pc.plus (BitVec.ofNat 16 (2 * (1 + m.extra)))) →
    s.regW r ≠ s.wordAt s.dataSp (m.addr s) → step s = .fault .storeIntoNextInstruction

end
end

