-- ==== Sys2Proof/Laws/Encoding.lean ====
section
/-!
SUPPORT. Sys2Proof/Laws/Encoding.lean: the fields of the words that the encoder puts together.
-/
namespace Sys2Proof

/-! ## A first word (30_encoding.md R102) -/

@[simp] theorem fMode_asm (m : BitVec 2) (o : BitVec 6) (a b : BitVec 4) : fMode (asm m o a b) = m := by
  unfold fMode asm
  apply BitVec.eq_of_getLsbD_eq; intro i hi
  simp only [BitVec.getLsbD_extractLsb', BitVec.getLsbD_append]
  interval_cases i <;> simp

@[simp] theorem fOp_asm (m : BitVec 2) (o : BitVec 6) (a b : BitVec 4) : fOp (asm m o a b) = o := by
  unfold fOp asm
  apply BitVec.eq_of_getLsbD_eq; intro i hi
  simp only [BitVec.getLsbD_extractLsb', BitVec.getLsbD_append]
  interval_cases i <;> simp

@[simp] theorem nib1_asm (m : BitVec 2) (o : BitVec 6) (a b : BitVec 4) : nib1 (asm m o a b) = a := by
  unfold nib1 asm
  apply BitVec.eq_of_getLsbD_eq; intro i hi
  simp only [BitVec.getLsbD_extractLsb', BitVec.getLsbD_append]
  interval_cases i <;> simp

@[simp] theorem nib0_asm (m : BitVec 2) (o : BitVec 6) (a b : BitVec 4) : nib0 (asm m o a b) = b := by
  unfold nib0 asm
  apply BitVec.eq_of_getLsbD_eq; intro i hi
  simp only [BitVec.getLsbD_extractLsb', BitVec.getLsbD_append]
  interval_cases i <;> simp

/-! ## A second word of four fields (30_encoding.md R112) -/

@[simp] theorem nib3_word4 (a b c d : BitVec 4) : nib3 (word4 a b c d) = a := by
  unfold nib3 word4
  apply BitVec.eq_of_getLsbD_eq; intro i hi
  simp only [BitVec.getLsbD_extractLsb', BitVec.getLsbD_append]
  interval_cases i <;> simp

@[simp] theorem nib2_word4 (a b c d : BitVec 4) : nib2 (word4 a b c d) = b := by
  unfold nib2 word4
  apply BitVec.eq_of_getLsbD_eq; intro i hi
  simp only [BitVec.getLsbD_extractLsb', BitVec.getLsbD_append]
  interval_cases i <;> simp

@[simp] theorem nib1_word4 (a b c d : BitVec 4) : nib1 (word4 a b c d) = c := by
  unfold nib1 word4
  apply BitVec.eq_of_getLsbD_eq; intro i hi
  simp only [BitVec.getLsbD_extractLsb', BitVec.getLsbD_append]
  interval_cases i <;> simp

@[simp] theorem nib0_word4 (a b c d : BitVec 4) : nib0 (word4 a b c d) = d := by
  unfold nib0 word4
  apply BitVec.eq_of_getLsbD_eq; intro i hi
  simp only [BitVec.getLsbD_extractLsb', BitVec.getLsbD_append]
  interval_cases i <;> simp

/-! ## A segmented address word (30_encoding.md R109) -/

/-- The segment number. -/
@[simp] theorem segField_address (x : BitVec 1) (g : BitVec 7) (o : Byte) : segField (x ++ g ++ o) = g := by
  unfold segField
  apply BitVec.eq_of_getLsbD_eq; intro i hi
  simp only [BitVec.getLsbD_extractLsb', BitVec.getLsbD_append]
  interval_cases i <;> simp

/-- The short offset, or the zeros of a long address. -/
@[simp] theorem loByte_address (x : BitVec 1) (g : BitVec 7) (o : Byte) : loByte (x ++ g ++ o) = o := by
  unfold loByte
  apply BitVec.eq_of_getLsbD_eq; intro i hi
  simp only [BitVec.getLsbD_extractLsb', BitVec.getLsbD_append]
  interval_cases i <;> simp

/-- Bit 15 tells a long address from a short one. -/
theorem bit15_address (x : BitVec 1) (g : BitVec 7) (o : Byte) : (x ++ g ++ o).getLsbD 15 = x.getLsbD 0 := by
  rw [BitVec.getLsbD_append, BitVec.getLsbD_append]; simp

/-- What `withAdr` reads where the words are those of an address in the form of the mode. -/
theorem withAdr_words {seg : Bool} {a : Adr} (ha : a.ill seg = none) {v w : Word} (hp : a.words <+: [v, w])
    (k : Adr → Bool → Dec) : withAdr seg v w k = k a (decide (a.words.length = 2)) := by
  cases a with
  | ns off =>
    cases seg <;> simp [Adr.ill, require] at ha
    obtain rfl : off = v := by simpa [Adr.words] using hp
    simp [withAdr, Adr.words]
  | short g off =>
    cases seg <;> simp [Adr.ill, require] at ha
    obtain rfl : 0#1 ++ g ++ off = v := by simpa [Adr.words] using hp
    rw [withAdr, if_neg (by simp), bit15_address, if_neg (by simp), segField_address, loByte_address]
    simp [Adr.words]
  | long g off =>
    cases seg <;> simp [Adr.ill, require] at ha
    obtain ⟨rfl, rfl⟩ : 1#1 ++ g ++ 0#8 = v ∧ off = w := by simpa [Adr.words] using hp
    rw [withAdr, if_neg (by simp), bit15_address, if_pos (by simp), segField_address, loByte_address]
    simp [Adr.words]

/-- The decoder accepts what it reads when the register conditions hold. -/
theorem decode_of_raw {m : EpaMap} {seg : Bool} {w0 w1 w2 w3 : Word} {i : Instr} (hw : WellFormed m seg i)
    (h : decodeRaw m seg w0 w1 w2 w3 = .ok i) : decode m seg w0 w1 w2 w3 = .ok i := by
  rw [decode, h]; simp only [accept, show i.ill m seg = none from hw]

/-- All that an accepted decoding says. -/
theorem decode_ok {m : EpaMap} {seg : Bool} {w0 w1 w2 w3 : Word} {i : Instr} (h : decode m seg w0 w1 w2 w3 = .ok i) :
    decodeRaw m seg w0 w1 w2 w3 = .ok i ∧ WellFormed m seg i := by
  unfold decode at h
  split at h
  · cases h
  · next j hj =>
    unfold accept at h
    split at h
    · next e => cases h; exact ⟨hj, e⟩
    · cases h

end Sys2Proof
end

