-- ==== Sys2Proof/Laws/State.lean ====
section
/-!
SUPPORT. Sys2Proof/Laws/State.lean: for each update of the state, the fields it leaves and the mode, places and keys
that go with them; one lemma each, so that no proof unfolds an update.
-/
namespace Sys2Proof.Machine

-- One thread for the many short lemmas of this file, which keeps the compile's memory low.
set_option Elab.async false

/-! Updates of one field -/

@[simp] theorem putByte_params (s : State) (sp : Space) (a : Addr) (v : Byte) : (s.putByte sp a v).params = s.params := rfl
@[simp] theorem putByte_regs (s : State) (sp : Space) (a : Addr) (v : Byte) : (s.putByte sp a v).regs = s.regs := rfl
@[simp] theorem putByte_fcw (s : State) (sp : Space) (a : Addr) (v : Byte) : (s.putByte sp a v).fcw = s.fcw := rfl
@[simp] theorem putByte_pc (s : State) (sp : Space) (a : Addr) (v : Byte) : (s.putByte sp a v).pc = s.pc := rfl
@[simp] theorem putByte_psapSeg (s : State) (sp : Space) (a : Addr) (v : Byte) : (s.putByte sp a v).psapSeg = s.psapSeg := rfl
@[simp] theorem putByte_psapOff (s : State) (sp : Space) (a : Addr) (v : Byte) : (s.putByte sp a v).psapOff = s.psapOff := rfl
@[simp] theorem putByte_refresh (s : State) (sp : Space) (a : Addr) (v : Byte) : (s.putByte sp a v).refresh = s.refresh := rfl
@[simp] theorem putByte_skipped (s : State) (sp : Space) (a : Addr) (v : Byte) : (s.putByte sp a v).skipped = s.skipped := rfl
@[simp] theorem putByte_nmiLatch (s : State) (sp : Space) (a : Addr) (v : Byte) : (s.putByte sp a v).nmiLatch = s.nmiLatch := rfl
@[simp] theorem putByte_moActive (s : State) (sp : Space) (a : Addr) (v : Byte) : (s.putByte sp a v).moActive = s.moActive := rfl
@[simp] theorem putByte_cpuState (s : State) (sp : Space) (a : Addr) (v : Byte) : (s.putByte sp a v).cpuState = s.cpuState := rfl
@[simp] theorem putByte_halted (s : State) (sp : Space) (a : Addr) (v : Byte) : (s.putByte sp a v).halted = s.halted := rfl
@[simp] theorem putByte_resetDue (s : State) (sp : Space) (a : Addr) (v : Byte) : (s.putByte sp a v).resetDue = s.resetDue := rfl
@[simp] theorem putByte_heldWord (s : State) (sp : Space) (a : Addr) (v : Byte) : (s.putByte sp a v).heldWord = s.heldWord := rfl
@[simp] theorem putByte_sampleDue (s : State) (sp : Space) (a : Addr) (v : Byte) : (s.putByte sp a v).sampleDue = s.sampleDue := rfl
@[simp] theorem putByte_sampleVie (s : State) (sp : Space) (a : Addr) (v : Byte) : (s.putByte sp a v).sampleVie = s.sampleVie := rfl
@[simp] theorem putByte_sampleNvie (s : State) (sp : Space) (a : Addr) (v : Byte) : (s.putByte sp a v).sampleNvie = s.sampleNvie := rfl
@[simp] theorem putByte_busLog (s : State) (sp : Space) (a : Addr) (v : Byte) : (s.putByte sp a v).busLog = s.busLog := rfl
@[simp] theorem putByte_env (s : State) (sp : Space) (a : Addr) (v : Byte) : (s.putByte sp a v).env = s.env := rfl
@[simp] theorem putByte_draws (s : State) (sp : Space) (a : Addr) (v : Byte) : (s.putByte sp a v).draws = s.draws := rfl
@[simp] theorem putByte_isZ8001 (s : State) (sp : Space) (a : Addr) (v : Byte) : (s.putByte sp a v).isZ8001 = s.isZ8001 := rfl
@[simp] theorem putByte_segmented (s : State) (sp : Space) (a : Addr) (v : Byte) : (s.putByte sp a v).segmented = s.segmented := rfl
@[simp] theorem putByte_dataSp (s : State) (sp : Space) (a : Addr) (v : Byte) : (s.putByte sp a v).dataSp = s.dataSp := rfl
@[simp] theorem putByte_stackSp (s : State) (sp : Space) (a : Addr) (v : Byte) : (s.putByte sp a v).stackSp = s.stackSp := rfl
@[simp] theorem putByte_progSp (s : State) (sp : Space) (a : Addr) (v : Byte) : (s.putByte sp a v).progSp = s.progSp := rfl
@[simp] theorem putByte_phys (s : State) (sp : Space) (a : Addr) (v : Byte) (q : RegNo) : (s.putByte sp a v).phys q = s.phys q := rfl
@[simp] theorem putByte_key (s : State) (sp : Space) (a : Addr) (v : Byte) (p : Space) (x : Addr) : (s.putByte sp a v).key p x = s.key p x := rfl

@[simp] theorem setRegW_params (s : State) (r : RegNo) (v : Word) : (s.setRegW r v).params = s.params := rfl
@[simp] theorem setRegW_fcw (s : State) (r : RegNo) (v : Word) : (s.setRegW r v).fcw = s.fcw := rfl
@[simp] theorem setRegW_pc (s : State) (r : RegNo) (v : Word) : (s.setRegW r v).pc = s.pc := rfl
@[simp] theorem setRegW_psapSeg (s : State) (r : RegNo) (v : Word) : (s.setRegW r v).psapSeg = s.psapSeg := rfl
@[simp] theorem setRegW_psapOff (s : State) (r : RegNo) (v : Word) : (s.setRegW r v).psapOff = s.psapOff := rfl
@[simp] theorem setRegW_refresh (s : State) (r : RegNo) (v : Word) : (s.setRegW r v).refresh = s.refresh := rfl
@[simp] theorem setRegW_skipped (s : State) (r : RegNo) (v : Word) : (s.setRegW r v).skipped = s.skipped := rfl
@[simp] theorem setRegW_nmiLatch (s : State) (r : RegNo) (v : Word) : (s.setRegW r v).nmiLatch = s.nmiLatch := rfl
@[simp] theorem setRegW_moActive (s : State) (r : RegNo) (v : Word) : (s.setRegW r v).moActive = s.moActive := rfl
@[simp] theorem setRegW_cpuState (s : State) (r : RegNo) (v : Word) : (s.setRegW r v).cpuState = s.cpuState := rfl
@[simp] theorem setRegW_halted (s : State) (r : RegNo) (v : Word) : (s.setRegW r v).halted = s.halted := rfl
@[simp] theorem setRegW_resetDue (s : State) (r : RegNo) (v : Word) : (s.setRegW r v).resetDue = s.resetDue := rfl
@[simp] theorem setRegW_heldWord (s : State) (r : RegNo) (v : Word) : (s.setRegW r v).heldWord = s.heldWord := rfl
@[simp] theorem setRegW_sampleDue (s : State) (r : RegNo) (v : Word) : (s.setRegW r v).sampleDue = s.sampleDue := rfl
@[simp] theorem setRegW_sampleVie (s : State) (r : RegNo) (v : Word) : (s.setRegW r v).sampleVie = s.sampleVie := rfl
@[simp] theorem setRegW_sampleNvie (s : State) (r : RegNo) (v : Word) : (s.setRegW r v).sampleNvie = s.sampleNvie := rfl
@[simp] theorem setRegW_mem (s : State) (r : RegNo) (v : Word) : (s.setRegW r v).mem = s.mem := rfl
@[simp] theorem setRegW_busLog (s : State) (r : RegNo) (v : Word) : (s.setRegW r v).busLog = s.busLog := rfl
@[simp] theorem setRegW_env (s : State) (r : RegNo) (v : Word) : (s.setRegW r v).env = s.env := rfl
@[simp] theorem setRegW_draws (s : State) (r : RegNo) (v : Word) : (s.setRegW r v).draws = s.draws := rfl
@[simp] theorem setRegW_isZ8001 (s : State) (r : RegNo) (v : Word) : (s.setRegW r v).isZ8001 = s.isZ8001 := rfl
@[simp] theorem setRegW_segmented (s : State) (r : RegNo) (v : Word) : (s.setRegW r v).segmented = s.segmented := rfl
@[simp] theorem setRegW_dataSp (s : State) (r : RegNo) (v : Word) : (s.setRegW r v).dataSp = s.dataSp := rfl
@[simp] theorem setRegW_stackSp (s : State) (r : RegNo) (v : Word) : (s.setRegW r v).stackSp = s.stackSp := rfl
@[simp] theorem setRegW_progSp (s : State) (r : RegNo) (v : Word) : (s.setRegW r v).progSp = s.progSp := rfl
@[simp] theorem setRegW_phys (s : State) (r : RegNo) (v : Word) (q : RegNo) : (s.setRegW r v).phys q = s.phys q := rfl
@[simp] theorem setRegW_key (s : State) (r : RegNo) (v : Word) (p : Space) (x : Addr) : (s.setRegW r v).key p x = s.key p x := rfl

@[simp] theorem withFcw_params (s : State) (f : Fcw) : (s.withFcw f).params = s.params := rfl
@[simp] theorem withFcw_regs (s : State) (f : Fcw) : (s.withFcw f).regs = s.regs := rfl
@[simp] theorem withFcw_pc (s : State) (f : Fcw) : (s.withFcw f).pc = s.pc := rfl
@[simp] theorem withFcw_psapSeg (s : State) (f : Fcw) : (s.withFcw f).psapSeg = s.psapSeg := rfl
@[simp] theorem withFcw_psapOff (s : State) (f : Fcw) : (s.withFcw f).psapOff = s.psapOff := rfl
@[simp] theorem withFcw_refresh (s : State) (f : Fcw) : (s.withFcw f).refresh = s.refresh := rfl
@[simp] theorem withFcw_skipped (s : State) (f : Fcw) : (s.withFcw f).skipped = s.skipped := rfl
@[simp] theorem withFcw_nmiLatch (s : State) (f : Fcw) : (s.withFcw f).nmiLatch = s.nmiLatch := rfl
@[simp] theorem withFcw_moActive (s : State) (f : Fcw) : (s.withFcw f).moActive = s.moActive := rfl
@[simp] theorem withFcw_cpuState (s : State) (f : Fcw) : (s.withFcw f).cpuState = s.cpuState := rfl
@[simp] theorem withFcw_halted (s : State) (f : Fcw) : (s.withFcw f).halted = s.halted := rfl
@[simp] theorem withFcw_resetDue (s : State) (f : Fcw) : (s.withFcw f).resetDue = s.resetDue := rfl
@[simp] theorem withFcw_heldWord (s : State) (f : Fcw) : (s.withFcw f).heldWord = s.heldWord := rfl
@[simp] theorem withFcw_sampleDue (s : State) (f : Fcw) : (s.withFcw f).sampleDue = s.sampleDue := rfl
@[simp] theorem withFcw_sampleVie (s : State) (f : Fcw) : (s.withFcw f).sampleVie = s.sampleVie := rfl
@[simp] theorem withFcw_sampleNvie (s : State) (f : Fcw) : (s.withFcw f).sampleNvie = s.sampleNvie := rfl
@[simp] theorem withFcw_mem (s : State) (f : Fcw) : (s.withFcw f).mem = s.mem := rfl
@[simp] theorem withFcw_busLog (s : State) (f : Fcw) : (s.withFcw f).busLog = s.busLog := rfl
@[simp] theorem withFcw_env (s : State) (f : Fcw) : (s.withFcw f).env = s.env := rfl
@[simp] theorem withFcw_draws (s : State) (f : Fcw) : (s.withFcw f).draws = s.draws := rfl
@[simp] theorem withFcw_isZ8001 (s : State) (f : Fcw) : (s.withFcw f).isZ8001 = s.isZ8001 := rfl
@[simp] theorem withFcw_key (s : State) (f : Fcw) (p : Space) (x : Addr) : (s.withFcw f).key p x = s.key p x := rfl

@[simp] theorem withFcw_fcw (s : State) (f : Fcw) : (s.withFcw f).fcw = f := rfl

@[simp] theorem skip_params (s : State) (n : Nat) : (s.skip n).params = s.params := rfl
@[simp] theorem skip_regs (s : State) (n : Nat) : (s.skip n).regs = s.regs := rfl
@[simp] theorem skip_fcw (s : State) (n : Nat) : (s.skip n).fcw = s.fcw := rfl
@[simp] theorem skip_psapSeg (s : State) (n : Nat) : (s.skip n).psapSeg = s.psapSeg := rfl
@[simp] theorem skip_psapOff (s : State) (n : Nat) : (s.skip n).psapOff = s.psapOff := rfl
@[simp] theorem skip_refresh (s : State) (n : Nat) : (s.skip n).refresh = s.refresh := rfl
@[simp] theorem skip_skipped (s : State) (n : Nat) : (s.skip n).skipped = s.skipped := rfl
@[simp] theorem skip_nmiLatch (s : State) (n : Nat) : (s.skip n).nmiLatch = s.nmiLatch := rfl
@[simp] theorem skip_moActive (s : State) (n : Nat) : (s.skip n).moActive = s.moActive := rfl
@[simp] theorem skip_cpuState (s : State) (n : Nat) : (s.skip n).cpuState = s.cpuState := rfl
@[simp] theorem skip_halted (s : State) (n : Nat) : (s.skip n).halted = s.halted := rfl
@[simp] theorem skip_resetDue (s : State) (n : Nat) : (s.skip n).resetDue = s.resetDue := rfl
@[simp] theorem skip_heldWord (s : State) (n : Nat) : (s.skip n).heldWord = s.heldWord := rfl
@[simp] theorem skip_sampleDue (s : State) (n : Nat) : (s.skip n).sampleDue = s.sampleDue := rfl
@[simp] theorem skip_sampleVie (s : State) (n : Nat) : (s.skip n).sampleVie = s.sampleVie := rfl
@[simp] theorem skip_sampleNvie (s : State) (n : Nat) : (s.skip n).sampleNvie = s.sampleNvie := rfl
@[simp] theorem skip_mem (s : State) (n : Nat) : (s.skip n).mem = s.mem := rfl
@[simp] theorem skip_busLog (s : State) (n : Nat) : (s.skip n).busLog = s.busLog := rfl
@[simp] theorem skip_env (s : State) (n : Nat) : (s.skip n).env = s.env := rfl
@[simp] theorem skip_draws (s : State) (n : Nat) : (s.skip n).draws = s.draws := rfl
@[simp] theorem skip_isZ8001 (s : State) (n : Nat) : (s.skip n).isZ8001 = s.isZ8001 := rfl
@[simp] theorem skip_segmented (s : State) (n : Nat) : (s.skip n).segmented = s.segmented := rfl
@[simp] theorem skip_dataSp (s : State) (n : Nat) : (s.skip n).dataSp = s.dataSp := rfl
@[simp] theorem skip_stackSp (s : State) (n : Nat) : (s.skip n).stackSp = s.stackSp := rfl
@[simp] theorem skip_progSp (s : State) (n : Nat) : (s.skip n).progSp = s.progSp := rfl
@[simp] theorem skip_phys (s : State) (n : Nat) (q : RegNo) : (s.skip n).phys q = s.phys q := rfl
@[simp] theorem skip_key (s : State) (n : Nat) (p : Space) (x : Addr) : (s.skip n).key p x = s.key p x := rfl

@[simp] theorem skip_pc (s : State) (n : Nat) : (s.skip n).pc = s.pc.plus (BitVec.ofNat 16 (2 * n)) := rfl

@[simp] theorem jump_params (s : State) (a : Addr) : (s.jump a).params = s.params := rfl
@[simp] theorem jump_regs (s : State) (a : Addr) : (s.jump a).regs = s.regs := rfl
@[simp] theorem jump_fcw (s : State) (a : Addr) : (s.jump a).fcw = s.fcw := rfl
@[simp] theorem jump_psapSeg (s : State) (a : Addr) : (s.jump a).psapSeg = s.psapSeg := rfl
@[simp] theorem jump_psapOff (s : State) (a : Addr) : (s.jump a).psapOff = s.psapOff := rfl
@[simp] theorem jump_refresh (s : State) (a : Addr) : (s.jump a).refresh = s.refresh := rfl
@[simp] theorem jump_skipped (s : State) (a : Addr) : (s.jump a).skipped = s.skipped := rfl
@[simp] theorem jump_nmiLatch (s : State) (a : Addr) : (s.jump a).nmiLatch = s.nmiLatch := rfl
@[simp] theorem jump_moActive (s : State) (a : Addr) : (s.jump a).moActive = s.moActive := rfl
@[simp] theorem jump_cpuState (s : State) (a : Addr) : (s.jump a).cpuState = s.cpuState := rfl
@[simp] theorem jump_halted (s : State) (a : Addr) : (s.jump a).halted = s.halted := rfl
@[simp] theorem jump_resetDue (s : State) (a : Addr) : (s.jump a).resetDue = s.resetDue := rfl
@[simp] theorem jump_heldWord (s : State) (a : Addr) : (s.jump a).heldWord = s.heldWord := rfl
@[simp] theorem jump_sampleDue (s : State) (a : Addr) : (s.jump a).sampleDue = s.sampleDue := rfl
@[simp] theorem jump_sampleVie (s : State) (a : Addr) : (s.jump a).sampleVie = s.sampleVie := rfl
@[simp] theorem jump_sampleNvie (s : State) (a : Addr) : (s.jump a).sampleNvie = s.sampleNvie := rfl
@[simp] theorem jump_mem (s : State) (a : Addr) : (s.jump a).mem = s.mem := rfl
@[simp] theorem jump_busLog (s : State) (a : Addr) : (s.jump a).busLog = s.busLog := rfl
@[simp] theorem jump_env (s : State) (a : Addr) : (s.jump a).env = s.env := rfl
@[simp] theorem jump_draws (s : State) (a : Addr) : (s.jump a).draws = s.draws := rfl
@[simp] theorem jump_isZ8001 (s : State) (a : Addr) : (s.jump a).isZ8001 = s.isZ8001 := rfl
@[simp] theorem jump_segmented (s : State) (a : Addr) : (s.jump a).segmented = s.segmented := rfl
@[simp] theorem jump_dataSp (s : State) (a : Addr) : (s.jump a).dataSp = s.dataSp := rfl
@[simp] theorem jump_stackSp (s : State) (a : Addr) : (s.jump a).stackSp = s.stackSp := rfl
@[simp] theorem jump_progSp (s : State) (a : Addr) : (s.jump a).progSp = s.progSp := rfl
@[simp] theorem jump_phys (s : State) (a : Addr) (q : RegNo) : (s.jump a).phys q = s.phys q := rfl
@[simp] theorem jump_key (s : State) (a : Addr) (p : Space) (x : Addr) : (s.jump a).key p x = s.key p x := rfl

@[simp] theorem record_params (s : State) (e : BusEvent) : (s.record e).params = s.params := rfl
@[simp] theorem record_regs (s : State) (e : BusEvent) : (s.record e).regs = s.regs := rfl
@[simp] theorem record_fcw (s : State) (e : BusEvent) : (s.record e).fcw = s.fcw := rfl
@[simp] theorem record_pc (s : State) (e : BusEvent) : (s.record e).pc = s.pc := rfl
@[simp] theorem record_psapSeg (s : State) (e : BusEvent) : (s.record e).psapSeg = s.psapSeg := rfl
@[simp] theorem record_psapOff (s : State) (e : BusEvent) : (s.record e).psapOff = s.psapOff := rfl
@[simp] theorem record_refresh (s : State) (e : BusEvent) : (s.record e).refresh = s.refresh := rfl
@[simp] theorem record_skipped (s : State) (e : BusEvent) : (s.record e).skipped = s.skipped := rfl
@[simp] theorem record_nmiLatch (s : State) (e : BusEvent) : (s.record e).nmiLatch = s.nmiLatch := rfl
@[simp] theorem record_moActive (s : State) (e : BusEvent) : (s.record e).moActive = s.moActive := rfl
@[simp] theorem record_cpuState (s : State) (e : BusEvent) : (s.record e).cpuState = s.cpuState := rfl
@[simp] theorem record_halted (s : State) (e : BusEvent) : (s.record e).halted = s.halted := rfl
@[simp] theorem record_resetDue (s : State) (e : BusEvent) : (s.record e).resetDue = s.resetDue := rfl
@[simp] theorem record_heldWord (s : State) (e : BusEvent) : (s.record e).heldWord = s.heldWord := rfl
@[simp] theorem record_sampleDue (s : State) (e : BusEvent) : (s.record e).sampleDue = s.sampleDue := rfl
@[simp] theorem record_sampleVie (s : State) (e : BusEvent) : (s.record e).sampleVie = s.sampleVie := rfl
@[simp] theorem record_sampleNvie (s : State) (e : BusEvent) : (s.record e).sampleNvie = s.sampleNvie := rfl
@[simp] theorem record_mem (s : State) (e : BusEvent) : (s.record e).mem = s.mem := rfl
@[simp] theorem record_env (s : State) (e : BusEvent) : (s.record e).env = s.env := rfl
@[simp] theorem record_draws (s : State) (e : BusEvent) : (s.record e).draws = s.draws := rfl
@[simp] theorem record_isZ8001 (s : State) (e : BusEvent) : (s.record e).isZ8001 = s.isZ8001 := rfl
@[simp] theorem record_segmented (s : State) (e : BusEvent) : (s.record e).segmented = s.segmented := rfl
@[simp] theorem record_dataSp (s : State) (e : BusEvent) : (s.record e).dataSp = s.dataSp := rfl
@[simp] theorem record_stackSp (s : State) (e : BusEvent) : (s.record e).stackSp = s.stackSp := rfl
@[simp] theorem record_progSp (s : State) (e : BusEvent) : (s.record e).progSp = s.progSp := rfl
@[simp] theorem record_phys (s : State) (e : BusEvent) (q : RegNo) : (s.record e).phys q = s.phys q := rfl
@[simp] theorem record_key (s : State) (e : BusEvent) (p : Space) (x : Addr) : (s.record e).key p x = s.key p x := rfl

@[simp] theorem record_busLog (s : State) (e : BusEvent) : (s.record e).busLog = e :: s.busLog := rfl

@[simp] theorem logged_params (s : State) (l : List BusEvent) : (s.logged l).params = s.params := rfl
@[simp] theorem logged_regs (s : State) (l : List BusEvent) : (s.logged l).regs = s.regs := rfl
@[simp] theorem logged_fcw (s : State) (l : List BusEvent) : (s.logged l).fcw = s.fcw := rfl
@[simp] theorem logged_pc (s : State) (l : List BusEvent) : (s.logged l).pc = s.pc := rfl
@[simp] theorem logged_psapSeg (s : State) (l : List BusEvent) : (s.logged l).psapSeg = s.psapSeg := rfl
@[simp] theorem logged_psapOff (s : State) (l : List BusEvent) : (s.logged l).psapOff = s.psapOff := rfl
@[simp] theorem logged_refresh (s : State) (l : List BusEvent) : (s.logged l).refresh = s.refresh := rfl
@[simp] theorem logged_skipped (s : State) (l : List BusEvent) : (s.logged l).skipped = s.skipped := rfl
@[simp] theorem logged_nmiLatch (s : State) (l : List BusEvent) : (s.logged l).nmiLatch = s.nmiLatch := rfl
@[simp] theorem logged_moActive (s : State) (l : List BusEvent) : (s.logged l).moActive = s.moActive := rfl
@[simp] theorem logged_cpuState (s : State) (l : List BusEvent) : (s.logged l).cpuState = s.cpuState := rfl
@[simp] theorem logged_halted (s : State) (l : List BusEvent) : (s.logged l).halted = s.halted := rfl
@[simp] theorem logged_resetDue (s : State) (l : List BusEvent) : (s.logged l).resetDue = s.resetDue := rfl
@[simp] theorem logged_heldWord (s : State) (l : List BusEvent) : (s.logged l).heldWord = s.heldWord := rfl
@[simp] theorem logged_sampleDue (s : State) (l : List BusEvent) : (s.logged l).sampleDue = s.sampleDue := rfl
@[simp] theorem logged_sampleVie (s : State) (l : List BusEvent) : (s.logged l).sampleVie = s.sampleVie := rfl
@[simp] theorem logged_sampleNvie (s : State) (l : List BusEvent) : (s.logged l).sampleNvie = s.sampleNvie := rfl
@[simp] theorem logged_mem (s : State) (l : List BusEvent) : (s.logged l).mem = s.mem := rfl
@[simp] theorem logged_env (s : State) (l : List BusEvent) : (s.logged l).env = s.env := rfl
@[simp] theorem logged_draws (s : State) (l : List BusEvent) : (s.logged l).draws = s.draws := rfl
@[simp] theorem logged_isZ8001 (s : State) (l : List BusEvent) : (s.logged l).isZ8001 = s.isZ8001 := rfl
@[simp] theorem logged_segmented (s : State) (l : List BusEvent) : (s.logged l).segmented = s.segmented := rfl
@[simp] theorem logged_dataSp (s : State) (l : List BusEvent) : (s.logged l).dataSp = s.dataSp := rfl
@[simp] theorem logged_stackSp (s : State) (l : List BusEvent) : (s.logged l).stackSp = s.stackSp := rfl
@[simp] theorem logged_progSp (s : State) (l : List BusEvent) : (s.logged l).progSp = s.progSp := rfl
@[simp] theorem logged_phys (s : State) (l : List BusEvent) (q : RegNo) : (s.logged l).phys q = s.phys q := rfl
@[simp] theorem logged_key (s : State) (l : List BusEvent) (p : Space) (x : Addr) : (s.logged l).key p x = s.key p x := rfl

@[simp] theorem logged_busLog (s : State) (l : List BusEvent) : (s.logged l).busLog = l ++ s.busLog := rfl

@[simp] theorem dropBus_params (s : State) : (s.dropBus).params = s.params := rfl
@[simp] theorem dropBus_regs (s : State) : (s.dropBus).regs = s.regs := rfl
@[simp] theorem dropBus_fcw (s : State) : (s.dropBus).fcw = s.fcw := rfl
@[simp] theorem dropBus_pc (s : State) : (s.dropBus).pc = s.pc := rfl
@[simp] theorem dropBus_psapSeg (s : State) : (s.dropBus).psapSeg = s.psapSeg := rfl
@[simp] theorem dropBus_psapOff (s : State) : (s.dropBus).psapOff = s.psapOff := rfl
@[simp] theorem dropBus_refresh (s : State) : (s.dropBus).refresh = s.refresh := rfl
@[simp] theorem dropBus_skipped (s : State) : (s.dropBus).skipped = s.skipped := rfl
@[simp] theorem dropBus_nmiLatch (s : State) : (s.dropBus).nmiLatch = s.nmiLatch := rfl
@[simp] theorem dropBus_moActive (s : State) : (s.dropBus).moActive = s.moActive := rfl
@[simp] theorem dropBus_cpuState (s : State) : (s.dropBus).cpuState = s.cpuState := rfl
@[simp] theorem dropBus_halted (s : State) : (s.dropBus).halted = s.halted := rfl
@[simp] theorem dropBus_resetDue (s : State) : (s.dropBus).resetDue = s.resetDue := rfl
@[simp] theorem dropBus_heldWord (s : State) : (s.dropBus).heldWord = s.heldWord := rfl
@[simp] theorem dropBus_sampleDue (s : State) : (s.dropBus).sampleDue = s.sampleDue := rfl
@[simp] theorem dropBus_sampleVie (s : State) : (s.dropBus).sampleVie = s.sampleVie := rfl
@[simp] theorem dropBus_sampleNvie (s : State) : (s.dropBus).sampleNvie = s.sampleNvie := rfl
@[simp] theorem dropBus_mem (s : State) : (s.dropBus).mem = s.mem := rfl
@[simp] theorem dropBus_busLog (s : State) : (s.dropBus).busLog = s.busLog := rfl
@[simp] theorem dropBus_draws (s : State) : (s.dropBus).draws = s.draws := rfl
@[simp] theorem dropBus_isZ8001 (s : State) : (s.dropBus).isZ8001 = s.isZ8001 := rfl
@[simp] theorem dropBus_segmented (s : State) : (s.dropBus).segmented = s.segmented := rfl
@[simp] theorem dropBus_dataSp (s : State) : (s.dropBus).dataSp = s.dataSp := rfl
@[simp] theorem dropBus_stackSp (s : State) : (s.dropBus).stackSp = s.stackSp := rfl
@[simp] theorem dropBus_progSp (s : State) : (s.dropBus).progSp = s.progSp := rfl
@[simp] theorem dropBus_phys (s : State) (q : RegNo) : (s.dropBus).phys q = s.phys q := rfl
@[simp] theorem dropBus_key (s : State) (p : Space) (x : Addr) : (s.dropBus).key p x = s.key p x := rfl

@[simp] theorem dropMi_params (s : State) (k : Nat) : (s.dropMi k).params = s.params := rfl
@[simp] theorem dropMi_regs (s : State) (k : Nat) : (s.dropMi k).regs = s.regs := rfl
@[simp] theorem dropMi_fcw (s : State) (k : Nat) : (s.dropMi k).fcw = s.fcw := rfl
@[simp] theorem dropMi_pc (s : State) (k : Nat) : (s.dropMi k).pc = s.pc := rfl
@[simp] theorem dropMi_psapSeg (s : State) (k : Nat) : (s.dropMi k).psapSeg = s.psapSeg := rfl
@[simp] theorem dropMi_psapOff (s : State) (k : Nat) : (s.dropMi k).psapOff = s.psapOff := rfl
@[simp] theorem dropMi_refresh (s : State) (k : Nat) : (s.dropMi k).refresh = s.refresh := rfl
@[simp] theorem dropMi_skipped (s : State) (k : Nat) : (s.dropMi k).skipped = s.skipped := rfl
@[simp] theorem dropMi_nmiLatch (s : State) (k : Nat) : (s.dropMi k).nmiLatch = s.nmiLatch := rfl
@[simp] theorem dropMi_moActive (s : State) (k : Nat) : (s.dropMi k).moActive = s.moActive := rfl
@[simp] theorem dropMi_cpuState (s : State) (k : Nat) : (s.dropMi k).cpuState = s.cpuState := rfl
@[simp] theorem dropMi_halted (s : State) (k : Nat) : (s.dropMi k).halted = s.halted := rfl
@[simp] theorem dropMi_resetDue (s : State) (k : Nat) : (s.dropMi k).resetDue = s.resetDue := rfl
@[simp] theorem dropMi_heldWord (s : State) (k : Nat) : (s.dropMi k).heldWord = s.heldWord := rfl
@[simp] theorem dropMi_sampleDue (s : State) (k : Nat) : (s.dropMi k).sampleDue = s.sampleDue := rfl
@[simp] theorem dropMi_sampleVie (s : State) (k : Nat) : (s.dropMi k).sampleVie = s.sampleVie := rfl
@[simp] theorem dropMi_sampleNvie (s : State) (k : Nat) : (s.dropMi k).sampleNvie = s.sampleNvie := rfl
@[simp] theorem dropMi_mem (s : State) (k : Nat) : (s.dropMi k).mem = s.mem := rfl
@[simp] theorem dropMi_busLog (s : State) (k : Nat) : (s.dropMi k).busLog = s.busLog := rfl
@[simp] theorem dropMi_draws (s : State) (k : Nat) : (s.dropMi k).draws = s.draws := rfl
@[simp] theorem dropMi_isZ8001 (s : State) (k : Nat) : (s.dropMi k).isZ8001 = s.isZ8001 := rfl
@[simp] theorem dropMi_segmented (s : State) (k : Nat) : (s.dropMi k).segmented = s.segmented := rfl
@[simp] theorem dropMi_dataSp (s : State) (k : Nat) : (s.dropMi k).dataSp = s.dataSp := rfl
@[simp] theorem dropMi_stackSp (s : State) (k : Nat) : (s.dropMi k).stackSp = s.stackSp := rfl
@[simp] theorem dropMi_progSp (s : State) (k : Nat) : (s.dropMi k).progSp = s.progSp := rfl
@[simp] theorem dropMi_phys (s : State) (k : Nat) (q : RegNo) : (s.dropMi k).phys q = s.phys q := rfl
@[simp] theorem dropMi_key (s : State) (k : Nat) (p : Space) (x : Addr) : (s.dropMi k).key p x = s.key p x := rfl

@[simp] theorem popEvent_params (s : State) : (s.popEvent).params = s.params := rfl
@[simp] theorem popEvent_regs (s : State) : (s.popEvent).regs = s.regs := rfl
@[simp] theorem popEvent_fcw (s : State) : (s.popEvent).fcw = s.fcw := rfl
@[simp] theorem popEvent_pc (s : State) : (s.popEvent).pc = s.pc := rfl
@[simp] theorem popEvent_psapSeg (s : State) : (s.popEvent).psapSeg = s.psapSeg := rfl
@[simp] theorem popEvent_psapOff (s : State) : (s.popEvent).psapOff = s.psapOff := rfl
@[simp] theorem popEvent_refresh (s : State) : (s.popEvent).refresh = s.refresh := rfl
@[simp] theorem popEvent_skipped (s : State) : (s.popEvent).skipped = s.skipped := rfl
@[simp] theorem popEvent_nmiLatch (s : State) : (s.popEvent).nmiLatch = s.nmiLatch := rfl
@[simp] theorem popEvent_moActive (s : State) : (s.popEvent).moActive = s.moActive := rfl
@[simp] theorem popEvent_cpuState (s : State) : (s.popEvent).cpuState = s.cpuState := rfl
@[simp] theorem popEvent_halted (s : State) : (s.popEvent).halted = s.halted := rfl
@[simp] theorem popEvent_resetDue (s : State) : (s.popEvent).resetDue = s.resetDue := rfl
@[simp] theorem popEvent_heldWord (s : State) : (s.popEvent).heldWord = s.heldWord := rfl
@[simp] theorem popEvent_sampleDue (s : State) : (s.popEvent).sampleDue = s.sampleDue := rfl
@[simp] theorem popEvent_sampleVie (s : State) : (s.popEvent).sampleVie = s.sampleVie := rfl
@[simp] theorem popEvent_sampleNvie (s : State) : (s.popEvent).sampleNvie = s.sampleNvie := rfl
@[simp] theorem popEvent_mem (s : State) : (s.popEvent).mem = s.mem := rfl
@[simp] theorem popEvent_busLog (s : State) : (s.popEvent).busLog = s.busLog := rfl
@[simp] theorem popEvent_draws (s : State) : (s.popEvent).draws = s.draws := rfl
@[simp] theorem popEvent_isZ8001 (s : State) : (s.popEvent).isZ8001 = s.isZ8001 := rfl
@[simp] theorem popEvent_segmented (s : State) : (s.popEvent).segmented = s.segmented := rfl
@[simp] theorem popEvent_dataSp (s : State) : (s.popEvent).dataSp = s.dataSp := rfl
@[simp] theorem popEvent_stackSp (s : State) : (s.popEvent).stackSp = s.stackSp := rfl
@[simp] theorem popEvent_progSp (s : State) : (s.popEvent).progSp = s.progSp := rfl
@[simp] theorem popEvent_phys (s : State) (q : RegNo) : (s.popEvent).phys q = s.phys q := rfl
@[simp] theorem popEvent_key (s : State) (p : Space) (x : Addr) : (s.popEvent).key p x = s.key p x := rfl

@[simp] theorem popEvent_bus (s : State) : s.popEvent.env.bus = s.env.bus := rfl

@[simp] theorem popBus_params (s : State) : (s.popBus).params = s.params := rfl
@[simp] theorem popBus_regs (s : State) : (s.popBus).regs = s.regs := rfl
@[simp] theorem popBus_fcw (s : State) : (s.popBus).fcw = s.fcw := rfl
@[simp] theorem popBus_pc (s : State) : (s.popBus).pc = s.pc := rfl
@[simp] theorem popBus_psapSeg (s : State) : (s.popBus).psapSeg = s.psapSeg := rfl
@[simp] theorem popBus_psapOff (s : State) : (s.popBus).psapOff = s.psapOff := rfl
@[simp] theorem popBus_refresh (s : State) : (s.popBus).refresh = s.refresh := rfl
@[simp] theorem popBus_skipped (s : State) : (s.popBus).skipped = s.skipped := rfl
@[simp] theorem popBus_nmiLatch (s : State) : (s.popBus).nmiLatch = s.nmiLatch := rfl
@[simp] theorem popBus_moActive (s : State) : (s.popBus).moActive = s.moActive := rfl
@[simp] theorem popBus_cpuState (s : State) : (s.popBus).cpuState = s.cpuState := rfl
@[simp] theorem popBus_halted (s : State) : (s.popBus).halted = s.halted := rfl
@[simp] theorem popBus_resetDue (s : State) : (s.popBus).resetDue = s.resetDue := rfl
@[simp] theorem popBus_heldWord (s : State) : (s.popBus).heldWord = s.heldWord := rfl
@[simp] theorem popBus_sampleDue (s : State) : (s.popBus).sampleDue = s.sampleDue := rfl
@[simp] theorem popBus_sampleVie (s : State) : (s.popBus).sampleVie = s.sampleVie := rfl
@[simp] theorem popBus_sampleNvie (s : State) : (s.popBus).sampleNvie = s.sampleNvie := rfl
@[simp] theorem popBus_mem (s : State) : (s.popBus).mem = s.mem := rfl
@[simp] theorem popBus_busLog (s : State) : (s.popBus).busLog = s.busLog := rfl
@[simp] theorem popBus_draws (s : State) : (s.popBus).draws = s.draws := rfl
@[simp] theorem popBus_isZ8001 (s : State) : (s.popBus).isZ8001 = s.isZ8001 := rfl
@[simp] theorem popBus_segmented (s : State) : (s.popBus).segmented = s.segmented := rfl
@[simp] theorem popBus_dataSp (s : State) : (s.popBus).dataSp = s.dataSp := rfl
@[simp] theorem popBus_stackSp (s : State) : (s.popBus).stackSp = s.stackSp := rfl
@[simp] theorem popBus_progSp (s : State) : (s.popBus).progSp = s.progSp := rfl
@[simp] theorem popBus_phys (s : State) (q : RegNo) : (s.popBus).phys q = s.phys q := rfl
@[simp] theorem popBus_key (s : State) (p : Space) (x : Addr) : (s.popBus).key p x = s.key p x := rfl

@[simp] theorem refreshCycles_params (s : State) (k : Nat) : (s.refreshCycles k).params = s.params := rfl
@[simp] theorem refreshCycles_regs (s : State) (k : Nat) : (s.refreshCycles k).regs = s.regs := rfl
@[simp] theorem refreshCycles_fcw (s : State) (k : Nat) : (s.refreshCycles k).fcw = s.fcw := rfl
@[simp] theorem refreshCycles_pc (s : State) (k : Nat) : (s.refreshCycles k).pc = s.pc := rfl
@[simp] theorem refreshCycles_psapSeg (s : State) (k : Nat) : (s.refreshCycles k).psapSeg = s.psapSeg := rfl
@[simp] theorem refreshCycles_psapOff (s : State) (k : Nat) : (s.refreshCycles k).psapOff = s.psapOff := rfl
@[simp] theorem refreshCycles_skipped (s : State) (k : Nat) : (s.refreshCycles k).skipped = s.skipped := rfl
@[simp] theorem refreshCycles_nmiLatch (s : State) (k : Nat) : (s.refreshCycles k).nmiLatch = s.nmiLatch := rfl
@[simp] theorem refreshCycles_moActive (s : State) (k : Nat) : (s.refreshCycles k).moActive = s.moActive := rfl
@[simp] theorem refreshCycles_cpuState (s : State) (k : Nat) : (s.refreshCycles k).cpuState = s.cpuState := rfl
@[simp] theorem refreshCycles_halted (s : State) (k : Nat) : (s.refreshCycles k).halted = s.halted := rfl
@[simp] theorem refreshCycles_resetDue (s : State) (k : Nat) : (s.refreshCycles k).resetDue = s.resetDue := rfl
@[simp] theorem refreshCycles_heldWord (s : State) (k : Nat) : (s.refreshCycles k).heldWord = s.heldWord := rfl
@[simp] theorem refreshCycles_sampleDue (s : State) (k : Nat) : (s.refreshCycles k).sampleDue = s.sampleDue := rfl
@[simp] theorem refreshCycles_sampleVie (s : State) (k : Nat) : (s.refreshCycles k).sampleVie = s.sampleVie := rfl
@[simp] theorem refreshCycles_sampleNvie (s : State) (k : Nat) : (s.refreshCycles k).sampleNvie = s.sampleNvie := rfl
@[simp] theorem refreshCycles_mem (s : State) (k : Nat) : (s.refreshCycles k).mem = s.mem := rfl
@[simp] theorem refreshCycles_busLog (s : State) (k : Nat) : (s.refreshCycles k).busLog = s.busLog := rfl
@[simp] theorem refreshCycles_env (s : State) (k : Nat) : (s.refreshCycles k).env = s.env := rfl
@[simp] theorem refreshCycles_draws (s : State) (k : Nat) : (s.refreshCycles k).draws = s.draws := rfl
@[simp] theorem refreshCycles_isZ8001 (s : State) (k : Nat) : (s.refreshCycles k).isZ8001 = s.isZ8001 := rfl
@[simp] theorem refreshCycles_segmented (s : State) (k : Nat) : (s.refreshCycles k).segmented = s.segmented := rfl
@[simp] theorem refreshCycles_dataSp (s : State) (k : Nat) : (s.refreshCycles k).dataSp = s.dataSp := rfl
@[simp] theorem refreshCycles_stackSp (s : State) (k : Nat) : (s.refreshCycles k).stackSp = s.stackSp := rfl
@[simp] theorem refreshCycles_progSp (s : State) (k : Nat) : (s.refreshCycles k).progSp = s.progSp := rfl
@[simp] theorem refreshCycles_phys (s : State) (k : Nat) (q : RegNo) : (s.refreshCycles k).phys q = s.phys q := rfl
@[simp] theorem refreshCycles_key (s : State) (k : Nat) (p : Space) (x : Addr) : (s.refreshCycles k).key p x = s.key p x := rfl

@[simp] theorem regainBus_params (s : State) : (s.regainBus).params = s.params := rfl
@[simp] theorem regainBus_regs (s : State) : (s.regainBus).regs = s.regs := rfl
@[simp] theorem regainBus_fcw (s : State) : (s.regainBus).fcw = s.fcw := rfl
@[simp] theorem regainBus_pc (s : State) : (s.regainBus).pc = s.pc := rfl
@[simp] theorem regainBus_psapSeg (s : State) : (s.regainBus).psapSeg = s.psapSeg := rfl
@[simp] theorem regainBus_psapOff (s : State) : (s.regainBus).psapOff = s.psapOff := rfl
@[simp] theorem regainBus_nmiLatch (s : State) : (s.regainBus).nmiLatch = s.nmiLatch := rfl
@[simp] theorem regainBus_moActive (s : State) : (s.regainBus).moActive = s.moActive := rfl
@[simp] theorem regainBus_cpuState (s : State) : (s.regainBus).cpuState = s.cpuState := rfl
@[simp] theorem regainBus_halted (s : State) : (s.regainBus).halted = s.halted := rfl
@[simp] theorem regainBus_resetDue (s : State) : (s.regainBus).resetDue = s.resetDue := rfl
@[simp] theorem regainBus_heldWord (s : State) : (s.regainBus).heldWord = s.heldWord := rfl
@[simp] theorem regainBus_sampleDue (s : State) : (s.regainBus).sampleDue = s.sampleDue := rfl
@[simp] theorem regainBus_sampleVie (s : State) : (s.regainBus).sampleVie = s.sampleVie := rfl
@[simp] theorem regainBus_sampleNvie (s : State) : (s.regainBus).sampleNvie = s.sampleNvie := rfl
@[simp] theorem regainBus_mem (s : State) : (s.regainBus).mem = s.mem := rfl
@[simp] theorem regainBus_busLog (s : State) : (s.regainBus).busLog = s.busLog := rfl
@[simp] theorem regainBus_env (s : State) : (s.regainBus).env = s.env := rfl
@[simp] theorem regainBus_draws (s : State) : (s.regainBus).draws = s.draws := rfl
@[simp] theorem regainBus_isZ8001 (s : State) : (s.regainBus).isZ8001 = s.isZ8001 := rfl
@[simp] theorem regainBus_segmented (s : State) : (s.regainBus).segmented = s.segmented := rfl
@[simp] theorem regainBus_dataSp (s : State) : (s.regainBus).dataSp = s.dataSp := rfl
@[simp] theorem regainBus_stackSp (s : State) : (s.regainBus).stackSp = s.stackSp := rfl
@[simp] theorem regainBus_progSp (s : State) : (s.regainBus).progSp = s.progSp := rfl
@[simp] theorem regainBus_phys (s : State) (q : RegNo) : (s.regainBus).phys q = s.phys q := rfl
@[simp] theorem regainBus_key (s : State) (p : Space) (x : Addr) : (s.regainBus).key p x = s.key p x := rfl

@[simp] theorem grantBus_params (s : State) (n : Nat) (ws : List Host.Cell) : (s.grantBus n ws).params = s.params := rfl
@[simp] theorem grantBus_regs (s : State) (n : Nat) (ws : List Host.Cell) : (s.grantBus n ws).regs = s.regs := rfl
@[simp] theorem grantBus_fcw (s : State) (n : Nat) (ws : List Host.Cell) : (s.grantBus n ws).fcw = s.fcw := rfl
@[simp] theorem grantBus_pc (s : State) (n : Nat) (ws : List Host.Cell) : (s.grantBus n ws).pc = s.pc := rfl
@[simp] theorem grantBus_psapSeg (s : State) (n : Nat) (ws : List Host.Cell) : (s.grantBus n ws).psapSeg = s.psapSeg := rfl
@[simp] theorem grantBus_psapOff (s : State) (n : Nat) (ws : List Host.Cell) : (s.grantBus n ws).psapOff = s.psapOff := rfl
@[simp] theorem grantBus_refresh (s : State) (n : Nat) (ws : List Host.Cell) : (s.grantBus n ws).refresh = s.refresh := rfl
@[simp] theorem grantBus_nmiLatch (s : State) (n : Nat) (ws : List Host.Cell) : (s.grantBus n ws).nmiLatch = s.nmiLatch := rfl
@[simp] theorem grantBus_moActive (s : State) (n : Nat) (ws : List Host.Cell) : (s.grantBus n ws).moActive = s.moActive := rfl
@[simp] theorem grantBus_cpuState (s : State) (n : Nat) (ws : List Host.Cell) : (s.grantBus n ws).cpuState = s.cpuState := rfl
@[simp] theorem grantBus_halted (s : State) (n : Nat) (ws : List Host.Cell) : (s.grantBus n ws).halted = s.halted := rfl
@[simp] theorem grantBus_resetDue (s : State) (n : Nat) (ws : List Host.Cell) : (s.grantBus n ws).resetDue = s.resetDue := rfl
@[simp] theorem grantBus_heldWord (s : State) (n : Nat) (ws : List Host.Cell) : (s.grantBus n ws).heldWord = s.heldWord := rfl
@[simp] theorem grantBus_sampleDue (s : State) (n : Nat) (ws : List Host.Cell) : (s.grantBus n ws).sampleDue = s.sampleDue := rfl
@[simp] theorem grantBus_sampleVie (s : State) (n : Nat) (ws : List Host.Cell) : (s.grantBus n ws).sampleVie = s.sampleVie := rfl
@[simp] theorem grantBus_sampleNvie (s : State) (n : Nat) (ws : List Host.Cell) : (s.grantBus n ws).sampleNvie = s.sampleNvie := rfl
@[simp] theorem grantBus_env (s : State) (n : Nat) (ws : List Host.Cell) : (s.grantBus n ws).env = s.env := rfl
@[simp] theorem grantBus_draws (s : State) (n : Nat) (ws : List Host.Cell) : (s.grantBus n ws).draws = s.draws := rfl
@[simp] theorem grantBus_isZ8001 (s : State) (n : Nat) (ws : List Host.Cell) : (s.grantBus n ws).isZ8001 = s.isZ8001 := rfl
@[simp] theorem grantBus_segmented (s : State) (n : Nat) (ws : List Host.Cell) : (s.grantBus n ws).segmented = s.segmented := rfl
@[simp] theorem grantBus_dataSp (s : State) (n : Nat) (ws : List Host.Cell) : (s.grantBus n ws).dataSp = s.dataSp := rfl
@[simp] theorem grantBus_stackSp (s : State) (n : Nat) (ws : List Host.Cell) : (s.grantBus n ws).stackSp = s.stackSp := rfl
@[simp] theorem grantBus_progSp (s : State) (n : Nat) (ws : List Host.Cell) : (s.grantBus n ws).progSp = s.progSp := rfl
@[simp] theorem grantBus_phys (s : State) (n : Nat) (ws : List Host.Cell) (q : RegNo) : (s.grantBus n ws).phys q = s.phys q := rfl
@[simp] theorem grantBus_key (s : State) (n : Nat) (ws : List Host.Cell) (p : Space) (x : Addr) : (s.grantBus n ws).key p x = s.key p x := rfl

@[simp] theorem begin_params (s : State) : (s.begin).params = s.params := rfl
@[simp] theorem begin_regs (s : State) : (s.begin).regs = s.regs := rfl
@[simp] theorem begin_fcw (s : State) : (s.begin).fcw = s.fcw := rfl
@[simp] theorem begin_pc (s : State) : (s.begin).pc = s.pc := rfl
@[simp] theorem begin_psapSeg (s : State) : (s.begin).psapSeg = s.psapSeg := rfl
@[simp] theorem begin_psapOff (s : State) : (s.begin).psapOff = s.psapOff := rfl
@[simp] theorem begin_refresh (s : State) : (s.begin).refresh = s.refresh := rfl
@[simp] theorem begin_skipped (s : State) : (s.begin).skipped = s.skipped := rfl
@[simp] theorem begin_nmiLatch (s : State) : (s.begin).nmiLatch = s.nmiLatch := rfl
@[simp] theorem begin_moActive (s : State) : (s.begin).moActive = s.moActive := rfl
@[simp] theorem begin_cpuState (s : State) : (s.begin).cpuState = s.cpuState := rfl
@[simp] theorem begin_halted (s : State) : (s.begin).halted = s.halted := rfl
@[simp] theorem begin_resetDue (s : State) : (s.begin).resetDue = s.resetDue := rfl
@[simp] theorem begin_heldWord (s : State) : (s.begin).heldWord = s.heldWord := rfl
@[simp] theorem begin_mem (s : State) : (s.begin).mem = s.mem := rfl
@[simp] theorem begin_busLog (s : State) : (s.begin).busLog = s.busLog := rfl
@[simp] theorem begin_env (s : State) : (s.begin).env = s.env := rfl
@[simp] theorem begin_draws (s : State) : (s.begin).draws = s.draws := rfl
@[simp] theorem begin_isZ8001 (s : State) : (s.begin).isZ8001 = s.isZ8001 := rfl
@[simp] theorem begin_segmented (s : State) : (s.begin).segmented = s.segmented := rfl
@[simp] theorem begin_dataSp (s : State) : (s.begin).dataSp = s.dataSp := rfl
@[simp] theorem begin_stackSp (s : State) : (s.begin).stackSp = s.stackSp := rfl
@[simp] theorem begin_progSp (s : State) : (s.begin).progSp = s.progSp := rfl
@[simp] theorem begin_phys (s : State) (q : RegNo) : (s.begin).phys q = s.phys q := rfl
@[simp] theorem begin_key (s : State) (p : Space) (x : Addr) : (s.begin).key p x = s.key p x := rfl

/-! Updates made of others -/

@[simp] theorem putWord_params (s : State) (sp : Space) (a : Addr) (v : Word) : (s.putWord sp a v).params = s.params := by simp [State.putWord]
@[simp] theorem putWord_regs (s : State) (sp : Space) (a : Addr) (v : Word) : (s.putWord sp a v).regs = s.regs := by simp [State.putWord]
@[simp] theorem putWord_fcw (s : State) (sp : Space) (a : Addr) (v : Word) : (s.putWord sp a v).fcw = s.fcw := by simp [State.putWord]
@[simp] theorem putWord_pc (s : State) (sp : Space) (a : Addr) (v : Word) : (s.putWord sp a v).pc = s.pc := by simp [State.putWord]
@[simp] theorem putWord_psapSeg (s : State) (sp : Space) (a : Addr) (v : Word) : (s.putWord sp a v).psapSeg = s.psapSeg := by simp [State.putWord]
@[simp] theorem putWord_psapOff (s : State) (sp : Space) (a : Addr) (v : Word) : (s.putWord sp a v).psapOff = s.psapOff := by simp [State.putWord]
@[simp] theorem putWord_refresh (s : State) (sp : Space) (a : Addr) (v : Word) : (s.putWord sp a v).refresh = s.refresh := by simp [State.putWord]
@[simp] theorem putWord_skipped (s : State) (sp : Space) (a : Addr) (v : Word) : (s.putWord sp a v).skipped = s.skipped := by simp [State.putWord]
@[simp] theorem putWord_nmiLatch (s : State) (sp : Space) (a : Addr) (v : Word) : (s.putWord sp a v).nmiLatch = s.nmiLatch := by simp [State.putWord]
@[simp] theorem putWord_moActive (s : State) (sp : Space) (a : Addr) (v : Word) : (s.putWord sp a v).moActive = s.moActive := by simp [State.putWord]
@[simp] theorem putWord_cpuState (s : State) (sp : Space) (a : Addr) (v : Word) : (s.putWord sp a v).cpuState = s.cpuState := by simp [State.putWord]
@[simp] theorem putWord_halted (s : State) (sp : Space) (a : Addr) (v : Word) : (s.putWord sp a v).halted = s.halted := by simp [State.putWord]
@[simp] theorem putWord_resetDue (s : State) (sp : Space) (a : Addr) (v : Word) : (s.putWord sp a v).resetDue = s.resetDue := by simp [State.putWord]
@[simp] theorem putWord_heldWord (s : State) (sp : Space) (a : Addr) (v : Word) : (s.putWord sp a v).heldWord = s.heldWord := by simp [State.putWord]
@[simp] theorem putWord_sampleDue (s : State) (sp : Space) (a : Addr) (v : Word) : (s.putWord sp a v).sampleDue = s.sampleDue := by simp [State.putWord]
@[simp] theorem putWord_sampleVie (s : State) (sp : Space) (a : Addr) (v : Word) : (s.putWord sp a v).sampleVie = s.sampleVie := by simp [State.putWord]
@[simp] theorem putWord_sampleNvie (s : State) (sp : Space) (a : Addr) (v : Word) : (s.putWord sp a v).sampleNvie = s.sampleNvie := by simp [State.putWord]
@[simp] theorem putWord_busLog (s : State) (sp : Space) (a : Addr) (v : Word) : (s.putWord sp a v).busLog = s.busLog := by simp [State.putWord]
@[simp] theorem putWord_env (s : State) (sp : Space) (a : Addr) (v : Word) : (s.putWord sp a v).env = s.env := by simp [State.putWord]
@[simp] theorem putWord_draws (s : State) (sp : Space) (a : Addr) (v : Word) : (s.putWord sp a v).draws = s.draws := by simp [State.putWord]
@[simp] theorem putWord_isZ8001 (s : State) (sp : Space) (a : Addr) (v : Word) : (s.putWord sp a v).isZ8001 = s.isZ8001 := by simp [State.isZ8001]
@[simp] theorem putWord_segmented (s : State) (sp : Space) (a : Addr) (v : Word) : (s.putWord sp a v).segmented = s.segmented := by simp [State.segmented, State.isZ8001]
@[simp] theorem putWord_dataSp (s : State) (sp : Space) (a : Addr) (v : Word) : (s.putWord sp a v).dataSp = s.dataSp := by simp [State.dataSp]
@[simp] theorem putWord_stackSp (s : State) (sp : Space) (a : Addr) (v : Word) : (s.putWord sp a v).stackSp = s.stackSp := by simp [State.stackSp]
@[simp] theorem putWord_progSp (s : State) (sp : Space) (a : Addr) (v : Word) : (s.putWord sp a v).progSp = s.progSp := by simp [State.progSp]
@[simp] theorem putWord_phys (s : State) (sp : Space) (a : Addr) (v : Word) (q : RegNo) : (s.putWord sp a v).phys q = s.phys q := by simp [State.phys, State.isZ8001]
@[simp] theorem putWord_key (s : State) (sp : Space) (a : Addr) (v : Word) (p : Space) (x : Addr) : (s.putWord sp a v).key p x = s.key p x := by simp [State.key]

@[simp] theorem putLong_params (s : State) (sp : Space) (a : Addr) (v : Long) : (s.putLong sp a v).params = s.params := by simp [State.putLong]
@[simp] theorem putLong_regs (s : State) (sp : Space) (a : Addr) (v : Long) : (s.putLong sp a v).regs = s.regs := by simp [State.putLong]
@[simp] theorem putLong_fcw (s : State) (sp : Space) (a : Addr) (v : Long) : (s.putLong sp a v).fcw = s.fcw := by simp [State.putLong]
@[simp] theorem putLong_pc (s : State) (sp : Space) (a : Addr) (v : Long) : (s.putLong sp a v).pc = s.pc := by simp [State.putLong]
@[simp] theorem putLong_psapSeg (s : State) (sp : Space) (a : Addr) (v : Long) : (s.putLong sp a v).psapSeg = s.psapSeg := by simp [State.putLong]
@[simp] theorem putLong_psapOff (s : State) (sp : Space) (a : Addr) (v : Long) : (s.putLong sp a v).psapOff = s.psapOff := by simp [State.putLong]
@[simp] theorem putLong_refresh (s : State) (sp : Space) (a : Addr) (v : Long) : (s.putLong sp a v).refresh = s.refresh := by simp [State.putLong]
@[simp] theorem putLong_skipped (s : State) (sp : Space) (a : Addr) (v : Long) : (s.putLong sp a v).skipped = s.skipped := by simp [State.putLong]
@[simp] theorem putLong_nmiLatch (s : State) (sp : Space) (a : Addr) (v : Long) : (s.putLong sp a v).nmiLatch = s.nmiLatch := by simp [State.putLong]
@[simp] theorem putLong_moActive (s : State) (sp : Space) (a : Addr) (v : Long) : (s.putLong sp a v).moActive = s.moActive := by simp [State.putLong]
@[simp] theorem putLong_cpuState (s : State) (sp : Space) (a : Addr) (v : Long) : (s.putLong sp a v).cpuState = s.cpuState := by simp [State.putLong]
@[simp] theorem putLong_halted (s : State) (sp : Space) (a : Addr) (v : Long) : (s.putLong sp a v).halted = s.halted := by simp [State.putLong]
@[simp] theorem putLong_resetDue (s : State) (sp : Space) (a : Addr) (v : Long) : (s.putLong sp a v).resetDue = s.resetDue := by simp [State.putLong]
@[simp] theorem putLong_heldWord (s : State) (sp : Space) (a : Addr) (v : Long) : (s.putLong sp a v).heldWord = s.heldWord := by simp [State.putLong]
@[simp] theorem putLong_sampleDue (s : State) (sp : Space) (a : Addr) (v : Long) : (s.putLong sp a v).sampleDue = s.sampleDue := by simp [State.putLong]
@[simp] theorem putLong_sampleVie (s : State) (sp : Space) (a : Addr) (v : Long) : (s.putLong sp a v).sampleVie = s.sampleVie := by simp [State.putLong]
@[simp] theorem putLong_sampleNvie (s : State) (sp : Space) (a : Addr) (v : Long) : (s.putLong sp a v).sampleNvie = s.sampleNvie := by simp [State.putLong]
@[simp] theorem putLong_busLog (s : State) (sp : Space) (a : Addr) (v : Long) : (s.putLong sp a v).busLog = s.busLog := by simp [State.putLong]
@[simp] theorem putLong_env (s : State) (sp : Space) (a : Addr) (v : Long) : (s.putLong sp a v).env = s.env := by simp [State.putLong]
@[simp] theorem putLong_draws (s : State) (sp : Space) (a : Addr) (v : Long) : (s.putLong sp a v).draws = s.draws := by simp [State.putLong]
@[simp] theorem putLong_isZ8001 (s : State) (sp : Space) (a : Addr) (v : Long) : (s.putLong sp a v).isZ8001 = s.isZ8001 := by simp [State.isZ8001]
@[simp] theorem putLong_segmented (s : State) (sp : Space) (a : Addr) (v : Long) : (s.putLong sp a v).segmented = s.segmented := by simp [State.segmented, State.isZ8001]
@[simp] theorem putLong_dataSp (s : State) (sp : Space) (a : Addr) (v : Long) : (s.putLong sp a v).dataSp = s.dataSp := by simp [State.dataSp]
@[simp] theorem putLong_stackSp (s : State) (sp : Space) (a : Addr) (v : Long) : (s.putLong sp a v).stackSp = s.stackSp := by simp [State.stackSp]
@[simp] theorem putLong_progSp (s : State) (sp : Space) (a : Addr) (v : Long) : (s.putLong sp a v).progSp = s.progSp := by simp [State.progSp]
@[simp] theorem putLong_phys (s : State) (sp : Space) (a : Addr) (v : Long) (q : RegNo) : (s.putLong sp a v).phys q = s.phys q := by simp [State.phys, State.isZ8001]
@[simp] theorem putLong_key (s : State) (sp : Space) (a : Addr) (v : Long) (p : Space) (x : Addr) : (s.putLong sp a v).key p x = s.key p x := by simp [State.key]

@[simp] theorem putMem_params (s : State) {n : Nat} (sp : Space) (a : Addr) (v : BitVec n) : (s.putMem sp a v).params = s.params := by
  unfold State.putMem; (repeat' split) <;> simp
@[simp] theorem putMem_regs (s : State) {n : Nat} (sp : Space) (a : Addr) (v : BitVec n) : (s.putMem sp a v).regs = s.regs := by
  unfold State.putMem; (repeat' split) <;> simp
@[simp] theorem putMem_fcw (s : State) {n : Nat} (sp : Space) (a : Addr) (v : BitVec n) : (s.putMem sp a v).fcw = s.fcw := by
  unfold State.putMem; (repeat' split) <;> simp
@[simp] theorem putMem_pc (s : State) {n : Nat} (sp : Space) (a : Addr) (v : BitVec n) : (s.putMem sp a v).pc = s.pc := by
  unfold State.putMem; (repeat' split) <;> simp
@[simp] theorem putMem_psapSeg (s : State) {n : Nat} (sp : Space) (a : Addr) (v : BitVec n) : (s.putMem sp a v).psapSeg = s.psapSeg := by
  unfold State.putMem; (repeat' split) <;> simp
@[simp] theorem putMem_psapOff (s : State) {n : Nat} (sp : Space) (a : Addr) (v : BitVec n) : (s.putMem sp a v).psapOff = s.psapOff := by
  unfold State.putMem; (repeat' split) <;> simp
@[simp] theorem putMem_refresh (s : State) {n : Nat} (sp : Space) (a : Addr) (v : BitVec n) : (s.putMem sp a v).refresh = s.refresh := by
  unfold State.putMem; (repeat' split) <;> simp
@[simp] theorem putMem_skipped (s : State) {n : Nat} (sp : Space) (a : Addr) (v : BitVec n) : (s.putMem sp a v).skipped = s.skipped := by
  unfold State.putMem; (repeat' split) <;> simp
@[simp] theorem putMem_nmiLatch (s : State) {n : Nat} (sp : Space) (a : Addr) (v : BitVec n) : (s.putMem sp a v).nmiLatch = s.nmiLatch := by
  unfold State.putMem; (repeat' split) <;> simp
@[simp] theorem putMem_moActive (s : State) {n : Nat} (sp : Space) (a : Addr) (v : BitVec n) : (s.putMem sp a v).moActive = s.moActive := by
  unfold State.putMem; (repeat' split) <;> simp
@[simp] theorem putMem_cpuState (s : State) {n : Nat} (sp : Space) (a : Addr) (v : BitVec n) : (s.putMem sp a v).cpuState = s.cpuState := by
  unfold State.putMem; (repeat' split) <;> simp
@[simp] theorem putMem_halted (s : State) {n : Nat} (sp : Space) (a : Addr) (v : BitVec n) : (s.putMem sp a v).halted = s.halted := by
  unfold State.putMem; (repeat' split) <;> simp
@[simp] theorem putMem_resetDue (s : State) {n : Nat} (sp : Space) (a : Addr) (v : BitVec n) : (s.putMem sp a v).resetDue = s.resetDue := by
  unfold State.putMem; (repeat' split) <;> simp
@[simp] theorem putMem_heldWord (s : State) {n : Nat} (sp : Space) (a : Addr) (v : BitVec n) : (s.putMem sp a v).heldWord = s.heldWord := by
  unfold State.putMem; (repeat' split) <;> simp
@[simp] theorem putMem_sampleDue (s : State) {n : Nat} (sp : Space) (a : Addr) (v : BitVec n) : (s.putMem sp a v).sampleDue = s.sampleDue := by
  unfold State.putMem; (repeat' split) <;> simp
@[simp] theorem putMem_sampleVie (s : State) {n : Nat} (sp : Space) (a : Addr) (v : BitVec n) : (s.putMem sp a v).sampleVie = s.sampleVie := by
  unfold State.putMem; (repeat' split) <;> simp
@[simp] theorem putMem_sampleNvie (s : State) {n : Nat} (sp : Space) (a : Addr) (v : BitVec n) : (s.putMem sp a v).sampleNvie = s.sampleNvie := by
  unfold State.putMem; (repeat' split) <;> simp
@[simp] theorem putMem_busLog (s : State) {n : Nat} (sp : Space) (a : Addr) (v : BitVec n) : (s.putMem sp a v).busLog = s.busLog := by
  unfold State.putMem; (repeat' split) <;> simp
@[simp] theorem putMem_env (s : State) {n : Nat} (sp : Space) (a : Addr) (v : BitVec n) : (s.putMem sp a v).env = s.env := by
  unfold State.putMem; (repeat' split) <;> simp
@[simp] theorem putMem_draws (s : State) {n : Nat} (sp : Space) (a : Addr) (v : BitVec n) : (s.putMem sp a v).draws = s.draws := by
  unfold State.putMem; (repeat' split) <;> simp
@[simp] theorem putMem_isZ8001 (s : State) {n : Nat} (sp : Space) (a : Addr) (v : BitVec n) : (s.putMem sp a v).isZ8001 = s.isZ8001 := by simp [State.isZ8001]
@[simp] theorem putMem_segmented (s : State) {n : Nat} (sp : Space) (a : Addr) (v : BitVec n) : (s.putMem sp a v).segmented = s.segmented := by simp [State.segmented, State.isZ8001]
@[simp] theorem putMem_dataSp (s : State) {n : Nat} (sp : Space) (a : Addr) (v : BitVec n) : (s.putMem sp a v).dataSp = s.dataSp := by simp [State.dataSp]
@[simp] theorem putMem_stackSp (s : State) {n : Nat} (sp : Space) (a : Addr) (v : BitVec n) : (s.putMem sp a v).stackSp = s.stackSp := by simp [State.stackSp]
@[simp] theorem putMem_progSp (s : State) {n : Nat} (sp : Space) (a : Addr) (v : BitVec n) : (s.putMem sp a v).progSp = s.progSp := by simp [State.progSp]
@[simp] theorem putMem_phys (s : State) {n : Nat} (sp : Space) (a : Addr) (v : BitVec n) (q : RegNo) : (s.putMem sp a v).phys q = s.phys q := by simp [State.phys, State.isZ8001]
@[simp] theorem putMem_key (s : State) {n : Nat} (sp : Space) (a : Addr) (v : BitVec n) (p : Space) (x : Addr) : (s.putMem sp a v).key p x = s.key p x := by simp [State.key]

@[simp] theorem putWords_params (s : State) (sp : Space) (a : Addr) (ws : List Word) : (s.putWords sp a ws).params = s.params := by
  induction ws generalizing s a <;> simp [State.putWords, *]
@[simp] theorem putWords_regs (s : State) (sp : Space) (a : Addr) (ws : List Word) : (s.putWords sp a ws).regs = s.regs := by
  induction ws generalizing s a <;> simp [State.putWords, *]
@[simp] theorem putWords_fcw (s : State) (sp : Space) (a : Addr) (ws : List Word) : (s.putWords sp a ws).fcw = s.fcw := by
  induction ws generalizing s a <;> simp [State.putWords, *]
@[simp] theorem putWords_pc (s : State) (sp : Space) (a : Addr) (ws : List Word) : (s.putWords sp a ws).pc = s.pc := by
  induction ws generalizing s a <;> simp [State.putWords, *]
@[simp] theorem putWords_psapSeg (s : State) (sp : Space) (a : Addr) (ws : List Word) : (s.putWords sp a ws).psapSeg = s.psapSeg := by
  induction ws generalizing s a <;> simp [State.putWords, *]
@[simp] theorem putWords_psapOff (s : State) (sp : Space) (a : Addr) (ws : List Word) : (s.putWords sp a ws).psapOff = s.psapOff := by
  induction ws generalizing s a <;> simp [State.putWords, *]
@[simp] theorem putWords_refresh (s : State) (sp : Space) (a : Addr) (ws : List Word) : (s.putWords sp a ws).refresh = s.refresh := by
  induction ws generalizing s a <;> simp [State.putWords, *]
@[simp] theorem putWords_skipped (s : State) (sp : Space) (a : Addr) (ws : List Word) : (s.putWords sp a ws).skipped = s.skipped := by
  induction ws generalizing s a <;> simp [State.putWords, *]
@[simp] theorem putWords_nmiLatch (s : State) (sp : Space) (a : Addr) (ws : List Word) : (s.putWords sp a ws).nmiLatch = s.nmiLatch := by
  induction ws generalizing s a <;> simp [State.putWords, *]
@[simp] theorem putWords_moActive (s : State) (sp : Space) (a : Addr) (ws : List Word) : (s.putWords sp a ws).moActive = s.moActive := by
  induction ws generalizing s a <;> simp [State.putWords, *]
@[simp] theorem putWords_cpuState (s : State) (sp : Space) (a : Addr) (ws : List Word) : (s.putWords sp a ws).cpuState = s.cpuState := by
  induction ws generalizing s a <;> simp [State.putWords, *]
@[simp] theorem putWords_halted (s : State) (sp : Space) (a : Addr) (ws : List Word) : (s.putWords sp a ws).halted = s.halted := by
  induction ws generalizing s a <;> simp [State.putWords, *]
@[simp] theorem putWords_resetDue (s : State) (sp : Space) (a : Addr) (ws : List Word) : (s.putWords sp a ws).resetDue = s.resetDue := by
  induction ws generalizing s a <;> simp [State.putWords, *]
@[simp] theorem putWords_heldWord (s : State) (sp : Space) (a : Addr) (ws : List Word) : (s.putWords sp a ws).heldWord = s.heldWord := by
  induction ws generalizing s a <;> simp [State.putWords, *]
@[simp] theorem putWords_sampleDue (s : State) (sp : Space) (a : Addr) (ws : List Word) : (s.putWords sp a ws).sampleDue = s.sampleDue := by
  induction ws generalizing s a <;> simp [State.putWords, *]
@[simp] theorem putWords_sampleVie (s : State) (sp : Space) (a : Addr) (ws : List Word) : (s.putWords sp a ws).sampleVie = s.sampleVie := by
  induction ws generalizing s a <;> simp [State.putWords, *]
@[simp] theorem putWords_sampleNvie (s : State) (sp : Space) (a : Addr) (ws : List Word) : (s.putWords sp a ws).sampleNvie = s.sampleNvie := by
  induction ws generalizing s a <;> simp [State.putWords, *]
@[simp] theorem putWords_busLog (s : State) (sp : Space) (a : Addr) (ws : List Word) : (s.putWords sp a ws).busLog = s.busLog := by
  induction ws generalizing s a <;> simp [State.putWords, *]
@[simp] theorem putWords_env (s : State) (sp : Space) (a : Addr) (ws : List Word) : (s.putWords sp a ws).env = s.env := by
  induction ws generalizing s a <;> simp [State.putWords, *]
@[simp] theorem putWords_draws (s : State) (sp : Space) (a : Addr) (ws : List Word) : (s.putWords sp a ws).draws = s.draws := by
  induction ws generalizing s a <;> simp [State.putWords, *]
@[simp] theorem putWords_isZ8001 (s : State) (sp : Space) (a : Addr) (ws : List Word) : (s.putWords sp a ws).isZ8001 = s.isZ8001 := by simp [State.isZ8001]
@[simp] theorem putWords_segmented (s : State) (sp : Space) (a : Addr) (ws : List Word) : (s.putWords sp a ws).segmented = s.segmented := by simp [State.segmented, State.isZ8001]
@[simp] theorem putWords_dataSp (s : State) (sp : Space) (a : Addr) (ws : List Word) : (s.putWords sp a ws).dataSp = s.dataSp := by simp [State.dataSp]
@[simp] theorem putWords_stackSp (s : State) (sp : Space) (a : Addr) (ws : List Word) : (s.putWords sp a ws).stackSp = s.stackSp := by simp [State.stackSp]
@[simp] theorem putWords_progSp (s : State) (sp : Space) (a : Addr) (ws : List Word) : (s.putWords sp a ws).progSp = s.progSp := by simp [State.progSp]
@[simp] theorem putWords_phys (s : State) (sp : Space) (a : Addr) (ws : List Word) (q : RegNo) : (s.putWords sp a ws).phys q = s.phys q := by simp [State.phys, State.isZ8001]
@[simp] theorem putWords_key (s : State) (sp : Space) (a : Addr) (ws : List Word) (p : Space) (x : Addr) : (s.putWords sp a ws).key p x = s.key p x := by simp [State.key]

@[simp] theorem putBelow_params (s : State) (sp : Space) (a : Addr) (ws : List Word) : (s.putBelow sp a ws).params = s.params := by
  induction ws generalizing s a <;> simp [State.putBelow, *]
@[simp] theorem putBelow_regs (s : State) (sp : Space) (a : Addr) (ws : List Word) : (s.putBelow sp a ws).regs = s.regs := by
  induction ws generalizing s a <;> simp [State.putBelow, *]
@[simp] theorem putBelow_fcw (s : State) (sp : Space) (a : Addr) (ws : List Word) : (s.putBelow sp a ws).fcw = s.fcw := by
  induction ws generalizing s a <;> simp [State.putBelow, *]
@[simp] theorem putBelow_pc (s : State) (sp : Space) (a : Addr) (ws : List Word) : (s.putBelow sp a ws).pc = s.pc := by
  induction ws generalizing s a <;> simp [State.putBelow, *]
@[simp] theorem putBelow_psapSeg (s : State) (sp : Space) (a : Addr) (ws : List Word) : (s.putBelow sp a ws).psapSeg = s.psapSeg := by
  induction ws generalizing s a <;> simp [State.putBelow, *]
@[simp] theorem putBelow_psapOff (s : State) (sp : Space) (a : Addr) (ws : List Word) : (s.putBelow sp a ws).psapOff = s.psapOff := by
  induction ws generalizing s a <;> simp [State.putBelow, *]
@[simp] theorem putBelow_refresh (s : State) (sp : Space) (a : Addr) (ws : List Word) : (s.putBelow sp a ws).refresh = s.refresh := by
  induction ws generalizing s a <;> simp [State.putBelow, *]
@[simp] theorem putBelow_skipped (s : State) (sp : Space) (a : Addr) (ws : List Word) : (s.putBelow sp a ws).skipped = s.skipped := by
  induction ws generalizing s a <;> simp [State.putBelow, *]
@[simp] theorem putBelow_nmiLatch (s : State) (sp : Space) (a : Addr) (ws : List Word) : (s.putBelow sp a ws).nmiLatch = s.nmiLatch := by
  induction ws generalizing s a <;> simp [State.putBelow, *]
@[simp] theorem putBelow_moActive (s : State) (sp : Space) (a : Addr) (ws : List Word) : (s.putBelow sp a ws).moActive = s.moActive := by
  induction ws generalizing s a <;> simp [State.putBelow, *]
@[simp] theorem putBelow_cpuState (s : State) (sp : Space) (a : Addr) (ws : List Word) : (s.putBelow sp a ws).cpuState = s.cpuState := by
  induction ws generalizing s a <;> simp [State.putBelow, *]
@[simp] theorem putBelow_halted (s : State) (sp : Space) (a : Addr) (ws : List Word) : (s.putBelow sp a ws).halted = s.halted := by
  induction ws generalizing s a <;> simp [State.putBelow, *]
@[simp] theorem putBelow_resetDue (s : State) (sp : Space) (a : Addr) (ws : List Word) : (s.putBelow sp a ws).resetDue = s.resetDue := by
  induction ws generalizing s a <;> simp [State.putBelow, *]
@[simp] theorem putBelow_heldWord (s : State) (sp : Space) (a : Addr) (ws : List Word) : (s.putBelow sp a ws).heldWord = s.heldWord := by
  induction ws generalizing s a <;> simp [State.putBelow, *]
@[simp] theorem putBelow_sampleDue (s : State) (sp : Space) (a : Addr) (ws : List Word) : (s.putBelow sp a ws).sampleDue = s.sampleDue := by
  induction ws generalizing s a <;> simp [State.putBelow, *]
@[simp] theorem putBelow_sampleVie (s : State) (sp : Space) (a : Addr) (ws : List Word) : (s.putBelow sp a ws).sampleVie = s.sampleVie := by
  induction ws generalizing s a <;> simp [State.putBelow, *]
@[simp] theorem putBelow_sampleNvie (s : State) (sp : Space) (a : Addr) (ws : List Word) : (s.putBelow sp a ws).sampleNvie = s.sampleNvie := by
  induction ws generalizing s a <;> simp [State.putBelow, *]
@[simp] theorem putBelow_busLog (s : State) (sp : Space) (a : Addr) (ws : List Word) : (s.putBelow sp a ws).busLog = s.busLog := by
  induction ws generalizing s a <;> simp [State.putBelow, *]
@[simp] theorem putBelow_env (s : State) (sp : Space) (a : Addr) (ws : List Word) : (s.putBelow sp a ws).env = s.env := by
  induction ws generalizing s a <;> simp [State.putBelow, *]
@[simp] theorem putBelow_draws (s : State) (sp : Space) (a : Addr) (ws : List Word) : (s.putBelow sp a ws).draws = s.draws := by
  induction ws generalizing s a <;> simp [State.putBelow, *]
@[simp] theorem putBelow_isZ8001 (s : State) (sp : Space) (a : Addr) (ws : List Word) : (s.putBelow sp a ws).isZ8001 = s.isZ8001 := by simp [State.isZ8001]
@[simp] theorem putBelow_segmented (s : State) (sp : Space) (a : Addr) (ws : List Word) : (s.putBelow sp a ws).segmented = s.segmented := by simp [State.segmented, State.isZ8001]
@[simp] theorem putBelow_dataSp (s : State) (sp : Space) (a : Addr) (ws : List Word) : (s.putBelow sp a ws).dataSp = s.dataSp := by simp [State.dataSp]
@[simp] theorem putBelow_stackSp (s : State) (sp : Space) (a : Addr) (ws : List Word) : (s.putBelow sp a ws).stackSp = s.stackSp := by simp [State.stackSp]
@[simp] theorem putBelow_progSp (s : State) (sp : Space) (a : Addr) (ws : List Word) : (s.putBelow sp a ws).progSp = s.progSp := by simp [State.progSp]
@[simp] theorem putBelow_phys (s : State) (sp : Space) (a : Addr) (ws : List Word) (q : RegNo) : (s.putBelow sp a ws).phys q = s.phys q := by simp [State.phys, State.isZ8001]
@[simp] theorem putBelow_key (s : State) (sp : Space) (a : Addr) (ws : List Word) (p : Space) (x : Addr) : (s.putBelow sp a ws).key p x = s.key p x := by simp [State.key]

@[simp] theorem wroteByte_params (s : State) (sp : Space) (a : Addr) (v : Byte) : (s.wroteByte sp a v).params = s.params := by simp [State.wroteByte]
@[simp] theorem wroteByte_regs (s : State) (sp : Space) (a : Addr) (v : Byte) : (s.wroteByte sp a v).regs = s.regs := by simp [State.wroteByte]
@[simp] theorem wroteByte_fcw (s : State) (sp : Space) (a : Addr) (v : Byte) : (s.wroteByte sp a v).fcw = s.fcw := by simp [State.wroteByte]
@[simp] theorem wroteByte_pc (s : State) (sp : Space) (a : Addr) (v : Byte) : (s.wroteByte sp a v).pc = s.pc := by simp [State.wroteByte]
@[simp] theorem wroteByte_psapSeg (s : State) (sp : Space) (a : Addr) (v : Byte) : (s.wroteByte sp a v).psapSeg = s.psapSeg := by simp [State.wroteByte]
@[simp] theorem wroteByte_psapOff (s : State) (sp : Space) (a : Addr) (v : Byte) : (s.wroteByte sp a v).psapOff = s.psapOff := by simp [State.wroteByte]
@[simp] theorem wroteByte_refresh (s : State) (sp : Space) (a : Addr) (v : Byte) : (s.wroteByte sp a v).refresh = s.refresh := by simp [State.wroteByte]
@[simp] theorem wroteByte_skipped (s : State) (sp : Space) (a : Addr) (v : Byte) : (s.wroteByte sp a v).skipped = s.skipped := by simp [State.wroteByte]
@[simp] theorem wroteByte_nmiLatch (s : State) (sp : Space) (a : Addr) (v : Byte) : (s.wroteByte sp a v).nmiLatch = s.nmiLatch := by simp [State.wroteByte]
@[simp] theorem wroteByte_moActive (s : State) (sp : Space) (a : Addr) (v : Byte) : (s.wroteByte sp a v).moActive = s.moActive := by simp [State.wroteByte]
@[simp] theorem wroteByte_cpuState (s : State) (sp : Space) (a : Addr) (v : Byte) : (s.wroteByte sp a v).cpuState = s.cpuState := by simp [State.wroteByte]
@[simp] theorem wroteByte_halted (s : State) (sp : Space) (a : Addr) (v : Byte) : (s.wroteByte sp a v).halted = s.halted := by simp [State.wroteByte]
@[simp] theorem wroteByte_resetDue (s : State) (sp : Space) (a : Addr) (v : Byte) : (s.wroteByte sp a v).resetDue = s.resetDue := by simp [State.wroteByte]
@[simp] theorem wroteByte_heldWord (s : State) (sp : Space) (a : Addr) (v : Byte) : (s.wroteByte sp a v).heldWord = s.heldWord := by simp [State.wroteByte]
@[simp] theorem wroteByte_sampleDue (s : State) (sp : Space) (a : Addr) (v : Byte) : (s.wroteByte sp a v).sampleDue = s.sampleDue := by simp [State.wroteByte]
@[simp] theorem wroteByte_sampleVie (s : State) (sp : Space) (a : Addr) (v : Byte) : (s.wroteByte sp a v).sampleVie = s.sampleVie := by simp [State.wroteByte]
@[simp] theorem wroteByte_sampleNvie (s : State) (sp : Space) (a : Addr) (v : Byte) : (s.wroteByte sp a v).sampleNvie = s.sampleNvie := by simp [State.wroteByte]
@[simp] theorem wroteByte_env (s : State) (sp : Space) (a : Addr) (v : Byte) : (s.wroteByte sp a v).env = s.env := by simp [State.wroteByte]
@[simp] theorem wroteByte_draws (s : State) (sp : Space) (a : Addr) (v : Byte) : (s.wroteByte sp a v).draws = s.draws := by simp [State.wroteByte]
@[simp] theorem wroteByte_isZ8001 (s : State) (sp : Space) (a : Addr) (v : Byte) : (s.wroteByte sp a v).isZ8001 = s.isZ8001 := by simp [State.isZ8001]
@[simp] theorem wroteByte_segmented (s : State) (sp : Space) (a : Addr) (v : Byte) : (s.wroteByte sp a v).segmented = s.segmented := by simp [State.segmented, State.isZ8001]
@[simp] theorem wroteByte_dataSp (s : State) (sp : Space) (a : Addr) (v : Byte) : (s.wroteByte sp a v).dataSp = s.dataSp := by simp [State.dataSp]
@[simp] theorem wroteByte_stackSp (s : State) (sp : Space) (a : Addr) (v : Byte) : (s.wroteByte sp a v).stackSp = s.stackSp := by simp [State.stackSp]
@[simp] theorem wroteByte_progSp (s : State) (sp : Space) (a : Addr) (v : Byte) : (s.wroteByte sp a v).progSp = s.progSp := by simp [State.progSp]
@[simp] theorem wroteByte_phys (s : State) (sp : Space) (a : Addr) (v : Byte) (q : RegNo) : (s.wroteByte sp a v).phys q = s.phys q := by simp [State.phys, State.isZ8001]
@[simp] theorem wroteByte_key (s : State) (sp : Space) (a : Addr) (v : Byte) (p : Space) (x : Addr) : (s.wroteByte sp a v).key p x = s.key p x := by simp [State.key]

@[simp] theorem wroteWord_params (s : State) (sp : Space) (a : Addr) (v : Word) : (s.wroteWord sp a v).params = s.params := by simp [State.wroteWord]
@[simp] theorem wroteWord_regs (s : State) (sp : Space) (a : Addr) (v : Word) : (s.wroteWord sp a v).regs = s.regs := by simp [State.wroteWord]
@[simp] theorem wroteWord_fcw (s : State) (sp : Space) (a : Addr) (v : Word) : (s.wroteWord sp a v).fcw = s.fcw := by simp [State.wroteWord]
@[simp] theorem wroteWord_pc (s : State) (sp : Space) (a : Addr) (v : Word) : (s.wroteWord sp a v).pc = s.pc := by simp [State.wroteWord]
@[simp] theorem wroteWord_psapSeg (s : State) (sp : Space) (a : Addr) (v : Word) : (s.wroteWord sp a v).psapSeg = s.psapSeg := by simp [State.wroteWord]
@[simp] theorem wroteWord_psapOff (s : State) (sp : Space) (a : Addr) (v : Word) : (s.wroteWord sp a v).psapOff = s.psapOff := by simp [State.wroteWord]
@[simp] theorem wroteWord_refresh (s : State) (sp : Space) (a : Addr) (v : Word) : (s.wroteWord sp a v).refresh = s.refresh := by simp [State.wroteWord]
@[simp] theorem wroteWord_skipped (s : State) (sp : Space) (a : Addr) (v : Word) : (s.wroteWord sp a v).skipped = s.skipped := by simp [State.wroteWord]
@[simp] theorem wroteWord_nmiLatch (s : State) (sp : Space) (a : Addr) (v : Word) : (s.wroteWord sp a v).nmiLatch = s.nmiLatch := by simp [State.wroteWord]
@[simp] theorem wroteWord_moActive (s : State) (sp : Space) (a : Addr) (v : Word) : (s.wroteWord sp a v).moActive = s.moActive := by simp [State.wroteWord]
@[simp] theorem wroteWord_cpuState (s : State) (sp : Space) (a : Addr) (v : Word) : (s.wroteWord sp a v).cpuState = s.cpuState := by simp [State.wroteWord]
@[simp] theorem wroteWord_halted (s : State) (sp : Space) (a : Addr) (v : Word) : (s.wroteWord sp a v).halted = s.halted := by simp [State.wroteWord]
@[simp] theorem wroteWord_resetDue (s : State) (sp : Space) (a : Addr) (v : Word) : (s.wroteWord sp a v).resetDue = s.resetDue := by simp [State.wroteWord]
@[simp] theorem wroteWord_heldWord (s : State) (sp : Space) (a : Addr) (v : Word) : (s.wroteWord sp a v).heldWord = s.heldWord := by simp [State.wroteWord]
@[simp] theorem wroteWord_sampleDue (s : State) (sp : Space) (a : Addr) (v : Word) : (s.wroteWord sp a v).sampleDue = s.sampleDue := by simp [State.wroteWord]
@[simp] theorem wroteWord_sampleVie (s : State) (sp : Space) (a : Addr) (v : Word) : (s.wroteWord sp a v).sampleVie = s.sampleVie := by simp [State.wroteWord]
@[simp] theorem wroteWord_sampleNvie (s : State) (sp : Space) (a : Addr) (v : Word) : (s.wroteWord sp a v).sampleNvie = s.sampleNvie := by simp [State.wroteWord]
@[simp] theorem wroteWord_env (s : State) (sp : Space) (a : Addr) (v : Word) : (s.wroteWord sp a v).env = s.env := by simp [State.wroteWord]
@[simp] theorem wroteWord_draws (s : State) (sp : Space) (a : Addr) (v : Word) : (s.wroteWord sp a v).draws = s.draws := by simp [State.wroteWord]
@[simp] theorem wroteWord_isZ8001 (s : State) (sp : Space) (a : Addr) (v : Word) : (s.wroteWord sp a v).isZ8001 = s.isZ8001 := by simp [State.isZ8001]
@[simp] theorem wroteWord_segmented (s : State) (sp : Space) (a : Addr) (v : Word) : (s.wroteWord sp a v).segmented = s.segmented := by simp [State.segmented, State.isZ8001]
@[simp] theorem wroteWord_dataSp (s : State) (sp : Space) (a : Addr) (v : Word) : (s.wroteWord sp a v).dataSp = s.dataSp := by simp [State.dataSp]
@[simp] theorem wroteWord_stackSp (s : State) (sp : Space) (a : Addr) (v : Word) : (s.wroteWord sp a v).stackSp = s.stackSp := by simp [State.stackSp]
@[simp] theorem wroteWord_progSp (s : State) (sp : Space) (a : Addr) (v : Word) : (s.wroteWord sp a v).progSp = s.progSp := by simp [State.progSp]
@[simp] theorem wroteWord_phys (s : State) (sp : Space) (a : Addr) (v : Word) (q : RegNo) : (s.wroteWord sp a v).phys q = s.phys q := by simp [State.phys, State.isZ8001]
@[simp] theorem wroteWord_key (s : State) (sp : Space) (a : Addr) (v : Word) (p : Space) (x : Addr) : (s.wroteWord sp a v).key p x = s.key p x := by simp [State.key]

@[simp] theorem setRegB_params (s : State) (r : RegNo) (v : Byte) : (s.setRegB r v).params = s.params := by simp [State.setRegB]
@[simp] theorem setRegB_fcw (s : State) (r : RegNo) (v : Byte) : (s.setRegB r v).fcw = s.fcw := by simp [State.setRegB]
@[simp] theorem setRegB_pc (s : State) (r : RegNo) (v : Byte) : (s.setRegB r v).pc = s.pc := by simp [State.setRegB]
@[simp] theorem setRegB_psapSeg (s : State) (r : RegNo) (v : Byte) : (s.setRegB r v).psapSeg = s.psapSeg := by simp [State.setRegB]
@[simp] theorem setRegB_psapOff (s : State) (r : RegNo) (v : Byte) : (s.setRegB r v).psapOff = s.psapOff := by simp [State.setRegB]
@[simp] theorem setRegB_refresh (s : State) (r : RegNo) (v : Byte) : (s.setRegB r v).refresh = s.refresh := by simp [State.setRegB]
@[simp] theorem setRegB_skipped (s : State) (r : RegNo) (v : Byte) : (s.setRegB r v).skipped = s.skipped := by simp [State.setRegB]
@[simp] theorem setRegB_nmiLatch (s : State) (r : RegNo) (v : Byte) : (s.setRegB r v).nmiLatch = s.nmiLatch := by simp [State.setRegB]
@[simp] theorem setRegB_moActive (s : State) (r : RegNo) (v : Byte) : (s.setRegB r v).moActive = s.moActive := by simp [State.setRegB]
@[simp] theorem setRegB_cpuState (s : State) (r : RegNo) (v : Byte) : (s.setRegB r v).cpuState = s.cpuState := by simp [State.setRegB]
@[simp] theorem setRegB_halted (s : State) (r : RegNo) (v : Byte) : (s.setRegB r v).halted = s.halted := by simp [State.setRegB]
@[simp] theorem setRegB_resetDue (s : State) (r : RegNo) (v : Byte) : (s.setRegB r v).resetDue = s.resetDue := by simp [State.setRegB]
@[simp] theorem setRegB_heldWord (s : State) (r : RegNo) (v : Byte) : (s.setRegB r v).heldWord = s.heldWord := by simp [State.setRegB]
@[simp] theorem setRegB_sampleDue (s : State) (r : RegNo) (v : Byte) : (s.setRegB r v).sampleDue = s.sampleDue := by simp [State.setRegB]
@[simp] theorem setRegB_sampleVie (s : State) (r : RegNo) (v : Byte) : (s.setRegB r v).sampleVie = s.sampleVie := by simp [State.setRegB]
@[simp] theorem setRegB_sampleNvie (s : State) (r : RegNo) (v : Byte) : (s.setRegB r v).sampleNvie = s.sampleNvie := by simp [State.setRegB]
@[simp] theorem setRegB_mem (s : State) (r : RegNo) (v : Byte) : (s.setRegB r v).mem = s.mem := by simp [State.setRegB]
@[simp] theorem setRegB_busLog (s : State) (r : RegNo) (v : Byte) : (s.setRegB r v).busLog = s.busLog := by simp [State.setRegB]
@[simp] theorem setRegB_env (s : State) (r : RegNo) (v : Byte) : (s.setRegB r v).env = s.env := by simp [State.setRegB]
@[simp] theorem setRegB_draws (s : State) (r : RegNo) (v : Byte) : (s.setRegB r v).draws = s.draws := by simp [State.setRegB]
@[simp] theorem setRegB_isZ8001 (s : State) (r : RegNo) (v : Byte) : (s.setRegB r v).isZ8001 = s.isZ8001 := by simp [State.isZ8001]
@[simp] theorem setRegB_segmented (s : State) (r : RegNo) (v : Byte) : (s.setRegB r v).segmented = s.segmented := by simp [State.segmented, State.isZ8001]
@[simp] theorem setRegB_dataSp (s : State) (r : RegNo) (v : Byte) : (s.setRegB r v).dataSp = s.dataSp := by simp [State.dataSp]
@[simp] theorem setRegB_stackSp (s : State) (r : RegNo) (v : Byte) : (s.setRegB r v).stackSp = s.stackSp := by simp [State.stackSp]
@[simp] theorem setRegB_progSp (s : State) (r : RegNo) (v : Byte) : (s.setRegB r v).progSp = s.progSp := by simp [State.progSp]
@[simp] theorem setRegB_phys (s : State) (r : RegNo) (v : Byte) (q : RegNo) : (s.setRegB r v).phys q = s.phys q := by simp [State.phys, State.isZ8001]
@[simp] theorem setRegB_key (s : State) (r : RegNo) (v : Byte) (p : Space) (x : Addr) : (s.setRegB r v).key p x = s.key p x := by simp [State.key]

@[simp] theorem setRegL_params (s : State) (r : RegNo) (v : Long) : (s.setRegL r v).params = s.params := by simp [State.setRegL]
@[simp] theorem setRegL_fcw (s : State) (r : RegNo) (v : Long) : (s.setRegL r v).fcw = s.fcw := by simp [State.setRegL]
@[simp] theorem setRegL_pc (s : State) (r : RegNo) (v : Long) : (s.setRegL r v).pc = s.pc := by simp [State.setRegL]
@[simp] theorem setRegL_psapSeg (s : State) (r : RegNo) (v : Long) : (s.setRegL r v).psapSeg = s.psapSeg := by simp [State.setRegL]
@[simp] theorem setRegL_psapOff (s : State) (r : RegNo) (v : Long) : (s.setRegL r v).psapOff = s.psapOff := by simp [State.setRegL]
@[simp] theorem setRegL_refresh (s : State) (r : RegNo) (v : Long) : (s.setRegL r v).refresh = s.refresh := by simp [State.setRegL]
@[simp] theorem setRegL_skipped (s : State) (r : RegNo) (v : Long) : (s.setRegL r v).skipped = s.skipped := by simp [State.setRegL]
@[simp] theorem setRegL_nmiLatch (s : State) (r : RegNo) (v : Long) : (s.setRegL r v).nmiLatch = s.nmiLatch := by simp [State.setRegL]
@[simp] theorem setRegL_moActive (s : State) (r : RegNo) (v : Long) : (s.setRegL r v).moActive = s.moActive := by simp [State.setRegL]
@[simp] theorem setRegL_cpuState (s : State) (r : RegNo) (v : Long) : (s.setRegL r v).cpuState = s.cpuState := by simp [State.setRegL]
@[simp] theorem setRegL_halted (s : State) (r : RegNo) (v : Long) : (s.setRegL r v).halted = s.halted := by simp [State.setRegL]
@[simp] theorem setRegL_resetDue (s : State) (r : RegNo) (v : Long) : (s.setRegL r v).resetDue = s.resetDue := by simp [State.setRegL]
@[simp] theorem setRegL_heldWord (s : State) (r : RegNo) (v : Long) : (s.setRegL r v).heldWord = s.heldWord := by simp [State.setRegL]
@[simp] theorem setRegL_sampleDue (s : State) (r : RegNo) (v : Long) : (s.setRegL r v).sampleDue = s.sampleDue := by simp [State.setRegL]
@[simp] theorem setRegL_sampleVie (s : State) (r : RegNo) (v : Long) : (s.setRegL r v).sampleVie = s.sampleVie := by simp [State.setRegL]
@[simp] theorem setRegL_sampleNvie (s : State) (r : RegNo) (v : Long) : (s.setRegL r v).sampleNvie = s.sampleNvie := by simp [State.setRegL]
@[simp] theorem setRegL_mem (s : State) (r : RegNo) (v : Long) : (s.setRegL r v).mem = s.mem := by simp [State.setRegL]
@[simp] theorem setRegL_busLog (s : State) (r : RegNo) (v : Long) : (s.setRegL r v).busLog = s.busLog := by simp [State.setRegL]
@[simp] theorem setRegL_env (s : State) (r : RegNo) (v : Long) : (s.setRegL r v).env = s.env := by simp [State.setRegL]
@[simp] theorem setRegL_draws (s : State) (r : RegNo) (v : Long) : (s.setRegL r v).draws = s.draws := by simp [State.setRegL]
@[simp] theorem setRegL_isZ8001 (s : State) (r : RegNo) (v : Long) : (s.setRegL r v).isZ8001 = s.isZ8001 := by simp [State.isZ8001]
@[simp] theorem setRegL_segmented (s : State) (r : RegNo) (v : Long) : (s.setRegL r v).segmented = s.segmented := by simp [State.segmented, State.isZ8001]
@[simp] theorem setRegL_dataSp (s : State) (r : RegNo) (v : Long) : (s.setRegL r v).dataSp = s.dataSp := by simp [State.dataSp]
@[simp] theorem setRegL_stackSp (s : State) (r : RegNo) (v : Long) : (s.setRegL r v).stackSp = s.stackSp := by simp [State.stackSp]
@[simp] theorem setRegL_progSp (s : State) (r : RegNo) (v : Long) : (s.setRegL r v).progSp = s.progSp := by simp [State.progSp]
@[simp] theorem setRegL_phys (s : State) (r : RegNo) (v : Long) (q : RegNo) : (s.setRegL r v).phys q = s.phys q := by simp [State.phys, State.isZ8001]
@[simp] theorem setRegL_key (s : State) (r : RegNo) (v : Long) (p : Space) (x : Addr) : (s.setRegL r v).key p x = s.key p x := by simp [State.key]

@[simp] theorem setRegQ_params (s : State) (r : RegNo) (v : Quad) : (s.setRegQ r v).params = s.params := by simp [State.setRegQ]
@[simp] theorem setRegQ_fcw (s : State) (r : RegNo) (v : Quad) : (s.setRegQ r v).fcw = s.fcw := by simp [State.setRegQ]
@[simp] theorem setRegQ_pc (s : State) (r : RegNo) (v : Quad) : (s.setRegQ r v).pc = s.pc := by simp [State.setRegQ]
@[simp] theorem setRegQ_psapSeg (s : State) (r : RegNo) (v : Quad) : (s.setRegQ r v).psapSeg = s.psapSeg := by simp [State.setRegQ]
@[simp] theorem setRegQ_psapOff (s : State) (r : RegNo) (v : Quad) : (s.setRegQ r v).psapOff = s.psapOff := by simp [State.setRegQ]
@[simp] theorem setRegQ_refresh (s : State) (r : RegNo) (v : Quad) : (s.setRegQ r v).refresh = s.refresh := by simp [State.setRegQ]
@[simp] theorem setRegQ_skipped (s : State) (r : RegNo) (v : Quad) : (s.setRegQ r v).skipped = s.skipped := by simp [State.setRegQ]
@[simp] theorem setRegQ_nmiLatch (s : State) (r : RegNo) (v : Quad) : (s.setRegQ r v).nmiLatch = s.nmiLatch := by simp [State.setRegQ]
@[simp] theorem setRegQ_moActive (s : State) (r : RegNo) (v : Quad) : (s.setRegQ r v).moActive = s.moActive := by simp [State.setRegQ]
@[simp] theorem setRegQ_cpuState (s : State) (r : RegNo) (v : Quad) : (s.setRegQ r v).cpuState = s.cpuState := by simp [State.setRegQ]
@[simp] theorem setRegQ_halted (s : State) (r : RegNo) (v : Quad) : (s.setRegQ r v).halted = s.halted := by simp [State.setRegQ]
@[simp] theorem setRegQ_resetDue (s : State) (r : RegNo) (v : Quad) : (s.setRegQ r v).resetDue = s.resetDue := by simp [State.setRegQ]
@[simp] theorem setRegQ_heldWord (s : State) (r : RegNo) (v : Quad) : (s.setRegQ r v).heldWord = s.heldWord := by simp [State.setRegQ]
@[simp] theorem setRegQ_sampleDue (s : State) (r : RegNo) (v : Quad) : (s.setRegQ r v).sampleDue = s.sampleDue := by simp [State.setRegQ]
@[simp] theorem setRegQ_sampleVie (s : State) (r : RegNo) (v : Quad) : (s.setRegQ r v).sampleVie = s.sampleVie := by simp [State.setRegQ]
@[simp] theorem setRegQ_sampleNvie (s : State) (r : RegNo) (v : Quad) : (s.setRegQ r v).sampleNvie = s.sampleNvie := by simp [State.setRegQ]
@[simp] theorem setRegQ_mem (s : State) (r : RegNo) (v : Quad) : (s.setRegQ r v).mem = s.mem := by simp [State.setRegQ]
@[simp] theorem setRegQ_busLog (s : State) (r : RegNo) (v : Quad) : (s.setRegQ r v).busLog = s.busLog := by simp [State.setRegQ]
@[simp] theorem setRegQ_env (s : State) (r : RegNo) (v : Quad) : (s.setRegQ r v).env = s.env := by simp [State.setRegQ]
@[simp] theorem setRegQ_draws (s : State) (r : RegNo) (v : Quad) : (s.setRegQ r v).draws = s.draws := by simp [State.setRegQ]
@[simp] theorem setRegQ_isZ8001 (s : State) (r : RegNo) (v : Quad) : (s.setRegQ r v).isZ8001 = s.isZ8001 := by simp [State.isZ8001]
@[simp] theorem setRegQ_segmented (s : State) (r : RegNo) (v : Quad) : (s.setRegQ r v).segmented = s.segmented := by simp [State.segmented, State.isZ8001]
@[simp] theorem setRegQ_dataSp (s : State) (r : RegNo) (v : Quad) : (s.setRegQ r v).dataSp = s.dataSp := by simp [State.dataSp]
@[simp] theorem setRegQ_stackSp (s : State) (r : RegNo) (v : Quad) : (s.setRegQ r v).stackSp = s.stackSp := by simp [State.stackSp]
@[simp] theorem setRegQ_progSp (s : State) (r : RegNo) (v : Quad) : (s.setRegQ r v).progSp = s.progSp := by simp [State.progSp]
@[simp] theorem setRegQ_phys (s : State) (r : RegNo) (v : Quad) (q : RegNo) : (s.setRegQ r v).phys q = s.phys q := by simp [State.phys, State.isZ8001]
@[simp] theorem setRegQ_key (s : State) (r : RegNo) (v : Quad) (p : Space) (x : Addr) : (s.setRegQ r v).key p x = s.key p x := by simp [State.key]

@[simp] theorem setReg_params (s : State) {n : Nat} (r : RegNo) (v : BitVec n) : (s.setReg r v).params = s.params := by
  unfold State.setReg; (repeat' split) <;> simp
@[simp] theorem setReg_fcw (s : State) {n : Nat} (r : RegNo) (v : BitVec n) : (s.setReg r v).fcw = s.fcw := by
  unfold State.setReg; (repeat' split) <;> simp
@[simp] theorem setReg_pc (s : State) {n : Nat} (r : RegNo) (v : BitVec n) : (s.setReg r v).pc = s.pc := by
  unfold State.setReg; (repeat' split) <;> simp
@[simp] theorem setReg_psapSeg (s : State) {n : Nat} (r : RegNo) (v : BitVec n) : (s.setReg r v).psapSeg = s.psapSeg := by
  unfold State.setReg; (repeat' split) <;> simp
@[simp] theorem setReg_psapOff (s : State) {n : Nat} (r : RegNo) (v : BitVec n) : (s.setReg r v).psapOff = s.psapOff := by
  unfold State.setReg; (repeat' split) <;> simp
@[simp] theorem setReg_refresh (s : State) {n : Nat} (r : RegNo) (v : BitVec n) : (s.setReg r v).refresh = s.refresh := by
  unfold State.setReg; (repeat' split) <;> simp
@[simp] theorem setReg_skipped (s : State) {n : Nat} (r : RegNo) (v : BitVec n) : (s.setReg r v).skipped = s.skipped := by
  unfold State.setReg; (repeat' split) <;> simp
@[simp] theorem setReg_nmiLatch (s : State) {n : Nat} (r : RegNo) (v : BitVec n) : (s.setReg r v).nmiLatch = s.nmiLatch := by
  unfold State.setReg; (repeat' split) <;> simp
@[simp] theorem setReg_moActive (s : State) {n : Nat} (r : RegNo) (v : BitVec n) : (s.setReg r v).moActive = s.moActive := by
  unfold State.setReg; (repeat' split) <;> simp
@[simp] theorem setReg_cpuState (s : State) {n : Nat} (r : RegNo) (v : BitVec n) : (s.setReg r v).cpuState = s.cpuState := by
  unfold State.setReg; (repeat' split) <;> simp
@[simp] theorem setReg_halted (s : State) {n : Nat} (r : RegNo) (v : BitVec n) : (s.setReg r v).halted = s.halted := by
  unfold State.setReg; (repeat' split) <;> simp
@[simp] theorem setReg_resetDue (s : State) {n : Nat} (r : RegNo) (v : BitVec n) : (s.setReg r v).resetDue = s.resetDue := by
  unfold State.setReg; (repeat' split) <;> simp
@[simp] theorem setReg_heldWord (s : State) {n : Nat} (r : RegNo) (v : BitVec n) : (s.setReg r v).heldWord = s.heldWord := by
  unfold State.setReg; (repeat' split) <;> simp
@[simp] theorem setReg_sampleDue (s : State) {n : Nat} (r : RegNo) (v : BitVec n) : (s.setReg r v).sampleDue = s.sampleDue := by
  unfold State.setReg; (repeat' split) <;> simp
@[simp] theorem setReg_sampleVie (s : State) {n : Nat} (r : RegNo) (v : BitVec n) : (s.setReg r v).sampleVie = s.sampleVie := by
  unfold State.setReg; (repeat' split) <;> simp
@[simp] theorem setReg_sampleNvie (s : State) {n : Nat} (r : RegNo) (v : BitVec n) : (s.setReg r v).sampleNvie = s.sampleNvie := by
  unfold State.setReg; (repeat' split) <;> simp
@[simp] theorem setReg_mem (s : State) {n : Nat} (r : RegNo) (v : BitVec n) : (s.setReg r v).mem = s.mem := by
  unfold State.setReg; (repeat' split) <;> simp
@[simp] theorem setReg_busLog (s : State) {n : Nat} (r : RegNo) (v : BitVec n) : (s.setReg r v).busLog = s.busLog := by
  unfold State.setReg; (repeat' split) <;> simp
@[simp] theorem setReg_env (s : State) {n : Nat} (r : RegNo) (v : BitVec n) : (s.setReg r v).env = s.env := by
  unfold State.setReg; (repeat' split) <;> simp
@[simp] theorem setReg_draws (s : State) {n : Nat} (r : RegNo) (v : BitVec n) : (s.setReg r v).draws = s.draws := by
  unfold State.setReg; (repeat' split) <;> simp
@[simp] theorem setReg_isZ8001 (s : State) {n : Nat} (r : RegNo) (v : BitVec n) : (s.setReg r v).isZ8001 = s.isZ8001 := by simp [State.isZ8001]
@[simp] theorem setReg_segmented (s : State) {n : Nat} (r : RegNo) (v : BitVec n) : (s.setReg r v).segmented = s.segmented := by simp [State.segmented, State.isZ8001]
@[simp] theorem setReg_dataSp (s : State) {n : Nat} (r : RegNo) (v : BitVec n) : (s.setReg r v).dataSp = s.dataSp := by simp [State.dataSp]
@[simp] theorem setReg_stackSp (s : State) {n : Nat} (r : RegNo) (v : BitVec n) : (s.setReg r v).stackSp = s.stackSp := by simp [State.stackSp]
@[simp] theorem setReg_progSp (s : State) {n : Nat} (r : RegNo) (v : BitVec n) : (s.setReg r v).progSp = s.progSp := by simp [State.progSp]
@[simp] theorem setReg_phys (s : State) {n : Nat} (r : RegNo) (v : BitVec n) (q : RegNo) : (s.setReg r v).phys q = s.phys q := by simp [State.phys, State.isZ8001]
@[simp] theorem setReg_key (s : State) {n : Nat} (r : RegNo) (v : BitVec n) (p : Space) (x : Addr) : (s.setReg r v).key p x = s.key p x := by simp [State.key]

@[simp] theorem setRegRun_params (s : State) (r : RegNo) (ws : List Word) : (s.setRegRun r ws).params = s.params := by
  induction ws generalizing s r <;> simp [State.setRegRun, *]
@[simp] theorem setRegRun_fcw (s : State) (r : RegNo) (ws : List Word) : (s.setRegRun r ws).fcw = s.fcw := by
  induction ws generalizing s r <;> simp [State.setRegRun, *]
@[simp] theorem setRegRun_pc (s : State) (r : RegNo) (ws : List Word) : (s.setRegRun r ws).pc = s.pc := by
  induction ws generalizing s r <;> simp [State.setRegRun, *]
@[simp] theorem setRegRun_psapSeg (s : State) (r : RegNo) (ws : List Word) : (s.setRegRun r ws).psapSeg = s.psapSeg := by
  induction ws generalizing s r <;> simp [State.setRegRun, *]
@[simp] theorem setRegRun_psapOff (s : State) (r : RegNo) (ws : List Word) : (s.setRegRun r ws).psapOff = s.psapOff := by
  induction ws generalizing s r <;> simp [State.setRegRun, *]
@[simp] theorem setRegRun_refresh (s : State) (r : RegNo) (ws : List Word) : (s.setRegRun r ws).refresh = s.refresh := by
  induction ws generalizing s r <;> simp [State.setRegRun, *]
@[simp] theorem setRegRun_skipped (s : State) (r : RegNo) (ws : List Word) : (s.setRegRun r ws).skipped = s.skipped := by
  induction ws generalizing s r <;> simp [State.setRegRun, *]
@[simp] theorem setRegRun_nmiLatch (s : State) (r : RegNo) (ws : List Word) : (s.setRegRun r ws).nmiLatch = s.nmiLatch := by
  induction ws generalizing s r <;> simp [State.setRegRun, *]
@[simp] theorem setRegRun_moActive (s : State) (r : RegNo) (ws : List Word) : (s.setRegRun r ws).moActive = s.moActive := by
  induction ws generalizing s r <;> simp [State.setRegRun, *]
@[simp] theorem setRegRun_cpuState (s : State) (r : RegNo) (ws : List Word) : (s.setRegRun r ws).cpuState = s.cpuState := by
  induction ws generalizing s r <;> simp [State.setRegRun, *]
@[simp] theorem setRegRun_halted (s : State) (r : RegNo) (ws : List Word) : (s.setRegRun r ws).halted = s.halted := by
  induction ws generalizing s r <;> simp [State.setRegRun, *]
@[simp] theorem setRegRun_resetDue (s : State) (r : RegNo) (ws : List Word) : (s.setRegRun r ws).resetDue = s.resetDue := by
  induction ws generalizing s r <;> simp [State.setRegRun, *]
@[simp] theorem setRegRun_heldWord (s : State) (r : RegNo) (ws : List Word) : (s.setRegRun r ws).heldWord = s.heldWord := by
  induction ws generalizing s r <;> simp [State.setRegRun, *]
@[simp] theorem setRegRun_sampleDue (s : State) (r : RegNo) (ws : List Word) : (s.setRegRun r ws).sampleDue = s.sampleDue := by
  induction ws generalizing s r <;> simp [State.setRegRun, *]
@[simp] theorem setRegRun_sampleVie (s : State) (r : RegNo) (ws : List Word) : (s.setRegRun r ws).sampleVie = s.sampleVie := by
  induction ws generalizing s r <;> simp [State.setRegRun, *]
@[simp] theorem setRegRun_sampleNvie (s : State) (r : RegNo) (ws : List Word) : (s.setRegRun r ws).sampleNvie = s.sampleNvie := by
  induction ws generalizing s r <;> simp [State.setRegRun, *]
@[simp] theorem setRegRun_mem (s : State) (r : RegNo) (ws : List Word) : (s.setRegRun r ws).mem = s.mem := by
  induction ws generalizing s r <;> simp [State.setRegRun, *]
@[simp] theorem setRegRun_busLog (s : State) (r : RegNo) (ws : List Word) : (s.setRegRun r ws).busLog = s.busLog := by
  induction ws generalizing s r <;> simp [State.setRegRun, *]
@[simp] theorem setRegRun_env (s : State) (r : RegNo) (ws : List Word) : (s.setRegRun r ws).env = s.env := by
  induction ws generalizing s r <;> simp [State.setRegRun, *]
@[simp] theorem setRegRun_draws (s : State) (r : RegNo) (ws : List Word) : (s.setRegRun r ws).draws = s.draws := by
  induction ws generalizing s r <;> simp [State.setRegRun, *]
@[simp] theorem setRegRun_isZ8001 (s : State) (r : RegNo) (ws : List Word) : (s.setRegRun r ws).isZ8001 = s.isZ8001 := by simp [State.isZ8001]
@[simp] theorem setRegRun_segmented (s : State) (r : RegNo) (ws : List Word) : (s.setRegRun r ws).segmented = s.segmented := by simp [State.segmented, State.isZ8001]
@[simp] theorem setRegRun_dataSp (s : State) (r : RegNo) (ws : List Word) : (s.setRegRun r ws).dataSp = s.dataSp := by simp [State.dataSp]
@[simp] theorem setRegRun_stackSp (s : State) (r : RegNo) (ws : List Word) : (s.setRegRun r ws).stackSp = s.stackSp := by simp [State.stackSp]
@[simp] theorem setRegRun_progSp (s : State) (r : RegNo) (ws : List Word) : (s.setRegRun r ws).progSp = s.progSp := by simp [State.progSp]
@[simp] theorem setRegRun_phys (s : State) (r : RegNo) (ws : List Word) (q : RegNo) : (s.setRegRun r ws).phys q = s.phys q := by simp [State.phys, State.isZ8001]
@[simp] theorem setRegRun_key (s : State) (r : RegNo) (ws : List Word) (p : Space) (x : Addr) : (s.setRegRun r ws).key p x = s.key p x := by simp [State.key]

@[simp] theorem stepReg_params (s : State) (r : RegNo) (k : Word) : (s.stepReg r k).params = s.params := by simp [State.stepReg]
@[simp] theorem stepReg_fcw (s : State) (r : RegNo) (k : Word) : (s.stepReg r k).fcw = s.fcw := by simp [State.stepReg]
@[simp] theorem stepReg_pc (s : State) (r : RegNo) (k : Word) : (s.stepReg r k).pc = s.pc := by simp [State.stepReg]
@[simp] theorem stepReg_psapSeg (s : State) (r : RegNo) (k : Word) : (s.stepReg r k).psapSeg = s.psapSeg := by simp [State.stepReg]
@[simp] theorem stepReg_psapOff (s : State) (r : RegNo) (k : Word) : (s.stepReg r k).psapOff = s.psapOff := by simp [State.stepReg]
@[simp] theorem stepReg_refresh (s : State) (r : RegNo) (k : Word) : (s.stepReg r k).refresh = s.refresh := by simp [State.stepReg]
@[simp] theorem stepReg_skipped (s : State) (r : RegNo) (k : Word) : (s.stepReg r k).skipped = s.skipped := by simp [State.stepReg]
@[simp] theorem stepReg_nmiLatch (s : State) (r : RegNo) (k : Word) : (s.stepReg r k).nmiLatch = s.nmiLatch := by simp [State.stepReg]
@[simp] theorem stepReg_moActive (s : State) (r : RegNo) (k : Word) : (s.stepReg r k).moActive = s.moActive := by simp [State.stepReg]
@[simp] theorem stepReg_cpuState (s : State) (r : RegNo) (k : Word) : (s.stepReg r k).cpuState = s.cpuState := by simp [State.stepReg]
@[simp] theorem stepReg_halted (s : State) (r : RegNo) (k : Word) : (s.stepReg r k).halted = s.halted := by simp [State.stepReg]
@[simp] theorem stepReg_resetDue (s : State) (r : RegNo) (k : Word) : (s.stepReg r k).resetDue = s.resetDue := by simp [State.stepReg]
@[simp] theorem stepReg_heldWord (s : State) (r : RegNo) (k : Word) : (s.stepReg r k).heldWord = s.heldWord := by simp [State.stepReg]
@[simp] theorem stepReg_sampleDue (s : State) (r : RegNo) (k : Word) : (s.stepReg r k).sampleDue = s.sampleDue := by simp [State.stepReg]
@[simp] theorem stepReg_sampleVie (s : State) (r : RegNo) (k : Word) : (s.stepReg r k).sampleVie = s.sampleVie := by simp [State.stepReg]
@[simp] theorem stepReg_sampleNvie (s : State) (r : RegNo) (k : Word) : (s.stepReg r k).sampleNvie = s.sampleNvie := by simp [State.stepReg]
@[simp] theorem stepReg_mem (s : State) (r : RegNo) (k : Word) : (s.stepReg r k).mem = s.mem := by simp [State.stepReg]
@[simp] theorem stepReg_busLog (s : State) (r : RegNo) (k : Word) : (s.stepReg r k).busLog = s.busLog := by simp [State.stepReg]
@[simp] theorem stepReg_env (s : State) (r : RegNo) (k : Word) : (s.stepReg r k).env = s.env := by simp [State.stepReg]
@[simp] theorem stepReg_draws (s : State) (r : RegNo) (k : Word) : (s.stepReg r k).draws = s.draws := by simp [State.stepReg]
@[simp] theorem stepReg_isZ8001 (s : State) (r : RegNo) (k : Word) : (s.stepReg r k).isZ8001 = s.isZ8001 := by simp [State.isZ8001]
@[simp] theorem stepReg_segmented (s : State) (r : RegNo) (k : Word) : (s.stepReg r k).segmented = s.segmented := by simp [State.segmented, State.isZ8001]
@[simp] theorem stepReg_dataSp (s : State) (r : RegNo) (k : Word) : (s.stepReg r k).dataSp = s.dataSp := by simp [State.dataSp]
@[simp] theorem stepReg_stackSp (s : State) (r : RegNo) (k : Word) : (s.stepReg r k).stackSp = s.stackSp := by simp [State.stackSp]
@[simp] theorem stepReg_progSp (s : State) (r : RegNo) (k : Word) : (s.stepReg r k).progSp = s.progSp := by simp [State.progSp]
@[simp] theorem stepReg_phys (s : State) (r : RegNo) (k : Word) (q : RegNo) : (s.stepReg r k).phys q = s.phys q := by simp [State.phys, State.isZ8001]
@[simp] theorem stepReg_key (s : State) (r : RegNo) (k : Word) (p : Space) (x : Addr) : (s.stepReg r k).key p x = s.key p x := by simp [State.key]

@[simp] theorem countDown_params (s : State) (r : RegNo) : (s.countDown r).params = s.params := by simp [State.countDown]
@[simp] theorem countDown_fcw (s : State) (r : RegNo) : (s.countDown r).fcw = s.fcw := by simp [State.countDown]
@[simp] theorem countDown_pc (s : State) (r : RegNo) : (s.countDown r).pc = s.pc := by simp [State.countDown]
@[simp] theorem countDown_psapSeg (s : State) (r : RegNo) : (s.countDown r).psapSeg = s.psapSeg := by simp [State.countDown]
@[simp] theorem countDown_psapOff (s : State) (r : RegNo) : (s.countDown r).psapOff = s.psapOff := by simp [State.countDown]
@[simp] theorem countDown_refresh (s : State) (r : RegNo) : (s.countDown r).refresh = s.refresh := by simp [State.countDown]
@[simp] theorem countDown_skipped (s : State) (r : RegNo) : (s.countDown r).skipped = s.skipped := by simp [State.countDown]
@[simp] theorem countDown_nmiLatch (s : State) (r : RegNo) : (s.countDown r).nmiLatch = s.nmiLatch := by simp [State.countDown]
@[simp] theorem countDown_moActive (s : State) (r : RegNo) : (s.countDown r).moActive = s.moActive := by simp [State.countDown]
@[simp] theorem countDown_cpuState (s : State) (r : RegNo) : (s.countDown r).cpuState = s.cpuState := by simp [State.countDown]
@[simp] theorem countDown_halted (s : State) (r : RegNo) : (s.countDown r).halted = s.halted := by simp [State.countDown]
@[simp] theorem countDown_resetDue (s : State) (r : RegNo) : (s.countDown r).resetDue = s.resetDue := by simp [State.countDown]
@[simp] theorem countDown_heldWord (s : State) (r : RegNo) : (s.countDown r).heldWord = s.heldWord := by simp [State.countDown]
@[simp] theorem countDown_sampleDue (s : State) (r : RegNo) : (s.countDown r).sampleDue = s.sampleDue := by simp [State.countDown]
@[simp] theorem countDown_sampleVie (s : State) (r : RegNo) : (s.countDown r).sampleVie = s.sampleVie := by simp [State.countDown]
@[simp] theorem countDown_sampleNvie (s : State) (r : RegNo) : (s.countDown r).sampleNvie = s.sampleNvie := by simp [State.countDown]
@[simp] theorem countDown_mem (s : State) (r : RegNo) : (s.countDown r).mem = s.mem := by simp [State.countDown]
@[simp] theorem countDown_busLog (s : State) (r : RegNo) : (s.countDown r).busLog = s.busLog := by simp [State.countDown]
@[simp] theorem countDown_env (s : State) (r : RegNo) : (s.countDown r).env = s.env := by simp [State.countDown]
@[simp] theorem countDown_draws (s : State) (r : RegNo) : (s.countDown r).draws = s.draws := by simp [State.countDown]
@[simp] theorem countDown_isZ8001 (s : State) (r : RegNo) : (s.countDown r).isZ8001 = s.isZ8001 := by simp [State.isZ8001]
@[simp] theorem countDown_segmented (s : State) (r : RegNo) : (s.countDown r).segmented = s.segmented := by simp [State.segmented, State.isZ8001]
@[simp] theorem countDown_dataSp (s : State) (r : RegNo) : (s.countDown r).dataSp = s.dataSp := by simp [State.dataSp]
@[simp] theorem countDown_stackSp (s : State) (r : RegNo) : (s.countDown r).stackSp = s.stackSp := by simp [State.stackSp]
@[simp] theorem countDown_progSp (s : State) (r : RegNo) : (s.countDown r).progSp = s.progSp := by simp [State.progSp]
@[simp] theorem countDown_phys (s : State) (r : RegNo) (q : RegNo) : (s.countDown r).phys q = s.phys q := by simp [State.phys, State.isZ8001]
@[simp] theorem countDown_key (s : State) (r : RegNo) (p : Space) (x : Addr) : (s.countDown r).key p x = s.key p x := by simp [State.key]

@[simp] theorem blockPc_params (s : State) (b : Bool) : (s.blockPc b).params = s.params := by
  unfold State.blockPc; split <;> simp
@[simp] theorem blockPc_regs (s : State) (b : Bool) : (s.blockPc b).regs = s.regs := by
  unfold State.blockPc; split <;> simp
@[simp] theorem blockPc_fcw (s : State) (b : Bool) : (s.blockPc b).fcw = s.fcw := by
  unfold State.blockPc; split <;> simp
@[simp] theorem blockPc_psapSeg (s : State) (b : Bool) : (s.blockPc b).psapSeg = s.psapSeg := by
  unfold State.blockPc; split <;> simp
@[simp] theorem blockPc_psapOff (s : State) (b : Bool) : (s.blockPc b).psapOff = s.psapOff := by
  unfold State.blockPc; split <;> simp
@[simp] theorem blockPc_refresh (s : State) (b : Bool) : (s.blockPc b).refresh = s.refresh := by
  unfold State.blockPc; split <;> simp
@[simp] theorem blockPc_skipped (s : State) (b : Bool) : (s.blockPc b).skipped = s.skipped := by
  unfold State.blockPc; split <;> simp
@[simp] theorem blockPc_nmiLatch (s : State) (b : Bool) : (s.blockPc b).nmiLatch = s.nmiLatch := by
  unfold State.blockPc; split <;> simp
@[simp] theorem blockPc_moActive (s : State) (b : Bool) : (s.blockPc b).moActive = s.moActive := by
  unfold State.blockPc; split <;> simp
@[simp] theorem blockPc_cpuState (s : State) (b : Bool) : (s.blockPc b).cpuState = s.cpuState := by
  unfold State.blockPc; split <;> simp
@[simp] theorem blockPc_halted (s : State) (b : Bool) : (s.blockPc b).halted = s.halted := by
  unfold State.blockPc; split <;> simp
@[simp] theorem blockPc_resetDue (s : State) (b : Bool) : (s.blockPc b).resetDue = s.resetDue := by
  unfold State.blockPc; split <;> simp
@[simp] theorem blockPc_heldWord (s : State) (b : Bool) : (s.blockPc b).heldWord = s.heldWord := by
  unfold State.blockPc; split <;> simp
@[simp] theorem blockPc_sampleDue (s : State) (b : Bool) : (s.blockPc b).sampleDue = s.sampleDue := by
  unfold State.blockPc; split <;> simp
@[simp] theorem blockPc_sampleVie (s : State) (b : Bool) : (s.blockPc b).sampleVie = s.sampleVie := by
  unfold State.blockPc; split <;> simp
@[simp] theorem blockPc_sampleNvie (s : State) (b : Bool) : (s.blockPc b).sampleNvie = s.sampleNvie := by
  unfold State.blockPc; split <;> simp
@[simp] theorem blockPc_mem (s : State) (b : Bool) : (s.blockPc b).mem = s.mem := by
  unfold State.blockPc; split <;> simp
@[simp] theorem blockPc_busLog (s : State) (b : Bool) : (s.blockPc b).busLog = s.busLog := by
  unfold State.blockPc; split <;> simp
@[simp] theorem blockPc_env (s : State) (b : Bool) : (s.blockPc b).env = s.env := by
  unfold State.blockPc; split <;> simp
@[simp] theorem blockPc_draws (s : State) (b : Bool) : (s.blockPc b).draws = s.draws := by
  unfold State.blockPc; split <;> simp
@[simp] theorem blockPc_isZ8001 (s : State) (b : Bool) : (s.blockPc b).isZ8001 = s.isZ8001 := by simp [State.isZ8001]
@[simp] theorem blockPc_segmented (s : State) (b : Bool) : (s.blockPc b).segmented = s.segmented := by simp [State.segmented, State.isZ8001]
@[simp] theorem blockPc_dataSp (s : State) (b : Bool) : (s.blockPc b).dataSp = s.dataSp := by simp [State.dataSp]
@[simp] theorem blockPc_stackSp (s : State) (b : Bool) : (s.blockPc b).stackSp = s.stackSp := by simp [State.stackSp]
@[simp] theorem blockPc_progSp (s : State) (b : Bool) : (s.blockPc b).progSp = s.progSp := by simp [State.progSp]
@[simp] theorem blockPc_phys (s : State) (b : Bool) (q : RegNo) : (s.blockPc b).phys q = s.phys q := by simp [State.phys, State.isZ8001]
@[simp] theorem blockPc_key (s : State) (b : Bool) (p : Space) (x : Addr) : (s.blockPc b).key p x = s.key p x := by simp [State.key]

end Sys2Proof.Machine
end

