-- ==== Sys2Proof/Laws/Memory.lean ====
section
/-!
SUPPORT. Sys2Proof/Laws/Memory.lean: what reading after writing gives, which bytes a write leaves alone, and that
every memory operation keeps the canonical form (20_memory.md R65, R66).
-/
namespace Sys2Proof.Machine

/-! ## The list of cells -/

theorem memRead_erase (m : List Host.Cell) (k j : Nat) :
    memRead (memErase m k) j = if j = k then unlistedByte else memRead m j := by
  induction m with
  | nil => simp [memErase, memRead]
  | cons c m ih =>
    obtain ⟨a, w⟩ := c
    by_cases h : a = k
    · subst h
      have : memErase ((a, w) :: m) a = memErase m a := by simp [memErase]
      rw [this, ih, memRead]; split <;> simp_all [eq_comm]
    · have : memErase ((a, w) :: m) k = (a, w) :: memErase m k := by simp [memErase, h]
      rw [this, memRead, memRead, ih]; split <;> simp_all

theorem memRead_insert (m : List Host.Cell) (k j : Nat) (v : Byte) (h : ∀ c ∈ m, c.1 ≠ k) :
    memRead (memInsert m k v) j = if j = k then v else memRead m j := by
  induction m with
  | nil => simp [memInsert, memRead, eq_comm]
  | cons c m ih =>
    obtain ⟨a, w⟩ := c
    simp only [List.mem_cons, forall_eq_or_imp] at h
    rw [memInsert]
    split
    · rw [memRead]; simp only [eq_comm]
    · rw [memRead, memRead, ih h.2]; split <;> simp_all

theorem mem_erase_ne (m : List Host.Cell) (k : Nat) : ∀ c ∈ memErase m k, c.1 ≠ k := by
  intro c hc; simpa [memErase] using (List.mem_filter.mp hc).2

theorem memRead_write (m : List Host.Cell) (k j : Nat) (v : Byte) :
    memRead (memWrite m k v) j = if j = k then v else memRead m j := by
  unfold memWrite; split
  · next h => rw [memRead_erase, h]
  · rw [memRead_insert _ _ _ _ (mem_erase_ne m k), memRead_erase]; split <;> simp_all

theorem wf_erase {m : List Host.Cell} (k : Nat) (h : Memory.wf m) : Memory.wf (memErase m k) :=
  ⟨h.1.filter _, fun c hc => h.2 c ((List.mem_filter.mp hc).1)⟩

theorem mem_insert (m : List Host.Cell) (k : Nat) (v : Byte) (c : Host.Cell) :
    c ∈ memInsert m k v ↔ c = (k, v) ∨ c ∈ m := by
  induction m with
  | nil => simp [memInsert]
  | cons d m ih =>
    obtain ⟨a, w⟩ := d
    rw [memInsert]; split
    · simp
    · simp [ih, or_left_comm]

theorem wf_insert {m : List Host.Cell} (k : Nat) (v : Byte) (hv : v ≠ unlistedByte) (hk : ∀ c ∈ m, c.1 ≠ k)
    (h : Memory.wf m) : Memory.wf (memInsert m k v) := by
  refine ⟨?_, fun c hc => ?_⟩
  · obtain ⟨hp, -⟩ := h
    induction m with
    | nil => simp [memInsert]
    | cons d m ih =>
      obtain ⟨a, w⟩ := d
      simp only [List.pairwise_cons, List.mem_cons, forall_eq_or_imp] at hp hk
      rw [memInsert]; split
      · next hlt =>
        simp only [List.pairwise_cons, List.mem_cons, forall_eq_or_imp]
        exact ⟨⟨hlt, fun c hc => Nat.lt_trans hlt (hp.1 c hc)⟩, hp⟩
      · next hlt =>
        simp only [List.pairwise_cons]
        refine ⟨fun c hc => ?_, ih hk.2 hp.2⟩
        rcases (mem_insert m k v c).mp hc with rfl | hc
        · have := hk.1; simp at *; omega
        · exact hp.1 c hc
  · rcases (mem_insert m k v c).mp hc with rfl | hc
    · exact hv
    · exact h.2 c hc

/-- A store keeps the canonical form. -/
theorem wf_write {m : List Host.Cell} (k : Nat) (v : Byte) (h : Memory.wf m) : Memory.wf (memWrite m k v) := by
  unfold memWrite; split
  · exact wf_erase k h
  · next hv => exact wf_insert k v hv (mem_erase_ne m k) (wf_erase k h)

/-- The stores of other bus masters keep it. -/
theorem wf_foldl_write (ws : List Host.Cell) {m : List Host.Cell} (h : Memory.wf m) :
    Memory.wf (ws.foldl (fun m c => memWrite m c.1 c.2) m) := by
  induction ws generalizing m with
  | nil => exact h
  | cons c ws ih => exact ih (wf_write c.1 c.2 h)

/-- Memory after reset has the canonical form. -/
theorem reset_mem_wf : Memory.wf State.reset.mem := ⟨List.Pairwise.nil, by simp [State.reset]⟩

/-! ## Addresses -/

@[simp] theorem plus_zero (a : Addr) : a.plus 0#16 = a := by simp [Addr.plus]
@[simp] theorem plus_seg (a : Addr) (i : Word) : (a.plus i).seg = a.seg := rfl
@[simp] theorem plus_off (a : Addr) (i : Word) : (a.plus i).off = a.off + i := rfl
theorem plus_plus (a : Addr) (i j : Word) : (a.plus i).plus j = a.plus (i + j) := by
  simp [Addr.plus, BitVec.add_assoc]
@[simp] theorem plus_inj (a : Addr) (i j : Word) : a.plus i = a.plus j ↔ i = j := by
  simp [Addr.plus]

/-- Word j of a run that begins one word on. -/
theorem plus_two (a : Addr) (j : Nat) : (a.plus 2#16).plus (BitVec.ofNat 16 (2 * j)) =
    a.plus (BitVec.ofNat 16 (2 * (j + 1))) := by
  rw [plus_plus, Nat.mul_succ, Nat.add_comm, BitVec.ofNat_add]

/-- As `plus_two`, downward. -/
theorem plus_neg_two (a : Addr) (k : Nat) : (a.plus (-2#16)).plus (-(BitVec.ofNat 16 k)) =
    a.plus (-(BitVec.ofNat 16 (k + 2))) := by
  rw [plus_plus, BitVec.ofNat_add]; congr 1; bv_omega

/-- Two places have one key only if storage and address agree. -/
theorem key_inj (s : State) (sp sp' : Space) (a b : Addr) :
    s.key sp a = s.key sp' b ↔ storageOf s.params.spaceMap sp = storageOf s.params.spaceMap sp' ∧ a = b := by
  obtain ⟨sa, oa⟩ := a
  obtain ⟨sb, ob⟩ := b
  constructor
  · intro h
    have h1 := sa.isLt; have h2 := sb.isLt; have h3 := oa.isLt; have h4 := ob.isLt
    simp only [State.key] at h
    simp only [Addr.mk.injEq, BitVec.toNat_eq]
    omega
  · rintro ⟨h, he⟩; injection he with h1 h2; simp only [State.key, h, h1, h2]

/-! ## Bytes -/

theorem byteAt_congr {s t : State} (hm : t.mem = s.mem) (hp : t.params = s.params) (sp : Space) (a : Addr) :
    t.byteAt sp a = s.byteAt sp a := by
  simp only [State.byteAt, State.key, hm, hp]

theorem wordAt_congr {s t : State} (hm : t.mem = s.mem) (hp : t.params = s.params) (sp : Space) (a : Addr) :
    t.wordAt sp a = s.wordAt sp a := by
  simp only [State.wordAt, byteAt_congr hm hp]

theorem longAt_congr {s t : State} (hm : t.mem = s.mem) (hp : t.params = s.params) (sp : Space) (a : Addr) :
    t.longAt sp a = s.longAt sp a := by
  simp only [State.longAt, wordAt_congr hm hp]

theorem readMem_congr {s t : State} (hm : t.mem = s.mem) (hp : t.params = s.params) (n : Nat) (sp : Space)
    (a : Addr) : t.readMem n sp a = s.readMem n sp a := by
  simp only [State.readMem, byteAt_congr hm hp, wordAt_congr hm hp, longAt_congr hm hp]

theorem byteAt_putByte (s : State) (sp sp' : Space) (a b : Addr) (v : Byte) :
    (s.putByte sp a v).byteAt sp' b = if s.key sp' b = s.key sp a then v else s.byteAt sp' b := by
  simp only [State.byteAt, putByte_key]; exact memRead_write _ _ _ _

theorem byteAt_putByte_same (s : State) (sp : Space) (a : Addr) (v : Byte) :
    (s.putByte sp a v).byteAt sp a = v := by rw [byteAt_putByte, if_pos rfl]

theorem byteAt_putByte_ne (s : State) (sp sp' : Space) (a b : Addr) (v : Byte) (h : s.key sp' b ≠ s.key sp a) :
    (s.putByte sp a v).byteAt sp' b = s.byteAt sp' b := by rw [byteAt_putByte, if_neg h]

theorem high_of_append {n m : Nat} (a : BitVec n) (b : BitVec m) : (a ++ b).extractLsb' m n = a := by
  apply BitVec.eq_of_getLsbD_eq; intro i hi
  simp [BitVec.getLsbD_append, hi]

theorem low_of_append {n m : Nat} (a : BitVec n) (b : BitVec m) : (a ++ b).extractLsb' 0 m = b := by
  apply BitVec.eq_of_getLsbD_eq; intro i hi
  simp [BitVec.getLsbD_append, hi]

theorem append_of_parts {n m : Nat} (v : BitVec (n + m)) : v.extractLsb' m n ++ v.extractLsb' 0 m = v := by
  apply BitVec.eq_of_getLsbD_eq; intro i hi
  simp only [BitVec.getLsbD_append, BitVec.getLsbD_extractLsb']
  by_cases h : i < m
  · simp [h]
  · have e : m + (i - m) = i := by omega
    have l : i - m < n := by omega
    simp [h, e, l]

theorem wordOf_parts (v : Word) : wordOf (hiByte v) (loByte v) = v := append_of_parts (n := 8) (m := 8) v
theorem hiByte_wordOf (a b : Byte) : hiByte (wordOf a b) = a := high_of_append a b
theorem loByte_wordOf (a b : Byte) : loByte (wordOf a b) = b := low_of_append a b
theorem long_parts (v : Long) : hiWord v ++ loWord v = v := append_of_parts (n := 16) (m := 16) v
theorem hiWord_append (a b : Word) : hiWord (a ++ b) = a := high_of_append a b
theorem loWord_append (a b : Word) : loWord (a ++ b) = b := low_of_append a b

/-! ## Words and long words -/

/-- The bytes a word store leaves alone. -/
theorem byteAt_putWord_ne (s : State) (sp sp' : Space) (a b : Addr) (v : Word)
    (h0 : s.key sp' b ≠ s.key sp a) (h1 : s.key sp' b ≠ s.key sp (a.plus 1)) :
    (s.putWord sp a v).byteAt sp' b = s.byteAt sp' b := by
  rw [State.putWord, byteAt_putByte_ne _ _ _ _ _ _ (by simpa using h1), byteAt_putByte_ne _ _ _ _ _ _ h0]

theorem wordAt_putWord_same (s : State) (sp : Space) (a : Addr) (v : Word) :
    (s.putWord sp a v).wordAt sp a = v := by
  have h : s.key sp a ≠ s.key sp (a.plus 1) := by
    rw [Ne, key_inj]; rintro ⟨-, h⟩
    have := (plus_inj a 0#16 1).mp (by rw [plus_zero]; exact h); simp at this
  rw [State.wordAt, State.putWord, byteAt_putByte_same, byteAt_putByte_ne _ _ _ _ _ _ (by simpa using h),
    byteAt_putByte_same, wordOf_parts]

theorem wordAt_putWord_ne (s : State) (sp : Space) (a b : Addr) (v : Word)
    (h : ∀ i ∈ [0#16, 1#16], ∀ j ∈ [0#16, 1#16], b.plus j ≠ a.plus i) :
    (s.putWord sp a v).wordAt sp b = s.wordAt sp b := by
  have k : ∀ i ∈ [0#16, 1#16], ∀ j ∈ [0#16, 1#16], s.key sp (b.plus j) ≠ s.key sp (a.plus i) := by
    intro i hi j hj; rw [Ne, key_inj]; exact fun e => h i hi j hj e.2
  simp only [List.mem_cons, List.not_mem_nil, or_false, forall_eq_or_imp, forall_eq, plus_zero] at k
  have e0 := byteAt_putWord_ne s sp sp a b v k.1.1 k.2.1
  have e1 : (s.putWord sp a v).byteAt sp (b.plus 1) = s.byteAt sp (b.plus 1) :=
    byteAt_putWord_ne s sp sp a (b.plus 1) v k.1.2 k.2.2
  rw [State.wordAt, State.wordAt, e0, e1]

theorem byteAt_putLong_ne (s : State) (sp sp' : Space) (a b : Addr) (v : Long)
    (h : ∀ j < 4, s.key sp' b ≠ s.key sp (a.plus (BitVec.ofNat 16 j))) :
    (s.putLong sp a v).byteAt sp' b = s.byteAt sp' b := by
  have h0 := h 0 (by omega); have h1 := h 1 (by omega); have h2 := h 2 (by omega); have h3 := h 3 (by omega)
  rw [State.putLong, byteAt_putWord_ne _ _ _ _ _ _ (by simpa using h2) (by simpa [plus_plus] using h3),
    byteAt_putWord_ne _ _ _ _ _ _ (by simpa using h0) (by simpa using h1)]

theorem plus_ne_plus (a : Addr) (i j : Word) (h : i ≠ j) : a.plus i ≠ a.plus j := by simpa using h

theorem longAt_putLong_same (s : State) (sp : Space) (a : Addr) (v : Long) :
    (s.putLong sp a v).longAt sp a = v := by
  rw [State.longAt, State.putLong, wordAt_putWord_same, wordAt_putWord_ne, wordAt_putWord_same, long_parts]
  simp only [List.mem_cons, List.not_mem_nil, or_false, forall_eq_or_imp, forall_eq, plus_plus]
  refine ⟨⟨?_, ?_⟩, ?_, ?_⟩ <;> exact plus_ne_plus _ _ _ (by decide)

/-- Reading n bits back. -/
theorem readMem_putMem_same {n : Nat} (hn : n = 8 ∨ n = 16 ∨ n = 32) (s : State) (sp : Space) (a : Addr)
    (v : BitVec n) : (s.putMem sp a v).readMem n sp a = v := by
  rcases hn with rfl | rfl | rfl
  · simp [State.readMem, State.putMem, byteAt_putByte_same]
  · simp [State.readMem, State.putMem, wordAt_putWord_same]
  · simp [State.readMem, State.putMem, longAt_putLong_same]

/-- The bytes a store of n bits leaves alone. -/
theorem byteAt_putMem_ne {n : Nat} (hn : n = 8 ∨ n = 16 ∨ n = 32) (s : State) (sp sp' : Space) (a b : Addr)
    (v : BitVec n) (h : ∀ j < n / 8, s.key sp' b ≠ s.key sp (a.plus (BitVec.ofNat 16 j))) :
    (s.putMem sp a v).byteAt sp' b = s.byteAt sp' b := by
  rcases hn with rfl | rfl | rfl
  · have h0 := h 0 (by omega)
    simp only [State.putMem, if_pos]; exact byteAt_putByte_ne _ _ _ _ _ _ (by simpa using h0)
  · have h0 := h 0 (by omega); have h1 := h 1 (by omega)
    exact byteAt_putWord_ne _ _ _ _ _ _ (by simpa using h0) (by simpa using h1)
  · exact byteAt_putLong_ne _ _ _ _ _ _ h

/-- The bytes a store of a list of words leaves alone. -/
theorem byteAt_putWords_ne (ws : List Word) (s : State) (sp sp' : Space) (a b : Addr)
    (h : ∀ j < 2 * ws.length, s.key sp' b ≠ s.key sp (a.plus (BitVec.ofNat 16 j))) :
    (s.putWords sp a ws).byteAt sp' b = s.byteAt sp' b := by
  induction ws generalizing s a with
  | nil => rfl
  | cons w ws ih =>
    have h0 := h 0 (by simp); have h1 := h 1 (by simp; omega)
    rw [State.putWords, ih, byteAt_putWord_ne _ _ _ _ _ _ (by simpa using h0) (by simpa using h1)]
    intro j hj
    have := h (j + 2) (by simp; omega)
    have e : 2 + BitVec.ofNat 16 j = BitVec.ofNat 16 (j + 2) := by
      rw [BitVec.add_comm, BitVec.ofNat_add]; rfl
    rw [putWord_key, putWord_key, plus_plus, e]; exact this

/-- The bytes that words put below an address leave alone. -/
theorem byteAt_putBelow_ne (ws : List Word) (s : State) (sp sp' : Space) (a b : Addr)
    (h : ∀ j < 2 * ws.length, s.key sp' b ≠ s.key sp (a.plus (-(BitVec.ofNat 16 (j + 1))))) :
    (s.putBelow sp a ws).byteAt sp' b = s.byteAt sp' b := by
  induction ws generalizing s a with
  | nil => rfl
  | cons w ws ih =>
    have h0 := h 1 (by simp; omega); have h1 := h 0 (by simp)
    rw [State.putBelow, ih, byteAt_putWord_ne _ _ _ _ _ _ (by simpa using h0) (by simpa [plus_plus] using h1)]
    intro j hj
    have := h (j + 2) (by simp; omega)
    rw [putWord_key, putWord_key]
    exact (congrArg (s.key sp' b ≠ s.key sp ·) (plus_neg_two a (j + 1))).mpr this

/-! ## The canonical form -/

theorem putByte_wf (s : State) (sp : Space) (a : Addr) (v : Byte) (h : Memory.wf s.mem) :
    Memory.wf (s.putByte sp a v).mem := wf_write _ _ h

theorem putWord_wf (s : State) (sp : Space) (a : Addr) (v : Word) (h : Memory.wf s.mem) :
    Memory.wf (s.putWord sp a v).mem := putByte_wf _ _ _ _ (putByte_wf _ _ _ _ h)

theorem putLong_wf (s : State) (sp : Space) (a : Addr) (v : Long) (h : Memory.wf s.mem) :
    Memory.wf (s.putLong sp a v).mem := putWord_wf _ _ _ _ (putWord_wf _ _ _ _ h)

theorem putMem_wf {n : Nat} (s : State) (sp : Space) (a : Addr) (v : BitVec n) (h : Memory.wf s.mem) :
    Memory.wf (s.putMem sp a v).mem := by
  unfold State.putMem; split
  · exact putByte_wf _ _ _ _ h
  · split
    · exact putWord_wf _ _ _ _ h
    · exact putLong_wf _ _ _ _ h

theorem putWords_wf (ws : List Word) (s : State) (sp : Space) (a : Addr) (h : Memory.wf s.mem) :
    Memory.wf (s.putWords sp a ws).mem := by
  induction ws generalizing s a with
  | nil => exact h
  | cons w ws ih => exact ih _ _ (putWord_wf _ _ _ _ h)

theorem putBelow_wf (ws : List Word) (s : State) (sp : Space) (a : Addr) (h : Memory.wf s.mem) :
    Memory.wf (s.putBelow sp a ws).mem := by
  induction ws generalizing s a with
  | nil => exact h
  | cons w ws ih => exact ih _ _ (putWord_wf _ _ _ _ h)

end Sys2Proof.Machine
end

