-- ==== Sys2Proof/Laws/Transactions.lean ====
section
/-!
SUPPORT. Sys2Proof/Laws/Transactions.lean: what the operations made of transactions do: as one when nothing comes
between them (`…_alone`), and all they can do to a property that grants, records and stores keep (`…_ends`).
-/
namespace Sys2Proof.Machine

/-! ## The point before a transaction -/

/-- The states in which the transaction after this point can find the machine. -/
inductive Passed (s : State) : State → Prop
  | none : Passed s s
  | pass : Passed s s.popBus
  | grant (n : Nat) (ws : List Host.Cell) : Passed s (s.popBus.grantBus n ws).regainBus

/-- All that can happen before a transaction: it goes on, or a reset abandons what is under way. -/
theorem turn_next {s t : State} {k : State → Out} (h : s.turn k = .next t) :
    (∃ u, Passed s u ∧ k u = .next t) ∨ ((∃ c, .reset c ∈ s.env.bus) ∧ t = s.popBus.resetState) := by
  unfold State.turn at h
  split at h
  · exact .inl ⟨s, .none, h⟩
  · exact .inl ⟨_, .grant _ _, h⟩
  · next c _ e =>
    unfold State.onReset at h; split at h
    · cases h
    · exact .inr ⟨⟨c, by simp [e]⟩, by simpa using h.symm⟩
  · exact .inl ⟨_, .pass, h⟩
  · exact .inl ⟨_, .pass, h⟩

/-- Between the read and the write of TSET there is no grant. -/
theorem lockedTurn_next {s t : State} {k : State → Out} (h : s.lockedTurn k = .next t) :
    k s = .next t ∨ ((∃ c, .reset c ∈ s.env.bus) ∧ t = s.popBus.resetState) := by
  unfold State.lockedTurn at h
  split at h
  · next c _ e =>
    unfold State.onReset at h; split at h
    · cases h
    · exact .inr ⟨⟨c, by simp [e]⟩, by simpa using h.symm⟩
  · exact .inl h

/-! ## Alone -/

theorem turn_alone {s : State} (h : Alone s) (k : State → Out) : s.turn k = k s := by
  unfold State.turn; rw [show s.env.bus = [] from h]

theorem lockedTurn_alone {s : State} (h : Alone s) (k : State → Out) : s.lockedTurn k = k s := by
  unfold State.lockedTurn; rw [show s.env.bus = [] from h]

/-- What leaves the script leaves the machine alone. -/
theorem alone_of_env {s t : State} (h : Alone s) (e : t.env = s.env) : Alone t := by rw [Alone, e]; exact h

@[simp] theorem logged_nil (s : State) : s.logged [] = s := rfl
@[simp] theorem logged_logged (s : State) (l m : List BusEvent) : (s.logged l).logged m = s.logged (m ++ l) := by
  simp [State.logged]
theorem record_eq_logged (s : State) (e : BusEvent) : s.record e = s.logged [e] := rfl
@[simp] theorem logged_byteAt (s : State) (l : List BusEvent) (sp : Space) (a : Addr) :
    (s.logged l).byteAt sp a = s.byteAt sp a := rfl
@[simp] theorem logged_wordAt (s : State) (l : List BusEvent) (sp : Space) (a : Addr) :
    (s.logged l).wordAt sp a = s.wordAt sp a := rfl
@[simp] theorem logged_readMem (s : State) (l : List BusEvent) (n : Nat) (sp : Space) (a : Addr) :
    (s.logged l).readMem n sp a = s.readMem n sp a := rfl
@[simp] theorem logged_instrWord (s : State) (l : List BusEvent) (a : Addr) (k : Nat) :
    (s.logged l).instrWord a k = s.instrWord a k := rfl
theorem logged_putByte (s : State) (l : List BusEvent) (sp : Space) (a : Addr) (v : Byte) :
    (s.logged l).putByte sp a v = (s.putByte sp a v).logged l := rfl
theorem logged_putWord (s : State) (l : List BusEvent) (sp : Space) (a : Addr) (v : Word) :
    (s.logged l).putWord sp a v = (s.putWord sp a v).logged l := rfl

theorem loadByte_alone {s : State} (h : Alone s) (sp : Space) (a : Addr) (k : Byte → State → Out) :
    s.loadByte sp a k = k (s.byteAt sp a) (s.logged [.memRead sp true a ((s.byteAt sp a).setWidth 16)]) := by
  rw [State.loadByte, turn_alone h]; rfl

theorem loadWord_alone {s : State} (h : Alone s) (sp : Space) (a : Addr) (k : Word → State → Out) :
    s.loadWord sp a k = k (s.wordAt sp a) (s.logged [.memRead sp false a (s.wordAt sp a)]) := by
  rw [State.loadWord, turn_alone h]; rfl

/-- A read of n bits. -/
theorem load_alone {s : State} (h : Alone s) (n : Nat) (sp : Space) (a : Addr) (k : BitVec n → State → Out) :
    s.load n sp a k = k (s.readMem n sp a) (s.logged (readEvents s n sp a)) := by
  unfold State.load State.readMem readEvents
  split
  · rw [loadByte_alone h]
  · split
    · rw [loadWord_alone h]
    · rw [loadWord_alone h, loadWord_alone (by exact h)]; rfl

/-- A read of words at successive addresses. -/
theorem loadWords_alone {s : State} (h : Alone s) (sp : Space) (a : Addr) (n : Nat) (k : List Word → State → Out) :
    s.loadWords sp a n k =
      k ((List.range n).map (fun j => s.wordAt sp (a.plus (BitVec.ofNat 16 (2 * j))))) (s.logged (readRun s sp a n)) := by
  induction n generalizing s a k with
  | zero => rfl
  | succ n ih =>
    rw [State.loadWords, loadWord_alone h, ih (by exact h)]
    simp [readRun, List.range_succ_eq_map, Function.comp_def, plus_two]

theorem storeWord_alone {s : State} (h : Alone s) (sp : Space) (a : Addr) (v : Word) (k : State → Out) :
    s.storeWord sp a v k = k ((s.putWord sp a v).logged [.memWrite sp false a v]) := by
  rw [State.storeWord, turn_alone h]; rfl

/-- A write of n bits. -/
theorem store_alone {s : State} (h : Alone s) {n : Nat} (sp : Space) (a : Addr) (v : BitVec n) (k : State → Out) :
    s.store sp a v k = k ((s.putMem sp a v).logged (writeEvents sp a v)) := by
  unfold State.store State.putMem writeEvents
  split
  · next e => subst e; rw [turn_alone h]; simp [State.wroteByte, record_eq_logged]
  · split
    · rw [storeWord_alone h]
    · rw [storeWord_alone h, storeWord_alone (by exact alone_of_env h (by simp))]; rfl

/-- The write of TSET. -/
theorem storeLocked_alone {s : State} (h : Alone s) {n : Nat} (hn : n = 8 ∨ n = 16) (sp : Space) (a : Addr)
    (v : BitVec n) (k : State → Out) :
    s.storeLocked sp a v k = k ((s.putMem sp a v).logged (writeEvents sp a v)) := by
  rw [State.storeLocked, lockedTurn_alone h]
  rcases hn with rfl | rfl <;> simp [State.putMem, writeEvents, State.wroteByte, State.wroteWord, record_eq_logged]

/-- A write of words at successive addresses. -/
theorem storeWords_alone {s : State} (h : Alone s) (sp : Space) (a : Addr) (ws : List Word) (k : State → Out) :
    s.storeWords sp a ws k = k ((s.putWords sp a ws).logged (writeRun sp a ws)) := by
  have put (u : State) (l : List BusEvent) (a : Addr) (ws : List Word) :
      (u.logged l).putWords sp a ws = (u.putWords sp a ws).logged l := by
    induction ws generalizing u a with
    | nil => rfl
    | cons w ws ih => rw [State.putWords, logged_putWord, ih]; rfl
  induction ws generalizing s a with
  | nil => rfl
  | cons w ws ih =>
    rw [State.storeWords, storeWord_alone h, ih (by exact alone_of_env h (by simp)), put, logged_logged]
    simp [writeRun, List.range_succ_eq_map, Function.comp_def, plus_two, State.putWords]

/-- A write of words at falling addresses, the newest transaction first. -/
theorem pushWords_alone {s : State} (h : Alone s) (sp : Space) (a : Addr) (ws : List Word) (k : State → Out) :
    s.pushWords sp a ws k = k ((s.putBelow sp a ws).logged
      ((List.range ws.length).map (fun j =>
        .memWrite sp false (a.plus (-(BitVec.ofNat 16 (2 * (j + 1))))) (ws.getD j 0))).reverse) := by
  have put (u : State) (l : List BusEvent) (a : Addr) (ws : List Word) :
      (u.logged l).putBelow sp a ws = (u.putBelow sp a ws).logged l := by
    induction ws generalizing u a with
    | nil => rfl
    | cons w ws ih => rw [State.putBelow, logged_putWord, ih]; rfl
  induction ws generalizing s a with
  | nil => rfl
  | cons w ws ih =>
    rw [State.pushWords, storeWord_alone h, ih (by exact alone_of_env h (by simp)), put, logged_logged]
    have e (j : Nat) : (a.plus (-2)).plus (-(BitVec.ofNat 16 (2 * (j + 1)))) =
        a.plus (-(BitVec.ofNat 16 (2 * (j + 1 + 1)))) := plus_neg_two a _
    simp only [e, List.length_cons, List.range_succ_eq_map, List.map_cons, List.map_map, Function.comp_def,
      List.reverse_cons, List.getD_cons_succ, List.getD_cons_zero, State.putBelow]
    rfl

/-- A program counter read from memory. -/
theorem loadPc_alone {s : State} (h : Alone s) (sp : Space) (a : Addr) (k : Addr → State → Out) :
    s.loadPc sp a k =
      k (if s.isZ8001 then ⟨segField (s.wordAt sp a), s.wordAt sp (a.plus 2)⟩ else ⟨s.pc.seg, s.wordAt sp a⟩)
        (s.logged (readRun s sp a (if s.isZ8001 then 2 else 1))) := by
  unfold State.loadPc
  cases hz : s.isZ8001
  · rw [if_neg (by simp), loadWord_alone h]; simp [readRun]
  · rw [if_pos rfl, loadWord_alone h, loadWord_alone (by exact h)]; simp [readRun, List.range_succ]

/-! ## Operands -/

/-- A general source is read. -/
theorem fetch_src_ready {s : State} {n : Nat} {src : Src n} (h : src.Ready s) (k : BitVec n → State → Out) :
    src.fetch s k = k (src.val s) (s.logged (src.reads s)) := by
  cases src with
  | reg r => rfl
  | imm v => rfl
  | mem m => exact load_alone h.2 n _ _ k

/-- A general operand is read. -/
theorem fetch_loc_ready {s : State} {n : Nat} {l : Loc} (h : l.Ready s n) (k : BitVec n → State → Out) :
    l.fetch s n k = k (l.val s n) (s.logged (l.reads s n)) := by
  cases l with
  | reg r => rfl
  | mem m => exact load_alone h.2 n _ _ k

/-- A source of LD is read. -/
theorem fetch_ldSrc_ready {s : State} {n : Nat} {src : LdSrc n} (h : src.Ready s) (k : BitVec n → State → Out) :
    src.fetch s k = k (src.val s) (s.logged (src.reads s)) := by
  cases src with
  | reg r => rfl
  | imm v => rfl
  | mem m => exact load_alone h.2 n _ _ k

theorem evens_src_ready {s : State} {n : Nat} {src : Src n} (h : src.Ready s) : AllEven (src.evens s) := by
  cases src with
  | mem m => exact h.1
  | _ => simp [AllEven, Src.evens]

theorem evens_loc_ready {s : State} {n : Nat} {l : Loc} (h : l.Ready s n) : AllEven (l.evens s n) := by
  cases l with
  | mem m => exact h.1
  | reg r => simp [AllEven, Loc.evens]

theorem evens_ldSrc_ready {s : State} {n : Nat} {src : LdSrc n} (h : src.Ready s) : AllEven (src.evens s) := by
  cases src with
  | mem m => exact h.1
  | _ => simp [AllEven, LdSrc.evens]

/-- A general operand after v was put there. -/
def putLoc (s : State) {n : Nat} (l : Loc) (v : BitVec n) : State :=
  match l with
  | .reg r => s.setReg r v
  | .mem m => s.putMem s.dataSp (m.addr s) v

/-- A general operand is written, after the transactions of a log. -/
theorem write_loc_ready {s : State} {n : Nat} {l : Loc} (h : l.Ready s n) (log : List BusEvent) (v : BitVec n)
    (k : State → Out) : l.write (s.logged log) v k = k ((putLoc s l v).logged (l.writes s v ++ log)) := by
  have reg (r : RegNo) : (s.logged log).setReg r v = (s.setReg r v).logged log := by
    unfold State.setReg State.setRegB State.setRegQ State.setRegL; (repeat' split) <;> rfl
  have mem (sp : Space) (a : Addr) : (s.logged log).putMem sp a v = (s.putMem sp a v).logged log := by
    unfold State.putMem; (repeat' split) <;> rfl
  cases l with
  | reg r => exact congrArg k (reg r)
  | mem m =>
    show (s.logged log).store s.dataSp (m.addr s) v k = _
    rw [store_alone (by exact h.2), mem, logged_logged]; rfl

/-- A one-operand instruction that reads its operand and writes it back. -/
theorem modify_ready {s : State} {n : Nat} {l : Loc} (h : l.Ready s n) (f : BitVec n → BitVec n × Fcw) :
    s.modify n l f = .next ((((putLoc s l (f (l.val s n)).1).logged
      (l.writes s (f (l.val s n)).1 ++ l.reads s n)).withFcw (f (l.val s n)).2).skip (1 + l.extra)) := by
  rw [State.modify, checked, if_pos (by simpa [AllEven] using evens_loc_ready h), fetch_loc_ready h,
    write_loc_ready h]

/-! ## All that the operations can do to a property

`I` is the property that holds while transactions go on, `P` the one wanted at the end. -/

/-- o answers a next state only with P. -/
def Ends (P : State → Prop) (o : Out) : Prop := ∀ t, o = .next t → P t

@[simp] theorem ends_next (P : State → Prop) (t : State) : Ends P (.next t) ↔ P t := by
  simp [Ends]
@[simp] theorem ends_fault (P : State → Prop) (f : Fault) : Ends P (.fault f) := by simp [Ends]
@[simp] theorem ends_refused (P : State → Prop) (r : Refusal) : Ends P (.refused r) := by simp [Ends]

/-- I is kept by what happens before a transaction, by records and by stores; a reset gives P. -/
structure Carried (I P : State → Prop) : Prop where
  passed : ∀ s u, I s → Passed s u → I u
  record : ∀ s e, I s → I (s.record e)
  stored : ∀ s sp a v, I s → I (s.putByte sp a v)
  reset  : ∀ s, I s → (∃ c, .reset c ∈ s.env.bus) → P s.popBus.resetState

variable {I P : State → Prop}

theorem turn_ends (c : Carried I P) {s : State} (hs : I s) {k : State → Out} (hk : ∀ u, I u → Ends P (k u)) :
    Ends P (s.turn k) := by
  intro t h
  obtain ⟨u, hu, h⟩ | ⟨hr, rfl⟩ := turn_next h
  · exact hk u (c.passed s u hs hu) t h
  · exact c.reset s hs hr

theorem lockedTurn_ends (c : Carried I P) {s : State} (hs : I s) {k : State → Out} (hk : ∀ u, I u → Ends P (k u)) :
    Ends P (s.lockedTurn k) := by
  intro t h
  obtain h | ⟨hr, rfl⟩ := lockedTurn_next h
  · exact hk s hs t h
  · exact c.reset s hs hr

theorem loadByte_ends (c : Carried I P) {s : State} (hs : I s) (sp : Space) (a : Addr) {k : Byte → State → Out}
    (hk : ∀ v u, I u → Ends P (k v u)) : Ends P (s.loadByte sp a k) :=
  turn_ends c hs (fun u hu => hk _ _ (c.record u _ hu))

theorem loadWord_ends (c : Carried I P) {s : State} (hs : I s) (sp : Space) (a : Addr) {k : Word → State → Out}
    (hk : ∀ v u, I u → Ends P (k v u)) : Ends P (s.loadWord sp a k) :=
  turn_ends c hs (fun u hu => hk _ _ (c.record u _ hu))

theorem load_ends (c : Carried I P) {s : State} (hs : I s) (n : Nat) (sp : Space) (a : Addr)
    {k : BitVec n → State → Out} (hk : ∀ v u, I u → Ends P (k v u)) : Ends P (s.load n sp a k) := by
  unfold State.load
  split
  · exact loadByte_ends c hs _ _ (fun v u hu => hk _ u hu)
  · split
    · exact loadWord_ends c hs _ _ (fun v u hu => hk _ u hu)
    · exact loadWord_ends c hs _ _ (fun v u hu => loadWord_ends c hu _ _ (fun w x hx => hk _ x hx))

theorem loadWords_ends (c : Carried I P) {s : State} (hs : I s) (sp : Space) (a : Addr) (n : Nat)
    {k : List Word → State → Out} (hk : ∀ v u, I u → Ends P (k v u)) : Ends P (s.loadWords sp a n k) := by
  induction n generalizing s a k with
  | zero => exact hk _ _ hs
  | succ n ih => exact loadWord_ends c hs _ _ (fun w u hu => ih hu _ (fun ws x hx => hk _ x hx))

theorem wroteWord_carried (c : Carried I P) {s : State} (hs : I s) (sp : Space) (a : Addr) (v : Word) :
    I (s.wroteWord sp a v) := c.record _ _ (c.stored _ _ _ _ (c.stored _ _ _ _ hs))

theorem storeWord_ends (c : Carried I P) {s : State} (hs : I s) (sp : Space) (a : Addr) (v : Word)
    {k : State → Out} (hk : ∀ u, I u → Ends P (k u)) : Ends P (s.storeWord sp a v k) :=
  turn_ends c hs (fun _ hu => hk _ (wroteWord_carried c hu _ _ _))

theorem store_ends (c : Carried I P) {s : State} (hs : I s) {n : Nat} (sp : Space) (a : Addr) (v : BitVec n)
    {k : State → Out} (hk : ∀ u, I u → Ends P (k u)) : Ends P (s.store sp a v k) := by
  unfold State.store
  split
  · exact turn_ends c hs (fun u hu => hk _ (c.record _ _ (c.stored _ _ _ _ hu)))
  · split
    · exact storeWord_ends c hs _ _ _ hk
    · exact storeWord_ends c hs _ _ _ (fun u hu => storeWord_ends c hu _ _ _ hk)

theorem storeLocked_ends (c : Carried I P) {s : State} (hs : I s) {n : Nat} (sp : Space) (a : Addr) (v : BitVec n)
    {k : State → Out} (hk : ∀ u, I u → Ends P (k u)) : Ends P (s.storeLocked sp a v k) := by
  refine lockedTurn_ends c hs (fun u hu => ?_)
  split
  · exact hk _ (c.record _ _ (c.stored _ _ _ _ hu))
  · exact hk _ (wroteWord_carried c hu _ _ _)

theorem storeWords_ends (c : Carried I P) {s : State} (hs : I s) (sp : Space) (a : Addr) (ws : List Word)
    {k : State → Out} (hk : ∀ u, I u → Ends P (k u)) : Ends P (s.storeWords sp a ws k) := by
  induction ws generalizing s a with
  | nil => exact hk s hs
  | cons w ws ih => exact storeWord_ends c hs _ _ _ (fun u hu => ih hu _)

theorem pushWords_ends (c : Carried I P) {s : State} (hs : I s) (sp : Space) (a : Addr) (ws : List Word)
    {k : State → Out} (hk : ∀ u, I u → Ends P (k u)) : Ends P (s.pushWords sp a ws k) := by
  induction ws generalizing s a with
  | nil => exact hk s hs
  | cons w ws ih => exact storeWord_ends c hs _ _ _ (fun u hu => ih hu _)

/-- The segment of a PC that is read is on a Z8002 the one of the PC before. -/
theorem loadPc_ends (c : Carried I P) {s : State} (hs : I s) (sp : Space) (a : Addr) {k : Addr → State → Out}
    (hk : ∀ pc u, I u → s.isZ8001 = true ∨ pc.seg = s.pc.seg → Ends P (k pc u)) : Ends P (s.loadPc sp a k) := by
  unfold State.loadPc
  split
  · next hz => exact loadWord_ends c hs _ _ (fun v u hu => loadWord_ends c hu _ _ (fun w x hx => hk _ x hx (.inl hz)))
  · exact loadWord_ends c hs _ _ (fun v u hu => hk _ u hu (.inr rfl))

theorem fetch_src_ends (c : Carried I P) {s : State} (hs : I s) {n : Nat} (src : Src n)
    {k : BitVec n → State → Out} (hk : ∀ v u, I u → Ends P (k v u)) : Ends P (src.fetch s k) := by
  cases src with
  | mem m => exact load_ends c hs _ _ _ hk
  | _ => exact hk _ _ hs

theorem fetch_loc_ends (c : Carried I P) {s : State} (hs : I s) (n : Nat) (l : Loc)
    {k : BitVec n → State → Out} (hk : ∀ v u, I u → Ends P (k v u)) : Ends P (l.fetch s n k) := by
  cases l with
  | mem m => exact load_ends c hs _ _ _ hk
  | reg r => exact hk _ _ hs

theorem fetch_ldSrc_ends (c : Carried I P) {s : State} (hs : I s) {n : Nat} (src : LdSrc n)
    {k : BitVec n → State → Out} (hk : ∀ v u, I u → Ends P (k v u)) : Ends P (src.fetch s k) := by
  cases src with
  | mem m => exact load_ends c hs _ _ _ hk
  | _ => exact hk _ _ hs

theorem write_loc_ends (c : Carried I P) {s : State} (hs : I s) {n : Nat} (l : Loc) (v : BitVec n)
    (hr : ∀ r, I (s.setReg r v)) {k : State → Out} (hk : ∀ u, I u → Ends P (k u)) : Ends P (l.write s v k) := by
  cases l with
  | mem m => exact store_ends c hs _ _ _ hk
  | reg r => exact hk _ (hr r)

theorem writeLocked_loc_ends (c : Carried I P) {s : State} (hs : I s) {n : Nat} (l : Loc) (v : BitVec n)
    (hr : ∀ r, I (s.setReg r v)) {k : State → Out} (hk : ∀ u, I u → Ends P (k u)) : Ends P (l.writeLocked s v k) := by
  cases l with
  | mem m => exact storeLocked_ends c hs _ _ _ hk
  | reg r => exact hk _ (hr r)

end Sys2Proof.Machine
end

