-- ==== Sys2Proof/Laws/Ops.lean ====
section
/-!
SUPPORT. Sys2Proof/Laws/Ops.lean: what each shared operation over registers and the outcome can do: reading after
writing, the registers a write leaves alone, and when an operation answers a next state.
-/
namespace Sys2Proof.Machine

/-! ## Word registers (10_state.md R20, R22) -/

theorem phys_inj (s : State) (a b : RegNo) : s.phys a = s.phys b ↔ a = b := by
  constructor
  · intro h
    unfold State.phys at h
    have ha := a.isLt; have hb := b.isLt
    apply BitVec.eq_of_toNat_eq
    (repeat' split at h) <;> simp_all [Fin.ext_iff, BitVec.toNat_eq] <;> omega
  · rintro rfl; rfl

theorem regs_setRegW (s : State) (r : RegNo) (v : Word) (p : Fin 18) :
    (s.setRegW r v).regs.get p = if p = s.phys r then v else s.regs.get p := by
  show (s.regs.set (s.phys r).val v (s.phys r).isLt)[p.val] = _
  rw [Vector.getElem_set]
  simp only [Fin.ext_iff, eq_comm (a := p.val)]; rfl

theorem phys_congr {s t : State} (hf : t.fcw.sn = s.fcw.sn) (hp : t.params = s.params) (r : RegNo) :
    t.phys r = s.phys r := by simp only [State.phys, State.isZ8001, hf, hp]; rfl

theorem regW_congr {s t : State} (hr : t.regs = s.regs) (hf : t.fcw.sn = s.fcw.sn) (hp : t.params = s.params)
    (r : RegNo) : t.regW r = s.regW r := by simp only [State.regW, phys_congr hf hp, hr]

theorem regW_setRegW (s : State) (r q : RegNo) (v : Word) :
    (s.setRegW r v).regW q = if q = r then v else s.regW q := by
  simp only [State.regW, regs_setRegW, setRegW_phys, phys_inj]

@[simp] theorem regW_setRegW_same (s : State) (r : RegNo) (v : Word) : (s.setRegW r v).regW r = v := by
  rw [regW_setRegW, if_pos rfl]

theorem regW_setRegW_ne (s : State) {r q : RegNo} (v : Word) (h : q ≠ r) :
    (s.setRegW r v).regW q = s.regW q := by rw [regW_setRegW, if_neg h]

theorem succ_ne (r : RegNo) : r + 1 ≠ r := by revert r; decide
theorem two_one (r : RegNo) : r + 2 + 1 = r + 3 := by revert r; decide
theorem quad_ne (r : RegNo) : r ≠ r + 1 ∧ r ≠ r + 2 ∧ r ≠ r + 2 + 1 ∧ r + 1 ≠ r + 2 ∧ r + 1 ≠ r + 2 + 1 := by
  revert r; decide

/-! ## Bytes, pairs and quads (10_state.md R21) -/

@[simp] theorem regB_setRegB_same (s : State) (r : RegNo) (v : Byte) : (s.setRegB r v).regB r = v := by
  unfold State.regB State.setRegB; split <;> simp [hiByte_wordOf, loByte_wordOf]

/-- The other byte registers keep their values. -/
theorem regB_setRegB_ne (s : State) {r q : RegNo} (v : Byte) (h : q ≠ r) :
    (s.setRegB r v).regB q = s.regB q := by
  have key : byteHome q = byteHome r → q.getLsbD 3 = !r.getLsbD 3 := by
    revert h; revert q r; decide
  unfold State.regB State.setRegB
  by_cases e : byteHome q = byteHome r
  · have k := key e
    rw [e, regW_setRegW_same, k]
    cases r.getLsbD 3 <;> simp [hiByte_wordOf, loByte_wordOf]
  · rw [regW_setRegW_ne _ _ e]

@[simp] theorem regL_setRegL_same (s : State) (r : RegNo) (v : Long) : (s.setRegL r v).regL r = v := by
  unfold State.regL State.setRegL
  rw [regW_setRegW_ne _ _ (succ_ne r).symm, regW_setRegW_same, regW_setRegW_same, long_parts]

theorem regL_setRegL_ne (s : State) {r q : RegNo} (v : Long) (h0 : q ≠ r) (h1 : q ≠ r + 1) (h2 : q + 1 ≠ r)
    (h3 : q + 1 ≠ r + 1) : (s.setRegL r v).regL q = s.regL q := by
  unfold State.regL State.setRegL
  rw [regW_setRegW_ne _ _ h1, regW_setRegW_ne _ _ h0, regW_setRegW_ne _ _ h3, regW_setRegW_ne _ _ h2]

@[simp] theorem regQ_setRegQ_same (s : State) (r : RegNo) (v : Quad) : (s.setRegQ r v).regQ r = v := by
  obtain ⟨h1, h2, h3, h4, h5⟩ := quad_ne r
  unfold State.regQ State.setRegQ
  rw [regL_setRegL_same, regL_setRegL_ne _ _ h2 h3 h4 h5, regL_setRegL_same]
  exact append_of_parts (n := 32) (m := 32) v

/-- Reading a register of n bits back. -/
theorem reg_setReg_same {n : Nat} (hn : n = 8 ∨ n = 16 ∨ n = 32 ∨ n = 64) (s : State) (r : RegNo) (v : BitVec n) :
    (s.setReg r v).reg n r = v := by
  rcases hn with rfl | rfl | rfl | rfl <;> simp [State.reg, State.setReg]

theorem regs_setRegL_ne (s : State) (r : RegNo) (v : Long) (p : Fin 18) (h0 : p ≠ s.phys r)
    (h1 : p ≠ s.phys (r + 1)) : (s.setRegL r v).regs.get p = s.regs.get p := by
  rw [State.setRegL, regs_setRegW, if_neg (by simpa using h1), regs_setRegW, if_neg h0]

/-- The places a write of n bits leaves alone. -/
theorem setReg_onlyRegs {n : Nat} (hn : n = 8 ∨ n = 16 ∨ n = 32 ∨ n = 64) (s : State) (r : RegNo) (v : BitVec n) :
    OnlyRegs s (s.setReg r v) (regsOf n r) := by
  intro p h
  rcases hn with rfl | rfl | rfl | rfl
  · simp only [regsOf, List.mem_singleton, forall_eq, if_pos] at h
    simp only [State.setReg, State.setRegB, if_pos, regs_setRegW, if_neg h]
  · have h : p ≠ s.phys r := h r (by simp [regsOf])
    show (s.setRegW r _).regs.get p = _
    rw [regs_setRegW, if_neg h]
  · exact regs_setRegL_ne _ _ _ _ (h r (by simp [regsOf])) (h (r + 1) (by simp [regsOf]))
  · have e : s.setReg r v = s.setRegQ r (v.setWidth 64) := by simp [State.setReg]
    rw [e, State.setRegQ, regs_setRegL_ne, regs_setRegL_ne]
    · exact h r (by simp [regsOf])
    · exact h (r + 1) (by simp [regsOf])
    · simpa using h (r + 2) (by simp [regsOf])
    · rw [setRegL_phys, two_one]; exact h (r + 3) (by simp [regsOf])

/-- A run of registers written leaves the others alone. -/
theorem regs_setRegRun_ne (ws : List Word) (s : State) (r : RegNo) (p : Fin 18)
    (h : ∀ j < ws.length, p ≠ s.phys (r + BitVec.ofNat 4 j)) :
    (s.setRegRun r ws).regs.get p = s.regs.get p := by
  induction ws generalizing s r with
  | nil => rfl
  | cons w ws ih =>
    have h0 : p ≠ s.phys r := by simpa using h 0 (by simp)
    rw [State.setRegRun, ih, regs_setRegW, if_neg h0]
    intro j hj
    have := h (j + 1) (by simpa using hj)
    have e : r + 1 + BitVec.ofNat 4 j = r + BitVec.ofNat 4 (j + 1) := by
      rw [BitVec.add_assoc, BitVec.ofNat_add]; exact congrArg (r + ·) (BitVec.add_comm _ _)
    rw [setRegW_phys, e]; exact this

/-! ## Outcomes -/

theorem checked_of_even {as : List Addr} (h : AllEven as) (k : Out) : checked as k = k := by
  rw [checked, if_pos]; simpa [AllEven] using h

/-- An access goes on only at even addresses (20_memory.md R69). -/
theorem checked_next {as : List Addr} {k : Out} {t : State} (h : checked as k = .next t) : AllEven as ∧ k = .next t := by
  unfold checked at h; split at h
  · next e => exact ⟨by simpa [AllEven] using e, h⟩
  · cases h

theorem privileged_system {s : State} (h : s.fcw.sn = true) (i : Instr) (k : Out) : privileged i s k = k := by
  rw [privileged, if_pos h]

/-- A privileged instruction goes on in system mode only; in normal mode it enters the trap (60_exceptions.md
R481). -/
theorem privileged_next {s : State} {i : Instr} {k : Out} {t : State} (h : privileged i s k = .next t) :
    (s.fcw.sn = true ∧ k = .next t) ∨
      (s.fcw.sn = false ∧ s.enter .privilegedInstruction (firstWord i) (s.pc.plus 2) = .next t) := by
  unfold privileged at h; split at h
  · next e => exact .inl ⟨e, h⟩
  · next e => exact .inr ⟨by simpa using e, h⟩

/-- A word is loaded into the FCW unless its bit 15 is set on a Z8002. -/
theorem loadFcw_next {s : State} {w : Word} {k : Fcw → Out} {t : State} (h : s.loadFcw w k = .next t) :
    (s.isZ8001 = false → w.getLsbD 15 = false) ∧ k (Fcw.ofWord w) = .next t := by
  unfold State.loadFcw at h; split at h
  · cases h
  · next e => exact ⟨by intro z; simpa [z] using e, h⟩

theorem loadFcw_ends {P : State → Prop} (s : State) (w : Word) {k : Fcw → Out}
    (hk : (s.isZ8001 = false → w.getLsbD 15 = false) → Ends P (k (Fcw.ofWord w))) : Ends P (s.loadFcw w k) :=
  fun t h => hk (loadFcw_next h).1 t (loadFcw_next h).2

@[simp] theorem logged_loadFcw (s : State) (l : List BusEvent) (w : Word) (k : Fcw → Out) :
    (s.logged l).loadFcw w k = s.loadFcw w k := rfl
@[simp] theorem logged_newFcwAt (s : State) (l : List BusEvent) (k : Exc) : (s.logged l).newFcwAt k = s.newFcwAt k := rfl
@[simp] theorem logged_newPcAt (s : State) (l : List BusEvent) (k : Exc) (id : Word) :
    (s.logged l).newPcAt k id = s.newPcAt k id := rfl
@[simp] theorem logged_readRun (s : State) (l : List BusEvent) (sp : Space) (a : Addr) (k : Nat) :
    readRun (s.logged l) sp a k = readRun s sp a k := rfl

theorem readRun_one (s : State) (sp : Space) (a : Addr) : readRun s sp a 1 = [.memRead sp false a (s.wordAt sp a)] := by
  simp [readRun]

/-- s with the frame of an entry below the system stack pointer, which is lowered. -/
def framed (s : State) (id : Word) (saved : Addr) : State :=
  { s.putBelow ⟨.stack, true⟩ s.ssp (s.frame id saved) with regs := s.regs.set 17 (s.ssp.off - s.frameSize) }

/-- The transactions that write the frame, the newest first. -/
def frameWrites (s : State) (id : Word) (saved : Addr) : List BusEvent :=
  ((List.range (s.frame id saved).length).map (fun j =>
    BusEvent.memWrite ⟨.stack, true⟩ false (s.ssp.plus (-(BitVec.ofNat 16 (2 * (j + 1))))) ((s.frame id saved).getD j 0))).reverse

/-- An entry with nothing between its transactions. -/
theorem enter_alone {s : State} (h : Alone s) (he : s.ssp.off.getLsbD 0 = false) (k : Exc) (id : Word) (saved : Addr)
    (hv : ¬(s.isZ8001 = true ∧ k = .vi ∧ id.getLsbD 0 = true)) :
    s.enter k id saved =
      (framed s id saved).loadFcw ((framed s id saved).wordAt ⟨.prog, true⟩ (s.newFcwAt k)) (fun f =>
        .next (((framed s id saved).logged
          (readRun (framed s id saved) ⟨.prog, true⟩ (s.newPcAt k id) (if s.isZ8001 then 2 else 1) ++
            readRun (framed s id saved) ⟨.prog, true⟩ (s.newFcwAt k) 1 ++ frameWrites s id saved)).serve f
          (if s.isZ8001 then ⟨segField ((framed s id saved).wordAt ⟨.prog, true⟩ (s.newPcAt k id)),
              (framed s id saved).wordAt ⟨.prog, true⟩ ((s.newPcAt k id).plus 2)⟩
            else ⟨s.pc.seg, (framed s id saved).wordAt ⟨.prog, true⟩ (s.newPcAt k id)⟩))) := by
  have ht : Alone (framed s id saved) := alone_of_env h (by simp [framed])
  have hz : (framed s id saved).isZ8001 = s.isZ8001 := by simp [framed, State.isZ8001]
  have hpc : (framed s id saved).pc = s.pc := by simp [framed]
  have hr : (s.putBelow ⟨.stack, true⟩ s.ssp (s.frame id saved)).regs = s.regs := by simp
  rw [State.enter, checked, if_pos (by simpa using he), if_neg hv, pushWords_alone h]
  have e : ({ (s.putBelow ⟨.stack, true⟩ s.ssp (s.frame id saved)).logged (frameWrites s id saved) with
      regs := (s.putBelow ⟨.stack, true⟩ s.ssp (s.frame id saved)).regs.set 17 (s.ssp.off - s.frameSize) } : State) =
      (framed s id saved).logged (frameWrites s id saved) := by rw [hr]; rfl
  refine Eq.trans (congrArg (fun t => State.loadWord t ⟨.prog, true⟩ _ _) e) ?_
  rw [loadWord_alone (by exact ht), loadPc_alone (by exact ht)]
  simp only [logged_loadFcw, logged_logged, logged_wordAt, logged_readRun, logged_isZ8001, logged_pc, hz, hpc, readRun_one,
    List.append_assoc]

/-- All an entry can do to a property. -/
theorem enter_ends {I P : State → Prop} (c : Carried I P) {s : State} (hs : I s) (k : Exc) (id : Word) (saved : Addr)
    (hsp : ∀ u, I u → I { u with regs := u.regs.set 17 (s.ssp.off - s.frameSize) })
    (hp : ∀ u v w pc, I u → I v → u.isZ8001 = true ∨ pc.seg = u.pc.seg → (v.isZ8001 = false → w.getLsbD 15 = false) →
      P (v.serve (Fcw.ofWord w) pc)) :
    Ends P (s.enter k id saved) := by
  intro t h
  obtain ⟨-, h⟩ := checked_next h
  split at h
  · cases h
  · exact pushWords_ends c hs _ _ _ (fun u hu => loadWord_ends c (hsp u hu) _ _ (fun w v hv =>
      loadPc_ends c hv _ _ (fun pc x hx hpc => loadFcw_ends _ _ (fun hw =>
        (ends_next _ _).mpr (hp v x w pc hv hx hpc hw))))) t h

/-- A return from an exception with nothing between its transactions. -/
theorem leave_alone {s : State} (h : Alone s) (hs : ¬(s.isZ8001 = true ∧ s.fcw.seg = false))
    (he : s.ssp.off.getLsbD 0 = false) :
    s.leave = s.loadFcw (s.wordAt ⟨.stack, true⟩ (s.ssp.plus 2)) (fun f => .next { s with
      busLog := readRun s ⟨.stack, true⟩ s.ssp (if s.isZ8001 then 4 else 3) ++ s.busLog
      fcw := f
      pc := if s.isZ8001 then
          ⟨segField (s.wordAt ⟨.stack, true⟩ (s.ssp.plus 4)), s.wordAt ⟨.stack, true⟩ (s.ssp.plus 6)⟩
        else ⟨s.pc.seg, s.wordAt ⟨.stack, true⟩ (s.ssp.plus 4)⟩
      regs := s.regs.set 17 (s.ssp.off + s.frameSize) }) := by
  unfold State.leave
  rw [if_neg hs, checked, if_pos (by simpa using he), loadWord_alone h, loadWord_alone (by exact h),
    loadPc_alone (by exact h)]
  simp only [logged_loadFcw, logged_logged, logged_wordAt, logged_readRun, logged_isZ8001]
  cases hz : s.isZ8001 <;> simp [readRun, List.range_succ, plus_plus, State.logged]

/-- All a return from an exception can do to a property. -/
theorem leave_ends {I P : State → Prop} (c : Carried I P) {s : State} (hs : I s)
    (hp : ∀ u v w pc, I u → I v → u.isZ8001 = true ∨ pc.seg = u.pc.seg → (v.isZ8001 = false → w.getLsbD 15 = false) →
      P { v with fcw := Fcw.ofWord w, pc := pc, regs := s.regs.set 17 (s.ssp.off + s.frameSize) }) :
    Ends P s.leave := by
  intro t h
  unfold State.leave at h
  dsimp only at h
  split at h
  · cases h
  · obtain ⟨-, h⟩ := checked_next h
    exact loadWord_ends c hs _ _ (fun _ u hu => loadWord_ends c hu _ _ (fun w v hv =>
      loadPc_ends c hv _ _ (fun pc x hx hpc => loadFcw_ends _ _ (fun hw =>
        (ends_next _ _).mpr (hp v x w pc hv hx hpc hw))))) t h

/-- The store rule stops or keeps the next state. -/
theorem guardStore_next {s t : State} {words : Nat} {o : Out} (h : guardStore s words o = .next t) :
    o = .next t ∧ clobbers s t words = false := by
  cases o with
  | next u =>
    simp only [guardStore] at h; split at h
    · cases h
    · next e => cases h; exact ⟨rfl, by simpa using e⟩
  | fault r => cases h
  | refused r => cases h

/-- A step advances the counter of draws and nothing else of its own. -/
theorem bump_next {o : Out} {t : State} (h : bump o = .next t) :
    ∃ u, o = .next u ∧ t = { u with draws := u.draws + 1 } := by
  cases o with
  | next u => exact ⟨u, rfl, by simpa [bump] using h.symm⟩
  | fault r => cases h
  | refused r => cases h

end Sys2Proof.Machine
end

