-- ==== Sys2Proof/Laws/Results.lean ====
section
/-!
SUPPORT. Sys2Proof/Laws/Results.lean: the ways a meaning ends, each with all it changes: a register written, memory
written, the flags alone, a register list, the count and pointers of a block instruction.
-/
namespace Sys2Proof.Machine

theorem reg_congr {s t : State} (hr : t.regs = s.regs) (hf : t.fcw.sn = s.fcw.sn) (hp : t.params = s.params)
    (n : Nat) (r : RegNo) : t.reg n r = s.reg n r := by
  simp only [State.reg, State.regB, State.regL, State.regQ, regW_congr hr hf hp]

theorem regB_congr {s t : State} (hr : t.regs = s.regs) (hf : t.fcw.sn = s.fcw.sn) (hp : t.params = s.params)
    (r : RegNo) : t.regB r = s.regB r := by simp only [State.regB, regW_congr hr hf hp]

theorem regB_setReg_ne {n : Nat} (hn : n = 8) (s : State) {r q : RegNo} (v : BitVec n) (h : q ≠ r) :
    (s.setReg r v).regB q = s.regB q := by
  subst hn; exact regB_setRegB_ne s _ h

/-! The widths of the generic accesses. -/

theorem reg_8 (s : State) (r : RegNo) : s.reg 8 r = s.regB r := by simp [State.reg]
theorem reg_16 (s : State) (r : RegNo) : s.reg 16 r = s.regW r := by simp [State.reg]
theorem reg_32 (s : State) (r : RegNo) : s.reg 32 r = s.regL r := by simp [State.reg]
theorem reg_64 (s : State) (r : RegNo) : s.reg 64 r = s.regQ r := by simp [State.reg]
theorem setReg_8 (s : State) (r : RegNo) (v : BitVec 8) : s.setReg r v = s.setRegB r v := by simp [State.setReg]
theorem setReg_16 (s : State) (r : RegNo) (v : BitVec 16) : s.setReg r v = s.setRegW r v := by simp [State.setReg]
theorem setReg_32 (s : State) (r : RegNo) (v : BitVec 32) : s.setReg r v = s.setRegL r v := by simp [State.setReg]
theorem setReg_64 (s : State) (r : RegNo) (v : BitVec 64) : s.setReg r v = s.setRegQ r v := by simp [State.setReg]
theorem readMem_8 (s : State) (sp : Space) (a : Addr) : s.readMem 8 sp a = s.byteAt sp a := by simp [State.readMem]
theorem readMem_16 (s : State) (sp : Space) (a : Addr) : s.readMem 16 sp a = s.wordAt sp a := by simp [State.readMem]
theorem readMem_32 (s : State) (sp : Space) (a : Addr) : s.readMem 32 sp a = s.longAt sp a := by simp [State.readMem]
theorem putMem_8 (s : State) (sp : Space) (a : Addr) (v : BitVec 8) : s.putMem sp a v = s.putByte sp a v := by
  simp [State.putMem]
theorem putMem_16 (s : State) (sp : Space) (a : Addr) (v : BitVec 16) : s.putMem sp a v = s.putWord sp a v := by
  simp [State.putMem]
theorem putMem_32 (s : State) (sp : Space) (a : Addr) (v : BitVec 32) : s.putMem sp a v = s.putLong sp a v := by
  simp [State.putMem]

/-- `Quiet` field by field. -/
theorem quiet_iff (s t : State) (log : List BusEvent) : Quiet s t log ↔
    t.params = s.params ∧ t.psapSeg = s.psapSeg ∧ t.psapOff = s.psapOff ∧ t.refresh = s.refresh ∧
    t.skipped = s.skipped ∧ t.nmiLatch = s.nmiLatch ∧ t.moActive = s.moActive ∧ t.cpuState = s.cpuState ∧
    t.halted = s.halted ∧ t.resetDue = s.resetDue ∧ t.heldWord = s.heldWord ∧ t.sampleDue = s.sampleDue ∧
    t.sampleVie = s.sampleVie ∧ t.sampleNvie = s.sampleNvie ∧ t.env = s.env ∧ t.draws = s.draws ∧
    t.busLog = log ++ s.busLog := by
  cases s; cases t; simp [Quiet, and_assoc]

/-- `QuietCpu` field by field. -/
theorem quietCpu_iff (s t : State) : QuietCpu s t ↔
    t.params = s.params ∧ t.psapSeg = s.psapSeg ∧ t.psapOff = s.psapOff ∧ t.refresh = s.refresh ∧
    t.skipped = s.skipped ∧ t.nmiLatch = s.nmiLatch ∧ t.moActive = s.moActive ∧ t.cpuState = s.cpuState ∧
    t.halted = s.halted ∧ t.resetDue = s.resetDue ∧ t.heldWord = s.heldWord ∧ t.sampleDue = s.sampleDue ∧
    t.sampleVie = s.sampleVie ∧ t.sampleNvie = s.sampleNvie ∧ t.draws = s.draws := by
  cases s; cases t; simp [QuietCpu]

/-- A register written after the transactions of a log, the FCW replaced, the PC moved on. -/
theorem regResult_intro {n : Nat} (hn : n = 8 ∨ n = 16 ∨ n = 32 ∨ n = 64) (s : State) (d : RegNo) (v : BitVec n)
    (f : Fcw) (hf : f.sn = s.fcw.sn) (words : Nat) (log : List BusEvent := []) :
    RegResult s ((((s.setReg d v).logged log).withFcw f).skip words) d v f words log where
  value := by
    rw [reg_congr (s := s.setReg d v) (by rfl) (by simpa using hf) (by rfl)]
    exact reg_setReg_same hn s d v
  flags := by rfl
  pc := by simp [Advances]
  regs := setReg_onlyRegs hn s d v
  bytes := by
    intro h8 c hc
    rw [regB_congr (s := s.setReg d v) (by rfl) (by simpa using hf) (by rfl)]
    exact regB_setReg_ne h8 s v hc
  mem := by
    intro sp a
    exact byteAt_congr (by simp) (by simp) sp a
  rest := by rw [quiet_iff]; simp

/-- Memory written, the FCW replaced, the PC moved on. -/
theorem memResult_intro {n : Nat} (hn : n = 8 ∨ n = 16 ∨ n = 32) (s : State) (sp : Space) (a : Addr) (v : BitVec n)
    (f : Fcw) (words : Nat) (log : List BusEvent) :
    MemResult s ((((s.putMem sp a v).logged log).withFcw f).skip words) sp a v f words log where
  value := by
    rw [readMem_congr (s := s.putMem sp a v) (by rfl) (by rfl)]; exact readMem_putMem_same hn s sp a v
  flags := by rfl
  pc := by simp [Advances]
  regs := by simp
  mem := by
    intro sp' a' h
    rw [byteAt_congr (s := s.putMem sp a v) (by rfl) (by rfl)]
    exact byteAt_putMem_ne hn s sp sp' a a' v h
  rest := by rw [quiet_iff]; simp

/-- A general operand written, the FCW replaced, the PC moved on; the log of a register operand is empty. -/
theorem locResult_intro {n : Nat} (hn : n = 8 ∨ n = 16 ∨ n = 32) (s : State) (dst : Loc) (v : BitVec n)
    (f : Fcw) (hf : f.sn = s.fcw.sn) (words : Nat) (log : List BusEvent) (hl : ∀ r, dst = .reg r → log = []) :
    LocResult s ((((putLoc s dst v).logged log).withFcw f).skip words) dst v f words log := by
  cases dst with
  | reg r => rw [hl r rfl]; exact regResult_intro (by omega) s r v f hf words
  | mem m => exact memResult_intro hn s s.dataSp (m.addr s) v f words log

/-- The FCW replaced after the transactions of a log, the PC moved on. -/
theorem flagResult_intro (s : State) (f : Fcw) (words : Nat) (log : List BusEvent := []) :
    FlagResult s (((s.logged log).withFcw f).skip words) f words log where
  flags := by rfl
  pc := by rfl
  regs := by rfl
  mem := by rfl
  rest := ⟨by rfl, by rfl⟩

/-! A log commutes with the registers. -/

@[simp] theorem logged_reg (s : State) (l : List BusEvent) (n : Nat) (r : RegNo) : (s.logged l).reg n r = s.reg n r := rfl
@[simp] theorem logged_regW (s : State) (l : List BusEvent) (r : RegNo) : (s.logged l).regW r = s.regW r := rfl

theorem logged_setRegW (s : State) (l : List BusEvent) (r : RegNo) (v : Word) :
    (s.logged l).setRegW r v = (s.setRegW r v).logged l := rfl

theorem logged_setReg (s : State) (l : List BusEvent) {n : Nat} (r : RegNo) (v : BitVec n) :
    (s.logged l).setReg r v = (s.setReg r v).logged l := by
  unfold State.setReg State.setRegB State.setRegQ State.setRegL; (repeat' split) <;> rfl

theorem logged_setRegRun (s : State) (l : List BusEvent) (r : RegNo) (ws : List Word) :
    (s.logged l).setRegRun r ws = (s.setRegRun r ws).logged l := by
  induction ws generalizing s r with
  | nil => rfl
  | cons w ws ih => rw [State.setRegRun, logged_setRegW, ih]; rfl

theorem logged_stepReg (s : State) (l : List BusEvent) (r : RegNo) (k : Word) :
    (s.logged l).stepReg r k = (s.stepReg r k).logged l := rfl

theorem logged_countDown (s : State) (l : List BusEvent) (r : RegNo) :
    (s.logged l).countDown r = (s.countDown r).logged l := rfl

end Sys2Proof.Machine
end

