-- ==== Sys2Proof/Laws/Runs.lean ====
section
/-!
SUPPORT. Sys2Proof/Laws/Runs.lean: runs of words in registers and memory, words at distances from one address, the
FCW and segment words as they are written, and the counts of block instructions.
-/
namespace Sys2Proof.Machine

/-! ## Runs of words (45_load_exchange.md R322, R323) -/

@[simp] theorem regRun_length (s : State) (r : RegNo) (k : Nat) : (s.regRun r k).length = k := by simp [State.regRun]

/-- Word j of a run read from registers. -/
theorem regRun_getElem? (s : State) (r : RegNo) (k j : Nat) (h : j < k) :
    (s.regRun r k)[j]? = some (s.regW (r + BitVec.ofNat 4 j)) := by
  rw [State.regRun, List.getElem?_map, List.getElem?_range h]; rfl

/-- A run of up to sixteen registers written reads back. -/
theorem setRegRun_regW (ws : List Word) (s : State) (r : RegNo) (hl : ws.length ≤ 16) (j : Nat)
    (hj : j < ws.length) :
   some ((s.setRegRun r ws).regW (r + BitVec.ofNat 4 j)) = ws[j]? := by
  induction ws generalizing s r j with
  | nil => simp at hj
  | cons w ws ih =>
    simp only [List.length_cons] at hl hj
    cases j with
    | zero =>
      simp only [State.setRegRun, BitVec.ofNat_eq_ofNat, BitVec.add_zero, List.getElem?_cons_zero, Option.some.injEq]
      unfold State.regW
      rw [setRegRun_phys, setRegW_phys]
      rw [regs_setRegRun_ne]
      · rw [regs_setRegW, if_pos rfl]
      · intro i hi
        rw [setRegW_phys, Ne, phys_inj]
        intro hh
        have := congrArg BitVec.toNat hh
        simp [BitVec.toNat_add] at this
        have := r.isLt
        omega
    | succ j =>
      simp only [State.setRegRun, List.getElem?_cons_succ]
      have e : r + BitVec.ofNat 4 (j+1) = r + 1 + BitVec.ofNat 4 j := by
        rw [BitVec.add_assoc, Nat.add_comm, BitVec.ofNat_add]; rfl
      rw [e]; exact ih _ _ (by omega) _ (by omega)

/-- A run of words stored reads back. -/
theorem putWords_wordAt (ws : List Word) (s : State) (sp : Space) (a : Addr) (hl : ws.length ≤ 16) (j : Nat)
    (hj : j < ws.length) :
   some ((s.putWords sp a ws).wordAt sp (a.plus (BitVec.ofNat 16 (2 * j)))) = ws[j]? := by
  induction ws generalizing s a j with
  | nil => simp at hj
  | cons w ws ih =>
    simp only [List.length_cons] at hl hj
    cases j with
    | zero =>
      simp only [State.putWords, Nat.mul_zero, BitVec.ofNat_eq_ofNat, plus_zero, List.getElem?_cons_zero, Option.some.injEq]
      have : (((s.putWord sp a w).putWords sp (a.plus 2) ws)).wordAt sp a = (s.putWord sp a w).wordAt sp a := by
        unfold State.wordAt
        congr 1
        · apply byteAt_putWords_ne
          intro i hi
          rw [putWord_key, putWord_key, Ne, key_inj]
          rintro ⟨-, hh⟩
          rw [plus_plus] at hh
          have := congrArg Addr.off hh
          simp at this
          have := congrArg BitVec.toNat this
          simp at this; omega
        · apply byteAt_putWords_ne
          intro i hi
          rw [putWord_key, putWord_key, Ne, key_inj]
          rintro ⟨-, hh⟩
          rw [plus_plus] at hh
          have := congrArg Addr.off hh
          simp at this
          have := congrArg BitVec.toNat this
          simp at this; omega
      exact this.trans (wordAt_putWord_same _ _ _ _)
    | succ j =>
      simp only [State.putWords, List.getElem?_cons_succ]
      have e : a.plus (BitVec.ofNat 16 (2 * (j+1))) = (a.plus 2).plus (BitVec.ofNat 16 (2 * j)) := by
        rw [plus_plus, Nat.mul_succ, Nat.add_comm, BitVec.ofNat_add]; rfl
      rw [e]; exact ih _ _ (by omega) _ (by omega)

/-! ## Words at distances from one address -/

/-- A word stored leaves the words apart from it alone. -/
theorem wordAt_putWord_plus (s : State) (sp : Space) (a : Addr) (v i j : Word)
    (h : ∀ x ∈ [0#16, 1#16], ∀ y ∈ [0#16, 1#16], i + y ≠ j + x) :
    (s.putWord sp (a.plus j) v).wordAt sp (a.plus i) = s.wordAt sp (a.plus i) := by
  apply wordAt_putWord_ne
  intro x hx y hy
  rw [plus_plus, plus_plus, ne_eq, plus_inj]
  exact h x hx y hy

/-- A word stored inside a stretch of k bytes leaves the bytes outside the stretch alone. -/
theorem byteAt_putWord_outside (s : State) (sp sp' : Space) (a b : Addr) (v j base : Word) (k : Nat)
    (h0 : ∃ m < k, j = base + BitVec.ofNat 16 m) (h1 : ∃ m < k, j + 1 = base + BitVec.ofNat 16 m)
    (h : ∀ m < k, s.key sp' b ≠ s.key sp ((a.plus base).plus (BitVec.ofNat 16 m))) :
    (s.putWord sp (a.plus j) v).byteAt sp' b = s.byteAt sp' b := by
  obtain ⟨m0, hm0, e0⟩ := h0; obtain ⟨m1, hm1, e1⟩ := h1
  apply byteAt_putWord_ne
  · have := h m0 hm0; rwa [plus_plus, ← e0] at this
  · have := h m1 hm1; rw [plus_plus, ← e1] at this; rwa [plus_plus]

/-! ## Words the CPU writes -/

/-- The FCW word holds the FCW (10_state.md R27). -/
@[simp] theorem ofWord_toWord (f : Fcw) (u : Word) : Fcw.ofWord (f.toWord u) = f := by
  unfold Fcw.toWord wordOf Fcw.controlByte Fcw.flagByte Fcw.ofWord
  simp only [BitVec.getLsbD_append]; cases f; simp

/-- A segment word holds the segment number (47_program_control.md R370). -/
@[simp] theorem segField_segWord (s : State) (slot : Slot) (g : BitVec 7) : segField (s.segWord slot g) = g := by
  unfold segField State.segWord
  apply BitVec.eq_of_getLsbD_eq; intro i hi
  simp only [BitVec.getLsbD_extractLsb', BitVec.getLsbD_append]
  interval_cases i <;> simp

/-! ## Frames (60_exceptions.md R455) -/

/-- Keys depend on the parameters alone. -/
theorem key_of_params {s u : State} (h : u.params = s.params) (sp : Space) (a : Addr) : u.key sp a = s.key sp a := by
  unfold State.key; rw [h]

/-- Words put below an address read back. -/
theorem putBelow_wordAt (ws : List Word) (s : State) (sp : Space) (a : Addr) (hl : ws.length ≤ 16) (j : Nat)
    (hj : j < ws.length) :
    some ((s.putBelow sp a ws).wordAt sp (a.plus (-(BitVec.ofNat 16 (2 * (j + 1)))))) = ws[j]? := by
  induction ws generalizing s a j with
  | nil => simp at hj
  | cons w ws ih =>
    simp only [List.length_cons] at hl hj
    cases j with
    | zero =>
      have : ((s.putWord sp (a.plus (-2)) w).putBelow sp (a.plus (-2)) ws).wordAt sp (a.plus (-2)) =
          (s.putWord sp (a.plus (-2)) w).wordAt sp (a.plus (-2)) := by
        unfold State.wordAt
        congr 1 <;>
        · apply byteAt_putBelow_ne
          intro i hi
          rw [Ne, key_inj]
          rintro ⟨-, hh⟩
          have hh := congrArg Addr.off hh
          simp only [plus_off] at hh
          have : (BitVec.ofNat 16 (i + 1)).toNat = i + 1 := by simp; omega
          bv_omega
      exact congrArg some (this.trans (wordAt_putWord_same _ _ _ _))
    | succ j =>
      have := ih (s.putWord sp (a.plus (-2)) w) (a.plus (-2)) (by omega) j (by omega)
      have e : (a.plus (-2)).plus (-(BitVec.ofNat 16 (2 * (j + 1)))) = a.plus (-(BitVec.ofNat 16 (2 * (j + 1 + 1)))) :=
        plus_neg_two a _
      rwa [e] at this

/-- Words put below an address change no byte outside their stretch. -/
theorem byteAt_putBelow_far (ws : List Word) (s : State) (sp sp' : Space) (a b : Addr) (hl : ws.length ≤ 16)
    (h : ∀ m < 2 * ws.length, s.key sp' b ≠
      s.key sp ((a.plus (-(BitVec.ofNat 16 (2 * ws.length)))).plus (BitVec.ofNat 16 m))) :
    (s.putBelow sp a ws).byteAt sp' b = s.byteAt sp' b := by
  apply byteAt_putBelow_ne
  intro j hj
  have := h (2 * ws.length - (j + 1)) (by omega)
  rw [plus_plus] at this
  have e : -(BitVec.ofNat 16 (2 * ws.length)) + BitVec.ofNat 16 (2 * ws.length - (j + 1)) = -(BitVec.ofNat 16 (j + 1)) := by
    have h1 : (BitVec.ofNat 16 (2 * ws.length)).toNat = 2 * ws.length := by simp; omega
    have h2 : (BitVec.ofNat 16 (2 * ws.length - (j + 1))).toNat = 2 * ws.length - (j + 1) := by simp; omega
    have h3 : (BitVec.ofNat 16 (j + 1)).toNat = j + 1 := by simp; omega
    bv_omega
  rwa [e] at this

@[simp] theorem frame_length (s : State) (id : Word) (saved : Addr) :
    (s.frame id saved).length = if s.isZ8001 then 4 else 3 := by
  unfold State.frame; split <;> rfl

/-! ## Block instructions (42_block_transfer_string.md R202) -/

/-- The count comes to 0 exactly when it was 1. -/
theorem countAfter_zero (s : State) (r : RegNo) : (s.countAfter r == 0) = decide (s.regW r = 1) := by
  rw [Bool.eq_iff_iff, State.countAfter]; simp; bv_omega

/-- A count in range lets the operation go on. -/
theorem withBlockCount_ok {n : Nat} {s : State} {r : RegNo}
    (h : n = 8 ∨ (1 ≤ (s.regW r).toNat ∧ (s.regW r).toNat ≤ 32768)) (k : Out) : s.withBlockCount n r k = k := by
  rw [State.withBlockCount, if_neg]
  rcases h with h | h
  · omega
  · rintro ⟨-, h0 | h0⟩
    · rw [h0] at h; simp at h
    · omega

/-- The offset register of an address register is one of its registers. -/
theorem offReg_mem (s : State) (r : RegNo) : s.offReg r ∈ addrRegs s.segmented r := by
  unfold State.offReg addrRegs; split <;> simp

/-- Registers of lists that are apart differ. -/
theorem ne_of_apart {a b : List RegNo} (h : apart a b = true) {x y : RegNo} (hx : x ∈ a) (hy : y ∈ b) : x ≠ y := by
  rintro rfl
  simp only [apart, List.all_eq_true] at h
  have := h _ hx; simp [hy] at this

/-- The three groups of a block instruction are apart. -/
theorem apart_of_blockIll {a b c : List RegNo} (h : blockIll a b c = none) :
    apart a b = true ∧ apart a c = true ∧ apart b c = true := by
  unfold blockIll require at h
  split at h
  · next h' => simp only [Bool.and_eq_true] at h'; exact ⟨h'.1.1, h'.1.2, h'.2⟩
  · cases h

/-- No check of a list fails: not the first, and not the others. -/
theorem firstReason_none {x : Option Reject} {l : List (Option Reject)} (h : firstReason (x :: l) = none) :
    x = none ∧ firstReason l = none := by
  cases x <;> simp [firstReason] at h ⊢; exact h

/-! ## Repeated steps (48_rotate_shift.md R398) -/

/-- The last step last. -/
theorem times_succ {α : Type} (f : α → α) (k : Nat) (x : α) : times f (k + 1) x = f (times f k x) := by
  induction k generalizing x with
  | zero => rfl
  | succ k ih => rw [times, ih (f x)]; rfl

end Sys2Proof.Machine
end

