-- ==== Sys2Proof/Laws/Step.lean ====
section
/-!
SUPPORT. Sys2Proof/Laws/Step.lean: all that a step can do, said once: the event handled, then the reset reads, a request
accepted, the halted condition, or an instruction fetched and carried out.
-/
namespace Sys2Proof

/-! ## Lengths (30_encoding.md R101) -/

theorem adrCount_bounds (seg : Bool) (v : Word) : 1 ≤ adrCount seg v ∧ adrCount seg v ≤ 2 := by
  unfold adrCount; split <;> omega

/-- A count that is fixed, or fixed up to the words of an address that begins with word 1 or word 2. -/
def Counts (seg : Bool) (f : Word → Word → Nat) : Prop :=
  (∃ k, 1 ≤ k ∧ k ≤ 3 ∧ ∀ w1 w2, f w1 w2 = k) ∨
  (∃ k, 1 ≤ k ∧ k ≤ 2 ∧ ∀ w1 w2, f w1 w2 = k + adrCount seg w1) ∨
  ∀ w1 w2, f w1 w2 = 2 + adrCount seg w2

theorem counts_ite {seg : Bool} {c : Prop} [Decidable c] {f g : Word → Word → Nat} (hf : Counts seg f)
    (hg : Counts seg g) : Counts seg (fun w1 w2 => if c then f w1 w2 else g w1 w2) := by
  by_cases h : c <;> simpa only [h, if_true, if_false]

/-- The count of words is fixed by the first word and, for an address, by the first word of the address. -/
theorem wordsOf_cases (seg : Bool) (w0 : Word) : Counts seg (wordsOf seg w0) := by
  have fixed (k : Nat) (h : 1 ≤ k ∧ k ≤ 3) : Counts seg (fun _ _ => k) := .inl ⟨k, h.1, h.2, fun _ _ => rfl⟩
  have first (k : Nat) (h : 1 ≤ k ∧ k ≤ 2) : Counts seg (fun w1 _ => k + adrCount seg w1) :=
    .inr (.inl ⟨k, h.1, h.2, fun _ _ => rfl⟩)
  have second : Counts seg (fun _ w2 => 2 + adrCount seg w2) := .inr (.inr fun _ _ => rfl)
  show Counts seg (fun w1 w2 => wordsOf seg w0 w1 w2)
  simp only [wordsOf, countF, countTable1, countTwo]
  repeat first
    | exact second
    | exact fixed _ (by omega)
    | exact first _ (by omega)
    | apply counts_ite

theorem wordsOf_bounds (seg : Bool) (w0 w1 w2 : Word) : 1 ≤ wordsOf seg w0 w1 w2 ∧ wordsOf seg w0 w1 w2 ≤ 4 := by
  have h1 := adrCount_bounds seg w1; have h2 := adrCount_bounds seg w2
  obtain ⟨k, _, _, h⟩ | ⟨k, _, _, h⟩ | h := wordsOf_cases seg w0 <;> rw [h] <;> omega

namespace Machine

/-! ## Fetching -/

theorem fetchWord_alone {s : State} (h : Alone s) (k : Nat) (f : Word → State → Out) :
    s.fetchWord k f = f (s.instrWord s.pc k)
      (s.logged [.fetch (k == 0) s.progSp (s.pc.plus (BitVec.ofNat 16 (2 * k))) (s.instrWord s.pc k)]) := by
  rw [State.fetchWord, turn_alone h]; rfl

/-- The words from 0 to m - 1 at the PC. -/
def wordsAtPc (s : State) (m : Nat) : List Word := (List.range m).map (s.instrWord s.pc)

theorem wordsAtPc_getD (s : State) (m k : Nat) (d : Word) :
    (wordsAtPc s m).getD k d = if k < m then s.instrWord s.pc k else d := by
  unfold wordsAtPc; split <;> simp [*]

/-- Words fetched one by one are those the instruction calls for. -/
theorem fetchMore_alone {s : State} (h : Alone s) (f : List Word → State → Out) (n m : Nat) (hm : 1 ≤ m)
    (hl : m ≤ s.lengthAt s.pc) (hn : s.lengthAt s.pc ≤ m + n) :
    s.fetchMore (wordsAtPc s m) n f = f (wordsAtPc s (s.lengthAt s.pc)) (s.logged (fetchRun s m (s.lengthAt s.pc))) := by
  induction n generalizing s m with
  | zero =>
    obtain rfl : m = s.lengthAt s.pc := by omega
    simp [State.fetchMore, fetchRun]
  | succ n ih =>
    have more : (wordsAtPc s m).length < wordsOf s.segmented ((wordsAtPc s m).getD 0 0) ((wordsAtPc s m).getD 1 0)
        ((wordsAtPc s m).getD 2 0) ↔ m < s.lengthAt s.pc := by
      have b1 := adrCount_bounds s.segmented (s.instrWord s.pc 1)
      have b2 := adrCount_bounds s.segmented (s.instrWord s.pc 2)
      have b0 := adrCount_bounds s.segmented 0
      simp only [wordsAtPc_getD, if_pos (show 0 < m from hm), State.lengthAt] at hl ⊢
      rw [show (wordsAtPc s m).length = m by simp [wordsAtPc]]
      obtain ⟨k, _, _, e⟩ | ⟨k, _, _, e⟩ | e := wordsOf_cases s.segmented (s.instrWord s.pc 0) <;>
        simp only [e] at hl ⊢
      · split <;> omega
      · split <;> omega
    rw [State.fetchMore]
    by_cases hlt : m < s.lengthAt s.pc
    · rw [if_pos (more.mpr hlt), show (wordsAtPc s m).length = m by simp [wordsAtPc], fetchWord_alone h]
      have step : wordsAtPc s m ++ [s.instrWord s.pc m] = wordsAtPc s (m + 1) := by simp [wordsAtPc, List.range_succ]
      rw [step]
      have := ih (s := s.logged [.fetch (m == 0) s.progSp (s.pc.plus (BitVec.ofNat 16 (2 * m))) (s.instrWord s.pc m)])
        (by exact h) (m + 1) (by omega) (by exact hlt) (by show s.lengthAt s.pc ≤ _; omega)
      refine this.trans ?_
      have run : fetchRun s (m + 1) (s.lengthAt s.pc) ++
          [.fetch (m == 0) s.progSp (s.pc.plus (BitVec.ofNat 16 (2 * m))) (s.instrWord s.pc m)] =
          fetchRun s m (s.lengthAt s.pc) := by
        unfold fetchRun
        rw [show s.lengthAt s.pc - m = (s.lengthAt s.pc - (m + 1)) + 1 by omega, List.range'_succ]; simp
      rw [← run, ← logged_logged]; rfl
    · obtain rfl : m = s.lengthAt s.pc := by omega
      rw [if_neg (fun c => hlt (more.mp c))]; simp [fetchRun]

/-- The fetched words decode as all four do. -/
theorem decodeFetched_words (s : State) (m : Nat) :
    s.decodeFetched (wordsAtPc s m) = decode s.params.epaMap s.segmented (s.instrWord s.pc 0) (s.instrWord s.pc 1)
      (s.instrWord s.pc 2) (s.instrWord s.pc 3) := by
  unfold State.decodeFetched
  simp only [wordsAtPc_getD, ite_self]

/-! ## The step -/

/-- A step handles its event and counts one draw. -/
theorem step_next {s t : State} (h : step s = .next t) :
    ∃ u, s.popEvent.handle s.event = .next u ∧ t = { u with draws := u.draws + 1 } := bump_next h

/-- A running CPU with a run event. -/
theorem step_running {s : State} {l : Lines} (he : s.event = .run l) (hc : s.cpuState = .running) :
    step s = bump (s.popEvent.runWith l) := by
  have hc1 : s.popEvent.cpuState = .running := hc
  unfold step; rw [he, State.handle, State.leaveBusDisconnect, if_neg (by rw [hc1]; simp), State.leaveStop,
    if_neg (by rw [hc1]; simp)]

/-- What a run of the CPU can do. -/
theorem runWith_next {s t : State} {l : Lines} (h : s.runWith l = .next t) :
    (s.resetDue = true ∧ s.resetReads = .next t) ∨
    (s.resetDue = false ∧ ∃ w0, s.heldWord = some w0 ∧ State.runFrom { s.begin with heldWord := none } w0 = .next t) ∨
    (s.resetDue = false ∧ s.heldWord = none ∧
      ((∃ k, s.request l = some k ∧ s.accept k l = .next t) ∨
       (s.request l = none ∧ s.halted = true ∧ t = s) ∨
       (s.request l = none ∧ s.halted = false ∧ s.runInstr = .next t))) := by
  unfold State.runWith at h
  split at h
  · next e => exact .inl ⟨e, h⟩
  · next e =>
    have e : s.resetDue = false := by simpa using e
    cases hw : s.heldWord with
    | some w0 => rw [hw] at h; exact .inr (.inl ⟨e, w0, rfl, h⟩)
    | none =>
      rw [hw] at h
      refine .inr (.inr ⟨e, rfl, ?_⟩)
      cases hr : s.request l with
      | some k => rw [hr] at h; exact .inl ⟨k, rfl, h⟩
      | none =>
        rw [hr] at h; dsimp only at h
        split at h
        · next e => cases h; exact .inr (.inl ⟨rfl, e, rfl⟩)
        · next e => exact .inr (.inr ⟨rfl, by simpa using e, h⟩)

/-- What an instruction with a fetched first word can do: a trap, the halt before its second word, or its own meaning
once it is fetched and decoded. -/
theorem runFrom_next {s t : State} {w0 : Word} (h : s.runFrom w0 = .next t) :
    (∃ o, s.firstWordTrap w0 = some o ∧ o = .next t ∧ clobbers s t (s.lengthAt s.pc) = false) ∨
    (s.firstWordTrap w0 = none ∧ s.stopAhead w0 = true ∧ t = { s.popBus.enterStop with heldWord := some w0 }) ∨
    (s.firstWordTrap w0 = none ∧ s.fetchMore [w0] 3 (fun ws t => t.runWords ws) = .next t) := by
  unfold State.runFrom at h
  split at h
  · next o e => obtain ⟨h1, h2⟩ := guardStore_next h; exact .inl ⟨o, e, h1, h2⟩
  · next e =>
    split at h
    · next e' => exact .inr (.inl ⟨e, e', by simpa using h.symm⟩)
    · exact .inr (.inr ⟨e, h⟩)

/-- What fetched words can do: they decode, and their instruction runs. -/
theorem runWords_next {s t : State} {ws : List Word} (h : s.runWords ws = .next t) :
    ∃ i, s.decodeFetched ws = .ok i ∧ exec i s = .next t ∧ clobbers s t (encode i).length = false := by
  unfold State.runWords at h
  split at h
  · next i e => obtain ⟨h1, h2⟩ := guardStore_next h; exact ⟨i, e, h1, h2⟩
  · cases h

/-- The trap of a first word is an entry: an Extended Instruction Trap with EPA = 0 or a Privileged Instruction Trap in
normal mode, with the first word as identifier. -/
theorem firstWordTrap_some {s : State} {w0 : Word} {o : Out} (h : s.firstWordTrap w0 = some o) :
    (s.fcw.epa = false ∧ ∃ saved : Addr, saved.seg = s.pc.seg ∧ o = s.enter .extendedInstruction w0 saved) ∨
    (s.fcw.sn = false ∧ o = s.enter .privilegedInstruction w0 (s.pc.plus 2)) := by
  unfold State.firstWordTrap at h
  split at h
  · next e =>
    simp only [Bool.and_eq_true, Bool.not_eq_true'] at e
    cases h
    refine .inl ⟨e.2, ?_⟩
    unfold State.extendedTrap
    generalize s.params.eitSavedPc = p
    generalize templateWords _ _ _ _ = n
    cases p
    · exact ⟨s.pc.plus 2, rfl, by cases n <;> rfl⟩
    · cases n with
      | none => exact ⟨{ s.pc with off := s.undef16 .savedPc }, rfl, rfl⟩
      | some k => exact ⟨s.pc.plus (BitVec.ofNat 16 (2 * k)), rfl, rfl⟩
  · split at h
    · next e => simp only [Bool.and_eq_true, Bool.not_eq_true'] at e; cases h; exact .inr ⟨e.2, rfl⟩
    · cases h

/-- An Extended Instruction Trap is an entry. -/
theorem extendedTrap_eq (s : State) (w : Word) (n : Option Nat) :
    ∃ saved : Addr, saved.seg = s.pc.seg ∧ s.extendedTrap w n = s.enter .extendedInstruction w saved := by
  unfold State.extendedTrap
  generalize s.params.eitSavedPc = p
  cases p
  · exact ⟨s.pc.plus 2, rfl, by cases n <;> rfl⟩
  · cases n with
    | none => exact ⟨{ s.pc with off := s.undef16 .savedPc }, rfl, rfl⟩
    | some k => exact ⟨s.pc.plus (BitVec.ofNat 16 (2 * k)), rfl, rfl⟩

end Machine
end Sys2Proof
end

