-- ==== Sys2Proof/Tests/Slice0.lean ====
section
/-!
SUPPORT. Sys2Proof/Tests/Slice0.lean: the tests of this row. The results are those of the spec: its encodings, the
worked examples of its source and its derived vectors (95_test_vectors.md).
-/
namespace Sys2Proof.Tests
-- One theorem at a time: hundreds of kernel evaluations at once would each take a thread.
set_option Elab.async false
open Sys2Proof Sys2Proof.Machine

/-! ## WellFormed smoke: a term for each check, which the check refuses -/

def ill (seg : Bool) (i : Instr) : Option Reject := i.ill EpaMap.default seg

theorem test_ill_reserved : ill false (.rsvd 0x8100) = some .reserved := by decide
theorem test_ill_mustBeZero : ill false (.epaFcwFromEpu 0x8E00 0x0100) = some .mustBeZero := by decide
theorem test_ill_address_register_0 : ill false (.add 1 (.mem (.ir 0))) = some .zeroField := by decide
theorem test_ill_index_register_0 : ill false (.add 1 (.mem (.x (.ns 0) 0))) = some .zeroField := by decide
theorem test_ill_base_index_register_0 : ill false (.ld 1 (.mem (.bx 2 0))) = some .zeroField := by decide
theorem test_ill_port_register_0 : ill false (.inb 1 (.ir 0)) = some .zeroField := by decide
theorem test_ill_pair : ill false (.addl 3 (.reg 2)) = some .oddPair := by decide
theorem test_ill_source_pair : ill false (.addl 2 (.reg 3)) = some .oddPair := by decide
theorem test_ill_quad : ill false (.multl 2 (.reg 4)) = some .badQuad := by decide
theorem test_ill_address_pair : ill true (.add 1 (.mem (.ir 3))) = some .oddAddressPair := by decide
theorem test_ill_form_in_segmented_mode : ill true (.call (.da (.ns 0))) = some .wrongAddressForm := by decide
theorem test_ill_form_in_nonsegmented_mode : ill false (.call (.da (.long 1 0))) = some .wrongAddressForm := by decide
theorem test_ill_short_form : ill false (.call (.da (.short 1 0))) = some .wrongAddressForm := by decide
theorem test_ill_lda_pair : ill true (.lda 3 (.da (.long 1 0))) = some .oddPair := by decide
theorem test_ill_block_overlap : ill false (.ldir 2 2 4) = some .overlap := by decide
theorem test_ill_compare_overlap : ill false (.cpib 2 3 10 6) = some .overlap := by decide
theorem test_ill_block_input_overlap : ill false (.ini 1 3 3) = some .overlap := by decide
theorem test_ill_block_output_overlap : ill true (.outi 2 4 3) = some .overlap := by decide
theorem test_ill_stack_overlap : ill true (.push 14 (.reg 15)) = some .overlap := by decide
theorem test_ill_translate : ill false (.trib 4 1 5) = some .translateR1 := by decide
theorem test_ill_bit_register : ill false (.bitbDyn 1 8) = some .byteBitRegister := by decide
theorem test_ill_digits : ill false (.rldb 1 1) = some .sameDigitRegister := by decide
theorem test_ill_left_count : ill false (.slab 1 9) = some .shiftRange := by decide
theorem test_ill_right_count : ill false (.sra 1 0) = some .shiftRange := by decide
theorem test_ill_ldm : ill false (.ldmLoad 15 (.ir 1) 2) = some .loadsAddressRegister := by decide
theorem test_ill_template : ill false (.epaInternal 0x8E0C 0) = some .noTemplate := by decide
theorem test_ill_upper_byte : ill false (.epaInternal 0x0F0C 0) = some .noTemplate := by decide

/-- What the decoder answers for words it refuses. -/
def refused (seg : Bool) (w0 w1 : Word) : Option Reject :=
  match decode EpaMap.default seg w0 w1 0 0 with
  | .ok _ => none
  | .error r => some r

/-- A blank cell (R128), a zero field (R134), a nonzero fixed field (R121), an odd pair (R21), an overlap (M-K11). -/
theorem test_refused_words :
    refused false 0x8C13 0 = some .reserved ∧ refused false 0x5F01 0 = some .mustBeZero ∧
    refused false 0x2404 0x0001 = some .mustBeZero ∧ refused false 0x9A63 0 = some .badQuad ∧
    refused false 0x9633 0 = some .oddPair ∧ refused false 0xBB11 0x0310 = some .overlap ∧
    refused true 0x2131 0 = some .oddAddressPair ∧ refused false 0x2408 0 = some .byteBitRegister ∧
    refused false 0xB319 0x0011 = some .shiftRange ∧ refused false 0x8E0C 0 = some .noTemplate := by decide +kernel

/-- One byte is no instruction, and two bytes are not the whole of a two word one. -/
theorem test_truncated :
    (match decodeBytes EpaMap.default false [0x8D], decodeBytes EpaMap.default false [0x5F, 0x00] with
      | .error .truncated, .error .truncated => true
      | _, _ => false) = true := by decide +kernel

/-! ## Decoding: a word of every constructor, written out from its format in the spec -/

/-- The words decode to i, and i encodes to them. -/
def spells (seg : Bool) (ws : List Word) (i : Instr) : Bool :=
  (match decode EpaMap.default seg (ws.getD 0 0) (ws.getD 1 0) (ws.getD 2 0) (ws.getD 3 0) with
    | .ok j => j == i
    | .error _ => false) && encode i == ws

def spellsAll (seg : Bool) (rows : List (List Word × Instr)) : Bool := rows.all (fun p => spells seg p.1 p.2)

theorem test_decode_arithmetic :
    spellsAll false [
      ([0xB412], .adcb 2 1), ([0xB512], .adc 2 1), ([0x8012], .addb 2 (.reg 1)), ([0x0112], .add 2 (.mem (.ir 1))),
      ([0x1602, 0x1234, 0x5678], .addl 2 (.imm 0x12345678)), ([0x4A02, 0x1234], .cpb 2 (.mem (.da (.ns 0x1234)))),
      ([0x4B12, 0x1234], .cp 2 (.mem (.x (.ns 0x1234) 1))), ([0x9024], .cpl 4 (.reg 2)),
      ([0x0C11, 0x5A5A], .cpbMem (.ir 1) 0x5A), ([0x4D01, 0x1234, 0x5678], .cpMem (.da (.ns 0x1234)) 0x5678),
      ([0xB0C0], .dab 12), ([0xAA1F], .decb (.reg 1) 15), ([0x2B10], .dec (.mem (.ir 1)) 0),
      ([0x9B12], .div 2 (.reg 1)), ([0x9A64], .divl 4 (.reg 6)), ([0xB110], .extsb 1), ([0xB12A], .exts 2),
      ([0xB147], .extsl 4), ([0xA810], .incb (.reg 1) 0), ([0x691F, 0x1234], .inc (.mem (.x (.ns 0x1234) 1)) 15),
      ([0x9912], .mult 2 (.reg 1)), ([0x9864], .multl 4 (.reg 6)), ([0x8C12], .negb (.reg 1)),
      ([0x0D12], .neg (.mem (.ir 1))), ([0xB612], .sbcb 2 1), ([0xB712], .sbc 2 1),
      ([0x0202, 0x5A5A], .subb 2 (.imm 0x5A)), ([0x8312], .sub 2 (.reg 1)), ([0x9224], .subl 4 (.reg 2))] = true := by decide +kernel

theorem test_decode_logical :
    spellsAll false [
      ([0x8612], .andb 2 (.reg 1)), ([0x0702, 0x1234], .and 2 (.imm 0x1234)), ([0x8C10], .comb (.reg 1)),
      ([0x4D10, 0x1234], .com (.mem (.x (.ns 0x1234) 1))), ([0x8412], .orb 2 (.reg 1)),
      ([0x0512], .or 2 (.mem (.ir 1))), ([0xAE2E], .tccb 14 2), ([0xAF2E], .tcc 14 2), ([0x8C14], .testb (.reg 1)),
      ([0x8D14], .test (.reg 1)), ([0x9C28], .testl (.reg 2)), ([0x8812], .xorb 2 (.reg 1)),
      ([0x8912], .xor 2 (.reg 1))] = true := by decide +kernel

theorem test_decode_bit_manipulation :
    spellsAll false [
      ([0xA615], .bitbStatic (.reg 1) 5), ([0x670F, 0x1234], .bitStatic (.mem (.da (.ns 0x1234))) 15),
      ([0x2602, 0x0500], .bitbDyn 5 2), ([0x2702, 0x0500], .bitDyn 5 2), ([0xA215], .resbStatic (.reg 1) 5),
      ([0x2315], .resStatic (.mem (.ir 1)) 5), ([0x2202, 0x0500], .resbDyn 5 2), ([0x2302, 0x0500], .resDyn 5 2),
      ([0xA415], .setbStatic (.reg 1) 5), ([0x6515, 0x1234], .setStatic (.mem (.x (.ns 0x1234) 1)) 5),
      ([0x2402, 0x0500], .setbDyn 5 2), ([0x2502, 0x0500], .setDyn 5 2), ([0x8C16], .tsetb (.reg 1)),
      ([0x0D16], .tset (.mem (.ir 1)))] = true := by decide +kernel

theorem test_decode_rotate_and_shift :
    spellsAll false [
      ([0xB210], .rlb 1 false), ([0xB312], .rl 1 true), ([0xB21A], .rlcb 1 true), ([0xB318], .rlc 1 false),
      ([0xB214], .rrb 1 false), ([0xB316], .rr 1 true), ([0xB21E], .rrcb 1 true), ([0xB31C], .rrc 1 false),
      ([0xBE21], .rldb 1 2), ([0xBC21], .rrdb 1 2), ([0xB21B, 0x0300], .sdab 1 3), ([0xB31B, 0x0300], .sda 1 3),
      ([0xB32F, 0x0300], .sdal 2 3), ([0xB213, 0x0300], .sdlb 1 3), ([0xB313, 0x0300], .sdl 1 3),
      ([0xB327, 0x0300], .sdll 2 3), ([0xB219, 0x0008], .slab 1 8), ([0xB319, 0x0010], .sla 1 16),
      ([0xB32D, 0x0020], .slal 2 32), ([0xB211, 0x0000], .sllb 1 0), ([0xB311, 0x0001], .sll 1 1),
      ([0xB325, 0x0020], .slll 2 32), ([0xB219, 0x00F8], .srab 1 8), ([0xB319, 0xFFF0], .sra 1 16),
      ([0xB32D, 0xFFE0], .sral 2 32), ([0xB211, 0x00FF], .srlb 1 1), ([0xB311, 0xFFFF], .srl 1 1),
      ([0xB325, 0xFFE0], .srll 2 32)] = true := by decide +kernel

theorem test_decode_load_and_exchange :
    spellsAll false [
      ([0x8C18], .clrb (.reg 1)), ([0x4D08, 0x1234], .clr (.mem (.da (.ns 0x1234)))), ([0xAC12], .exb 2 (.reg 1)),
      ([0x2D12], .ex 2 (.mem (.ir 1))), ([0x2002, 0x5A5A], .ldb 2 (.imm 0x5A)),
      ([0x3112, 0x0008], .ld 2 (.mem (.ba 1 8))), ([0x7512, 0x0300], .ldl 2 (.mem (.bx 1 3))),
      ([0xC241], .ldbCompact 2 0x41), ([0x7212, 0x0300], .ldbStore (.bx 1 3) 2),
      ([0x2F12], .ldStore (.mem (.ir 1)) 2), ([0x3714, 0xFFFE], .ldlStore (.ba 1 0xFFFE) 4),
      ([0x0C15, 0x5A5A], .ldbImm (.ir 1) 0x5A), ([0x4D05, 0x1234, 0x5678], .ldImm (.da (.ns 0x1234)) 0x5678),
      ([0x7612, 0x1234], .lda 2 (.x (.ns 0x1234) 1)), ([0x3402, 0x000C], .ldar 2 0x000C), ([0xBD79], .ldk 7 9),
      ([0x1C51, 0x0102], .ldmLoad 1 (.ir 5) 2), ([0x5C19, 0x0203, 0x1234], .ldmStore (.x (.ns 0x1234) 1) 2 3),
      ([0x3002, 0x0004], .ldrb 2 4), ([0x3102, 0x0004], .ldr 2 4), ([0x3502, 0x0004], .ldrl 2 4),
      ([0x3202, 0x0004], .ldrbStore 4 2), ([0x3302, 0x0004], .ldrStore 4 2), ([0x3702, 0x0004], .ldrlStore 4 2),
      ([0x9712], .pop (.reg 2) 1), ([0x5510, 0x1234], .popl (.mem (.da (.ns 0x1234))) 1),
      ([0x1312], .push 1 (.mem (.ir 2))), ([0x0D19, 0x1234], .pushImm 1 0x1234), ([0x9112], .pushl 1 (.reg 2))] = true := by decide +kernel

theorem test_decode_block_transfer :
    spellsAll false [
      ([0xBA20, 0x0316], .cpib 2 3 1 6), ([0xBB20, 0x0316], .cpi 2 3 1 6), ([0xBA24, 0x0316], .cpirb 2 3 1 6),
      ([0xBB24, 0x0316], .cpir 2 3 1 6), ([0xBA28, 0x0316], .cpdb 2 3 1 6), ([0xBB28, 0x0316], .cpd 2 3 1 6),
      ([0xBA2C, 0x0316], .cpdrb 2 3 1 6), ([0xBB2C, 0x0316], .cpdr 2 3 1 6), ([0xBA22, 0x0316], .cpsib 2 3 1 6),
      ([0xBB22, 0x0316], .cpsi 2 3 1 6), ([0xBA26, 0x0316], .cpsirb 2 3 1 6), ([0xBB26, 0x0316], .cpsir 2 3 1 6),
      ([0xBA2A, 0x0316], .cpsdb 2 3 1 6), ([0xBB2A, 0x0316], .cpsd 2 3 1 6), ([0xBA2E, 0x0316], .cpsdrb 2 3 1 6),
      ([0xBB2E, 0x0316], .cpsdr 2 3 1 6), ([0xBA21, 0x0318], .ldib 2 3 1), ([0xBB21, 0x0318], .ldi 2 3 1),
      ([0xBA21, 0x0310], .ldirb 2 3 1), ([0xBB21, 0x0310], .ldir 2 3 1), ([0xBA29, 0x0318], .lddb 2 3 1),
      ([0xBB29, 0x0318], .ldd 2 3 1), ([0xBA29, 0x0310], .lddrb 2 3 1), ([0xBB29, 0x0310], .lddr 2 3 1),
      ([0xB840, 0x0350], .trib 4 3 5), ([0xB844, 0x0350], .trirb 4 3 5), ([0xB868, 0x0C90], .trdb 6 12 9),
      ([0xB86C, 0x0C90], .trdrb 6 12 9), ([0xB832, 0x0540], .trtib 3 5 4), ([0xB846, 0x065E], .trtirb 4 6 5),
      ([0xB86A, 0x0C90], .trtdb 6 12 9), ([0xB86E, 0x0C9E], .trtdrb 6 12 9)] = true := by decide +kernel

theorem test_decode_cpu_control :
    spellsAll false [
      ([0x8DC5], .comflg 12), ([0x8D93], .resflg 9), ([0x8D81], .setflg 8), ([0x8D07], .nop),
      ([0x7C05], .ei true false), ([0x7C00], .di true true), ([0x7A00], .halt), ([0x7D12], .ldctlFrom 1 .fcw),
      ([0x7D1B], .ldctlTo .refresh 1), ([0x8C81], .ldctlbFrom 8), ([0x8C89], .ldctlbTo 8),
      ([0x3920], .ldps (.ir 2)), ([0x7B08], .mset), ([0x7B09], .mres), ([0x7B0A], .mbit), ([0x7B2D], .mreq 2)] = true := by decide +kernel

theorem test_decode_input_output :
    spellsAll false [
      ([0x3C18], .inb 8 (.ir 1)), ([0x3B34, 0x0040], .inw 3 (.da 0x0040)), ([0x3A85, 0x0040], .sinb 8 0x0040),
      ([0x3B35, 0x0040], .sin 3 0x0040), ([0x3E18], .outb (.ir 1) 8), ([0x3B66, 0x1120], .outw (.da 0x1120) 6),
      ([0x3A27, 0xFC00], .soutb 0xFC00 2), ([0x3B27, 0xFC00], .sout 0xFC00 2), ([0x3A10, 0x0328], .inib 1 3 2),
      ([0x3B10, 0x0328], .ini 1 3 2), ([0x3A10, 0x0320], .inirb 1 3 2), ([0x3B10, 0x0320], .inir 1 3 2),
      ([0x3A11, 0x0328], .sinib 1 3 2), ([0x3B11, 0x0328], .sini 1 3 2), ([0x3A11, 0x0320], .sinirb 1 3 2),
      ([0x3B11, 0x0320], .sinir 1 3 2), ([0x3A18, 0x0328], .indb 1 3 2), ([0x3B18, 0x0328], .ind 1 3 2),
      ([0x3A18, 0x0320], .indrb 1 3 2), ([0x3B18, 0x0320], .indr 1 3 2), ([0x3A19, 0x0328], .sindb 1 3 2),
      ([0x3B19, 0x0328], .sind 1 3 2), ([0x3A19, 0x0320], .sindrb 1 3 2), ([0x3B19, 0x0320], .sindr 1 3 2),
      ([0x3A22, 0x0318], .outib 2 3 1), ([0x3B22, 0x0318], .outi 2 3 1), ([0x3A22, 0x0310], .otirb 2 3 1),
      ([0x3B22, 0x0310], .otir 2 3 1), ([0x3A23, 0x0318], .soutib 2 3 1), ([0x3B23, 0x0318], .souti 2 3 1),
      ([0x3A23, 0x0310], .sotirb 2 3 1), ([0x3B23, 0x0310], .sotir 2 3 1), ([0x3A2A, 0x0318], .outdb 2 3 1),
      ([0x3B6A, 0x0828], .outd 6 8 2), ([0x3A2A, 0x0310], .otdrb 2 3 1), ([0x3BCA, 0x0DB0], .otdr 12 13 11),
      ([0x3A2B, 0x0318], .soutdb 2 3 1), ([0x3B2B, 0x0318], .soutd 2 3 1), ([0x3A2B, 0x0310], .sotdrb 2 3 1),
      ([0x3B2B, 0x0310], .sotdr 2 3 1)] = true := by decide +kernel

theorem test_decode_program_control :
    spellsAll false [
      ([0x1F10], .call (.ir 1)), ([0xD081], .calr 0x081), ([0xF282], .djnz 2 2), ([0xF801], .dbjnz 8 1),
      ([0x7B00], .iret), ([0x5E0E, 0x2000], .jp 14 (.da (.ns 0x2000))), ([0xE607], .jr 6 7), ([0x9E0E], .ret 14),
      ([0x7F03], .sc 3)] = true := by decide +kernel

theorem test_decode_extended :
    spellsAll false [
      ([0x0F1C, 0x0102], .epaMemFromEpu 15 12 (.ir 1) 0x0102),
      ([0x4F04, 0x0102, 0x1234], .epaEpuFromMem 15 4 (.da (.ns 0x1234)) 0x0102),
      ([0x8F00, 0x0F01], .epaCpuFromEpu 0x8F00 0x0F01), ([0x8F08, 0x0F01], .epaEpuFromCpu 0x8F08 0x0F01),
      ([0x8E00, 0x0000], .epaFcwFromEpu 0x8E00 0x0000), ([0x8E08, 0x0000], .epaEpuFromFcw 0x8E08 0x0000),
      ([0x8E04, 0x1234], .epaInternal 0x8E04 0x1234), ([0x3600], .rsvd 0x3600)] = true := by decide +kernel

theorem test_decode_in_segmented_addresses :
    spellsAll true [
      ([0x4125, 0x8500, 0x1234], .add 5 (.mem (.x (.long 5 0x1234) 2))),
      ([0x6101, 0x0512], .ld 1 (.mem (.mem (.da (.short 5 0x12))))),
      ([0x4D05, 0x8500, 0x1234, 0x5678], .ldImm (.da (.long 5 0x1234)) 0x5678),
      ([0x5C01, 0x0102, 0x0512], .ldmLoad 1 (.da (.short 5 0x12)) 2),
      ([0x7920, 0x8500, 0x0040], .ldps (.x (.long 5 0x40) 2)), ([0x95E2], .popl (.reg 2) 14)] = true := by decide +kernel

/-! ## Single steps: results from the worked examples and derived vectors of 95_test_vectors.md -/

/-- A machine with an FCW, a PC, the program's words there, registers, and words of memory by address. -/
def cpu (v : Variant) (fcw : Word) (pc : Addr) (prog : List Word) (regs : List (RegNo × Word))
    (words : List (Addr × Word)) : State :=
  let s : State := { State.reset with params := { variant := v }, fcw := Fcw.ofWord fcw, pc := pc }
  let s := words.foldl (fun s p => s.putWord ⟨.data, true⟩ p.1 p.2) (s.putWords ⟨.prog, true⟩ pc prog)
  regs.foldl (fun s p => s.setRegW p.1 p.2) s

/-- With bytes of memory. -/
def withBytes (bytes : List (Addr × Byte)) (s : State) : State :=
  bytes.foldl (fun s p => s.putByte ⟨.data, true⟩ p.1 p.2) s

/-- With the system copies of R14 and R15. -/
def stacked (r14 r15 : Word) (s : State) : State := { s with regs := (s.regs.set 16 r14).set 17 r15 }

/-- With an EPU fitted. -/
def withEpu (s : State) : State := { s with params := { s.params with epuFitted := true } }

/-- With these lines active at a sampling point, under the enables of the FCW. -/
def requesting (l : Lines) (s : State) : State :=
  { s with env := ⟨[.run l], [], [], []⟩, sampleDue := true, sampleVie := s.fcw.vie, sampleNvie := s.fcw.nvie }

/-- One step ends in a next state with this property. -/
def after (s : State) (p : State → Bool) : Bool :=
  match step s with
  | .next t => p t
  | .fault _ => false
  | .refused _ => false

/-- One step ends in this fault. -/
def faults (s : State) (f : Fault) : Bool :=
  match step s with
  | .next _ => false
  | .fault g => g == f
  | .refused _ => false

/-- One step ends in this refusal. -/
def refuses (s : State) (r : Refusal) : Bool :=
  match step s with
  | .next _ => false
  | .fault _ => false
  | .refused q => q == r

def word (t : State) (seg : BitVec 7) (off : Word) : Word := t.wordAt ⟨.data, true⟩ ⟨seg, off⟩
def byte (t : State) (seg : BitVec 7) (off : Word) : Byte := t.byteAt ⟨.data, true⟩ ⟨seg, off⟩
def czsv (t : State) : Bool × Bool × Bool × Bool := (t.fcw.c, t.fcw.z, t.fcw.s, t.fcw.pv)

/-- With these actions of the environment before the transactions. -/
def amid (b : List BusAction) (s : State) : State := { s with env := { s.env with bus := b } }

theorem test_add_overflows :
    after (cpu .z8002 0x0000 ⟨0, 0x1000⟩ [0x0100, 0x0001] [(0, 0x7FFF)] [])
      (fun t => t.regW 0 == 0x8000 && czsv t == (false, false, true, true)) = true := by decide +kernel

theorem test_addb_half_carry :
    after (cpu .z8002 0x0008 ⟨0, 0x1000⟩ [0x8008] [(0, 0x0808)] [])
      (fun t => t.regW 0 == 0x0810 && czsv t == (false, false, false, false) && !t.fcw.d &&
        t.fcw.h) = true := by decide +kernel

theorem test_addl_carries_between_words :
    after (cpu .z8002 0x0000 ⟨0, 0x1000⟩ [0x9642] [(2, 0x7FFF), (3, 0xFFFF), (5, 1)] [])
      (fun t => t.regW 2 == 0x8000 && t.regW 3 == 0 && czsv t == (false, false, true,
        true)) = true := by decide +kernel

theorem test_adc_adds_the_carry :
    after (cpu .z8002 0x0080 ⟨0, 0x1000⟩ [0xB510] [(0, 1), (1, 0xFFFF)] [])
      (fun t => t.regW 0 == 1 && czsv t == (true, false, false, false)) = true := by decide +kernel

theorem test_sub_overflows :
    after (cpu .z8002 0x0000 ⟨0, 0x1000⟩ [0x8310] [(0, 0x8000), (1, 1)] [])
      (fun t => t.regW 0 == 0x7FFF && czsv t == (false, false, false, true)) = true := by decide +kernel

theorem test_subb_borrows_from_the_high_digit :
    after (cpu .z8002 0x0000 ⟨0, 0x1000⟩ [0x0209, 0x0101] [(1, 0x10)] [])
      (fun t => t.regW 1 == 0x0F && czsv t == (false, false, false, false) && t.fcw.d &&
        t.fcw.h) = true := by decide +kernel

theorem test_sbc_subtracts_the_carry :
    after (cpu .z8002 0x0080 ⟨0, 0x1000⟩ [0xB710] [] [])
      (fun t => t.regW 0 == 0xFFFF && czsv t == (true, false, true, false)) = true := by decide +kernel

theorem test_cp_equal :
    after (cpu .z8002 0x0000 ⟨0, 0x1000⟩ [0x0B01, 0x0005] [(1, 5)] [])
      (fun t => t.regW 1 == 5 && czsv t == (false, true, false, false)) = true := by decide +kernel

theorem test_cpb_memory_with_immediate :
    after (withBytes [(⟨0, 0x2000⟩, 0x41)] (cpu .z8002 0x0000 ⟨0, 0x1000⟩ [0x4C01, 0x2000, 0x4141] [] []))
      (fun t => byte t 0 0x2000 == 0x41 && czsv t == (false, true, false, false)) = true := by decide +kernel

theorem test_inc_to_negative :
    after (cpu .z8002 0x0080 ⟨0, 0x1000⟩ [0xA810] [(1, 0x7F00)] [])
      (fun t => t.regW 1 == 0x8000 && czsv t == (true, false, true, true)) = true := by decide +kernel

theorem test_dec_below_zero :
    after (cpu .z8002 0x0000 ⟨0, 0x1000⟩ [0xAB50] [] [])
      (fun t => t.regW 5 == 0xFFFF && czsv t == (false, false, true, false)) = true := by decide +kernel

theorem test_neg_one :
    after (cpu .z8002 0x0000 ⟨0, 0x1000⟩ [0x8D82] [(8, 1)] [])
      (fun t => t.regW 8 == 0xFFFF && czsv t == (true, false, true, false)) = true := by decide +kernel

theorem test_neg_most_negative :
    after (cpu .z8002 0x0000 ⟨0, 0x1000⟩ [0x8D82] [(8, 0x8000)] [])
      (fun t => t.regW 8 == 0x8000 && czsv t == (true, false, true, true)) = true := by decide +kernel

theorem test_mult_negative :
    after (cpu .z8002 0x0000 ⟨0, 0x1000⟩ [0x9942] [(3, 0xFFFE), (4, 3)] [])
      (fun t => t.regW 2 == 0xFFFF && t.regW 3 == 0xFFFA && czsv t == (false, false, true,
        false)) = true := by decide +kernel

theorem test_multl_wide :
    after (cpu .z8002 0x0000 ⟨0, 0x1000⟩ [0x9804] [(6, 1), (0, 1)] [])
      (fun t => t.regW 5 == 1 && t.regW 4 == 0 && t.regW 6 == 0 && t.regW 7 == 0 && czsv t == (true, false,
        false, false)) = true := by decide +kernel

theorem test_div_remainder :
    after (cpu .z8002 0x0000 ⟨0, 0x1000⟩ [0x9B52] [(3, 0xA), (5, 3)] [])
      (fun t => t.regW 3 == 3 && t.regW 2 == 1 && czsv t == (false, false, false,
        false)) = true := by decide +kernel

theorem test_div_negative_dividend :
    after (cpu .z8002 0x0000 ⟨0, 0x1000⟩ [0x9B52] [(2, 0xFFFF), (3, 0xFFF9), (5, 2)] [])
      (fun t => t.regW 3 == 0xFFFD && t.regW 2 == 0xFFFF && czsv t == (false, false, true,
        false)) = true := by decide +kernel

theorem test_divl :
    after (cpu .z8002 0x0000 ⟨0, 0x1000⟩ [0x1A04, 0x0000, 0x0007] [(7, 0x64)] [])
      (fun t => t.regW 6 == 0 && t.regW 7 == 0xE && t.regW 4 == 0 && t.regW 5 == 2 && czsv t == (false, false,
        false, false)) = true := by decide +kernel

theorem test_extsb :
    after (cpu .z8002 0x0000 ⟨0, 0x1000⟩ [0xB130] [(3, 0x80)] [])
      (fun t => t.regW 3 == 0xFF80) = true := by decide +kernel

theorem test_exts :
    after (cpu .z8002 0x0000 ⟨0, 0x1000⟩ [0xB12A] [(3, 0x8000)] [])
      (fun t => t.regW 2 == 0xFFFF && t.regW 3 == 0x8000) = true := by decide +kernel

theorem test_extsl :
    after (cpu .z8002 0x0000 ⟨0, 0x1000⟩ [0xB147] [(6, 0x7FFF), (4, 1), (5, 2)] [])
      (fun t => t.regW 4 == 0 && t.regW 5 == 0 && t.regW 6 == 0x7FFF) = true := by decide +kernel

theorem test_dab_after_addition :
    after (cpu .z8002 0x0000 ⟨0, 0x1000⟩ [0xB080] [(0, 0x2D)] [])
      (fun t => t.regW 0 == 0x33 && !t.fcw.c && !t.fcw.z && !t.fcw.s) = true := by decide +kernel

theorem test_dab_after_subtraction :
    after (cpu .z8002 0x000C ⟨0, 0x1000⟩ [0xB080] [(0, 0x2F)] [])
      (fun t => t.regW 0 == 0x29 && !t.fcw.c) = true := by decide +kernel

theorem test_resb_static :
    after (cpu .z8002 0x0000 ⟨0, 0x1000⟩ [0xA2B1] [(3, 0x00B2)] [])
      (fun t => t.regW 3 == 0x00B0) = true := by decide +kernel

theorem test_setb_dynamic :
    after (cpu .z8002 0x0000 ⟨0, 0x1000⟩ [0x2402, 0x0B00] [(3, 0x00B2), (2, 6)] [])
      (fun t => t.regW 3 == 0x00F2) = true := by decide +kernel

theorem test_bit_static :
    after (cpu .z8002 0x0000 ⟨0, 0x1000⟩ [0xA743] [(4, 8)] [])
      (fun t => !t.fcw.z) = true := by decide +kernel

theorem test_bit_dynamic :
    after (cpu .z8002 0x0000 ⟨0, 0x1000⟩ [0x2704, 0x0300] [(3, 8), (4, 0x13)] [])
      (fun t => !t.fcw.z) = true := by decide +kernel

theorem test_set_indexed :
    after (cpu .z8002 0x0000 ⟨0, 0x1000⟩ [0x651F, 0x4000] [(1, 0x10)] [])
      (fun t => word t 0 0x4010 == 0x8000) = true := by decide +kernel

theorem test_tsetb :
    after (cpu .z8002 0x0000 ⟨0, 0x1000⟩ [0x8C86] [(0, 0x7F)] [])
      (fun t => t.regW 0 == 0xFF && !t.fcw.s) = true := by decide +kernel

theorem test_andb_immediate :
    after (cpu .z8002 0x0000 ⟨0, 0x1000⟩ [0x060B, 0x7B7B] [(3, 0xC3)] [])
      (fun t => t.regW 3 == 0x43 && !t.fcw.z && !t.fcw.s && !t.fcw.pv) = true := by decide +kernel

theorem test_or_words :
    after (cpu .z8002 0x0000 ⟨0, 0x1000⟩ [0x8532] [(2, 0xF00), (3, 0xF0)] [])
      (fun t => t.regW 2 == 0xFF0 && !t.fcw.z && !t.fcw.s) = true := by decide +kernel

theorem test_com_word :
    after (cpu .z8002 0x0000 ⟨0, 0x1000⟩ [0x8D10] [(1, 0xFF)] [])
      (fun t => t.regW 1 == 0xFF00 && !t.fcw.z && t.fcw.s) = true := by decide +kernel

theorem test_xorb_parity :
    after (cpu .z8002 0x0000 ⟨0, 0x1000⟩ [0x080B, 0x7B7B] [(3, 0xC3)] [])
      (fun t => t.regW 3 == 0xB8 && !t.fcw.z && t.fcw.s && t.fcw.pv) = true := by decide +kernel

theorem test_test_word :
    after (cpu .z8002 0x0090 ⟨0, 0x1000⟩ [0x8D54] [(5, 0xFFFF)] [])
      (fun t => czsv t == (true, false, true, true)) = true := by decide +kernel

theorem test_testb_memory :
    after (withBytes [(⟨0, 0x3000⟩, 3)] (cpu .z8002 0x0000 ⟨0, 0x1000⟩ [0x0C24] [(2, 0x3000)] []))
      (fun t => !t.fcw.z && !t.fcw.s && t.fcw.pv) = true := by decide +kernel

theorem test_testl :
    after (cpu .z8002 0x0000 ⟨0, 0x1000⟩ [0x9C28] [] [])
      (fun t => t.fcw.z && !t.fcw.s) = true := by decide +kernel

theorem test_tcc_true :
    after (cpu .z8002 0x0040 ⟨0, 0x1000⟩ [0xAF16] [] [])
      (fun t => t.regW 1 == 1) = true := by decide +kernel

theorem test_rl_two :
    after (cpu .z8002 0x0000 ⟨0, 0x1000⟩ [0xB302] [(0, 0x4000)] [])
      (fun t => t.regW 0 == 1 && t.fcw.c && !t.fcw.z && !t.fcw.s) = true := by decide +kernel

theorem test_rrb_two :
    after (cpu .z8002 0x0000 ⟨0, 0x1000⟩ [0xB250] [(5, 0x8800)] [])
      (fun t => t.regW 5 == 0x1100 && czsv t == (true, false, false, true)) = true := by decide +kernel

theorem test_rlc_two :
    after (cpu .z8002 0x0000 ⟨0, 0x1000⟩ [0xB30A] [(0, 0x800F)] [])
      (fun t => t.regW 0 == 0x3D && czsv t == (false, false, false, true)) = true := by decide +kernel

theorem test_rrc_two :
    after (cpu .z8002 0x0000 ⟨0, 0x1000⟩ [0xB30E] [(0, 0xDD)] [])
      (fun t => t.regW 0 == 0x8037 && czsv t == (false, false, true, true)) = true := by decide +kernel

theorem test_rldb :
    after (cpu .z8002 0x0000 ⟨0, 0x1000⟩ [0xBE91] [(1, 0x0045)] [])
      (fun t => t.regW 1 == 0x0450 && !t.fcw.z) = true := by decide +kernel

theorem test_rrdb :
    after (cpu .z8002 0x0000 ⟨0, 0x1000⟩ [0xBC91] [(1, 0x0012)] [])
      (fun t => t.regW 1 == 0x0201 && !t.fcw.z) = true := by decide +kernel

theorem test_sda_right :
    after (cpu .z8002 0x0000 ⟨0, 0x1000⟩ [0xB35B, 0x0100] [(5, 0xC705), (1, 0xFFFE)] [])
      (fun t => t.regW 5 == 0xF1C1 && czsv t == (false, false, true, false)) = true := by decide +kernel

theorem test_sdlb_left :
    after (cpu .z8002 0x0000 ⟨0, 0x1000⟩ [0xB2D3, 0x0100] [(5, 0xB3), (1, 4)] [])
      (fun t => t.regW 5 == 0x30 && t.fcw.c && !t.fcw.z && !t.fcw.s) = true := by decide +kernel

theorem test_slal_eight :
    after (cpu .z8002 0x0000 ⟨0, 0x1000⟩ [0xB32D, 0x0008] [(2, 0x1234), (3, 0xABCD)] [])
      (fun t => t.regW 2 == 0x34AB && t.regW 3 == 0xCD00 && !t.fcw.c && !t.fcw.z &&
        !t.fcw.s) = true := by decide +kernel

theorem test_sla_overflows :
    after (cpu .z8002 0x0000 ⟨0, 0x1000⟩ [0xB319, 0x0001] [(1, 0x4000)] [])
      (fun t => t.regW 1 == 0x8000 && czsv t == (false, false, true, true)) = true := by decide +kernel

theorem test_sll_one :
    after (cpu .z8002 0x0000 ⟨0, 0x1000⟩ [0xB331, 0x0001] [(3, 0x4321)] [])
      (fun t => t.regW 3 == 0x8642 && !t.fcw.c && !t.fcw.z && t.fcw.s) = true := by decide +kernel

theorem test_srab_two :
    after (cpu .z8002 0x0000 ⟨0, 0x1000⟩ [0xB269, 0x00FE] [(6, 0x3B00)] [])
      (fun t => t.regW 6 == 0x0E00 && czsv t == (true, false, false, false)) = true := by decide +kernel

theorem test_srl_six :
    after (cpu .z8002 0x0000 ⟨0, 0x1000⟩ [0xB301, 0xFFFA] [(0, 0x1111)] [])
      (fun t => t.regW 0 == 0x44 && !t.fcw.c && !t.fcw.z && !t.fcw.s) = true := by decide +kernel

theorem test_sdll_right :
    after (cpu .z8002 0x0000 ⟨0, 0x1000⟩ [0xB327, 0x0100] [(2, 0x8000), (1, 0xFFE1)] [])
      (fun t => t.regW 2 == 0 && t.regW 3 == 1 && !t.fcw.c && !t.fcw.z && !t.fcw.s) = true := by decide +kernel

theorem test_sda_count_out_of_range :
    faults (cpu .z8002 0x0000 ⟨0, 0x1000⟩ [0xB35B, 0x0100] [(1, 0x8000)] [])
      .shiftCount = true := by decide +kernel

theorem test_ldb_odd_address :
    after (cpu .z8002 0x0000 ⟨0, 0x1000⟩ [0x6008, 0x2001] [] [(⟨0, 0x2000⟩, 0x1234)])
      (fun t => t.regW 0 == 0x34) = true := by decide +kernel

theorem test_ld_base_address :
    after (cpu .z8002 0x0000 ⟨0, 0x1000⟩ [0x3124, 0x0008] [(2, 0x6000)] [(⟨0, 0x6008⟩, 0x102)])
      (fun t => t.regW 4 == 0x102) = true := by decide +kernel

theorem test_ld_base_index :
    after (cpu .z8002 0x0000 ⟨0, 0x1000⟩ [0x7124, 0x0300] [(2, 0x6000), (3, 8)] [(⟨0, 0x6008⟩, 0x102)])
      (fun t => t.regW 4 == 0x102) = true := by decide +kernel

theorem test_ldl_immediate :
    after (cpu .z8002 0x0000 ⟨0, 0x1000⟩ [0x1402, 0x1234, 0x5678] [] [])
      (fun t => t.regW 2 == 0x1234 && t.regW 3 == 0x5678 && t.pc.off == 0x1006) = true := by decide +kernel

theorem test_ld_store_is_big_endian :
    after (cpu .z8002 0x0000 ⟨0, 0x1000⟩ [0x6F01, 0x2000] [(1, 0x1234)] [])
      (fun t => byte t 0 0x2000 == 0x12 && byte t 0 0x2001 == 0x34) = true := by decide +kernel

theorem test_ldl_store :
    after (cpu .z8002 0x0000 ⟨0, 0x1000⟩ [0x1D52] [(5, 0x4000), (2, 0x1234), (3, 0x5678)] [])
      (fun t => word t 0 0x4000 == 0x1234 && word t 0 0x4002 == 0x5678) = true := by decide +kernel

theorem test_ld_immediate_to_memory :
    after (cpu .z8002 0x0000 ⟨0, 0x1000⟩ [0x0D25, 0x00FF] [(2, 0x4000)] [])
      (fun t => word t 0 0x4000 == 0xFF) = true := by decide +kernel

theorem test_lda_indexed :
    after (cpu .z8002 0x0000 ⟨0, 0x1000⟩ [0x7624, 0x5000] [(2, 0x10)] [])
      (fun t => t.regW 4 == 0x5010) = true := by decide +kernel

theorem test_ldar :
    after (cpu .z8002 0x0000 ⟨0, 0x1000⟩ [0x3402, 0x000C] [] [])
      (fun t => t.regW 2 == 0x1010) = true := by decide +kernel

theorem test_ldr :
    after (cpu .z8002 0x0000 ⟨0, 0x2000⟩ [0x3101, 0x00FC] [] [(⟨0, 0x2100⟩, 0x7777)])
      (fun t => t.regW 1 == 0x7777) = true := by decide +kernel

theorem test_ldr_store :
    after (cpu .z8002 0x0000 ⟨0, 0x2000⟩ [0x3301, 0x00FC] [(1, 0x7777)] [])
      (fun t => word t 0 0x2100 == 0x7777) = true := by decide +kernel

theorem test_ldk :
    after (cpu .z8002 0x0000 ⟨0, 0x1000⟩ [0xBD79] [] [])
      (fun t => t.regW 7 == 9) = true := by decide +kernel

theorem test_ldm_wraps_to_r0 :
    after (cpu .z8002 0x0000 ⟨0, 0x1000⟩ [0x1C51, 0x0E03] [(5, 0x3000)] [(⟨0, 0x3000⟩, 1), (⟨0, 0x3002⟩, 2), (⟨0,
        0x3004⟩, 3), (⟨0, 0x3006⟩, 4)])
      (fun t => t.regW 14 == 1 && t.regW 15 == 2 && t.regW 0 == 3 && t.regW 1 == 4) = true := by decide +kernel

theorem test_ldm_store :
    after (cpu .z8002 0x0000 ⟨0, 0x1000⟩ [0x1CF9, 0x0003] [(15, 0x7FF8), (0, 1), (1, 2), (2, 3), (3, 4)] [])
      (fun t => word t 0 0x7FF8 == 1 && word t 0 0x7FFE == 4 && t.regW 15 == 0x7FF8) = true := by decide +kernel

theorem test_clr_memory :
    after (cpu .z8002 0x0080 ⟨0, 0x1000⟩ [0x4D08, 0x4000] [] [(⟨0, 0x4000⟩, 5)])
      (fun t => word t 0 0x4000 == 0 && t.pc.off == 0x1004 && t.fcw.c) = true := by decide +kernel

theorem test_ex_registers :
    after (cpu .z8002 0x0000 ⟨0, 0x1000⟩ [0xAD10] [(0, 0x1111), (1, 0x2222)] [])
      (fun t => t.regW 0 == 0x2222 && t.regW 1 == 0x1111) = true := by decide +kernel

theorem test_exb_memory :
    after (withBytes [(⟨0, 0x4000⟩, 0xAA)] (cpu .z8002 0x0000 ⟨0, 0x1000⟩ [0x2C18] [(1, 0x4000), (0, 0x55)] []))
      (fun t => byte t 0 0x4000 == 0x55 && t.regW 0 == 0xAA) = true := by decide +kernel

theorem test_pop :
    after (cpu .z8002 0x0000 ⟨0, 0x7000⟩ [0x97C3] [(12, 0x1000), (3, 0x22)] [(⟨0, 0x1000⟩, 0x55)])
      (fun t => t.regW 3 == 0x55 && t.regW 12 == 0x1002) = true := by decide +kernel

theorem test_popl :
    after (cpu .z8002 0x0000 ⟨0, 0x1000⟩ [0x95F2] [(15, 0x7FFC)] [(⟨0, 0x7FFC⟩, 0x1234), (⟨0, 0x7FFE⟩, 0x5678)])
      (fun t => t.regW 2 == 0x1234 && t.regW 3 == 0x5678 && t.regW 15 == 0x8000) = true := by decide +kernel

theorem test_push :
    after (cpu .z8002 0x0000 ⟨0, 0x7000⟩ [0x93C3] [(12, 0x1002), (3, 0x22)] [(⟨0, 0x1000⟩, 0x55)])
      (fun t => word t 0 0x1000 == 0x22 && t.regW 12 == 0x1000) = true := by decide +kernel

theorem test_push_immediate :
    after (cpu .z8002 0x0000 ⟨0, 0x1000⟩ [0x0DF9, 0x1234] [(15, 0x8000)] [])
      (fun t => t.regW 15 == 0x7FFE && word t 0 0x7FFE == 0x1234) = true := by decide +kernel

theorem test_ld_odd_address_stops :
    faults (cpu .z8002 0x0000 ⟨0, 0x1000⟩ [0x2110] [(1, 0x2001)] [])
      .oddAddress = true := by decide +kernel

theorem test_ld_segmented_long_offset :
    after (cpu .z8001 0x8000 ⟨0, 0x1000⟩ [0x6101, 0x8500, 0x0012] [] [(⟨5, 0x12⟩, 0x99)])
      (fun t => t.regW 1 == 0x99 && t.pc.off == 0x1006) = true := by decide +kernel

theorem test_ld_segmented_indirect :
    after (cpu .z8001 0x8000 ⟨0, 0x1000⟩ [0x2121] [(2, 0x0500), (3, 0x0100)] [(⟨5, 0x100⟩, 0x42)])
      (fun t => t.regW 1 == 0x42) = true := by decide +kernel

theorem test_cpdb_found :
    after (withBytes [(⟨0, 0x2001⟩, 0x41)] (cpu .z8002 0x0000 ⟨0, 0x1000⟩ [0xBA28, 0x0386] [(0, 0x41), (2,
        0x2001), (3, 5)] []))
      (fun t => t.regW 2 == 0x2000 && t.regW 3 == 4 && t.fcw.z && !t.fcw.pv) = true := by decide +kernel

theorem test_cpir_goes_on :
    after (cpu .z8002 0x0000 ⟨0, 0x1000⟩ [0xBB44, 0x0506] [(0, 0xD), (4, 0x3000), (5, 3)] [(⟨0, 0x3000⟩, 1), (⟨0,
        0x3002⟩, 0xD), (⟨0, 0x3004⟩, 2)])
      (fun t => t.regW 4 == 0x3002 && t.regW 5 == 2 && t.pc.off == 0x1000 && !t.fcw.z &&
        !t.fcw.pv) = true := by decide +kernel

theorem test_cpsirb_goes_on :
    after (cpu .z8002 0x0000 ⟨0, 0x7000⟩ [0xBA36, 0x042E] [(2, 0x1000), (3, 0x2000), (4, 2)] [(⟨0, 0x1000⟩,
        0x4142), (⟨0, 0x2000⟩, 0x4143)])
      (fun t => t.regW 2 == 0x1001 && t.regW 3 == 0x2001 && t.regW 4 == 1 && t.pc.off == 0x7000 && !t.fcw.z &&
        !t.fcw.pv) = true := by decide +kernel

theorem test_ldi :
    after (cpu .z8002 0x0000 ⟨0, 0x7000⟩ [0xBB21, 0x0318] [(1, 0x2000), (2, 0x1000), (3, 2)] [(⟨0, 0x1000⟩,
        0x1111), (⟨0, 0x1002⟩, 0x2222)])
      (fun t => word t 0 0x2000 == 0x1111 && word t 0 0x2002 == 0 && t.regW 1 == 0x2002 && t.regW 2 == 0x1002 &&
        t.regW 3 == 1 && t.pc.off == 0x7004 && !t.fcw.pv) = true := by decide +kernel

theorem test_lddrb_first_element :
    after (withBytes [(⟨0, 0x2000⟩, 0x11), (⟨0, 0x2001⟩, 0x22), (⟨0, 0x2002⟩, 0x33)] (cpu .z8002 0x0000 ⟨0,
        0x1000⟩ [0xBA29, 0x0310] [(1, 0x2002), (2, 0x2001), (3, 2)] []))
      (fun t => byte t 0 0x2001 == 0x22 && byte t 0 0x2002 == 0x22 && t.regW 1 == 0x2001 && t.regW 2 == 0x2000 &&
        t.regW 3 == 1 && t.pc.off == 0x1000 && !t.fcw.pv) = true := by decide +kernel

theorem test_ldir_count_zero_stops :
    faults (cpu .z8002 0x0000 ⟨0, 0x1000⟩ [0xBB21, 0x0310] [(1, 0x2000), (2, 0x3000)] [])
      .blockCount = true := by decide +kernel

theorem test_trdb :
    after (withBytes [(⟨0, 0x4001⟩, 3), (⟨0, 0x1003⟩, 0xAA)] (cpu .z8002 0x0000 ⟨0, 0x7000⟩ [0xB868, 0x0C90] [(6,
        0x4001), (9, 0x1000), (12, 2)] []))
      (fun t => byte t 0 0x4001 == 0xAA && t.regW 6 == 0x4000 && t.regW 12 == 1 && t.regW 9 == 0x1000 &&
        !t.fcw.pv) = true := by decide +kernel

theorem test_trtdb :
    after (withBytes [(⟨0, 0x4001⟩, 3), (⟨0, 0x1003⟩, 0xAA)] (cpu .z8002 0x0000 ⟨0, 0x7000⟩ [0xB86A, 0x0C90] [(6,
        0x4001), (9, 0x1000), (12, 2)] []))
      (fun t => t.regB 1 == 0xAA && t.regW 6 == 0x4000 && t.regW 12 == 1 && byte t 0 0x4001 == 3 && !t.fcw.z &&
        !t.fcw.pv) = true := by decide +kernel

theorem test_trtirb_goes_on :
    after (withBytes [(⟨0, 0x1041⟩, 7)] (cpu .z8002 0x0000 ⟨0, 0x7000⟩ [0xB846, 0x065E] [(4, 0x4000), (5,
        0x1000), (6, 0x50)] [(⟨0, 0x4000⟩, 0x2041)]))
      (fun t => t.regB 1 == 0 && t.regW 4 == 0x4001 && t.regW 6 == 0x4F && t.pc.off == 0x7000 && t.fcw.z &&
        !t.fcw.pv) = true := by decide +kernel

theorem test_comflg :
    after (cpu .z8002 0x0080 ⟨0, 0x1000⟩ [0x8DC5] [] [])
      (fun t => !t.fcw.c && t.fcw.z) = true := by decide +kernel

theorem test_resflg :
    after (cpu .z8002 0x00B0 ⟨0, 0x1000⟩ [0x8D93] [] [])
      (fun t => czsv t == (false, false, true, false)) = true := by decide +kernel

theorem test_setflg :
    after (cpu .z8002 0x0010 ⟨0, 0x1000⟩ [0x8D81] [] [])
      (fun t => czsv t == (true, false, false, true)) = true := by decide +kernel

theorem test_nop :
    after (cpu .z8002 0x0080 ⟨0, 0x1000⟩ [0x8D07] [] [])
      (fun t => t.pc.off == 0x1002 && t.fcw.c &&
        t.busLog == [.fetch true ⟨.prog, false⟩ ⟨0, 0x1000⟩ 0x8D07]) = true := by decide +kernel

theorem test_ei :
    after (cpu .z8002 0x4000 ⟨0, 0x1000⟩ [0x7C05] [] [])
      (fun t => t.fcw == Fcw.ofWord 0x5000) = true := by decide +kernel

theorem test_di :
    after (cpu .z8002 0x5800 ⟨0, 0x1000⟩ [0x7C01] [] [])
      (fun t => t.fcw == Fcw.ofWord 0x4800) = true := by decide +kernel

theorem test_halt :
    after (cpu .z8002 0x4000 ⟨0, 0x1000⟩ [0x7A00] [] [])
      (fun t => t.halted && t.pc.off == 0x1002) = true := by decide +kernel

theorem test_ldctl_to_fcw :
    after (cpu .z8002 0x4000 ⟨0, 0x1000⟩ [0x7D0A] [(0, 0x5000)] [])
      (fun t => t.fcw == Fcw.ofWord 0x5000) = true := by decide +kernel

theorem test_ldctlb_to_flags :
    after (cpu .z8002 0x0000 ⟨0, 0x1000⟩ [0x8C89] [(0, 0xC3)] [])
      (fun t => czsv t == (true, true, false, false) && !t.fcw.d && !t.fcw.h) = true := by decide +kernel

theorem test_ldps :
    after (cpu .z8002 0x4000 ⟨0, 0x1000⟩ [0x3920] [(2, 0x6000)] [(⟨0, 0x6002⟩, 0x8000)])
      (fun t => t.fcw == Fcw.ofWord 0 && t.pc.off == 0x8000) = true := by decide +kernel

theorem test_mset :
    after (cpu .z8002 0x4000 ⟨0, 0x1000⟩ [0x7B08] [] [])
      (fun t => t.moActive) = true := by decide +kernel

theorem test_mres :
    after (cpu .z8002 0x4000 ⟨0, 0x1000⟩ [0x7B09] [] [])
      (fun t => !t.moActive) = true := by decide +kernel

theorem test_mbit :
    after { cpu .z8002 0x4000 ⟨0, 0x1000⟩ [0x7B0A] [] [] with env := ⟨[], [], [], [true]⟩ }
      (fun t => t.fcw.s) = true := by decide +kernel

theorem test_mreq_granted :
    after { cpu .z8002 0x4000 ⟨0, 0x1000⟩ [0x7B2D] [(2, 3)] [] with env := ⟨[], [], [], [false, true]⟩ }
      (fun t => t.moActive && t.regW 2 == 0 && t.fcw.z && t.fcw.s) = true := by decide +kernel

theorem test_mreq_busy :
    after { stacked 0 5 (cpu .z8002 0x4000 ⟨0, 0x1000⟩ [0x7B2D] [(2, 3)] []) with env := ⟨[], [], [], [true]⟩ }
      (fun t => !t.moActive && t.regW 2 == 3 && !t.fcw.z && !t.fcw.s) = true := by decide +kernel

theorem test_inb :
    after { cpu .z8002 0x4000 ⟨0, 0x1000⟩ [0x3C18] [(1, 0x21)] [] with env := ⟨[], [], [0x5A], []⟩ }
      (fun t => t.regW 0 == 0x5A) = true := by decide +kernel

theorem test_sinb :
    after { cpu .z8002 0x4000 ⟨0, 0x1000⟩ [0x3A85, 0x0040] [] [] with env := ⟨[], [], [7], []⟩ }
      (fun t => t.regW 0 == 7) = true := by decide +kernel

theorem test_out :
    after (cpu .z8002 0x4000 ⟨0, 0x1000⟩ [0x3B66, 0x1120] [(6, 0x5252)] [])
      (fun t => t.busLog == [.ioWrite .standard false 0x1120 0x5252, .fetch false ⟨.prog, true⟩ ⟨0, 0x1002⟩ 0x1120,
        .fetch true ⟨.prog, true⟩ ⟨0, 0x1000⟩ 0x3B66]) = true := by decide +kernel

theorem test_soutb :
    after (cpu .z8002 0x4000 ⟨0, 0x1000⟩ [0x3A27, 0xFC00] [(2, 0x9900)] [])
      (fun t => t.busLog.head? == some (.ioWrite .special true 0xFC00 0x99)) = true := by decide +kernel

theorem test_ini :
    after { cpu .z8002 0x4000 ⟨0, 0x1000⟩ [0x3B10, 0x0328] [(1, 0x40), (2, 0x5000), (3, 2)] [] with env := ⟨[], [], [0xBEEF], []⟩ }
      (fun t => word t 0 0x5000 == 0xBEEF && t.regW 2 == 0x5002 && t.regW 3 == 1 &&
        !t.fcw.pv) = true := by decide +kernel

theorem test_ini_count_zero_stops :
    faults (cpu .z8002 0x4000 ⟨0, 0x1000⟩ [0x3B10, 0x0328] [(1, 0x40), (2, 0x5000)] []) .blockCount = true := by
  decide +kernel

theorem test_otirb_first_byte :
    after (withBytes [(⟨0, 0x6002⟩, 0x43)] (cpu .z8002 0x4000 ⟨0, 0x1000⟩ [0x3A22, 0x0310] [(1, 0x21), (2,
        0x6000), (3, 3)] [(⟨0, 0x6000⟩, 0x4142)]))
      (fun t => t.busLog.take 2 == [.ioWrite .standard true 0x21 0x41,
        .memRead ⟨.data, true⟩ true ⟨0, 0x6000⟩ 0x41] && t.regW 2 == 0x6001 && t.regW 3 == 2 &&
        t.regW 1 == 0x21 && t.pc.off == 0x1000 && !t.fcw.pv) = true := by decide +kernel

theorem test_outd_segmented :
    after (cpu .z8001 0xC000 ⟨0, 0x1000⟩ [0x3B6A, 0x0828] [(2, 0x30), (6, 0x1200), (7, 0x5552), (8,
        0x1001)] [(⟨18, 0x5552⟩, 0x1234)])
      (fun t => t.busLog.head? == some (.ioWrite .standard false 0x30 0x1234) && t.regW 7 == 0x5550 && t.regW 6 == 0x1200 &&
        t.regW 8 == 0x1000 && !t.fcw.pv) = true := by decide +kernel

theorem test_call :
    after (cpu .z8002 0x0000 ⟨0, 0x1000⟩ [0x5F00, 0x2000] [(15, 0x3002)] [])
      (fun t => t.regW 15 == 0x3000 && word t 0 0x3000 == 0x1004 && t.pc.off == 0x2000) = true := by decide +kernel

theorem test_calr :
    after (cpu .z8002 0x0000 ⟨0, 0x1000⟩ [0xD081] [(15, 0x3002)] [])
      (fun t => word t 0 0x3000 == 0x1002 && t.pc.off == 0x0F00) = true := by decide +kernel

theorem test_ret :
    after (cpu .z8002 0x0000 ⟨0, 0x2550⟩ [0x9E0E] [(15, 0x3000)] [(⟨0, 0x3000⟩, 0x1004)])
      (fun t => t.regW 15 == 0x3002 && t.pc.off == 0x1004) = true := by decide +kernel

theorem test_ret_segmented :
    after (cpu .z8001 0x8000 ⟨0, 0x1000⟩ [0x9E08] [(14, 0x0200), (15, 0x0FFC)] [(⟨2, 0xFFC⟩, 0x0100), (⟨2,
        0xFFE⟩, 0x1A)])
      (fun t => t.pc.off == 0x1A && t.pc.seg == 1 && t.regW 15 == 0x1000) = true := by decide +kernel

theorem test_jp_taken :
    after (cpu .z8002 0x0000 ⟨0, 0x1000⟩ [0x5E0E, 0x2000] [] [])
      (fun t => t.pc.off == 0x2000) = true := by decide +kernel

theorem test_jp_not_taken :
    after (cpu .z8002 0x0040 ⟨0, 0x1000⟩ [0x5E0E, 0x2000] [] [])
      (fun t => t.pc.off == 0x1004) = true := by decide +kernel

theorem test_jr_taken :
    after (cpu .z8002 0x0040 ⟨0, 0x1000⟩ [0xE607] [] [])
      (fun t => t.pc.off == 0x1010) = true := by decide +kernel

theorem test_djnz_from_zero :
    after (cpu .z8002 0x0000 ⟨0, 0x1000⟩ [0xF282] [] [])
      (fun t => t.regW 2 == 0xFFFF && t.pc.off == 0xFFE) = true := by decide +kernel

theorem test_dbjnz_ends :
    after (cpu .z8002 0x0000 ⟨0, 0x1000⟩ [0xF801] [(0, 1)] [])
      (fun t => t.regW 0 == 0 && t.pc.off == 0x1002) = true := by decide +kernel

theorem test_iret :
    after (cpu .z8002 0x4000 ⟨0, 0x1000⟩ [0x7B00] [(15, 0x3000)] [(⟨0, 0x3000⟩, 0x7F03), (⟨0, 0x3004⟩, 0x1002)])
      (fun t => t.fcw == Fcw.ofWord 0 && t.pc.off == 0x1002 && t.regs.get 17 == 0x3006) = true := by decide +kernel

theorem test_iret_nonsegmented_stops :
    faults (cpu .z8001 0x4000 ⟨0, 0x1000⟩ [0x7B00] [] [])
      .iretNonsegmented = true := by decide +kernel

theorem test_epu_from_memory :
    after (withEpu (cpu .z8002 0x2000 ⟨0, 0x1000⟩ [0x0F24, 0x0001] [(2, 0x5000)] [(⟨0, 0x5000⟩, 0xAAAA), (⟨0,
        0x5002⟩, 0xBBBB)]))
      (fun t => t.busLog.head? == some (.epuCapture false 0xBBBB) && t.busLog.length == 7 &&
        t.pc.off == 0x1004) = true := by decide +kernel

theorem test_memory_from_epu :
    after { withEpu (cpu .z8002 0x2000 ⟨0, 0x1000⟩ [0x4F0C, 0x0000, 0x5000] [] []) with env := ⟨[], [], [0x1357], []⟩ }
      (fun t => word t 0 0x5000 == 0x1357 && t.pc.off == 0x1006) = true := by decide +kernel

theorem test_epu_from_flags :
    after (withEpu (cpu .z8002 0x2080 ⟨0, 0x1000⟩ [0x8E08, 0x0000] [] []))
      (fun t => t.pc.off == 0x1004 && t.busLog.length == 4) = true := by decide +kernel

theorem test_epu_internal :
    after (withEpu (cpu .z8002 0x2000 ⟨0, 0x1000⟩ [0x8E04, 0x1234] [] []))
      (fun t => t.pc.off == 0x1004) = true := by decide +kernel

theorem test_no_epu_stops :
    refuses (cpu .z8002 0x2000 ⟨0, 0x1000⟩ [0x8E04, 0x1234] [] [])
      .noEpu = true := by decide +kernel

theorem test_disabled_interrupt_waits :
    after { requesting ⟨false, true, false, 5⟩ (stacked 0 0x8000 (cpu .z8002 0x4000 ⟨0, 0x1002⟩ [0x8D07] [] [(⟨0,
        0x401C⟩, 0x4000), (⟨0, 0x4028⟩, 0x2468)])) with psapOff := 0x4000 }
      (fun t => t.pc.off == 0x1004 && t.regs.get 17 == 0x8000) = true := by decide +kernel

theorem test_odd_vector_stops :
    faults (requesting ⟨false, true, false, 3⟩ (stacked 0 0x8000 (cpu .z8001 0x5000 ⟨0, 0x1002⟩ [0x8D07] [] [])))
      .oddVector = true := by decide +kernel

/-! The frame of an entry holds an FCW word whose unused bits are open, so the kernel evaluates no memory after it:
the tests of the entries are about the blocks they load, the frame's place and the request that is accepted; a reset
after the first word of the frame shows the saved PC. -/

/-- The FCW and, for a Z8002, the PC of the block of an exception. -/
def block (s : State) (k : Exc) (id : Word) : Word × Word :=
  (s.wordAt ⟨.prog, true⟩ (s.newFcwAt k), s.wordAt ⟨.prog, true⟩ (s.newPcAt k id))

/-- S20: the System Call block of a Z8002 with PSAP %4000, and its stack pointer after the entry. -/
theorem test_sc_on_a_z8002 :
    (let s := { stacked 0 0x3006 (cpu .z8002 0 ⟨0, 0x1000⟩ [0x7F03] []
        [(⟨0, 0x400C⟩, 0x1000), (⟨0, 0x400E⟩, 0x2000)]) with psapOff := 0x4000 }
     block s .systemCall 0x7F03 == (0x1000, 0x2000) &&
       (framed s 0x7F03 ⟨0, 0x1002⟩).regs.get 17 == 0x3000) = true := by decide +kernel

/-- P17: the System Call block of a Z8001 with PSAP in segment 1. -/
theorem test_sc_on_a_z8001 :
    (let s := { stacked 0x0200 0xF000 (cpu .z8001 0 ⟨3, 0x0100⟩ [0x7F03] []
        [(⟨1, 0x201A⟩, 0x4000), (⟨1, 0x201C⟩, 0x0500), (⟨1, 0x201E⟩, 0x0600)]) with
          psapSeg := 0x0100, psapOff := 0x2000 }
     block s .systemCall 0x7F03 == (0x4000, 0x0500) &&
       s.wordAt ⟨.prog, true⟩ ((s.newPcAt .systemCall 0x7F03).plus 2) == 0x0600 &&
       (framed s 0x7F03 ⟨3, 0x0102⟩).regs.get 17 == 0xEFF8) = true := by decide +kernel

/-- T5: the Privileged Instruction block of a Z8002. -/
theorem test_privileged_block :
    block { cpu .z8002 0 ⟨0, 0x1000⟩ [0x7D01] [] [(⟨0, 0x4008⟩, 0x4000), (⟨0, 0x400A⟩, 0x2222)] with
      psapOff := 0x4000 } .privilegedInstruction 0x7D01 = (0x4000, 0x2222) := by decide +kernel

/-- 60_exceptions.md R466 b: the vector 5 selects the sixth PC of the vectored interrupt block of a Z8002. -/
theorem test_vector_selects_pc :
    (let s := { cpu .z8002 0x5800 ⟨0, 0x1002⟩ [] [] [(⟨0, 0x401C⟩, 0x4000), (⟨0, 0x4028⟩, 0x2468)] with
        psapOff := 0x4000 }
     block s .vi 5 == (0x4000, 0x2468) && block s .vi 0xFF05 == (0x4000, 0x2468)) = true := by decide +kernel

/-- R451: NMI before the segment trap before VI before NVI, each under its enable. -/
theorem test_priority :
    (let s := cpu .z8001 0xD800 ⟨0, 0x1002⟩ [] [] []
     let all := requesting ⟨true, true, true, 0⟩ s
     { all with nmiLatch := true }.request ⟨true, true, true, 0⟩ == some .nmi &&
       all.request ⟨true, true, true, 0⟩ == some .segmentTrap && all.request ⟨false, true, true, 0⟩ == some .vi &&
       all.request ⟨false, false, true, 0⟩ == some .nvi && s.request ⟨true, true, true, 0⟩ == none) = true := by
  decide +kernel

/-- R441: with EIT_SAVED_PC = next_instruction the word after the two of the template is saved, also where word 2 is
not the template's (R429). -/
theorem test_eit_saves_the_next_instruction :
    (let s := amid [.pass, .pass, .reset 5] (stacked 0 0x8000 (cpu .z8002 0 ⟨0, 0x1000⟩ [0x8E00, 0x0100] [] []))
     after { s with params := { s.params with eitSavedPc := .nextInstruction } }
       (fun t => word t 0 0x7FFE == 0x1004)) = true := by decide +kernel

/-- R500: a reset after the first word of a frame leaves that word in memory. -/
theorem test_reset_inside_an_entry :
    after (amid [.pass, .pass, .reset 5] (stacked 0 0x8000 (cpu .z8002 0 ⟨0, 0x1000⟩ [0x7F03] [] [])))
      (fun t => t.resetDue && word t 0 0x7FFE == 0x1002 && t.mem.length == 4) = true := by decide +kernel

/-- R500: a reset after the first of four words of LDM leaves one word stored. -/
theorem test_reset_inside_ldm :
    after (amid [.pass, .pass, .pass, .reset 5] (cpu .z8002 0 ⟨0, 0x1000⟩ [0x1CF9, 0x0003]
        [(15, 0x7FF8), (0, 1), (1, 2)] []))
      (fun t => t.resetDue && word t 0 0x7FF8 == 1 && word t 0 0x7FFA == 0) = true := by decide +kernel

/-- R491: another master's write between the two words of LDL. -/
theorem test_ldl_reads_words_of_different_times :
    after (amid [.pass, .pass, .grant 0 [(0x2000, 0xAA), (0x2003, 0xBB)]] (cpu .z8002 0 ⟨0, 0x1000⟩ [0x1412]
        [(1, 0x2000)] [(⟨0, 0x2000⟩, 0x1122), (⟨0, 0x2002⟩, 0x3344)]))
      (fun t => t.regW 2 == 0x1122 && t.regW 3 == 0x33BB && word t 0 0x2000 == 0xAA22) = true := by decide +kernel

/-- R82: TSET does not give the bus away between its read and its write. -/
theorem test_tset_locks_the_bus :
    after (amid [.pass, .pass, .grant 0 [(0x2000, 0x12)]] (cpu .z8002 0 ⟨0, 0x1000⟩ [0x0D16] [(1, 0x2000)] []))
      (fun t => word t 0 0x2000 == 0xFFFF && !t.fcw.s && t.env.bus.length == 1) = true := by decide +kernel

/-- R84: a store into word 2 of the next instruction stops, though the words there decode no longer. -/
theorem test_store_spoils_the_next_instruction :
    faults (cpu .z8002 0 ⟨0, 0x1000⟩ [0x6F01, 0x1006, 0x1C51, 0x0102] [(1, 0xF102)] []) .storeIntoNextInstruction =
      true := by decide +kernel

/-- R486, R488: a Stop/Refresh cycle adds two to ROW; the sample before the fetch is taken. -/
theorem test_stop_refreshes :
    after { cpu .z8002 0x4000 ⟨0, 0x1000⟩ [] [] [] with
        sampleDue := true, env := ⟨[.stop ⟨false, false, false, 0⟩], [], [], []⟩ }
      (fun t => t.refresh.row == 2 && t.cpuState == .stopRefresh && t.pc.off == 0x1000 && !t.sampleDue) = true := by
  decide +kernel

/-- R493: the instruction that STOP has held goes on before an NMI that came meanwhile. -/
theorem test_stopped_instruction_goes_on :
    after { cpu .z8002 0x4000 ⟨0, 0x1000⟩ [0x8D07] [] [] with cpuState := .stopRefresh, nmiLatch := true }
      (fun t => t.pc.off == 0x1002 && t.nmiLatch && t.refresh.row == 2 && t.sampleDue) = true := by decide +kernel

/-- R488: STOP before the second word of an extended instruction, and the instruction going on. -/
theorem test_stop_before_the_second_word :
    (let s := withEpu (cpu .z8002 0x2000 ⟨0, 0x1000⟩ [0x8E04, 0x1234] [] [])
     after (amid [.pass, .stop] s) (fun t => t.heldWord == some 0x8E04 && t.cpuState == .stopRefresh &&
       t.pc.off == 0x1000) &&
     after { s with heldWord := some 0x8E04, cpuState := .stopRefresh } (fun t => t.heldWord == none &&
       t.pc.off == 0x1004 && t.busLog.head? == some (.epuInstruction 0x8E04 0x1234))) = true := by decide +kernel

/-- R500: after RESET the reset reads are to come. -/
theorem test_reset_begins :
    after { cpu .z8002 0 ⟨0, 0x1000⟩ [] [(3, 7)] [(⟨0, 2⟩, 0x4000)] with env := ⟨[.reset 5], [], [], []⟩ }
      (fun t => t.resetDue && t.regW 3 == 0 && word t 0 2 == 0x4000) = true := by decide +kernel

/-- R501: the reset reads load FCW from address 2 and PC from address 4 of a Z8002. -/
theorem test_reset_reads_program_status :
    after { cpu .z8002 0 ⟨0, 0⟩ [] [] [(⟨0, 2⟩, 0x4000), (⟨0, 4⟩, 0x0100)] with resetDue := true }
      (fun t => t.fcw == Fcw.ofWord 0x4000 && t.pc == ⟨0, 0x0100⟩ && !t.resetDue) = true := by decide +kernel

/-- R500: a RESET shorter than five clocks is no proper reset. -/
theorem test_short_reset_stops :
    faults { cpu .z8002 0 ⟨0, 0x1000⟩ [] [] [] with env := ⟨[.reset 4], [], [], []⟩ } .shortReset = true := by
  decide +kernel

/-- A row of the op code table runs as the first instruction after reset: LDK R7,#9 (D13). -/
theorem test_withFetchWord :
    after (State.reset.withFetchWord 16 0xBD79) (fun t => t.regW 7 == 9 && t.pc.off == 2) = true := by decide +kernel

/-- The first word of a two word row stands in the high bits (log entry 50): LDCTLB is one word, LDM two (D14). -/
theorem test_decodeTableWord :
    (decodeTableWord 32 0x1C510102 == some (.ldmLoad 1 (.ir 5) 2) &&
      decodeTableWord 16 0x8C81 == some (.ldctlbFrom 8)) = true := by decide +kernel

/-! ## Witnesses: for every statement with hypotheses, a state and operands that meet them -/

open Sys2Proof.Claims

/-- A Z8002 in system mode, EPA = 0: R1 a data address, R2 the highest even address, R3 a count of 1, R4 a second
data address, R5 an odd address, R6:R7 = 65535, R8 = 2, R9 = -16, R10 = 17, R15 the stack. -/
def z2 : State :=
  stacked 0 0x8000 (cpu .z8002 0x4000 ⟨0, 0x1000⟩ [0x8D07]
    [(1, 0x2000), (2, 0xFFFE), (3, 1), (4, 0x3000), (5, 0x2001), (7, 0xFFFF), (8, 2), (9, 0xFFF0), (10, 17)] [])

/-- A Z8001 in segmented system mode: RR2 a data address, R1 a count of 32768, RR4 the highest even address of
another segment, RR14 the stack in segment 2, PSAP in segment 1. -/
def z1 : State :=
  { stacked 0x0200 0xF000 (cpu .z8001 0xC000 ⟨3, 0x0100⟩ [0x8D07]
      [(1, 0x8000), (2, 0x0500), (3, 0x2000), (4, 0x0600), (5, 0xFFFE), (6, 0)]
      [(⟨1, 0x2012⟩, 0x4000), (⟨1, 0x201A⟩, 0xC000), (⟨1, 0x201C⟩, 0x0500), (⟨1, 0x201E⟩, 0x0600)]) with
    psapSeg := 0x0100, psapOff := 0x2000 }

/-- The Z8002 with a Program Status Area at %4000, and the Z8001 and the Z8002 in normal mode. -/
def z2psa : State :=
  { stacked 0 0x8000 (cpu .z8002 0x4000 ⟨0, 0x1000⟩ [0x8D07] [] [(⟨0, 0x400C⟩, 0x4000), (⟨0, 0x400E⟩, 0x2000)]) with
    psapOff := 0x4000 }
def z1n : State := { z1 with fcw := Fcw.ofWord 0x8000 }
def z2n : State := { z2psa with fcw := Fcw.ofWord 0 }

/-- With other words at the PC. -/
def running (ws : List Word) (s : State) : State := s.putWords ⟨.prog, true⟩ s.pc ws

theorem alone_z1 : Alone z1 := by unfold Alone; decide +kernel
theorem alone_z2 : Alone z2 := by unfold Alone; decide +kernel
theorem alone_z1n : Alone z1n := by unfold Alone; decide +kernel

theorem witness_RegistersHoldWhatIsWritten :
    (8 = 8 ∨ 8 = 16 ∨ 8 = 32 ∨ 8 = 64) ∧ (64 = 8 ∨ 64 = 16 ∨ 64 = 32 ∨ 64 = 64) ∧ (0 : RegNo) ≠ 8 := by decide

theorem witness_RegisterViews : (7 : RegNo).toNat < 8 ∧ (0 : RegNo).toNat < 8 := by decide

theorem witness_StackPointersAreBanked :
    (z2.fcw.sn = true ∧ z2.isZ8001 = false) ∧ (z1.fcw.sn = true ∧ z1.isZ8001 = true) ∧
    (z1n.fcw.sn = false ∧ z1n.isZ8001 = true) := by decide +kernel

theorem witness_MemoryHoldsWhatIsStored : (32 = 8 ∨ 32 = 16 ∨ 32 = 32) ∧ Memory.wf z1.mem := by decide +kernel

theorem witness_BigEndian : (⟨0, 0xFFFE⟩ : Addr).off.getLsbD 0 = false ∧ (⟨127, 0⟩ : Addr).off.getLsbD 0 = false := by
  decide

theorem witness_EffectiveAddresses : z2.segmented = false ∧ z1.segmented = true := by decide +kernel

theorem witness_DecodeInvertsEncode :
    WellFormed EpaMap.default true (.ldImm (.x (.long 5 0x1234) 2) 7) ∧
    encode (.ldImm (.x (.long 5 0x1234) 2) 7) <+: [0x4D25, 0x8500, 0x1234, 7] := by decide +kernel

theorem witness_DecodedIsWellFormed : decode EpaMap.default false 0xBB21 0x0310 0 0 = .ok (.ldir 2 3 1) := by rfl

theorem witness_ReservedOpcodesAreRefused :
    0xBF#8 ∈ [0x36#8, 0x38#8, 0x78#8, 0x7E#8, 0x9D#8, 0x9F#8, 0xB9#8, 0xBF#8] := by decide

/-- Operands of every mode with their words at even addresses; a byte may lie anywhere. For the statements
AddAndSubtract, Compare, IncrementDecrementNegate, Multiply, ExtendSign, Logic, TestAndTcc, BitManipulation,
ClearAndExchange, LoadRegister, StoreMemory. -/
theorem witness_general_operands :
    (.reg 1 : Src 16).Ready z2 ∧ (.imm 5 : Src 32).Ready z2 ∧ (Loc.reg 3).Ready z2 8 ∧
    (.mem (.ir 5) : Src 8).Ready z2 ∧ (.mem (.ir 2) : Src 32).Ready z2 ∧ (.mem (.ir 4) : Src 16).Ready z1 ∧
    (Loc.mem (.da (.ns 0xFFFE))).Ready z2 16 ∧ (.mem (.bx 1 4) : LdSrc 16).Ready z2 ∧
    AllEven (evens 32 ((LdMem.ba 2 0xFFFE).addr z1)) ∧ AllEven (evens 16 ((Mem.x (.ns 2) 1).addr z2)) := by
  refine ⟨trivial, trivial, trivial, ⟨?_, alone_z2⟩, ⟨?_, alone_z2⟩, ⟨?_, alone_z1⟩, ⟨?_, alone_z2⟩, ⟨?_, alone_z2⟩,
    ?_, ?_⟩ <;> (unfold AllEven; decide +kernel)

/-- Quotients at the ends of the range: 65535 / 2 = 32767 rest 1 fits, 65535 / 1 = 65535 does not, and a divisor 0. -/
theorem witness_Divide :
    (DividesTo (z2.reg 32 6).toInt ((.reg 8 : Src 16).val z2).toInt 32767 1 ∧ fitsSigned 16 32767 = true) ∧
    (DividesTo (z2.reg 32 6).toInt ((.imm 1 : Src 16).val z2).toInt 65535 0 ∧ fitsSigned 16 65535 = false) ∧
    ((.imm 0 : Src 16).val z2).toInt = 0 ∧
    (DividesTo (z2.reg 64 4).toInt ((.imm 0x80000000 : Src 32).val z2).toInt (-0x60004002) 0xFFFF ∧
      fitsSigned 32 (-0x60004002) = true) ∧ (.reg 8 : Src 16).Ready z2 := by
  refine ⟨?_, ?_, ?_, ?_, trivial⟩ <;> first | decide +kernel | (unfold DividesTo; decide +kernel)

/-- Every row of the decimal adjust has a byte at the high end of its digits, and some byte is in no row. -/
theorem witness_DecimalAdjust :
    (∀ row ∈ dabRows, InRow { z2.fcw with d := row.1, c := row.2.1, h := row.2.2.1 }
      (BitVec.ofNat 8 (16 * row.2.2.2.1.2 + row.2.2.2.2.1.2)) row) ∧
    ∀ row ∈ dabRows, ¬InRow { z2.fcw with d := false, c := true, h := false } 0x40 row := by
  constructor
  · intro row hr; fin_cases hr <;> simp [InRow]
  · intro row hr; fin_cases hr <;> simp [InRow]

theorem witness_DigitRotates : (0 : RegNo) ≠ 8 := by decide

theorem witness_ShiftsByCount : (0 ≤ 8 ∧ 8 ≤ 8) ∧ (1 ≤ 1 ∧ 1 ≤ 32) ∧ 32 ≤ 32 := by decide

/-- Counts 2, -16 and, out of range, 17; the register 6 holds 0. -/
theorem witness_ShiftsByRegister :
    (z2.regW 8).toInt = (2 : Nat) ∧ (z2.regW 6).toInt = (0 : Nat) ∧ (z2.regW 9).toInt = -((16 : Nat) : Int) ∧
    16 < (z2.regW 10).toInt.natAbs := by decide +kernel

theorem witness_LoadMultiple : ((Mem.ir 1).addr z2).off.getLsbD 0 = false ∧ (0 : Nat) ≤ (15 : BitVec 4).toNat := by
  decide +kernel

theorem witness_LoadRelative :
    AllEven (evens 32 (relTo z2 0xFFFC)) ∧ AllEven (evens 8 (relTo z2 1)) := by unfold AllEven; decide +kernel

/-- The stack register 15, the source and the destination a register, and memory. -/
theorem witness_PushAndPop :
    stackIll z2.segmented 16 15 (.reg 1) = none ∧ AllEven (z2.addrReg 15 :: (Loc.reg 1).evens z2 16) ∧
    stackIll z2.segmented 32 15 (.mem (.ir 2)) = none ∧ AllEven (z2.addrReg 15 :: (Loc.mem (.ir 2)).evens z2 32) ∧
    stackIll z1.segmented 16 14 (.mem (.ir 4)) = none ∧ AllEven (z1.addrReg 14 :: (Loc.mem (.ir 4)).evens z1 16) ∧
    (z2.addrReg 15).off.getLsbD 0 = false := by unfold AllEven; decide +kernel

/-- Counts 1 and 32768, the ends of the range of a word instruction. -/
theorem witness_CompareBlock :
    (cpxIll z2.segmented 16 1 3 6 = none ∧ CountOk 16 z2 3 ∧ AllEven (evens 16 (z2.addrReg 1))) ∧
    (twoPointersIll z2.segmented 1 3 4 = none ∧ AllEven (evens 16 (z2.addrReg 4) ++ evens 16 (z2.addrReg 1))) ∧
    (twoPointersIll z1.segmented 2 1 4 = none ∧ CountOk 16 z1 1 ∧
      AllEven (evens 16 (z1.addrReg 4) ++ evens 16 (z1.addrReg 2))) := by
  unfold AllEven CountOk; decide +kernel

/-- As for the comparisons, and a count of 0, that is 65536, for bytes. -/
theorem witness_MoveBlock :
    (twoPointersIll z2.segmented 1 3 4 = none ∧ CountOk 16 z2 3 ∧
      AllEven (evens 16 (z2.addrReg 1) ++ evens 16 (z2.addrReg 4))) ∧
    (twoPointersIll z1.segmented 2 6 4 = none ∧ CountOk 8 z1 6 ∧ z1.regW 6 = 0 ∧
      AllEven (evens 8 (z1.addrReg 2) ++ evens 8 (z1.addrReg 4))) := by
  unfold AllEven CountOk; decide +kernel

theorem witness_TranslateBlock :
    translateIll z2.segmented 4 3 2 = none ∧ translateIll z1.segmented 2 6 4 = none := by decide +kernel

/-- System mode with MI Low at once, and High and then Low. -/
theorem witness_SystemControl :
    z2.fcw.sn = true ∧ { z2 with env := ⟨[], [], [], [true]⟩ }.env.miLow = true :: [] ∧
    { z2 with env := ⟨[], [], [], [false, true]⟩ }.env.miLow = false :: true :: [] := by decide +kernel

theorem witness_ControlRegisters :
    z1.fcw.sn = true ∧ z1.isZ8001 = true ∧ z1.refresh.re = false ∧ z1.refresh.row.getLsbD 0 = false ∧
    z2.fcw.sn = true ∧ z2.isZ8001 = false ∧ (z2.regW 1).getLsbD 15 = false := by decide +kernel

theorem witness_LoadProgramStatus :
    (z2.fcw.sn = true ∧ ((Mem.ir 1).addr z2).off.getLsbD 0 = false ∧ z2.segmented = false ∧
      (z2.wordAt z2.dataSp ((Mem.ir 1).addr z2)).getLsbD 15 = false) ∧
    (z1.fcw.sn = true ∧ ((Mem.ir 4).addr z1).off.getLsbD 0 = false ∧ z1.segmented = true) := by decide +kernel

theorem witness_InputOutput : z2.fcw.sn = true ∧ { z2 with env := ⟨[], [], [7], []⟩ }.env.busIn = 7 :: [] := by
  decide +kernel

theorem witness_BlockInput :
    (z2.fcw.sn = true ∧ blockInIll z2.segmented 8 3 1 = none ∧ CountOk 16 z2 3 ∧
      AllEven (evens 16 (z2.addrReg 1))) ∧
    (z1.fcw.sn = true ∧ blockInIll z1.segmented 8 1 4 = none ∧ CountOk 16 z1 1 ∧
      AllEven (evens 16 (z1.addrReg 4))) := by
  unfold AllEven CountOk; decide +kernel

theorem witness_BlockOutput :
    (z2.fcw.sn = true ∧ blockOutIll z2.segmented 1 3 8 = none ∧ CountOk 16 z2 3 ∧
      AllEven (evens 16 (z2.addrReg 1))) ∧
    (z1.fcw.sn = true ∧ blockOutIll z1.segmented 4 1 8 = none ∧ CountOk 16 z1 1 ∧
      AllEven (evens 16 (z1.addrReg 4))) := by
  unfold AllEven CountOk; decide +kernel

/-- Condition 8 holds, condition 0 does not; even stacks in both modes. -/
theorem witness_CallAndReturn :
    (z2.regW 15).getLsbD 0 = false ∧ (z1.regW 15).getLsbD 0 = false ∧ z2.fcw.holds 8 = true ∧
    z2.fcw.holds 0 = false := by decide +kernel

/-! An entry that is ready: the FCW of a block outside the frame is that of before the entry. -/

theorem wordAt_frame_far {s : State} {id : Word} {saved : Addr} {a : Addr}
    (h : ∀ b ∈ [a, a.plus 1], ∀ m < 2 * (if s.isZ8001 then 4 else 3), s.key ⟨.prog, true⟩ b ≠
      s.key ⟨.stack, true⟩ ((s.ssp.plus (-(BitVec.ofNat 16 (2 * (if s.isZ8001 then 4 else 3))))).plus
        (BitVec.ofNat 16 m))) :
    (s.putBelow ⟨.stack, true⟩ s.ssp (s.frame id saved)).wordAt ⟨.prog, true⟩ a = s.wordAt ⟨.prog, true⟩ a := by
  have hl : (s.frame id saved).length ≤ 16 := by rw [frame_length]; split <;> omega
  unfold State.wordAt
  rw [byteAt_putBelow_far _ _ _ _ _ _ hl (by rw [frame_length]; exact h _ (by simp)),
    byteAt_putBelow_far _ _ _ _ _ _ hl (by rw [frame_length]; exact h _ (by simp))]

theorem newFcwAt_eq (s : State) (k : Exc) : s.newFcwAt k = fcwPlace s k := by
  have h : wordOf (hiByte s.psapOff) 0 = s.psapOff &&& 0xFF00 := by
    generalize s.psapOff = w
    apply BitVec.eq_of_getLsbD_eq; intro i hi
    simp only [wordOf, hiByte, BitVec.getLsbD_append, BitVec.getLsbD_extractLsb', BitVec.getLsbD_and]
    interval_cases i <;> simp
  unfold State.newFcwAt fcwPlace State.psa psaBase
  rw [h]
  cases s.isZ8001 <;> cases k <;> rfl

theorem framed_wordAt (s : State) (id : Word) (saved : Addr) (sp : Space) (a : Addr) :
    (framed s id saved).wordAt sp a = (s.putBelow ⟨.stack, true⟩ s.ssp (s.frame id saved)).wordAt sp a := rfl

/-- An entry that is ready is taken. -/
theorem enter_of_ready {s : State} {k : Exc} {id : Word} {saved : Addr} (h : EntryReady s k id saved) :
    ∃ t, s.enter k id saved = .next t ∧
      t.fcw = Fcw.ofWord ((s.putBelow ⟨.stack, true⟩ s.ssp (s.frame id saved)).wordAt ⟨.prog, true⟩ (fcwPlace s k)) := by
  obtain ⟨h1, h2, h3, h4⟩ := h
  have hz : (framed s id saved).isZ8001 = s.isZ8001 := by simp [framed, State.isZ8001]
  rw [enter_alone h4 h1 _ _ _ (by rintro ⟨a, b, c⟩; exact Bool.noConfusion ((h2 a b).symm.trans c)), newFcwAt_eq]
  rw [State.loadFcw, if_neg (by
    rw [hz]; cases e : s.isZ8001
    · rw [framed_wordAt, h3 e]; decide
    · simp)]
  exact ⟨_, rfl, rfl⟩

theorem ready_z1 (k : Exc) (hk : k ≠ .vi) (id : Word) (saved : Addr) : EntryReady z1 k id saved :=
  ⟨by decide +kernel, fun _ h => absurd h hk, fun h => absurd h (by decide +kernel), alone_z1⟩

theorem ready_z1n (k : Exc) (hk : k ≠ .vi) (id : Word) (saved : Addr) : EntryReady z1n k id saved :=
  ⟨by decide +kernel, fun _ h => absurd h hk, fun h => absurd h (by decide +kernel), alone_z1n⟩

theorem ready_z2psa (k : Exc) (id : Word) (saved : Addr) : EntryReady z2psa k id saved :=
  ⟨by decide +kernel, fun h => absurd h (by decide +kernel), fun _ => by
    rw [wordAt_frame_far (by cases k <;> decide +kernel)]; cases k <;> decide +kernel, by unfold Alone; decide +kernel⟩

theorem ready_z2n (k : Exc) (id : Word) (saved : Addr) : EntryReady z2n k id saved :=
  ⟨by decide +kernel, fun h => absurd h (by decide +kernel), fun _ => by
    rw [wordAt_frame_far (by cases k <;> decide +kernel)]; cases k <;> decide +kernel, by unfold Alone; decide +kernel⟩

theorem witness_SystemCall :
    EntryReady z1n .systemCall (0x7F#8 ++ 3#8) (z1n.pc.plus 2) ∧
    EntryReady z2n .systemCall (0x7F#8 ++ 3#8) (z2n.pc.plus 2) := ⟨ready_z1n _ (by decide) _ _, ready_z2n _ _ _⟩

theorem event_idle {s : State} (h : s.env.events = []) : s.event = .run s.idleLines := by simp [State.event, h]

/-- A state at an instruction, its environment idle. -/
theorem atInstruction_of {s : State} (h : s.env = ⟨[], [], [], []⟩ ∧ s.cpuState = .running ∧ s.resetDue = false ∧
    s.heldWord = none ∧ s.sampleDue = false ∧ s.halted = false ∧ s.pc.off.getLsbD 0 = false) :
    AtInstruction s s.idleLines := by
  obtain ⟨he, h1, h2, h3, h4, h5, h6⟩ := h
  refine ⟨⟨?_, h1, h2, h3, ?_, h5⟩, h6, ?_⟩
  · exact event_idle (by simp [he])
  · simp [State.request, h4]
  · simp [Alone, he]

/-- Both modes, and a step at HALT with a nonzero field, which decodes to nothing, on a Z8001 in normal mode. -/
theorem witness_PrivilegedTrap :
    (isPrivileged .halt = true ∧ z2n.fcw.sn = false ∧ z1n.fcw.sn = false ∧
      EntryReady z1n .privilegedInstruction (firstWord .halt) (z1n.pc.plus 2) ∧
      EntryReady z2n .privilegedInstruction (firstWord .halt) (z2n.pc.plus 2)) ∧
    (let s := running [0x7A05] z1n
     AtInstruction s s.idleLines ∧ privilegedUpper (fetched s 0) = true ∧ s.fcw.sn = false ∧
       EntryReady s .privilegedInstruction (fetched s 0) (s.pc.plus 2)) :=
  ⟨⟨by decide, by decide +kernel, by decide +kernel, ready_z1n _ (by decide) _ _, ready_z2n _ _ _⟩,
    atInstruction_of (by decide +kernel), by decide +kernel, by decide +kernel,
    by decide +kernel, fun _ h => absurd h (by decide), fun h => absurd h (by decide +kernel),
    by unfold Alone; decide +kernel⟩

/-- Both values of EIT_SAVED_PC; a step at a template's word 0 with a second word that is refused. -/
theorem witness_ExtendedTrap :
    isExtended (.epaInternal 0x8E04 0) = true ∧
    (z1n.fcw.epa = false ∧ z1n.params.eitSavedPc = .secondWord ∧
      EntryReady z1n .extendedInstruction 0x8E04 (z1n.pc.plus 2)) ∧
    (z2n.fcw.epa = false ∧
      { z2n with params := { z2n.params with eitSavedPc := .nextInstruction } }.params.eitSavedPc =
        .nextInstruction) ∧
    EntryReady z2n .extendedInstruction 0x8E04 (z2n.pc.plus 4) ∧
    (let s := running [0x8E00, 0x0100] { z1n with params := { z1n.params with eitSavedPc := .nextInstruction } }
     AtInstruction s s.idleLines ∧ extendedUpper (fetched s 0) = true ∧ s.fcw.epa = false ∧
       s.params.eitSavedPc = .nextInstruction ∧
       templateWords s.params.epaMap s.segmented (fetched s 0) (fetched s 2) = some 2 ∧
       ∀ saved, EntryReady s .extendedInstruction (fetched s 0) saved) :=
  ⟨by decide, ⟨by decide +kernel, by decide +kernel, ready_z1n _ (by decide) _ _⟩, by decide +kernel, ready_z2n _ _ _,
    atInstruction_of (by decide +kernel), by decide +kernel, by decide +kernel, by decide +kernel, by decide +kernel,
    fun _ => ⟨by decide +kernel, fun _ h => absurd h (by decide), fun h => absurd h (by decide +kernel),
      by unfold Alone; decide +kernel⟩⟩

/-- The words at the PC decode to i. -/
def decodesTo (s : State) (i : Instr) : Bool :=
  match decoded s with
  | .ok j => j == i
  | .error _ => false

theorem decoded_of {s : State} {i : Instr} (h : decodesTo s i = true) : decoded s = .ok i := by
  unfold decodesTo at h; split at h
  · next j e => rw [e, eq_of_beq h]
  · cases h

/-- The words at the PC are refused for r. -/
def decodesNot (s : State) (r : Reject) : Bool :=
  match decoded s with
  | .ok _ => false
  | .error q => q == r

theorem undecoded_of {s : State} {r : Reject} (h : decodesNot s r = true) : decoded s = .error r := by
  unfold decodesNot at h; split at h
  · cases h
  · next q e => rw [e, eq_of_beq h]

/-- No store changes a byte of no instruction. -/
theorem storeChanges_nil (s : State) (es : List BusEvent) (m : List Host.Cell) : storeChanges s [] m es = false := by
  induction es generalizing m with
  | nil => rfl
  | cons e es ih => simp [storeChanges, ih]

/-- A Z8001 in normal mode at a reserved word of the privileged group, whose trap goes to an odd address: no instruction
comes next. -/
def z1trap : State := running [0x7A05] (z1n.putWord ⟨.prog, true⟩ ⟨1, 0x2016⟩ 0x0601)

theorem z1trap_steps : ∃ t, step z1trap = .next t := by
  have hr : z1trap.begin.popEvent.env.bus = [] := by decide +kernel
  let w : State := z1trap.popEvent.begin.logged [.fetch true ⟨.prog, false⟩ z1trap.pc 0x7A05]
  obtain ⟨t, h, ht⟩ : ∃ t, w.enter .privilegedInstruction 0x7A05 (w.pc.plus 2) = .next t ∧ t.pc.off = 0x0601 := by
    have he := enter_alone (s := w) (by unfold Alone; decide +kernel) (by decide +kernel) .privilegedInstruction 0x7A05
      (w.pc.plus 2) (by decide)
    rw [State.loadFcw, if_neg (by
      have : (framed w 0x7A05 (w.pc.plus 2)).isZ8001 = w.isZ8001 := by simp [framed, State.isZ8001]
      rw [this]; decide +kernel)] at he
    refine ⟨_, he, ?_⟩
    have hz : w.isZ8001 = true := by decide +kernel
    simp only [State.serve, hz, if_true]
    rw [framed_wordAt, wordAt_frame_far (by decide +kernel)]; decide +kernel
  have hc : clobbers w t (w.lengthAt w.pc) = false := by
    have hp : t.pc ≠ w.pc := fun c => by
      rw [c] at ht; exact absurd ht (by decide +kernel)
    rw [clobbers, followers, if_neg hp]
    simp [ht, storeChanges_nil]
  refine ⟨{ t with draws := t.draws + 1 }, ?_⟩
  have hs : step z1trap = bump (w.runFrom 0x7A05) := by
    unfold step
    rw [show z1trap.event = .run z1trap.idleLines from rfl, State.handle, State.leaveBusDisconnect, if_neg (by decide +kernel),
      State.leaveStop, if_neg (by decide +kernel), State.runWith, if_neg (by decide +kernel)]
    have hh : z1trap.popEvent.heldWord = none := by decide +kernel
    have hq : z1trap.popEvent.request z1trap.idleLines = none := by
      rw [State.request, if_neg (by decide +kernel)]
    rw [hh]; dsimp only; rw [hq]; dsimp only
    rw [if_neg (by decide +kernel), State.runInstr, if_neg (by decide +kernel),
      fetchWord_alone (by unfold Alone; decide +kernel)]
    have e0 : z1trap.popEvent.begin.instrWord z1trap.popEvent.begin.pc 0 = 0x7A05 := by decide +kernel
    rw [e0]
    rfl
  rw [hs]
  have hf : w.firstWordTrap 0x7A05 = some (w.enter .privilegedInstruction 0x7A05 (w.pc.plus 2)) := by
    rw [State.firstWordTrap, if_neg (by decide +kernel), if_pos (by decide +kernel)]
  rw [State.runFrom, hf]; dsimp only
  rw [h, guardStore, hc]; rfl

theorem halt_traps {s t : State} (hs : s.fcw.sn = false)
    (h : s.enter .privilegedInstruction 0x7A00 (s.pc.plus 2) = .next t) : exec .halt s = .next t := by
  show privileged .halt s _ = _
  rw [privileged, if_neg (by simp [hs])]; exact h

theorem internal_traps {s t : State} (hs : s.fcw.epa = false) (h : s.extendedTrap 0x8E04 (some 2) = .next t) :
    exec (.epaInternal 0x8E04 0) s = .next t := by
  rw [exec, execEpaInternal, extended, if_pos hs]; exact h

theorem accepts_nmi {s t : State} (hs : Alone s)
    (h : State.enter { (s.record (.abortedFetch s.progSp s.pc)).record (.acknowledge .nmi 9) with nmiLatch := false } .nmi 9 s.pc =
      .next t) : s.accept .nmi ⟨false, false, false, 9⟩ = .next t := by
  rw [State.accept, turn_alone hs, turn_alone (by exact hs)]; exact h

/-- Each of the eight clauses. -/
theorem witness_IdentifierWord :
    (Alone z1n ∧ ∃ t, exec (.sc 3) z1n = .next t) ∧ (z1n.fcw.sn = false ∧ ∃ t, exec .halt z1n = .next t) ∧
    (z1n.fcw.epa = false ∧ ∃ t, exec (.epaInternal 0x8E04 0) z1n = .next t) ∧
    (AtInstruction z1trap z1trap.idleLines ∧ trapsFirst z1trap = true ∧ ∃ t, step z1trap = .next t) ∧
    (let s := running [0x7A05] z2
     AtInstruction s s.idleLines ∧ trapsFirst s = false ∧ decoded s = .error .mustBeZero) ∧
    (∃ t, z1.accept .nmi ⟨false, false, false, 9⟩ = .next t) ∧
    (loByte 0x1205 = loByte 0x0005 ∧ Exc.nvi ≠ .vi) ∧
    (Alone z1 ∧ (∃ t, z1.leave = .next t) ∧ { z1 with regs := z1.regs.set 17 1 }.leave = .fault .oddAddress) := by
  refine ⟨⟨alone_z1n, ?_⟩, ⟨by decide +kernel, ?_⟩, ⟨by decide +kernel, ?_⟩,
    ⟨atInstruction_of (by decide +kernel), by decide +kernel, z1trap_steps⟩,
    ⟨atInstruction_of (by decide +kernel), by decide +kernel, undecoded_of (by decide +kernel)⟩, ?_,
    ⟨by decide, by decide⟩, alone_z1, ⟨_, rfl⟩, rfl⟩
  · obtain ⟨t, h, -⟩ := enter_of_ready (ready_z1n .systemCall (by decide) (0x7F#8 ++ 3#8) (z1n.pc.plus 2)); exact ⟨t, h⟩
  · obtain ⟨t, h, -⟩ := enter_of_ready (ready_z1n .privilegedInstruction (by decide) 0x7A00 (z1n.pc.plus 2))
    exact ⟨t, halt_traps (by decide +kernel) h⟩
  · obtain ⟨saved, -, e⟩ := extendedTrap_eq z1n 0x8E04 (some 2)
    obtain ⟨t, h, -⟩ := enter_of_ready (ready_z1n .extendedInstruction (by decide) 0x8E04 saved)
    exact ⟨t, internal_traps (by decide +kernel) (e.trans h)⟩
  · obtain ⟨t, h, -⟩ := enter_of_ready (k := .nmi) (id := 9) (saved := z1.pc)
      (s := { (z1.record (.abortedFetch z1.progSp z1.pc)).record (.acknowledge .nmi 9) with nmiLatch := false })
      ⟨by decide +kernel, fun _ h => absurd h (by decide), fun h => absurd h (by decide +kernel),
        by unfold Alone; decide +kernel⟩
    exact ⟨t, accepts_nmi alone_z1 h⟩

theorem witness_InterruptReturn :
    z1.fcw.sn = true ∧ z1.isZ8001 = true ∧ z1.fcw.seg = true ∧ z1.ssp.off.getLsbD 0 = false ∧ Alone z1 ∧
    z2.fcw.sn = true ∧ z2.isZ8001 = false ∧ z2.ssp.off.getLsbD 0 = false ∧ Alone z2 ∧
    (z2.wordAt ⟨.stack, true⟩ (z2.ssp.plus 2)).getLsbD 15 = false ∧
    { z1 with fcw := Fcw.ofWord 0x4000 }.fcw.seg = false := by unfold Alone; decide +kernel

/-- An entry on a Z8002 whose new FCW selects system mode, and one on a Z8001 that stays segmented. -/
theorem witness_ReturnUndoesEntry :
    (∃ t, Alone z2psa ∧ z2psa.enter .systemCall 0x7F03 ⟨0, 0x1002⟩ = .next t ∧ z2psa.pc.seg = 0 ∧
      z2psa.fcw.seg = false ∧ z2psa.isZ8001 = false ∧ t.fcw.sn = true) ∧
    ∃ t, Alone z1 ∧ z1.enter .systemCall 0x7F03 ⟨3, 0x0102⟩ = .next t ∧ z1.isZ8001 = true ∧ t.fcw.sn = true ∧
      t.fcw.seg = true := by
  obtain ⟨t, h, hf⟩ := enter_of_ready (ready_z2psa .systemCall 0x7F03 ⟨0, 0x1002⟩)
  obtain ⟨u, h', hf'⟩ := enter_of_ready (ready_z1 .systemCall (by decide) 0x7F03 ⟨3, 0x0102⟩)
  refine ⟨⟨t, by unfold Alone; decide +kernel, h, by decide +kernel, by decide +kernel, by decide +kernel, ?_⟩,
    u, alone_z1, h', by decide +kernel, ?_⟩
  · rw [hf, wordAt_frame_far (by decide +kernel)]; decide +kernel
  · rw [hf', wordAt_frame_far (by decide +kernel)]; decide +kernel

theorem witness_ExtendedInstructions :
    ({ z2 with fcw := Fcw.ofWord 0x6000 }.fcw.epa = true ∧
      (withEpu { z2 with fcw := Fcw.ofWord 0x6000 }).params.epuFitted = true ∧
      ((Mem.ir 1).addr z2).off.getLsbD 0 = false ∧ Alone z2) ∧
    ({ z2 with fcw := Fcw.ofWord 0x6000 }.params.epuFitted = false ∧ isExtended (.epaInternal 0x8E04 0) = true) := by
  unfold Alone; decide +kernel

/-- An instruction of one word, and one of four. -/
theorem witness_StepRunsTheDecodedInstruction :
    (AtInstruction z2 z2.idleLines ∧ decoded z2 = .ok .nop) ∧
    (let s := running [0x4D25, 0x8500, 0x1234, 7] z1
     AtInstruction s s.idleLines ∧ decoded s = .ok (.ldImm (.x (.long 5 0x1234) 2) 7)) :=
  ⟨⟨atInstruction_of (by decide +kernel), decoded_of (by decide +kernel)⟩,
    atInstruction_of (by decide +kernel), decoded_of (by decide +kernel)⟩

theorem witness_StepKeepsInvariant : Inv z2 ∧ after z2 (fun _ => true) = true :=
  ⟨⟨by decide +kernel, by decide +kernel, by decide +kernel, by decide +kernel, by decide +kernel, by decide +kernel⟩,
    by decide +kernel⟩

theorem witness_NormalModeIsConfined :
    z2n.fcw.sn = false ∧ z2n.event = .run z2n.idleLines ∧ Alone z2n ∧ z2n.resetDue = false ∧
    after z2n (fun _ => true) = true :=
  ⟨by decide +kernel, rfl, by unfold Alone; decide +kernel, by decide +kernel, by decide +kernel⟩

/-- Each of the four clauses: a reset of four and of five clocks, the reset reads on both variants, a reset between the
first and second word of LDM and of a frame. -/
theorem witness_ResetSequence :
    ({ z2 with env := ⟨[.reset 4], [], [], []⟩ }.event = .reset 4 ∧
      { z2 with env := ⟨[.reset 5], [], [], []⟩ }.event = .reset 5) ∧
    ({ z2 with resetDue := true }.event = .run z2.idleLines ∧ z2.cpuState = .running ∧ Alone z2 ∧
      (z2.wordAt ⟨.prog, true⟩ ⟨0, 2⟩).getLsbD 15 = false ∧ z1.isZ8001 = true) ∧
    (((Mem.ir 1).addr z2).off.getLsbD 0 = false ∧ (15 : BitVec 4) ≠ 0 ∧
      (amid [.pass, .reset 5] z2).env.bus = .pass :: .reset 5 :: []) ∧
    ((amid [.pass, .reset 5] z1).env.bus = .pass :: .reset 5 :: [] ∧ z1.ssp.off.getLsbD 0 = false ∧
      (0x1204 : Word).getLsbD 0 = false) :=
  ⟨⟨rfl, rfl⟩, ⟨rfl, by decide +kernel, alone_z2, by decide +kernel, by decide +kernel⟩,
    ⟨by decide +kernel, by decide, rfl⟩, rfl, by decide +kernel, by decide⟩

/-- A nonmaskable interrupt accepted; a state without a sampling point. -/
theorem witness_InterruptRequests :
    { z2 with env := ⟨[.nmiEdge], [], [], []⟩ }.event = .nmiEdge ∧ z2.sampleDue = false ∧
    (let l : Lines := ⟨false, false, false, 9⟩
     let s := { requesting l z1 with nmiLatch := true }
     s.sampleDue = true ∧ s.event = .run l ∧ s.cpuState = .running ∧ s.resetDue = false ∧ s.heldWord = none ∧
       s.request l = some .nmi ∧ EntryReady s .nmi l.ackId s.pc) :=
  ⟨rfl, by decide +kernel, by decide +kernel, rfl, by decide +kernel, by decide +kernel, by decide +kernel,
    by decide +kernel, by decide +kernel, fun _ h => absurd h (by decide), fun h => absurd h (by decide +kernel),
    by unfold Alone; decide +kernel⟩

/-- The Z8002 with EPA = 1 and an EPU at an extended instruction. -/
def z2epu : State := running [0x8E04, 0x1234] (withEpu { z2 with fcw := Fcw.ofWord 0x6000 })

/-- Each of the ten clauses. -/
theorem witness_RefreshAndPauses :
    (let l : Lines := ⟨true, true, true, 0⟩
     let s := { z2 with env := ⟨[.stop l], [], [], []⟩ }
     (s.event = .stop l ∧ s.cpuState = .running ∧ s.resetDue = false ∧ s.halted = false ∧ s.request l = none ∧
       s.pc.off.getLsbD 0 = false) ∧ { s with halted := true }.request l = none ∧
       { s with cpuState := .stopRefresh }.event = .stop l) ∧
    { z2 with cpuState := .stopRefresh }.event = .run z2.idleLines ∧
    (let s := amid [.pass, .stop] z2epu
     AtFetch s s.idleLines ∧ s.pc.off.getLsbD 0 = false ∧ extendedUpper (fetched s 0) = true ∧ s.fcw.epa = true ∧
       s.env.bus = .pass :: .stop :: []) ∧
    (let s := { z2epu with heldWord := some 0x8E04 }
     s.event = .run s.idleLines ∧ s.cpuState = .running ∧ s.resetDue = false ∧ s.heldWord = some 0x8E04 ∧
       extendedUpper 0x8E04 = true ∧ s.fcw.epa = true ∧ Alone s ∧ fetched s 0 = 0x8E04 ∧
       decoded s = .ok (.epaInternal 0x8E04 0x1234)) ∧
    ({ z2 with env := ⟨[.busGrant 3 []], [], [], []⟩ }.event = .busGrant 3 [] ∧ z2.cpuState ≠ .stopRefresh) ∧
    { z2 with cpuState := .busDisconnect, skipped := 2 }.event = .run z2.idleLines ∧
    (((Mem.ir 1).addr z2).off.getLsbD 0 = false ∧
      (amid [.pass, .grant 1 [(0x2002, 7)]] z2).env.bus = .pass :: .grant 1 [(0x2002, 7)] :: []) ∧
    ({ z2 with halted := true }.event = .run z2.idleLines ∧ { z2 with halted := true }.request z2.idleLines = none) :=
  ⟨⟨⟨rfl, by decide +kernel, by decide +kernel, by decide +kernel, by decide +kernel, by decide +kernel⟩,
      by decide +kernel, rfl⟩, rfl,
    ⟨⟨rfl, by decide +kernel, by decide +kernel, by decide +kernel, rfl, by decide +kernel⟩, by decide +kernel,
      by decide +kernel, by decide +kernel, rfl⟩,
    ⟨rfl, by decide +kernel, by decide +kernel, rfl, by decide, by decide +kernel, by unfold Alone; decide +kernel,
      by decide +kernel, decoded_of (by decide +kernel)⟩,
    ⟨rfl, by decide +kernel⟩, rfl, ⟨by decide +kernel, rfl⟩, rfl, rfl⟩

/-- The Z8002 with an odd system stack pointer, and with words at R1, at the system stack pointer, at a block of the
Program Status Area and at the reset address whose bit 15 is set. -/
def z2odd : State := { z2 with regs := z2.regs.set 17 0x8001 }
def z2bit : State :=
  (((z2psa.putWord ⟨.data, true⟩ ⟨0, 0x2000⟩ 0xC000).putWord ⟨.data, true⟩ ⟨0, 0x8002⟩ 0xC000).putWord
    ⟨.data, true⟩ ⟨0, 0x400C⟩ 0xC000).putWord ⟨.data, true⟩ ⟨0, 2⟩ 0xC000

/-- Each of the clauses. -/
theorem witness_Stops :
    (OddAddr ((Mem.ir 5).addr z2) ∧ OddAddr ((LdMem.ba 1 0xFFFF).addr z2) ∧ OddAddr (relTo z2 0xFFFF) ∧
      OddAddr (z2.addrReg 5)) ∧
    (z2.fcw.sn = true ∧ { z2epu with pc := ⟨0, 0x1000⟩ }.fcw.epa = true ∧ z2epu.params.epuFitted = true) ∧
    (OddAddr z2odd.sp ∧ OddAddr z2odd.ssp ∧ z2odd.fcw.sn = true ∧ z2odd.isZ8001 = false ∧
      z2odd.fcw.holds 8 = true) ∧
    (let s := { z2 with pc := ⟨0, 0x1001⟩ }
     AtFetch s s.idleLines ∧ OddAddr s.pc) ∧
    (¬CountOk 16 z2 6 ∧ ¬CountOk 16 z2 9 ∧ CountOk 16 z2 3 ∧ ∃ a ∈ [z2.addrReg 5], OddAddr a) ∧
    (z2.isZ8001 = false ∧ (z2.regW 9).getLsbD 15 = true) ∧
    (Alone z2bit ∧ ¬OddAddr ((Mem.da (.ns 0x2000)).addr z2bit) ∧ ¬OddAddr z2bit.ssp ∧
      (z2bit.wordAt z2bit.dataSp ((Mem.da (.ns 0x2000)).addr z2bit)).getLsbD 15 = true ∧
      (z2bit.wordAt ⟨.stack, true⟩ (z2bit.ssp.plus 2)).getLsbD 15 = true ∧
      (z2bit.wordAt ⟨.prog, true⟩ ⟨0, 2⟩).getLsbD 15 = true ∧ z2bit.fcw.sn = true ∧ z2bit.isZ8001 = false ∧
      { z2bit with resetDue := true }.event = .run { z2bit with resetDue := true }.idleLines) ∧
    ((z2bit.putBelow ⟨.stack, true⟩ z2bit.ssp (z2bit.frame 0x7F00 ⟨0, 0x1002⟩)).wordAt ⟨.prog, true⟩
      (fcwPlace z2bit .systemCall)).getLsbD 15 = true ∧
    (z1.isZ8001 = true ∧ ¬OddAddr z1.ssp ∧ (0x0003 : Word).getLsbD 0 = true) ∧
    (let s := running [0x6F01, 0x1004] z2
     AtInstruction s s.idleLines ∧ decoded s = .ok (.ldStore (.mem (.da (.ns 0x1004))) 1) ∧
       ¬OddAddr ((LdMem.mem (.da (.ns 0x1004))).addr s) ∧
       s.key s.dataSp ((LdMem.mem (.da (.ns 0x1004))).addr s) =
         s.key s.progSp (s.pc.plus (BitVec.ofNat 16 (2 * (1 + (LdMem.mem (.da (.ns 0x1004))).extra)))) ∧
       s.regW 1 ≠ s.wordAt s.dataSp ((LdMem.mem (.da (.ns 0x1004))).addr s)) := by
  refine ⟨?_, ?_, ?_, ⟨⟨rfl, ?_, ?_, ?_, rfl, ?_⟩, ?_⟩, ?_, ?_, ⟨?_, ?_, ?_, ?_, ?_, ?_, ?_, ?_, event_idle (by decide +kernel)⟩,
    by rw [wordAt_frame_far (by decide +kernel)]; decide +kernel, ?_,
    atInstruction_of (by decide +kernel), decoded_of (by decide +kernel), ?_, ?_, ?_⟩
  all_goals
    try unfold Alone
    try unfold OddAddr
    try unfold CountOk
    decide +kernel

end Sys2Proof.Tests
end

section
/-!
PROOF. The condition codes (10_state.md R33).
-/
namespace Sys2Proof.Machine

/-- Inverting the top bit of a code keeps the number of its predicate in the table. -/
theorem toNat_mod_eight_xor_topBit (cc : Cc) : (cc ^^^ 0b1000#4).toNat % 8 = cc.toNat % 8 := by
  revert cc
  decide

/-- R33: the code with its top bit inverted is the negation. -/
theorem holds_xor_topBit (f : Fcw) (cc : Cc) : f.holds (cc ^^^ 0b1000#4) = !f.holds cc := by
  have topBit : (cc ^^^ 0b1000#4).getLsbD 3 = !cc.getLsbD 3 := by simp
  simp only [Fcw.holds, ccTrue, toNat_mod_eight_xor_topBit, topBit, Bool.xor_not]

/-- R33: a code below 8 is its predicate of the table, as it stands. -/
theorem holds_of_lt_eight (f : Fcw) {cc : Cc} (low : cc.toNat < 8) :
    f.holds cc = ccLow f.c f.z f.s f.pv cc.toNat := by
  have topBit : cc.getLsbD 3 = false := Nat.testBit_lt_two_pow low
  simp only [Fcw.holds, ccTrue, Nat.mod_eq_of_lt low, topBit, Bool.xor_false]

/-- R33: a code of 8 and more negates the predicate of the code 8 below it. -/
theorem holds_topBit_of_lt_eight (f : Fcw) {cc : Cc} (low : cc.toNat < 8) :
    f.holds (cc ^^^ 0b1000#4) = !ccLow f.c f.z f.s f.pv cc.toNat := by
  rw [holds_xor_topBit, holds_of_lt_eight f low]

end Sys2Proof.Machine

open Sys2Proof Sys2Proof.Machine

/-- Settles O1: codes 0 to 7 are the rows of the table, and codes 8 to 15 their negations by the top bit. -/
theorem conditionCodes : Obligations.ConditionCodes := by
  intro f
  have low (k : Cc) (below : k.toNat < 8) := holds_of_lt_eight f below
  have high (k : Cc) (below : k.toNat < 8) := holds_topBit_of_lt_eight f below
  exact ⟨low 0 (by decide), low 1 (by decide), low 2 (by decide), low 3 (by decide),
    low 4 (by decide), low 5 (by decide), low 6 (by decide), low 7 (by decide),
    high 0 (by decide), high 1 (by decide), high 2 (by decide), high 3 (by decide),
    high 4 (by decide), high 5 (by decide), high 6 (by decide), high 7 (by decide),
    holds_xor_topBit f⟩
end

section
/-!
PROOF. The byte order of memory (20_memory.md R65).
-/
namespace Sys2Proof.Machine

/-! ## Reading -/

/-- R65: the bytes of a word, upper byte first. -/
theorem hiByte_wordAt (s : State) (sp : Space) (a : Addr) : hiByte (s.wordAt sp a) = s.byteAt sp a :=
  hiByte_wordOf _ _

theorem loByte_wordAt (s : State) (sp : Space) (a : Addr) : loByte (s.wordAt sp a) = s.byteAt sp (a.plus 1) :=
  loByte_wordOf _ _

/-- R65: the words of a long word, upper word first. -/
theorem hiWord_longAt (s : State) (sp : Space) (a : Addr) : hiWord (s.longAt sp a) = s.wordAt sp a :=
  hiWord_append _ _

theorem loWord_longAt (s : State) (sp : Space) (a : Addr) : loWord (s.longAt sp a) = s.wordAt sp (a.plus 2) :=
  loWord_append _ _

/-- A field of the upper word of a long word stands 16 bits higher in the long word. -/
theorem extractLsb'_hiWord (v : Long) (i n : Nat) (fits : i + n ≤ 16) :
    (hiWord v).extractLsb' i n = v.extractLsb' (16 + i) n := by
  apply BitVec.eq_of_getLsbD_eq
  intro j hj
  have inWord : i + j < 16 := by omega
  simp [hiWord, BitVec.getLsbD_extractLsb', inWord, Nat.add_assoc]

theorem extractLsb'_loWord (v : Long) (i n : Nat) (fits : i + n ≤ 16) :
    (loWord v).extractLsb' i n = v.extractLsb' i n :=
  BitVec.extractLsb'_extractLsb'_of_le fits

/-- R65, R71: word k of an instruction is the two bytes from 2k on. -/
theorem instrWord_eq_append_bytes (s : State) (a : Addr) (k : Nat) :
    s.instrWord a k = s.byteAt s.progSp (a.plus (BitVec.ofNat 16 (2 * k))) ++
      s.byteAt s.progSp (a.plus (BitVec.ofNat 16 (2 * k + 1))) := by
  rw [BitVec.ofNat_add, ← plus_plus]
  rfl

/-! ## Storing: the bytes after a word store are those of the word that reads back -/

theorem byteAt_putWord_same (s : State) (sp : Space) (a : Addr) (v : Word) :
    (s.putWord sp a v).byteAt sp a = hiByte v := by
  rw [← hiByte_wordAt, wordAt_putWord_same]

theorem byteAt_putWord_plus_one (s : State) (sp : Space) (a : Addr) (v : Word) :
    (s.putWord sp a v).byteAt sp (a.plus 1) = loByte v := by
  rw [← loByte_wordAt, wordAt_putWord_same]

end Sys2Proof.Machine

open Sys2Proof Sys2Proof.Machine

/-- Settles O7: each part is one of the byte order's rules, and a byte of a long word is a byte of one of its words.
The order holds at odd addresses too, so the evenness of the address is not used. -/
theorem bigEndian : Obligations.BigEndian := by
  intro s sp a _
  have byte3 : (s.longAt sp a).extractLsb' 24 8 = s.byteAt sp a := by
    rw [← hiByte_wordAt, ← hiWord_longAt]
    exact (extractLsb'_hiWord _ 8 8 (by decide)).symm
  have byte2 : (s.longAt sp a).extractLsb' 16 8 = s.byteAt sp (a.plus 1) := by
    rw [← loByte_wordAt, ← hiWord_longAt]
    exact (extractLsb'_hiWord _ 0 8 (by decide)).symm
  have byte1 : (s.longAt sp a).extractLsb' 8 8 = s.byteAt sp (a.plus 2) := by
    rw [← hiByte_wordAt, ← loWord_longAt]
    exact (extractLsb'_loWord _ 8 8 (by decide)).symm
  have byte0 : (s.longAt sp a).extractLsb' 0 8 = s.byteAt sp (a.plus 3) := by
    have lastByte : a.plus 3 = (a.plus 2).plus 1 := (plus_plus a 2 1).symm
    rw [lastByte, ← loByte_wordAt, ← loWord_longAt]
    exact (extractLsb'_loWord _ 0 8 (by decide)).symm
  exact ⟨hiByte_wordAt s sp a, loByte_wordAt s sp a, hiWord_longAt s sp a, loWord_longAt s sp a,
    byte3, byte2, byte1, byte0, instrWord_eq_append_bytes s a,
    fun v => ⟨byteAt_putWord_same s sp a v, byteAt_putWord_plus_one s sp a v⟩⟩
end

section
/-!
PROOF. The flags of a logical result (46_logical.md R350).
-/
namespace Sys2Proof.Machine
open Sys2Proof.Claims

/-- The exclusive or of the bits of a list is the parity of their number of ones. -/
theorem foldl_xor_eq_xor_odd_countP {α : Type} (bit : α → Bool) (l : List α) (p : Bool) :
    l.foldl (fun q i => q ^^ bit i) p = (p ^^ decide (l.countP bit % 2 = 1)) := by
  induction l generalizing p with
  | nil => simp
  | cons i l ih =>
    rw [List.foldl_cons, ih, List.countP_cons]
    cases bit i with
    | false => simp
    | true =>
      have flips : decide ((l.countP bit + 1) % 2 = 1) = !decide (l.countP bit % 2 = 1) := by
        rw [← decide_not]
        exact decide_eq_decide.mpr (by omega)
      rw [if_pos rfl, flips, Bool.xor_assoc, Bool.true_xor]

/-- R30: the parity the model computes is that of the number of 1 bits. -/
theorem evenParity_eq_evenOnes (b : Byte) : evenParity b = evenOnes b := by
  rw [evenParity, foldl_xor_eq_xor_odd_countP, Bool.false_xor, ← decide_not, evenOnes]
  exact decide_eq_decide.mpr Nat.mod_two_ne_one

/-- R350: Z and S are those of the result, and P/V is written for a byte alone. -/
theorem logic_eq_logicFlags (f : Fcw) {n : Nat} (r : BitVec n) : f.logic r = logicFlags f r := by
  have zero : (r == 0) = decide (r = 0) := rfl
  unfold Fcw.logic logicFlags
  rw [zero, BitVec.msb_eq_getLsbD_last, evenParity_eq_evenOnes]
  by_cases byte : n = 8
  · simp only [if_pos byte]
  · simp only [if_neg byte]

end Sys2Proof.Machine

open Sys2Proof Sys2Proof.Machine Sys2Proof.Claims

/-- Settles O2: both widths are cases of one equation, and for a byte the cut to 8 bits is the byte itself. -/
theorem logicalFlags : Obligations.LogicalFlags := by
  intro f
  have word (r : Word) : f.logic r = { f with z := decide (r = 0), s := r.getLsbD 15 } :=
    logic_eq_logicFlags f r
  have byte (r : Byte) : f.logic r = { f with z := decide (r = 0), s := r.getLsbD 7, pv := evenOnes r } := by
    rw [logic_eq_logicFlags, logicFlags, if_pos rfl, BitVec.setWidth_eq]
  exact ⟨word, byte⟩
end
section
/-!
PROOF. Decoding undoes encoding (30_encoding.md sections 1 to 5): what an operand gives a first word and the words
behind it, and that each operand decoder reads its operand back from them.
-/
namespace Sys2Proof

/-! ## What an operand puts into the words -/

/-- The mode bits and the field of an operand in the first word, and the words behind the op code words. -/
structure Coding where
  mode  : BitVec 2
  field : BitVec 4
  words : List Word

/-- The words of an instruction with an operand: op and b fill the first word, `mid` stands before the operand's
words. -/
def Coding.put (c : Coding) (op : BitVec 6) (b : BitVec 4) (mid : List Word) : List Word :=
  asm c.mode op c.field b :: (mid ++ c.words)

def Mem.coding : Mem → Coding
  | .ir r => ⟨0, r, []⟩
  | .da a => ⟨1, 0, a.words⟩
  | .x a r => ⟨1, r, a.words⟩

def Src.coding {n : Nat} : Src n → Coding
  | .reg r => ⟨2, r, []⟩
  | .imm v => ⟨0, 0, immWords v⟩
  | .mem m => m.coding

def Loc.coding : Loc → Coding
  | .reg r => ⟨2, r, []⟩
  | .mem m => m.coding

theorem encMem_eq_put (op : BitVec 6) (m : Mem) (b : BitVec 4) (mid : List Word) :
    encMem op m b mid = m.coding.put op b mid := by
  cases m <;> simp [encMem, Coding.put, Mem.coding]

theorem encF2_eq_put (op : BitVec 6) {n : Nat} (d : RegNo) (src : Src n) :
    encF2 op d src = src.coding.put op d [] := by
  cases src <;> simp [encF2, encMem_eq_put, Coding.put, Src.coding]

theorem encLoc_eq_put (op : BitVec 6) (b : BitVec 4) (l : Loc) : encLoc op b l = l.coding.put op b [] := by
  cases l <;> simp [encLoc, encMem_eq_put, Coding.put, Loc.coding]

/-- A stack instruction has the stack pointer where the others have the operand's field (R326, R327). -/
theorem encStack_eq (op : BitVec 6) (sp : RegNo) (l : Loc) :
    encStack op sp l = asm l.coding.mode op sp l.coding.field :: l.coding.words := by
  cases l with
  | reg r => rfl
  | mem m => cases m <;> rfl

theorem words_length_le (a : Adr) : a.words.length ≤ 2 := by cases a <;> simp [Adr.words]

theorem Mem.coding_length_le (m : Mem) : m.coding.words.length ≤ 2 := by
  cases m with
  | ir r => simp [Mem.coding]
  | da a | x a r => exact words_length_le a

theorem immWords_length_le {n : Nat} (v : BitVec n) : (immWords v).length ≤ 2 := by
  unfold immWords; split_ifs <;> simp

theorem Src.coding_length_le {n : Nat} (src : Src n) : src.coding.words.length ≤ 2 := by
  cases src with
  | reg r => simp [Src.coding]
  | imm v => exact immWords_length_le v
  | mem m => exact m.coding_length_le

theorem Loc.coding_length_le (l : Loc) : l.coding.words.length ≤ 2 := by
  cases l with
  | reg r => simp [Loc.coding]
  | mem m => exact m.coding_length_le

/-- At most two words at the front of more are those two. -/
theorem prefix_two {l : List Word} {v w : Word} {rest : List Word} (hl : l.length ≤ 2) (h : l <+: v :: w :: rest) :
    l <+: [v, w] := List.prefix_take_iff.mpr ⟨h, hl⟩

/-! ## The operand decoders read the operand back -/

theorem require_none {b : Bool} {r : Reject} : require b r = none ↔ b = true := by cases b <;> simp [require]

/-- The immediate of n bits is read from its words (R107). -/
theorem immOf_words {n : Nat} (hn : n = 8 ∨ n = 16 ∨ n = 32) (v : BitVec n) {w1 w2 : Word}
    (h : immWords v <+: [w1, w2]) : immOf n w1 w2 = v := by
  rcases hn with rfl | rfl | rfl
  · obtain rfl : v ++ v = w1 := by simpa [immWords] using h
    exact Machine.low_of_append v v
  · obtain rfl : v = w1 := by simpa [immWords] using h
    simp [immOf]
  · obtain ⟨rfl, rfl⟩ : (v >>> 16).setWidth 16 = w1 ∧ v.setWidth 16 = w2 := by simpa [immWords] using h
    have hi : (v >>> 16).setWidth 16 = Machine.hiWord v := by
      apply BitVec.eq_of_getLsbD_eq; intro i hi; simp [Machine.hiWord, hi]
    have lo : v.setWidth 16 = Machine.loWord v := by
      apply BitVec.eq_of_getLsbD_eq; intro i hi; simp [Machine.loWord, hi]
    rw [hi, lo]; simp [immOf, Machine.long_parts]

/-- A memory operand of mode bits 01 (R105). -/
theorem withDaX_words {seg : Bool} {m : Mem} (hi : m.ill seg = none) (h1 : m.coding.mode = 1) {v w : Word}
    (hp : m.coding.words <+: [v, w]) (k : Mem → Bool → Dec) :
    withDaX seg m.coding.field v w k = k m (decide (m.coding.words.length = 2)) := by
  cases m with
  | ir r => exact absurd h1 (by simp [Mem.coding])
  | da a => exact withAdr_words hi hp _
  | x a r =>
    obtain ⟨hr, ha⟩ := Machine.firstReason_none hi
    obtain ⟨ha, -⟩ := Machine.firstReason_none ha
    have hr : r ≠ 0 := by simpa [nonzeroIll, require_none] using hr
    exact (withAdr_words ha hp _).trans (if_neg hr)

theorem Mem.coding_cases (m : Mem) : (∃ r, m = .ir r) ∨ m.coding.mode = 1 := by
  cases m <;> simp [Mem.coding]

theorem nonzero_of_addrReg {seg : Bool} {r : RegNo} (h : addrRegIll seg r = none) : r ≠ 0#4 := by
  rintro rfl; simp [addrRegIll] at h

theorem decMem_words {seg : Bool} {m : Mem} (hi : m.ill seg = none) {v w : Word} (hp : m.coding.words <+: [v, w])
    (k : Mem → Instr) : decMem m.coding.mode.toNat seg m.coding.field v w k = .ok (k m) := by
  obtain ⟨r, rfl⟩ | h1 := m.coding_cases
  · simp [decMem, Mem.coding, withIr, nonzero_of_addrReg hi]
  · rw [h1]; exact withDaX_words hi h1 hp (fun m _ => .ok (k m))

/-- The immediate stands behind the address words (R107). -/
theorem decMemImm_words {seg : Bool} {m : Mem} (hi : m.ill seg = none) {n : Nat} (hn : n = 8 ∨ n = 16) (v : BitVec n)
    {w1 w2 w3 : Word} (hp : m.coding.words ++ immWords v <+: [w1, w2, w3]) (k : Mem → BitVec n → Instr) :
    decMemImm m.coding.mode.toNat seg n m.coding.field w1 w2 w3 k = .ok (k m v) := by
  have imm {x y : Word} (h : immWords v <+: [x, y]) : immOf n x y = v := immOf_words (by omega) v h
  obtain ⟨u, hu⟩ : ∃ u, immWords v = [u] := by rcases hn with rfl | rfl <;> exact ⟨_, rfl⟩
  rw [hu] at hp imm
  obtain ⟨r, rfl⟩ | h1 := m.coding_cases
  · obtain rfl : u = w1 := by simpa [Mem.coding] using hp
    simp [decMemImm, Mem.coding, withIr, nonzero_of_addrReg hi, imm]
  · have hm : m.coding.words <+: [w1, w2] :=
      prefix_two m.coding_length_le ((List.prefix_append _ _).trans hp)
    rw [h1]
    refine (withDaX_words hi h1 hm (fun m long => .ok (k m (immOf n (if long then w3 else w2) 0)))).trans ?_
    obtain ⟨x, hx⟩ | ⟨x, y, hx⟩ : (∃ x, m.coding.words = [x]) ∨ ∃ x y, m.coding.words = [x, y] := by
      cases m with
      | ir r => exact absurd h1 (by simp [Mem.coding])
      | da a | x a r => cases a <;> simp [Mem.coding, Adr.words]
    · obtain ⟨-, rfl⟩ : x = w1 ∧ u = w2 := by simpa [hx] using hp
      simp [hx, imm]
    · obtain ⟨-, -, rfl⟩ : x = w1 ∧ y = w2 ∧ u = w3 := by simpa [hx] using hp
      simp [hx, imm]

/-- Family F2 (R122). -/
theorem decF2_words {seg : Bool} {n : Nat} (hn : n = 8 ∨ n = 16 ∨ n = 32) {src : Src n} (hi : src.ill seg = none)
    {v w : Word} (hp : src.coding.words <+: [v, w]) (k : Src n → Instr) :
    decF2 src.coding.mode.toNat seg n src.coding.field v w k = .ok (k src) := by
  cases src with
  | reg r => rfl
  | imm x => simp [decF2, Src.coding, immOf_words hn x hp]
  | mem m =>
    obtain ⟨r, rfl⟩ | h1 := m.coding_cases
    · simp [decF2, Src.coding, Mem.coding, nonzero_of_addrReg hi]
    · show decF2 m.coding.mode.toNat _ _ _ _ _ _ = _
      rw [h1]; exact withDaX_words hi h1 hp (fun m _ => .ok (k (.mem m)))

/-- Families F1 and F3 (R123, R124). -/
theorem decLoc_words {seg : Bool} {n : Nat} {l : Loc} (hi : l.ill seg n = none) {v w : Word}
    (hp : l.coding.words <+: [v, w]) (k : Loc → Instr) :
    decLoc l.coding.mode.toNat seg l.coding.field v w k = .ok (k l) := by
  cases l with
  | reg r => rfl
  | mem m =>
    obtain ⟨r, rfl⟩ | h1 := m.coding_cases
    · simp [decLoc, Loc.coding, Mem.coding, withIr, nonzero_of_addrReg hi]
    · show decLoc m.coding.mode.toNat _ _ _ _ _ = _
      rw [h1]; exact withDaX_words hi h1 hp (fun m _ => .ok (k (.mem m)))

/-- A static bit instruction is no dynamic one: its operand has no field 0 with mode bits 00 (R105). -/
theorem decBit_words {seg : Bool} {n : Nat} {l : Loc} (hi : l.ill seg n = none) {v w : Word} (b : BitVec 4)
    (hp : l.coding.words <+: [v, w]) (static : Loc → BitVec 4 → Instr) (dyn : BitVec 4 → BitVec 4 → Instr) :
    decBit l.coding.mode.toNat seg l.coding.field b v w static dyn = .ok (static l b) := by
  rw [decBit, if_neg]
  · exact decLoc_words hi hp _
  · rintro ⟨h0, hf⟩
    cases l with
    | reg r => simp [Loc.coding] at h0
    | mem m =>
      cases m with
      | ir r => exact nonzero_of_addrReg hi hf
      | da a | x a r => simp [Loc.coding, Mem.coding] at h0

/-- PUSH and POP (R326, R327). -/
theorem decStack_eq_decLoc (mm : Nat) (seg : Bool) (b : BitVec 4) (v w : Word) (k : Loc → Instr) :
    decStack mm seg b v w k = decLoc mm seg b v w k := by
  unfold decStack decLoc; rfl

theorem decLd_reg (seg : Bool) (n : Nat) (r : RegNo) (v w : Word) (k : LdSrc n → Instr) :
    decLd 2 seg n r v w k = .ok (k (.reg r)) := rfl

theorem decLd_imm {n : Nat} (hn : n = 8 ∨ n = 16 ∨ n = 32) (seg : Bool) {x : BitVec n} {v w : Word}
    (hp : immWords x <+: [v, w]) (k : LdSrc n → Instr) : decLd 0 seg n 0 v w k = .ok (k (.imm x)) := by
  simp [decLd, immOf_words hn x hp]

theorem decLd_mem {seg : Bool} {n : Nat} {m : Mem} (hi : m.ill seg = none) {v w : Word}
    (hp : m.coding.words <+: [v, w]) (k : LdSrc n → Instr) :
    decLd m.coding.mode.toNat seg n m.coding.field v w k = .ok (k (.mem (.mem m))) := by
  obtain ⟨r, rfl⟩ | h1 := m.coding_cases
  · simp [decLd, Mem.coding, nonzero_of_addrReg hi]
  · rw [h1]; exact withDaX_words hi h1 hp (fun m _ => .ok (k (.mem (.mem m))))

/-! ## The fields of a first word, told by its upper byte or its compact format -/

theorem fMode_eq_of_upper (w : Word) : fMode w = (w >>> 8).extractLsb' 6 2 := by
  apply BitVec.eq_of_getLsbD_eq; intro i hi
  interval_cases i <;> simp [fMode]

theorem fOp_eq_of_upper (w : Word) : fOp w = (w >>> 8).extractLsb' 0 6 := by
  apply BitVec.eq_of_getLsbD_eq; intro i hi
  interval_cases i <;> simp [fOp]

theorem upper_append (u lo : Byte) : ((u ++ lo : Word) >>> 8) = u.setWidth 16 := by
  apply BitVec.eq_of_getLsbD_eq; intro i hi
  simp only [BitVec.getLsbD_ushiftRight, BitVec.getLsbD_append, BitVec.getLsbD_setWidth]
  by_cases h : i < 8
  · simp [hi, show ¬ 8 + i < 8 by omega]
  · simp [hi, show ¬ 8 + i < 8 by omega]

/-! A word of two nibbles and a byte. -/

theorem nib3_compact (x y : BitVec 4) (z : Byte) : nib3 (x ++ y ++ z) = x := by
  unfold nib3
  apply BitVec.eq_of_getLsbD_eq; intro i hi
  simp only [BitVec.getLsbD_extractLsb', BitVec.getLsbD_append]
  interval_cases i <;> simp

theorem nib2_compact (x y : BitVec 4) (z : Byte) : nib2 (x ++ y ++ z) = y := by
  unfold nib2
  apply BitVec.eq_of_getLsbD_eq; intro i hi
  simp only [BitVec.getLsbD_extractLsb', BitVec.getLsbD_append]
  interval_cases i <;> simp

theorem loByte_compact (x y : BitVec 4) (z : Byte) : loByte (x ++ y ++ z) = z := Machine.low_of_append (x ++ y) z

theorem nib3_calr (x : BitVec 4) (z : BitVec 12) : nib3 (x ++ z) = x := Machine.high_of_append x z

/-! A word of two nibbles, a bit and seven bits. -/

theorem append_bit (x y : BitVec 4) (u : BitVec 1) (z : BitVec 7) :
    (x ++ y ++ u ++ z : Word) = x ++ y ++ (u ++ z : Byte) := by
  apply BitVec.eq_of_getLsbD_eq; intro i hi
  simp only [BitVec.getLsbD_append]
  interval_cases i <;> simp

theorem nib3_djnz (x y : BitVec 4) (u : BitVec 1) (z : BitVec 7) : nib3 (x ++ y ++ u ++ z) = x := by
  rw [append_bit, nib3_compact]

theorem nib2_djnz (x y : BitVec 4) (u : BitVec 1) (z : BitVec 7) : nib2 (x ++ y ++ u ++ z) = y := by
  rw [append_bit, nib2_compact]

theorem low7_djnz (x y : BitVec 4) (u : BitVec 1) (z : BitVec 7) : (x ++ y ++ u ++ z : Word).extractLsb' 0 7 = z :=
  Machine.low_of_append (x ++ y ++ u) z

theorem bit7_djnz (x y : BitVec 4) (u : BitVec 1) (z : BitVec 7) :
    (x ++ y ++ u ++ z : Word).getLsbD 7 = u.getLsbD 0 := by simp only [BitVec.getLsbD_append]; simp

theorem fMode_eq_nib3 (w : Word) : fMode w = (nib3 w).extractLsb' 2 2 := by
  apply BitVec.eq_of_getLsbD_eq; intro i hi
  interval_cases i <;> simp [fMode, nib3]

/-! ## Decoding the words of an encoding -/

/-- The instruction of the op code map by its row, for mode bits other than 11. -/
def decRows (m : EpaMap) (mm op : Nat) (seg : Bool) (w0 w1 w2 w3 : Word) : Dec :=
  if op < 0x10 then decRow0 m mm op seg w0 w1 w2 w3
  else if op < 0x20 then decRow1 mm op seg w0 w1 w2 w3
  else if op < 0x30 then decRow2 mm op seg w0 w1 w2
  else if mm = 0 then decRow3 op w0 w1
  else if mm = 1 then decRow7 op seg w0 w1 w2
  else decRowB op w0 w1

theorem decodeRaw_rows (m : EpaMap) (seg : Bool) {w0 : Word} (h : fMode w0 ≠ 3) (w1 w2 w3 : Word) :
    decodeRaw m seg w0 w1 w2 w3 = decRows m (fMode w0).toNat (fOp w0).toNat seg w0 w1 w2 w3 := by
  have h : ¬(fMode w0).toNat = 3 := fun e => h (BitVec.eq_of_toNat_eq e)
  exact if_neg h

/-- The words ws, whatever follows them, are those of i by the op code map. -/
def Reads (m : EpaMap) (seg : Bool) (ws : List Word) (i : Instr) : Prop :=
  ∀ w0 w1 w2 w3, ws <+: [w0, w1, w2, w3] → decodeRaw m seg w0 w1 w2 w3 = .ok i

variable {m : EpaMap} {seg : Bool}

theorem reads_cons {mm : BitVec 2} (hm : mm ≠ 3) {op : BitVec 6} {a b : BitVec 4} {l : List Word} {i : Instr}
    (h : ∀ w1 w2 w3, l <+: [w1, w2, w3] →
      decRows m mm.toNat op.toNat seg (asm mm op a b) w1 w2 w3 = .ok i) : Reads m seg (asm mm op a b :: l) i := by
  intro w0 w1 w2 w3 hp
  obtain ⟨rfl, hl⟩ := List.cons_prefix_cons.mp hp
  rw [decodeRaw_rows m seg (by simpa using hm), fMode_asm, fOp_asm]
  exact h w1 w2 w3 hl

/-- An instruction of one word. -/
theorem reads_one {mm : BitVec 2} (hm : mm ≠ 3) {op : BitVec 6} {a b : BitVec 4} {i : Instr}
    (h : ∀ w1 w2 w3, decRows m mm.toNat op.toNat seg (asm mm op a b) w1 w2 w3 = .ok i) :
    Reads m seg [asm mm op a b] i :=
  reads_cons hm fun w1 w2 w3 _ => h w1 w2 w3

/-- An instruction of two words that are both looked at. -/
theorem reads_two {mm : BitVec 2} (hm : mm ≠ 3) {op : BitVec 6} {a b : BitVec 4} {x : Word} {i : Instr}
    (h : ∀ w2 w3, decRows m mm.toNat op.toNat seg (asm mm op a b) x w2 w3 = .ok i) :
    Reads m seg [asm mm op a b, x] i :=
  reads_cons hm fun w1 w2 w3 hp => by
    obtain ⟨rfl, -⟩ := List.cons_prefix_cons.mp hp
    exact h w2 w3

theorem Mem.mode_lt_two (o : Mem) : o.coding.mode.toNat < 2 := by cases o <;> simp [Mem.coding]
theorem Mem.mode_ne_three (o : Mem) : o.coding.mode ≠ 3 := fun h => absurd o.mode_lt_two (by rw [h]; decide)
theorem Loc.mode_ne_three (l : Loc) : l.coding.mode ≠ 3 := by
  cases l with
  | reg r => exact (by decide : (2 : BitVec 2) ≠ 3)
  | mem o => exact o.mode_ne_three
theorem Src.mode_ne_three {n : Nat} (src : Src n) : src.coding.mode ≠ 3 := by
  cases src with
  | reg r => exact (by decide : (2 : BitVec 2) ≠ 3)
  | imm v => exact (by decide : (0 : BitVec 2) ≠ 3)
  | mem o => exact o.mode_ne_three

/-- Family F2. -/
theorem reads_F2 {op : BitVec 6} {n : Nat} {mk : RegNo → Src n → Instr}
    (row : ∀ mm w0 w1 w2 w3, decRows m mm op.toNat seg w0 w1 w2 w3 = decF2 mm seg n (nib1 w0) w1 w2 (mk (nib0 w0)))
    (hn : n = 8 ∨ n = 16 ∨ n = 32) (d : RegNo) {src : Src n} (hi : src.ill seg = none) :
    Reads m seg (encF2 op d src) (mk d src) := by
  rw [encF2_eq_put]
  refine reads_cons src.mode_ne_three fun w1 w2 w3 hp => ?_
  rw [row, nib1_asm, nib0_asm]
  exact decF2_words hn hi (prefix_two src.coding_length_le hp) _

/-- Families F1 and F3. -/
theorem reads_loc {op : BitVec 6} {b : BitVec 4} {mk : Loc → Instr} {n : Nat} {l : Loc} (hi : l.ill seg n = none)
    (row : ∀ mm a w1 w2 w3, decRows m mm.toNat op.toNat seg (asm mm op a b) w1 w2 w3 = decLoc mm.toNat seg a w1 w2 mk) :
    Reads m seg (encLoc op b l) (mk l) := by
  rw [encLoc_eq_put]
  refine reads_cons l.mode_ne_three fun w1 w2 w3 hp => ?_
  rw [row]
  exact decLoc_words hi (prefix_two l.coding_length_le hp) _

/-- A memory operand alone; mode bits 10 stand for another instruction. -/
theorem reads_mem {op : BitVec 6} {b : BitVec 4} {mk : Mem → Instr} {o : Mem} (hi : o.ill seg = none)
    (row : ∀ mm a w1 w2 w3, mm.toNat < 2 →
      decRows m mm.toNat op.toNat seg (asm mm op a b) w1 w2 w3 = decMem mm.toNat seg a w1 w2 mk) :
    Reads m seg (encMem op o b []) (mk o) := by
  rw [encMem_eq_put]
  refine reads_cons o.mode_ne_three fun w1 w2 w3 hp => ?_
  rw [row _ _ _ _ _ o.mode_lt_two]
  exact decMem_words hi (prefix_two o.coding_length_le hp) _

/-- A memory operand behind a second op code word. -/
theorem reads_memSecond {op : BitVec 6} {b : BitVec 4} {x : Word} {mk : Mem → Instr} {o : Mem} (hi : o.ill seg = none)
    (row : ∀ w2 w3, decRows m o.coding.mode.toNat op.toNat seg (asm o.coding.mode op o.coding.field b) x w2 w3 =
      decMem o.coding.mode.toNat seg o.coding.field w2 w3 mk) :
    Reads m seg (encMem op o b [x]) (mk o) := by
  rw [encMem_eq_put]
  refine reads_cons o.mode_ne_three fun w1 w2 w3 hp => ?_
  obtain ⟨rfl, hl⟩ := List.cons_prefix_cons.mp hp
  rw [row]
  exact decMem_words hi hl _

/-- A memory operand with an immediate behind it. -/
theorem reads_memImm {op : BitVec 6} {b : BitVec 4} {n : Nat} (hn : n = 8 ∨ n = 16) {mk : Mem → BitVec n → Instr}
    {o : Mem} (hi : o.ill seg = none) (v : BitVec n)
    (row : ∀ mm a w1 w2 w3, mm.toNat < 2 →
      decRows m mm.toNat op.toNat seg (asm mm op a b) w1 w2 w3 = decMemImm mm.toNat seg n a w1 w2 w3 mk) :
    Reads m seg (encMem op o b [] ++ immWords v) (mk o v) := by
  rw [encMem_eq_put, Coding.put, List.nil_append, List.cons_append]
  refine reads_cons o.mode_ne_three fun w1 w2 w3 hp => ?_
  rw [row _ _ _ _ _ o.mode_lt_two]
  exact decMemImm_words hi hn v hp _

/-- PUSH and POP. -/
theorem reads_stack {op : BitVec 6} {sp : RegNo} {mk : Loc → Instr} {n : Nat} {l : Loc} (hi : l.ill seg n = none)
    (row : ∀ mm b w1 w2 w3, decRows m mm.toNat op.toNat seg (asm mm op sp b) w1 w2 w3 = decStack mm.toNat seg b w1 w2 mk) :
    Reads m seg (encStack op sp l) (mk l) := by
  rw [encStack_eq]
  refine reads_cons l.mode_ne_three fun w1 w2 w3 hp => ?_
  rw [row, decStack_eq_decLoc]
  exact decLoc_words hi (prefix_two l.coding_length_le hp) _

/-- Families F1 and F3 where the low field of the first word is a count, a bit number or a register. -/
theorem reads_locField {op : BitVec 6} {b : BitVec 4} {mk : Loc → BitVec 4 → Instr} {n : Nat} {l : Loc}
    (hi : l.ill seg n = none)
    (row : ∀ mm w0 w1 w2 w3,
      decRows m mm op.toNat seg w0 w1 w2 w3 = decLoc mm seg (nib1 w0) w1 w2 (fun l => mk l (nib0 w0))) :
    Reads m seg (encLoc op b l) (mk l b) :=
  reads_loc (mk := (mk · b)) hi fun mm a w1 w2 w3 => by rw [row, nib1_asm, nib0_asm]

/-- A static bit instruction. -/
theorem reads_bit {op : BitVec 6} {b : BitVec 4} {static : Loc → BitVec 4 → Instr} {dyn : BitVec 4 → BitVec 4 → Instr}
    {n : Nat} {l : Loc} (hi : l.ill seg n = none)
    (row : ∀ mm w0 w1 w2 w3,
      decRows m mm op.toNat seg w0 w1 w2 w3 = decBit mm seg (nib1 w0) (nib0 w0) w1 w2 static dyn) :
    Reads m seg (encLoc op b l) (static l b) := by
  rw [encLoc_eq_put]
  refine reads_cons l.mode_ne_three fun w1 w2 w3 hp => ?_
  rw [row, nib1_asm, nib0_asm]
  exact decBit_words hi b (prefix_two l.coding_length_le hp) _ _

/-- A dynamic bit instruction. -/
theorem reads_bitDyn {op : BitVec 6} {d s : RegNo} {static : Loc → BitVec 4 → Instr} {dyn : BitVec 4 → BitVec 4 → Instr}
    (row : ∀ mm w0 w1 w2 w3,
      decRows m mm op.toNat seg w0 w1 w2 w3 = decBit mm seg (nib1 w0) (nib0 w0) w1 w2 static dyn) :
    Reads m seg (encBitDyn op d s) (dyn d s) := by
  refine reads_two (by decide) fun w2 w3 => ?_
  rw [row, nib1_asm, nib0_asm]; simp [decBit, withField2]

/-- A memory operand of LD: the general modes, which the row of `op` reads, BA and BX. -/
theorem reads_ldMem {op ba : BitVec 6} {d : RegNo} {mk : LdMem → Instr} {o : LdMem} (hi : o.ill seg = none)
    (general : ∀ o : Mem, o.ill seg = none → Reads m seg (encMem op o d []) (mk (.mem o)))
    (base : ∀ r w1 w2 w3, r ≠ 0 → decRows m 0 ba.toNat seg (asm 0 ba r d) w1 w2 w3 = .ok (mk (.ba r w1)))
    (index : ∀ r x w2 w3, r ≠ 0 →
      decRows m 1 ba.toNat seg (asm 1 ba r d) (word4 0 x 0 0) w2 w3 = .ok (mk (.bx r x))) :
    Reads m seg (encLdMem op ba d o) (mk o) := by
  cases o with
  | mem o => exact general o hi
  | ba r disp => exact reads_two (by decide) (fun w2 w3 => base r disp w2 w3 (nonzero_of_addrReg hi))
  | bx r x =>
    obtain ⟨hr, -⟩ := Machine.firstReason_none hi
    exact reads_two (by decide) (fun w2 w3 => index r x w2 w3 (nonzero_of_addrReg hr))

/-- LD into memory. -/
theorem reads_store {op ba : BitVec 6} {d : RegNo} {mk : LdMem → RegNo → Instr} {o : LdMem} (hi : o.ill seg = none)
    (row : ∀ mm a w1 w2 w3, mm.toNat < 2 →
      decRows m mm.toNat op.toNat seg (asm mm op a d) w1 w2 w3 = decMem mm.toNat seg a w1 w2 (fun o => mk (.mem o) d))
    (base : ∀ r w1 w2 w3, r ≠ 0 → decRows m 0 ba.toNat seg (asm 0 ba r d) w1 w2 w3 = .ok (mk (.ba r w1) d))
    (index : ∀ r x w2 w3, r ≠ 0 →
      decRows m 1 ba.toNat seg (asm 1 ba r d) (word4 0 x 0 0) w2 w3 = .ok (mk (.bx r x) d)) :
    Reads m seg (encLdMem op ba d o) (mk o d) :=
  reads_ldMem (mk := (mk · d)) hi (fun _ ho => reads_mem ho row) base index

/-- LD into a register. -/
theorem reads_load {op ba : BitVec 6} {n : Nat} (hn : n = 8 ∨ n = 16 ∨ n = 32) {d : RegNo} {mk : LdSrc n → Instr}
    {src : LdSrc n} (hi : src.ill seg = none)
    (row : ∀ mm a w1 w2 w3, decRows m mm.toNat op.toNat seg (asm mm op a d) w1 w2 w3 = decLd mm.toNat seg n a w1 w2 mk)
    (base : ∀ r w1 w2 w3, r ≠ 0 → decRows m 0 ba.toNat seg (asm 0 ba r d) w1 w2 w3 = .ok (mk (.mem (.ba r w1))))
    (index : ∀ r x w2 w3, r ≠ 0 →
      decRows m 1 ba.toNat seg (asm 1 ba r d) (word4 0 x 0 0) w2 w3 = .ok (mk (.mem (.bx r x)))) :
    Reads m seg (encLdSrc op ba d src) (mk src) := by
  cases src with
  | reg r => exact reads_one (by decide) (fun w1 w2 w3 => row 2 r w1 w2 w3)
  | imm v =>
    refine reads_cons (by decide) fun w1 w2 w3 hp => (row 0 0 w1 w2 w3).trans ?_
    exact decLd_imm hn seg (prefix_two (immWords_length_le v) hp) mk
  | mem o =>
    refine reads_ldMem (mk := fun o => mk (.mem o)) hi (fun o ho => ?_) base index
    rw [encMem_eq_put]
    refine reads_cons o.mode_ne_three fun w1 w2 w3 hp => (row _ _ w1 w2 w3).trans ?_
    exact decLd_mem ho (prefix_two o.coding_length_le hp) mk

/-- The source of LDA. -/
theorem reads_lda (d : RegNo) {src : LdaSrc} (hi : src.ill seg = none) : Reads m seg (encode (.lda d src)) (.lda d src) := by
  cases src with
  | ba r disp => exact reads_two (by decide) (fun w2 w3 => by simp [decRows, decRow3, decBaRa, nonzero_of_addrReg hi])
  | bx r x =>
    obtain ⟨hr, -⟩ := Machine.firstReason_none hi
    exact reads_two (by decide) (fun w2 w3 => by simp [decRows, decRow7, decBx, withField2, nonzero_of_addrReg hr])
  | da a =>
    refine reads_cons (by decide) fun w1 w2 w3 hp => ?_
    simp [decRows, decRow7, withAdr_words hi (prefix_two (words_length_le a) hp)]
  | x a r =>
    obtain ⟨hr, ha⟩ := Machine.firstReason_none hi
    obtain ⟨ha, -⟩ := Machine.firstReason_none ha
    have hr : r ≠ 0#4 := by simpa [nonzeroIll, require_none] using hr
    refine reads_cons (by decide) fun w1 w2 w3 hp => ?_
    simp [decRows, decRow7, withAdr_words ha (prefix_two (words_length_le a) hp), hr]

/-! The count word of an immediate shift (48_rotate_shift.md R403). -/

theorem decShift_left {byte : Bool} {n : Nat} (hn : n ≤ if byte then 8 else 32) (left right : Nat → Instr) :
    decShift byte (countWord byte true n) left right = .ok (left n) := by
  cases byte
  · have hn : n ≤ 32 := hn
    interval_cases n <;> rfl
  · have hn : n ≤ 8 := hn
    interval_cases n <;> rfl

theorem decShift_right {byte : Bool} {n : Nat} (h1 : 1 ≤ n) (hn : n ≤ if byte then 8 else 32) (left right : Nat → Instr) :
    decShift byte (countWord byte false n) left right = .ok (right n) := by
  cases byte
  · have hn : n ≤ 32 := hn
    interval_cases n <;> rfl
  · have hn : n ≤ 8 := hn
    interval_cases n <;> rfl

theorem reads_shiftLeft {op : BitVec 6} {t d : BitVec 4} {byte : Bool} {bound n : Nat} {left right : RegNo → Nat → Instr}
    (hi : leftIll bound n = none) (hb : bound ≤ if byte then 8 else 32)
    (row : ∀ w1 w2 w3, decRows m 2 op.toNat seg (asm 2 op d t) w1 w2 w3 = decShift byte w1 (left d) (right d)) :
    Reads m seg (encShift op t d byte true n) (left d n) := by
  have hn : n ≤ bound := by simpa [leftIll, require_none] using hi
  exact reads_two (by decide) (fun w2 w3 => (row _ w2 w3).trans (decShift_left (hn.trans hb) _ _))

theorem reads_shiftRight {op : BitVec 6} {t d : BitVec 4} {byte : Bool} {bound n : Nat} {left right : RegNo → Nat → Instr}
    (hi : rightIll bound n = none) (hb : bound ≤ if byte then 8 else 32)
    (row : ∀ w1 w2 w3, decRows m 2 op.toNat seg (asm 2 op d t) w1 w2 w3 = decShift byte w1 (left d) (right d)) :
    Reads m seg (encShift op t d byte false n) (right d n) := by
  obtain ⟨h1, hn⟩ : 1 ≤ n ∧ n ≤ bound := by simpa [rightIll, require_none] using hi
  exact reads_two (by decide) (fun w2 w3 => (row _ w2 w3).trans (decShift_right h1 (hn.trans hb) _ _))

/-! Extended instructions (49_extended_epa.md R421). -/

/-- A memory template reads its operand from the third word on. -/
theorem reads_epaMem {t : EpaTemplate} {sel : BitVec 6} {lo : BitVec 4} {o : Mem} {w1 : Word} {mk : Mem → Instr}
    (hi : epaMemIll m seg t sel lo o = none)
    (row : ∀ mm w0 w2 w3, fOp w0 = sel → nib0 w0 = lo → m.template w0 = some t →
      decEpa m mm seg w0 w1 w2 w3 = decEpaMem mm seg (nib1 w0) w2 w3 mk) :
    Reads m seg (encMem sel o lo [w1]) (mk o) := by
  obtain ⟨hs, hi⟩ := Machine.firstReason_none hi
  obtain ⟨ht, hi⟩ := Machine.firstReason_none hi
  obtain ⟨ho, -⟩ := Machine.firstReason_none hi
  have hs : sel = 0x0E#6 ∨ sel = 0x0F#6 := by simpa [require_none] using hs
  have ht : m.template (asm o.coding.mode sel o.coding.field lo) = some t := by
    cases o <;> simpa [require_none, asm, Mem.coding] using ht
  refine reads_memSecond ho fun w2 w3 => ?_
  have epa : decRows m o.coding.mode.toNat sel.toNat seg (asm o.coding.mode sel o.coding.field lo) w1 w2 w3 =
      decEpa m o.coding.mode.toNat seg (asm o.coding.mode sel o.coding.field lo) w1 w2 w3 := by
    rcases hs with rfl | rfl <;> rfl
  rw [epa, row _ _ _ _ (fOp_asm _ _ _ _) (nib0_asm _ _ _ _) ht, decEpaMem, if_neg (by have := o.mode_lt_two; omega),
    nib1_asm]

/-- The other templates are two words. -/
theorem reads_epaReg {t : EpaTemplate} {w0 w1 : Word} {i : Instr} (hi : epaRegIll m t w0 = none)
    (row : ∀ w2 w3, m.template w0 = some t → decEpa m 2 seg w0 w1 w2 w3 = .ok i) : Reads m seg [w0, w1] i := by
  obtain ⟨hu, hi⟩ := Machine.firstReason_none hi
  obtain ⟨ht, -⟩ := Machine.firstReason_none hi
  have hu : w0 >>> 8 = 0x8E#16 ∨ w0 >>> 8 = 0x8F#16 := by simpa [require_none] using hu
  have ht : m.template w0 = some t := by simpa [require_none] using ht
  intro x0 x1 x2 x3 hp
  obtain ⟨rfl, hl⟩ := List.cons_prefix_cons.mp hp
  obtain ⟨rfl, -⟩ := List.cons_prefix_cons.mp hl
  refine Eq.trans ?_ (row x2 x3 ht)
  rcases hu with hu | hu <;>
    · rw [decodeRaw_rows m seg (by rw [fMode_eq_of_upper, hu]; decide), fMode_eq_of_upper, fOp_eq_of_upper, hu]; rfl

/-- The upper bytes reserved as a whole (30_encoding.md R134). -/
theorem reads_rsvd {w : Word} (hw : rsvdUpper w = true) : Reads m seg [w] (.rsvd w) := by
  have hu : w >>> 8 ∈ [0x36#16, 0x38#16, 0x78#16, 0x7E#16, 0x9D#16, 0x9F#16, 0xB9#16, 0xBF#16] := by
    simpa only [rsvdUpper, List.contains_iff_mem] using hw
  intro w0 w1 w2 w3 hp
  obtain ⟨rfl, -⟩ := List.cons_prefix_cons.mp hp
  simp only [List.mem_cons, List.not_mem_nil, or_false] at hu
  rcases hu with hu | hu | hu | hu | hu | hu | hu | hu <;>
    · rw [decodeRaw_rows m seg (by rw [fMode_eq_of_upper, hu]; decide), fMode_eq_of_upper, fOp_eq_of_upper, hu]; rfl

theorem second_none {x y : Option Reject} (h : firstReason [x, y] = none) : y = none :=
  (Machine.firstReason_none (Machine.firstReason_none h).2).1

/-- The operand of a stack instruction. -/
theorem stack_operand {n : Nat} {sp : RegNo} {l : Loc} (h : stackIll seg n sp l = none) : l.ill seg n = none :=
  (Machine.firstReason_none (Machine.firstReason_none h).2).1

/-- A port in a register or in the instruction (44_input_output.md R275, R277). -/
theorem reads_port {ir da : BitVec 6} {t d : BitVec 4} {p : PortOp} {mk : PortOp → Instr} (hi : p.ill = none)
    (reg : ∀ r w1 w2 w3, r ≠ 0#4 → decRows m 0 ir.toNat seg (asm 0 ir r d) w1 w2 w3 = .ok (mk (.ir r)))
    (direct : ∀ w1 w2 w3, decRows m 0 da.toNat seg (asm 0 da d t) w1 w2 w3 = .ok (mk (.da w1))) :
    Reads m seg (encPort ir da t d p) (mk p) := by
  cases p with
  | ir r =>
    have hr : r ≠ 0#4 := by simpa [PortOp.ill, nonzeroIll, require_none] using hi
    exact reads_one (by decide) (fun w1 w2 w3 => reg r w1 w2 w3 hr)
  | da port => exact reads_two (by decide) (fun w2 w3 => direct port w2 w3)

/-- A rotate by one or two places (48_rotate_shift.md R392). -/
theorem reads_rotate {op : BitVec 6} {t d : BitVec 4} {mk : RegNo → Bool → Instr}
    (one : ∀ w1 w2 w3, decRows m 2 op.toNat seg (asm 2 op d t) w1 w2 w3 = .ok (mk d false))
    (two : ∀ w1 w2 w3, decRows m 2 op.toNat seg (asm 2 op d (t + 2)) w1 w2 w3 = .ok (mk d true)) (b : Bool) :
    Reads m seg (encRot op t d b) (mk d b) := by
  cases b
  · exact reads_one (by decide) one
  · exact reads_one (by decide) two

/-- A format of mode bits 11 (30_encoding.md R102): one word, told by its first nibble. -/
theorem reads_compact {w : Word} (hm : fMode w = 3) {i : Instr} (h : decCompact w = .ok i) : Reads m seg [w] i := by
  intro w0 w1 w2 w3 hp
  obtain ⟨rfl, -⟩ := List.cons_prefix_cons.mp hp
  exact (if_pos (congrArg BitVec.toNat hm)).trans h

theorem reads_sc (v : Byte) : Reads m seg [0x7F#8 ++ v] (.sc v) := by
  intro w0 w1 w2 w3 hp
  obtain ⟨rfl, -⟩ := List.cons_prefix_cons.mp hp
  rw [decodeRaw_rows m seg (by rw [fMode_eq_of_upper, upper_append]; decide), fMode_eq_of_upper, fOp_eq_of_upper,
    upper_append]
  exact congrArg (fun x => Except.ok (Instr.sc x)) (Machine.loByte_wordOf 0x7F#8 v)

/-- The words of a well-formed instruction are those of it by the op code map. -/
theorem reads_encode {i : Instr} (hw : WellFormed m seg i) : Reads m seg (encode i) i := by
  cases i with
  | addb d src | add d src | subb d src | sub d src | orb d src | or d src | andb d src | and d src | xorb d src
  | xor d src | cpb d src | cp d src => exact reads_F2 (fun _ _ _ _ _ => rfl) (by decide) d hw
  | cpl d src | subl d src | addl d src | multl d src | mult d src | divl d src | div d src =>
    exact reads_F2 (fun _ _ _ _ _ => rfl) (by decide) d (second_none hw)
  | cpbMem o v | cpMem o v | ldbImm o v | ldImm o v =>
    refine reads_memImm (by decide) hw v (fun mm a w1 w2 w3 h => ?_)
    simp [decRows, decRow0, decTable1b, decTable1w, show ¬mm.toNat = 2 by omega]
  | comb l | com l | negb l | neg l | testb l | test l | tsetb l | tset l | clrb l | clr l | testl l =>
    refine reads_loc hw (fun mm a w1 w2 w3 => ?_)
    simp [decRows, decRow0, decRow1, decTable1b, decTable1w, decTable2]
  | incb l b | inc l b | decb l b | dec l b => exact reads_locField hw (fun _ _ _ _ _ => rfl)
  | exb d l | ex d l =>
    refine reads_loc hw (fun mm a w1 w2 w3 => ?_)
    simp [decRows, decRow2]
  | resbStatic l b | resStatic l b | setbStatic l b | setStatic l b | bitbStatic l b | bitStatic l b =>
    exact reads_bit hw (fun _ _ _ _ _ => rfl)
  | resbDyn d s | resDyn d s | setbDyn d s | setDyn d s | bitbDyn d s | bitDyn d s =>
    exact reads_bitDyn (fun _ _ _ _ _ => rfl)
  | pushl sp l | push sp l =>
    refine reads_stack (stack_operand hw) (fun mm b w1 w2 w3 => ?_)
    simp [decRows, decRow1]
  | popl l sp =>
    refine reads_stack (mk := (Instr.popl · sp)) (stack_operand hw) (fun mm b w1 w2 w3 => ?_)
    simp [decRows, decRow1]
  | pop l sp =>
    refine reads_stack (mk := (Instr.pop · sp)) (stack_operand hw) (fun mm b w1 w2 w3 => ?_)
    simp [decRows, decRow1]
  | jp c o | call o =>
    refine reads_mem hw (fun mm a w1 w2 w3 h => ?_)
    simp [decRows, decRow1, show ¬mm.toNat = 2 by omega]
  | ldps o =>
    refine reads_mem hw (fun mm a w1 w2 w3 h => ?_)
    obtain h | h : mm.toNat = 0 ∨ mm.toNat = 1 := by omega
    all_goals simp [decRows, decRow3, decRow7, decMem, h]
  | ldmLoad d o k =>
    refine reads_memSecond (mk := (Instr.ldmLoad d · k)) (Machine.firstReason_none hw).1 (fun w2 w3 => ?_)
    have := o.mode_lt_two
    simp [decRows, decRow1, decTable2, withLdm, show ¬o.coding.mode.toNat = 2 by omega]
  | ldmStore o s k =>
    refine reads_memSecond (mk := (Instr.ldmStore · s k)) hw (fun w2 w3 => ?_)
    have := o.mode_lt_two
    simp [decRows, decRow1, decTable2, withLdm, show ¬o.coding.mode.toNat = 2 by omega]
  | ldb d src | ld d src =>
    refine reads_load (by decide) hw (fun mm a w1 w2 w3 => ?_) (fun r w1 w2 w3 hr => ?_) (fun r x w2 w3 hr => ?_)
    · simp [decRows, decRow2]
    · simpa [decRows, decRow3, decBaRa] using hr
    · simpa [decRows, decRow7, decBx, withField2] using hr
  | ldl d src =>
    refine reads_load (by decide) (second_none hw) (fun mm a w1 w2 w3 => ?_) (fun r w1 w2 w3 hr => ?_)
      (fun r x w2 w3 hr => ?_)
    · simp [decRows, decRow1]
    · simpa [decRows, decRow3, decBaRa] using hr
    · simpa [decRows, decRow7, decBx, withField2] using hr
  | ldbStore o s | ldStore o s =>
    refine reads_store hw (fun mm a w1 w2 w3 h => ?_) (fun r w1 w2 w3 hr => ?_) (fun r x w2 w3 hr => ?_)
    · simp [decRows, decRow2, show ¬mm.toNat = 2 by omega]
    · simpa [decRows, decRow3, decBaRa] using hr
    · simpa [decRows, decRow7, decBx, withField2] using hr
  | ldlStore o s =>
    refine reads_store (second_none hw) (fun mm a w1 w2 w3 h => ?_) (fun r w1 w2 w3 hr => ?_) (fun r x w2 w3 hr => ?_)
    · simp [decRows, decRow1, show ¬mm.toNat = 2 by omega]
    · simpa [decRows, decRow3, decBaRa] using hr
    · simpa [decRows, decRow7, decBx, withField2] using hr
  | lda d src => exact reads_lda d (second_none hw)
  | pushImm sp v => exact reads_two (by decide) (fun _ _ => by simp [decRows, decRow0, decTable1w])
  | ldctlbFrom d | ldctlbTo d | setflg d | resflg d | comflg d | nop =>
    exact reads_one (by decide) (fun _ _ _ => by simp [decRows, decRow0, decTable1b, decTable1w, zeroField])
  | ret c => exact reads_one (by decide) (fun _ _ _ => by simp [decRows, decRow1, zeroField])
  | tccb c d | tcc c d => exact reads_one (by decide) (fun _ _ _ => by simp [decRows, decRow2])
  | ldrb d disp | ldr d disp | ldrl d disp | ldar d disp =>
    exact reads_two (by decide) (fun _ _ => by simp [decRows, decRow3, decBaRa])
  | ldrbStore disp s | ldrStore disp s | ldrlStore disp s =>
    exact reads_two (by decide) (fun _ _ => by simp [decRows, decRow3, decBaRa])
  | inib a r b | inirb a r b | sinib a r b | sinirb a r b | outib a r b | otirb a r b | soutib a r b | sotirb a r b
  | indb a r b | indrb a r b | sindb a r b | sindrb a r b | outdb a r b | otdrb a r b | soutdb a r b | sotdrb a r b =>
    exact reads_two (by decide) (fun _ _ => by simp [decRows, decRow3, decTable3b, decBlock, withBlock])
  | ini a r b | inir a r b | sini a r b | sinir a r b | outi a r b | otir a r b | souti a r b | sotir a r b
  | ind a r b | indr a r b | sind a r b | sindr a r b | outd a r b | otdr a r b | soutd a r b | sotdr a r b =>
    exact reads_two (by decide) (fun _ _ => by simp [decRows, decRow3, decTable3w, decBlock, withBlock])
  | inb d p | inw d p =>
    refine reads_port hw (fun r w1 w2 w3 hr => ?_) (fun w1 w2 w3 => ?_)
    · simpa [decRows, decRow3, withIr] using hr
    · simp [decRows, decRow3, decTable3b, decTable3w]
  | outb p s =>
    refine reads_port (mk := (Instr.outb · s)) hw (fun r w1 w2 w3 hr => ?_) (fun w1 w2 w3 => ?_)
    · simpa [decRows, decRow3, withIr] using hr
    · simp [decRows, decRow3, decTable3b]
  | outw p s =>
    refine reads_port (mk := (Instr.outw · s)) hw (fun r w1 w2 w3 hr => ?_) (fun w1 w2 w3 => ?_)
    · simpa [decRows, decRow3, withIr] using hr
    · simp [decRows, decRow3, decTable3w]
  | sinb d port | sin d port =>
    exact reads_two (by decide) (fun _ _ => by simp [decRows, decRow3, decTable3b, decTable3w])
  | soutb port s | sout port s =>
    exact reads_two (by decide) (fun _ _ => by simp [decRows, decRow3, decTable3b, decTable3w])
  | halt | iret | mset | mres | mbit =>
    exact reads_one (by decide) (fun _ _ _ => by simp [decRows, decRow7, decTable6, zeroField])
  | mreq d => exact reads_one (by decide) (fun _ _ _ => by simp [decRows, decRow7, decTable6])
  | di v n | ei v n =>
    cases v <;> cases n <;>
      exact reads_one (by decide) (fun _ _ _ => by simp [decRows, decRow7, decEiDi, maskBits])
  | ldctlFrom d c =>
    cases c <;> exact reads_one (by decide) (fun _ _ _ => by simp [decRows, decRow7, decTable7, CtlReg.nibble])
  | ldctlTo c s =>
    cases c <;> exact reads_one (by decide) (fun _ _ _ => by simp [decRows, decRow7, decTable7, CtlReg.nibble])
  | dab d | extsb d | extsl d | exts d => exact reads_one (by decide) (fun _ _ _ => by simp [decRows, decRowB])
  | rlb d t | rrb d t | rlcb d t | rrcb d t | rl d t | rr d t | rlc d t | rrc d t =>
    exact reads_rotate (fun _ _ _ => by simp [decRows, decRowB, decTable4b, decTable4w])
      (fun _ _ _ => by simp [decRows, decRowB, decTable4b, decTable4w]) t
  | sllb d n =>
    exact reads_shiftLeft (right := Instr.srlb) hw (by decide) (fun w1 _ _ => by simp [decRows, decRowB, decTable4b])
  | slab d n =>
    exact reads_shiftLeft (right := Instr.srab) hw (by decide) (fun w1 _ _ => by simp [decRows, decRowB, decTable4b])
  | sll d n =>
    exact reads_shiftLeft (right := Instr.srl) hw (by decide) (fun w1 _ _ => by simp [decRows, decRowB, decTable4w])
  | sla d n =>
    exact reads_shiftLeft (right := Instr.sra) hw (by decide) (fun w1 _ _ => by simp [decRows, decRowB, decTable4w])
  | slll d n =>
    exact reads_shiftLeft (right := Instr.srll) (second_none hw) (by decide) (fun w1 _ _ => by simp [decRows, decRowB, decTable4w])
  | slal d n =>
    exact reads_shiftLeft (right := Instr.sral) (second_none hw) (by decide) (fun w1 _ _ => by simp [decRows, decRowB, decTable4w])
  | srlb d n =>
    exact reads_shiftRight (left := Instr.sllb) hw (by decide) (fun w1 _ _ => by simp [decRows, decRowB, decTable4b])
  | srab d n =>
    exact reads_shiftRight (left := Instr.slab) hw (by decide) (fun w1 _ _ => by simp [decRows, decRowB, decTable4b])
  | srl d n =>
    exact reads_shiftRight (left := Instr.sll) hw (by decide) (fun w1 _ _ => by simp [decRows, decRowB, decTable4w])
  | sra d n =>
    exact reads_shiftRight (left := Instr.sla) hw (by decide) (fun w1 _ _ => by simp [decRows, decRowB, decTable4w])
  | srll d n =>
    exact reads_shiftRight (left := Instr.slll) (second_none hw) (by decide) (fun w1 _ _ => by simp [decRows, decRowB, decTable4w])
  | sral d n =>
    exact reads_shiftRight (left := Instr.slal) (second_none hw) (by decide) (fun w1 _ _ => by simp [decRows, decRowB, decTable4w])
  | sdlb d r | sdab d r | sdl d r | sda d r | sdll d r | sdal d r =>
    exact reads_two (by decide) (fun _ _ => by simp [decRows, decRowB, decTable4b, decTable4w, withField2])
  | adcb d r | adc d r | sbcb d r | sbc d r | rrdb d r | rldb d r | ldk d r =>
    exact reads_one (by decide) (fun _ _ _ => by simp [decRows, decRowB])
  | trib a r b | trtib a r b | trirb a r b | trtirb a r b | trdb a r b | trtdb a r b | trdrb a r b | trtdrb a r b =>
    exact reads_two (by decide) (fun _ _ => by simp [decRows, decRowB, decTable5t, decTr, withBlock])
  | cpib a r b c | cpsib a r b c | cpirb a r b c | cpsirb a r b c | cpdb a r b c | cpsdb a r b c | cpdrb a r b c
  | cpsdrb a r b c | cpi a r b c | cpsi a r b c | cpir a r b c | cpsir a r b c | cpd a r b c | cpsd a r b c
  | cpdr a r b c | cpsdr a r b c =>
    exact reads_two (by decide) (fun _ _ => by simp [decRows, decRowB, decTable5b, decTable5w, decCp, withBlock])
  | ldib a r b | ldirb a r b | lddb a r b | lddrb a r b | ldi a r b | ldir a r b | ldd a r b | lddr a r b =>
    exact reads_two (by decide) (fun _ _ => by simp [decRows, decRowB, decTable5b, decTable5w, decBlock, withBlock])
  | sc v => exact reads_sc v
  | ldbCompact d v | jr d v =>
    refine reads_compact (by rw [fMode_eq_nib3, nib3_compact]; decide) ?_
    simp [decCompact, nib3_compact, nib2_compact, loByte_compact]
  | calr disp =>
    refine reads_compact (by rw [fMode_eq_nib3, nib3_calr]; decide) ?_
    rw [decCompact, nib3_calr]
    exact congrArg (fun x => Except.ok (Instr.calr x)) (Machine.low_of_append 0xD#4 disp)
  | djnz r disp | dbjnz r disp =>
    refine reads_compact (by rw [fMode_eq_nib3, nib3_djnz]; decide) ?_
    rw [decCompact, nib3_djnz, nib2_djnz, bit7_djnz, low7_djnz]; rfl
  | epaMemFromEpu sel lo o w1 =>
    exact reads_epaMem (mk := (Instr.epaMemFromEpu sel lo · w1)) hw
      (fun mm w0 w2 w3 hs hl ht => by simp [decEpa, ht, hs, hl])
  | epaEpuFromMem sel lo o w1 =>
    exact reads_epaMem (mk := (Instr.epaEpuFromMem sel lo · w1)) hw
      (fun mm w0 w2 w3 hs hl ht => by simp [decEpa, ht, hs, hl])
  | epaCpuFromEpu w0 w1 | epaEpuFromCpu w0 w1 | epaInternal w0 w1 =>
    exact reads_epaReg hw (fun w2 w3 ht => by simp [decEpa, ht, decEpaReg])
  | epaFcwFromEpu w0 w1 | epaEpuFromFcw w0 w1 =>
    exact reads_epaReg (Machine.firstReason_none hw).1 (fun w2 w3 ht => by simp [decEpa, ht, decEpaReg])
  | rsvd w => exact reads_rsvd (require_none.mp hw)

end Sys2Proof

open Sys2Proof

/-- Settles O9: the op code map reads the instruction back from its words, and the decoder accepts it. -/
theorem decodeInvertsEncode : Obligations.DecodeInvertsEncode :=
  fun _ _ _ _ _ _ _ hw hp => decode_of_raw hw (reads_encode hw _ _ _ _ hp)
end
section
/-!
PROOF. What is decoded has the words it was decoded from: its first word is the one decoded, and it is as long as the
first words call for (30_encoding.md R101).
-/
namespace Sys2Proof

/-- What is decoded, if anything is, has P. -/
def Holds (P : Instr → Prop) (d : Dec) : Prop := ∀ i, d = .ok i → P i

@[simp] theorem holds_ok (P : Instr → Prop) (i : Instr) : Holds P (.ok i) ↔ P i := by simp [Holds]
@[simp] theorem holds_error (P : Instr → Prop) (r : Reject) : Holds P (.error r) := by simp [Holds]

/-- The first word of i has these fields, and i has k words. -/
def Formed (mm : BitVec 2) (op : BitVec 6) (a b : BitVec 4) (k : Nat) (i : Instr) : Prop :=
  firstWord i = asm mm op a b ∧ (encode i).length = k

theorem asm_fields (w : Word) : asm (fMode w) (fOp w) (nib1 w) (nib0 w) = w := by
  unfold asm fMode fOp nib1 nib0
  apply BitVec.eq_of_getLsbD_eq; intro i hi
  simp only [BitVec.getLsbD_append, BitVec.getLsbD_extractLsb']
  interval_cases i <;> simp

/-- All numbers below sixteen. -/
theorem forall_lt_sixteen {Q : Nat → Prop} (h : Q 0 ∧ Q 1 ∧ Q 2 ∧ Q 3 ∧ Q 4 ∧ Q 5 ∧ Q 6 ∧ Q 7 ∧ Q 8 ∧ Q 9 ∧ Q 10 ∧
    Q 11 ∧ Q 12 ∧ Q 13 ∧ Q 14 ∧ Q 15) : ∀ n < 16, Q n := by
  intro n hn
  interval_cases n <;> simp only [h]

/-- A nibble is one of sixteen. -/
theorem forall_nib {Q : BitVec 4 → Prop} (h : Q 0 ∧ Q 1 ∧ Q 2 ∧ Q 3 ∧ Q 4 ∧ Q 5 ∧ Q 6 ∧ Q 7 ∧ Q 8 ∧ Q 9 ∧ Q 10 ∧ Q 11 ∧
    Q 12 ∧ Q 13 ∧ Q 14 ∧ Q 15) (b : BitVec 4) : Q b := by
  have := forall_lt_sixteen (Q := fun n => Q (BitVec.ofNat 4 n)) h b.toNat b.isLt
  simpa using this

/-- The sixteen operations from r on, those of a row of the map. -/
theorem forall_op (r : Nat) {Q : BitVec 6 → Prop} (h : ∀ n < 16, Q (BitVec.ofNat 6 (r + n))) {op : BitVec 6}
    (hl : r ≤ op.toNat) (hu : op.toNat < r + 16) : Q op := by
  have e : r + (op.toNat - r) = op.toNat := by omega
  simpa [e] using h (op.toNat - r) (by omega)

/-! ## Operands -/

/-- The operand c is read from mode bits mm and field a, before the word v, as an instruction of one op code word that
has k more words with mode bits 00 and field 0. -/
structure Fits (seg : Bool) (mm : BitVec 2) (a : BitVec 4) (v : Word) (k : Nat) (c : Coding) : Prop where
  mode   : c.mode = mm
  field  : c.field = a
  length : 1 + c.words.length = countF mm.toNat seg a v k

theorem holds_withAdr {P : Instr → Prop} {seg : Bool} {v w : Word} {k : Adr → Bool → Dec}
    (h : ∀ a : Adr, a.words.length = adrCount seg v → Holds P (k a (decide (a.words.length = 2)))) :
    Holds P (withAdr seg v w k) := by
  unfold withAdr
  cases seg
  · exact h (.ns v) rfl
  · rw [if_neg (by simp)]
    split_ifs with hb hz
    · exact h (.long (segField v) w) (by simp [Adr.words, adrCount, hb])
    · simp
    · exact h (.short (segField v) (loByte v)) (by rw [adrCount, if_neg (by simpa using hb)]; rfl)

theorem holds_withDaX {P : Instr → Prop} {seg : Bool} {a : BitVec 4} {v w : Word} {k : Mem → Bool → Dec} {n : Nat}
    (h : ∀ o : Mem, Fits seg 1 a v n o.coding → Holds P (k o (decide (o.coding.words.length = 2)))) :
    Holds P (withDaX seg a v w k) := by
  refine holds_withAdr fun adr hl => ?_
  have len : 1 + adr.words.length = countF 1 seg a v n := by simp [countF, hl]
  split_ifs with ha
  · exact h (.da adr) ⟨rfl, ha.symm, len⟩
  · exact h (.x adr a) ⟨rfl, rfl, len⟩

theorem holds_withIr {P : Instr → Prop} {seg : Bool} {a : BitVec 4} {k : Mem → Dec} {v : Word} {n : Nat}
    (h : ∀ o : Mem, Fits seg 0 a v n o.coding → Holds P (k o)) : Holds P (withIr a k) := by
  unfold withIr; split_ifs with ha
  · simp
  · exact h (.ir a) ⟨rfl, rfl, by rw [countF, if_neg (fun c => ha c.2)]; rfl⟩

/-- Mode bits other than 11. -/
theorem mode_cases {mm : BitVec 2} (h : mm ≠ 3) : mm = 0 ∨ mm = 1 ∨ mm = 2 := by revert mm; decide

theorem holds_decMem {P : Instr → Prop} {seg : Bool} {mm : BitVec 2} (hm : mm ≠ 3) (h2 : mm ≠ 2) {a : BitVec 4}
    {v w : Word} {k : Mem → Instr} {n : Nat} (h : ∀ o : Mem, Fits seg mm a v n o.coding → P (k o)) :
    Holds P (decMem mm.toNat seg a v w k) := by
  obtain rfl | rfl | rfl := mode_cases hm
  · exact holds_withIr (fun o ho => (holds_ok _ _).mpr (h o ho))
  · exact holds_withDaX (k := fun o _ => .ok (k o)) (fun o ho => (holds_ok _ _).mpr (h o ho))
  · exact absurd rfl h2

theorem holds_decLoc {P : Instr → Prop} {seg : Bool} {mm : BitVec 2} (hm : mm ≠ 3) {a : BitVec 4}
    {v w : Word} {k : Loc → Instr} {n : Nat} (h : ∀ l : Loc, Fits seg mm a v n l.coding → P (k l)) :
    Holds P (decLoc mm.toNat seg a v w k) := by
  obtain rfl | rfl | rfl := mode_cases hm
  · exact holds_withIr (fun o ho => (holds_ok _ _).mpr (h (.mem o) ho))
  · exact holds_withDaX (k := fun o _ => .ok (k (.mem o))) (fun o ho => (holds_ok _ _).mpr (h (.mem o) ho))
  · exact (holds_ok _ _).mpr (h (.reg a) ⟨rfl, rfl, rfl⟩)

theorem immWords_length {n : Nat} (hn : n = 8 ∨ n = 16 ∨ n = 32) (v : BitVec n) : (immWords v).length = immExtra n := by
  rcases hn with rfl | rfl | rfl <;> rfl

theorem holds_decF2 {P : Instr → Prop} {seg : Bool} {mm : BitVec 2} (hm : mm ≠ 3) {n : Nat}
    (hn : n = 8 ∨ n = 16 ∨ n = 32) {a : BitVec 4} {v w : Word} {k : Src n → Instr}
    (h : ∀ src : Src n, Fits seg mm a v (immExtra n) src.coding → P (k src)) :
    Holds P (decF2 mm.toNat seg n a v w k) := by
  obtain rfl | rfl | rfl := mode_cases hm
  · refine (holds_ok _ _).mpr ?_
    split_ifs with ha
    · exact h (.imm _) ⟨rfl, ha.symm, by simp [Src.coding, countF, ha, immWords_length hn]⟩
    · exact h (.mem (.ir a)) ⟨rfl, rfl, by rw [countF, if_neg (fun c => ha c.2)]; rfl⟩
  · exact holds_withDaX (k := fun o _ => .ok (k (.mem o))) (fun o ho => (holds_ok _ _).mpr (h (.mem o) ho))
  · exact (holds_ok _ _).mpr (h (.reg a) ⟨rfl, rfl, rfl⟩)

@[simp] theorem holds_ite {c : Prop} [Decidable c] (P : Instr → Prop) (d e : Dec) :
    Holds P (if c then d else e) ↔ (c → Holds P d) ∧ (¬c → Holds P e) := by split_ifs <;> simp [*]

/-! ## Rows of the op code map -/

/-- Whatever is decoded from a first word of these fields has it as its first word, and as many words as are called
for. -/
def Sized (m : EpaMap) (seg : Bool) (mm : BitVec 2) (op : BitVec 6) (a b : BitVec 4) : Prop :=
  ∀ w1 w2 w3, Holds (Formed mm op a b (wordsOf seg (asm mm op a b) w1 w2))
    (decRows m mm.toNat op.toNat seg (asm mm op a b) w1 w2 w3)

variable {m : EpaMap} {seg : Bool} {a b : BitVec 4}

/-! Rows 3, 7 and B, whose mode bits are fixed. -/

/-- Table 3. -/
theorem sized_3A : ∀ b, Sized m seg 0 0x3A a b := by
  refine forall_nib ?_
  simp [Sized, decRows, decRow3, decTable3b, decBlock, withBlock, Formed, firstWord, encode, encBlock, encPort, wordsOf]

theorem sized_3B : ∀ b, Sized m seg 0 0x3B a b := by
  refine forall_nib ?_
  simp [Sized, decRows, decRow3, decTable3w, decBlock, withBlock, Formed, firstWord, encode, encBlock, encPort, wordsOf]

/-- Table 4. -/
theorem sized_B2 : ∀ b, Sized m seg 2 0x32 a b := by
  refine forall_nib ?_
  simp [Sized, decRows, decRowB, decTable4b, decShift, withField2, Formed, firstWord, encode, encRot, encShift,
    encShiftDyn, wordsOf]

theorem sized_B3 : ∀ b, Sized m seg 2 0x33 a b := by
  refine forall_nib ?_
  simp [Sized, decRows, decRowB, decTable4w, decShift, withField2, Formed, firstWord, encode, encRot, encShift,
    encShiftDyn, wordsOf]

/-- Table 5. -/
theorem sized_B8 : ∀ b, Sized m seg 2 0x38 a b := by
  refine forall_nib ?_
  simp [Sized, decRows, decRowB, decTable5t, decTr, withBlock, Formed, firstWord, encode, encBlock, wordsOf]

theorem sized_BA : ∀ b, Sized m seg 2 0x3A a b := by
  refine forall_nib ?_
  simp [Sized, decRows, decRowB, decTable5b, decCp, decBlock, withBlock, Formed, firstWord, encode, encBlock, wordsOf]

theorem sized_BB : ∀ b, Sized m seg 2 0x3B a b := by
  refine forall_nib ?_
  simp [Sized, decRows, decRowB, decTable5w, decCp, decBlock, withBlock, Formed, firstWord, encode, encBlock, wordsOf]

/-- Table 6. -/
theorem sized_7B : ∀ b, Sized m seg 1 0x3B a b := by
  refine forall_nib ?_
  simp +contextual [Sized, decRows, decRow7, decTable6, zeroField, Formed, firstWord, encode, wordsOf]

/-- EI and DI. -/
theorem sized_7C : ∀ b, Sized m seg 1 0x3C a b := by
  refine forall_nib ?_
  simp +contextual [Sized, decRows, decRow7, decEiDi, Formed, firstWord, encode, maskBits, wordsOf]

/-- Table 7. -/
theorem sized_7D : ∀ b, Sized m seg 1 0x3D a b := by
  refine forall_nib ?_
  simp [Sized, decRows, decRow7, decTable7, Formed, firstWord, encode, CtlReg.nibble, wordsOf]

theorem sized_rowB {op : BitVec 6} (h : 0x30 ≤ op.toNat) : Sized m seg 2 op a b := by
  refine forall_op 0x30 (Q := (Sized m seg 2 · a b)) (forall_lt_sixteen ⟨?_, ?_, sized_B2 b, sized_B3 b, ?_, ?_, ?_, ?_,
    sized_B8 b, ?_, sized_BA b, sized_BB b, ?_, ?_, ?_, ?_⟩) h op.isLt
  all_goals simp +contextual [Sized, decRows, decRowB, Formed, firstWord, encode, encRR, wordsOf]

theorem holds_baRa (P : Instr → Prop) (ba ra : Instr) :
    Holds P (decBaRa a ba ra) ↔ (a = 0 → P ra) ∧ (a ≠ 0 → P ba) := by
  by_cases ha : a = 0
  · simp [decBaRa, ha]
  · have ha : a ≠ 0#4 := ha
    simp [decBaRa, ha]

theorem sized_row3 {op : BitVec 6} (h : 0x30 ≤ op.toNat) : Sized m seg 0 op a b := by
  refine forall_op 0x30 (Q := (Sized m seg 0 · a b)) (forall_lt_sixteen ⟨?_, ?_, ?_, ?_, ?_, ?_, ?_, ?_, ?_, ?_,
    sized_3A b, sized_3B b, ?_, ?_, ?_, ?_⟩) h op.isLt
  all_goals simp +contextual [Sized, decRows, decRow3, holds_baRa, withIr, Formed, firstWord, encode, encRel, encPort,
    encLdSrc, encLdMem, encMem, wordsOf]

/-- LDA of an address. -/
theorem sized_76 : Sized m seg 1 0x36 a b := by
  intro w1 w2 w3
  refine holds_withAdr (k := fun adr _ => .ok (if nib1 (asm 1 0x36 a b) = 0 then
    Instr.lda (nib0 (asm 1 0x36 a b)) (.da adr) else .lda (nib0 (asm 1 0x36 a b)) (.x adr (nib1 (asm 1 0x36 a b)))))
    fun adr hl => (holds_ok _ _).mpr ?_
  rw [nib1_asm, nib0_asm]
  split_ifs with ha
  · simp [ha, Formed, firstWord, encode, wordsOf, hl, Nat.add_comm]
  · simp [Formed, firstWord, encode, wordsOf, hl, Nat.add_comm]

/-- An instruction whose words are those of an operand that fits. -/
theorem formed_put {mm : BitVec 2} {op : BitVec 6} {v : Word} {k : Nat} {c : Coding} (f : Fits seg mm a v k c)
    {mid : List Word} {i : Instr} (he : encode i = c.put op b mid) {n : Nat}
    (hn : n = mid.length + countF mm.toNat seg a v k) : Formed mm op a b n i := by
  refine ⟨?_, ?_⟩
  · rw [firstWord, he, ← f.mode, ← f.field]; rfl
  · rw [he, hn, ← f.length]; simp [Coding.put]; omega

/-- LDPS of an address. -/
theorem sized_79 : Sized m seg 1 0x39 a b := by
  intro w1 w2 w3
  show Holds _ (if nib0 (asm 1 0x39 a b) = 0 then _ else _)
  rw [holds_ite, nib0_asm]
  refine ⟨fun hb => ?_, fun _ => holds_error _ _⟩
  subst hb
  refine holds_withDaX (n := 0) (k := fun o _ => .ok (.ldps o)) fun o ho => (holds_ok _ _).mpr ?_
  rw [nib1_asm] at ho
  exact formed_put ho (mid := []) (i := .ldps o) (encMem_eq_put 0x39 o 0 []) (by simp [wordsOf, countF])

theorem asm_sc : asm 1 0x3F a b = 0x7F#8 ++ loByte (asm 1 0x3F a b) := by
  have hi : hiByte (asm 1 0x3F a b) = 0x7F#8 := by
    unfold hiByte asm
    apply BitVec.eq_of_getLsbD_eq; intro i hi
    simp only [BitVec.getLsbD_extractLsb', BitVec.getLsbD_append]
    interval_cases i <;> simp
  exact (Machine.wordOf_parts _).symm.trans (by rw [hi]; rfl)

theorem sized_row7 {op : BitVec 6} (h : 0x30 ≤ op.toNat) : Sized m seg 1 op a b := by
  refine forall_op 0x30 (Q := (Sized m seg 1 · a b)) (forall_lt_sixteen ⟨?_, ?_, ?_, ?_, ?_, ?_, sized_76, ?_, ?_,
    sized_79, ?_, sized_7B b, sized_7C b, sized_7D b, ?_, ?_⟩) h op.isLt
  all_goals simp +contextual [Sized, decRows, decRow7, decBx, withField2, zeroField, Formed, firstWord, encode,
    encLdSrc, encLdMem, wordsOf]
  exact asm_sc.symm

/-! Rows 0 to 2, of all mode bits but 11. -/

variable {mm : BitVec 2} {op : BitVec 6}

/-- Family F2. -/
theorem sized_F2 (hm : mm ≠ 3) {n : Nat} (hn : n = 8 ∨ n = 16 ∨ n = 32) {mk : RegNo → Src n → Instr}
    (row : ∀ mm w0 w1 w2 w3, decRows m mm op.toNat seg w0 w1 w2 w3 = decF2 mm seg n (nib1 w0) w1 w2 (mk (nib0 w0)))
    (he : ∀ d src, encode (mk d src) = encF2 op d src)
    (hc : ∀ w1 w2, wordsOf seg (asm mm op a b) w1 w2 = countF mm.toNat seg a w1 (immExtra n)) :
    Sized m seg mm op a b := by
  intro w1 w2 w3
  rw [row, nib1_asm, nib0_asm]
  refine holds_decF2 hm hn fun src f => formed_put f (mid := []) ?_ ?_
  · rw [he, encF2_eq_put]
  · rw [hc]; simp

/-- Families F1 and F3. -/
theorem formed_loc (hm : mm ≠ 3) {w1 w2 : Word} {mk : Loc → Instr} {n : Nat}
    (he : ∀ l, encode (mk l) = encLoc op b l) (hn : n = countF mm.toNat seg a w1 0) :
    Holds (Formed mm op a b n) (decLoc mm.toNat seg a w1 w2 mk) :=
  holds_decLoc hm fun l f => formed_put f (mid := []) (by rw [he, encLoc_eq_put]) (by simpa using hn)

/-- A memory operand, behind the words `mid`. -/
theorem formed_mem (hm : mm ≠ 3) (h2 : mm ≠ 2) {v w : Word} {mk : Mem → Instr} {n : Nat} {mid : List Word}
    (he : ∀ o, encode (mk o) = encMem op o b mid) (hn : n = mid.length + countF mm.toNat seg a v 0) :
    Holds (Formed mm op a b n) (decMem mm.toNat seg a v w mk) :=
  holds_decMem hm h2 fun o f => formed_put f (by rw [he, encMem_eq_put]) hn

/-- A memory operand with an immediate behind it. -/
theorem formed_memImm (hm : mm ≠ 3) (h2 : mm ≠ 2) {k : Nat} (hk : k = 8 ∨ k = 16) {w1 w2 w3 : Word}
    {mk : Mem → BitVec k → Instr} {n : Nat} (he : ∀ o v, encode (mk o v) = encMem op o b [] ++ immWords v)
    (hn : n = 1 + countF mm.toNat seg a w1 0) :
    Holds (Formed mm op a b n) (decMemImm mm.toNat seg k a w1 w2 w3 mk) := by
  have put {o : Mem} (v : BitVec k) (f : Fits seg mm a w1 0 o.coding) : Formed mm op a b n (mk o v) := by
    have len : (immWords v).length = 1 := by rcases hk with rfl | rfl <;> rfl
    refine ⟨?_, ?_⟩
    · rw [firstWord, he, encMem_eq_put, ← f.mode, ← f.field]; rfl
    · rw [he, encMem_eq_put, hn, ← f.length]; simp [Coding.put, len]; omega
  obtain rfl | rfl | rfl := mode_cases hm
  · exact holds_withIr (fun o f => (holds_ok _ _).mpr (put _ f))
  · exact holds_withDaX (k := fun o long => .ok (mk o (immOf k (if long then w3 else w2) 0)))
      (fun o f => (holds_ok _ _).mpr (put _ f))
  · exact absurd rfl h2

theorem countF_zero (mm : Nat) (seg : Bool) (a c : BitVec 4) (v : Word) : countF mm seg a v 0 = countF mm seg c v 0 := by
  simp only [countF]; split_ifs <;> simp_all

/-- PUSH and POP. -/
theorem formed_stack (hm : mm ≠ 3) {w1 w2 : Word} {mk : Loc → Instr} {n : Nat}
    (he : ∀ l, encode (mk l) = encStack op a l) (hn : n = countF mm.toNat seg a w1 0) :
    Holds (Formed mm op a b n) (decStack mm.toNat seg b w1 w2 mk) := by
  rw [decStack_eq_decLoc]
  refine holds_decLoc (n := 0) hm fun l f => ⟨?_, ?_⟩
  · rw [firstWord, he, encStack_eq, ← f.mode, ← f.field]; rfl
  · rw [he, encStack_eq, hn, countF_zero _ _ a b, ← f.length]; simp [Nat.add_comm]

theorem countTwo_eq (mm : Nat) (seg : Bool) (a : BitVec 4) (v : Word) : countTwo mm seg v = 1 + countF mm seg a v 0 := by
  simp only [countTwo, countF]; split_ifs <;> omega

theorem toNat_ne {mm k : BitVec 2} (h : mm ≠ k) : mm.toNat ≠ k.toNat := fun e => h (BitVec.eq_of_toNat_eq e)

/-- Mode bits 10. -/
theorem mode_two {mm : BitVec 2} (h : mm.toNat = 2) : mm = 2 := BitVec.eq_of_toNat_eq h

theorem countF_no_immediate (mm : Nat) (seg : Bool) (a : BitVec 4) (v : Word) :
    countF mm seg a v 0 = if mm = 1 then 1 + adrCount seg v else 1 := by
  simp only [countF]; split_ifs <;> simp_all

/-- Table 1, the byte forms, by mode bits. -/
theorem formed_table1b (hm : mm ≠ 3) (w1 w2 w3 : Word) (b : BitVec 4) :
    Holds (Formed mm 0x0C a b (countTable1 mm.toNat seg false b w1)) (decTable1b mm.toNat seg a b w1 w2 w3) := by
  by_cases h2 : mm = 2
  · subst h2; revert b; refine forall_nib ?_
    simp [decTable1b, decLoc, countTable1, Formed, firstWord, encode, encLoc]
  · have h2' : ¬mm.toNat = 2 := toNat_ne h2
    revert b; refine forall_nib ⟨?_, ?_, ?_, ?_, ?_, ?_, ?_, ?_, ?_, ?_, ?_, ?_, ?_, ?_, ?_, ?_⟩
    all_goals simp only [decTable1b, countTable1, h2', if_false]
    case refine_1 | refine_3 | refine_5 | refine_7 | refine_9 =>
      exact formed_loc hm (fun _ => rfl) (by simp [countF_no_immediate])
    case refine_2 | refine_6 =>
      refine formed_memImm hm h2 (by decide) (fun _ _ => rfl) ?_
      simp only [countF_no_immediate]; simp; split_ifs <;> omega
    all_goals simp

/-- Table 1, the word forms, by mode bits. -/
theorem formed_table1w (hm : mm ≠ 3) (w1 w2 w3 : Word) (b : BitVec 4) :
    Holds (Formed mm 0x0D a b (countTable1 mm.toNat seg true b w1)) (decTable1w mm.toNat seg a b w1 w2 w3) := by
  by_cases h2 : mm = 2
  · subst h2; revert b; refine forall_nib ?_
    simp +contextual [decTable1w, decLoc, zeroField, countTable1, Formed, firstWord, encode, encLoc]
  · have h2' : ¬mm.toNat = 2 := toNat_ne h2
    revert b; refine forall_nib ⟨?_, ?_, ?_, ?_, ?_, ?_, ?_, ?_, ?_, ?_, ?_, ?_, ?_, ?_, ?_, ?_⟩
    all_goals simp only [decTable1w, countTable1, h2', if_false]
    case refine_1 | refine_3 | refine_5 | refine_7 | refine_9 =>
      exact formed_loc hm (fun _ => rfl) (by simp [countF_no_immediate])
    case refine_2 | refine_6 =>
      refine formed_memImm hm h2 (by decide) (fun _ _ => rfl) ?_
      simp only [countF_no_immediate]; simp; split_ifs <;> omega
    case refine_10 =>
      obtain rfl | rfl | rfl := mode_cases hm <;> simp [Formed, firstWord, encode, immWords]
    all_goals simp

theorem holds_withLdm {P : Instr → Prop} {w : Word} {k : BitVec 4 → BitVec 4 → Dec} (h : ∀ d c, Holds P (k d c)) :
    Holds P (withLdm w k) := by
  unfold withLdm; split_ifs
  · exact h _ _
  · exact holds_error _ _

/-- Table 2, by mode bits. -/
theorem formed_table2 (hm : mm ≠ 3) (w1 w2 w3 : Word) (b : BitVec 4) :
    Holds (Formed mm 0x1C a b (wordsOf seg (asm mm 0x1C a b) w1 w2)) (decTable2 mm.toNat seg a b w1 w2 w3) := by
  have h3 : ¬mm.toNat = 3 := toNat_ne hm
  have count : wordsOf seg (asm mm 0x1C a b) w1 w2 =
      if mm.toNat = 2 then 1 else if b = 1 ∨ b = 9 then countTwo mm.toNat seg w2
      else if b = 8 then countF mm.toNat seg a w1 0 else 1 := by simp [wordsOf, h3]
  rw [count]
  clear count
  by_cases h2 : mm = 2
  · subst h2; revert b; refine forall_nib ?_
    simp [decTable2, decLoc, Formed, firstWord, encode, encLoc]
  · have h2' : ¬mm.toNat = 2 := toNat_ne h2
    revert b; refine forall_nib ⟨?_, ?_, ?_, ?_, ?_, ?_, ?_, ?_, ?_, ?_, ?_, ?_, ?_, ?_, ?_, ?_⟩
    all_goals simp only [decTable2, h2', if_false]
    case refine_9 => exact formed_loc hm (fun _ => rfl) (by simp)
    case refine_2 | refine_10 =>
      exact holds_withLdm fun d k => formed_mem hm h2 (fun _ => rfl) (by simp [countTwo_eq _ _ a])
    all_goals simp

/-- The extended upper bytes. -/
theorem formed_epa (hm : mm ≠ 3) (w1 w2 w3 : Word) (op : BitVec 6) (a b : BitVec 4) :
    Holds (Formed mm op a b (countTwo mm.toNat seg w2)) (decEpa m mm.toNat seg (asm mm op a b) w1 w2 w3) := by
  have mem {mk : Mem → Instr} (he : ∀ o, encode (mk o) = encMem op o b [w1]) :
      Holds (Formed mm op a b (countTwo mm.toNat seg w2)) (decEpaMem mm.toNat seg a w2 w3 mk) := by
    unfold decEpaMem
    rw [holds_ite]
    refine ⟨fun _ => holds_error _ _, fun h2 => formed_mem hm (fun e => h2 (by rw [e]; rfl)) he ?_⟩
    simp [countTwo_eq _ _ a]
  have reg {i : Instr} (he : encode i = [asm mm op a b, w1]) :
      Holds (Formed mm op a b (countTwo mm.toNat seg w2)) (decEpaReg mm.toNat i) := by
    unfold decEpaReg
    rw [holds_ite]
    exact ⟨fun h2 => (holds_ok _ _).mpr ⟨by rw [firstWord, he]; rfl, by simp [he, countTwo, h2]⟩,
      fun _ => holds_error _ _⟩
  unfold decEpa
  rw [nib1_asm, nib0_asm, fOp_asm]
  split
  · exact mem fun _ => rfl
  · exact mem fun _ => rfl
  iterate 5 exact reg rfl
  exact holds_error _ _

theorem sized_row0 (hm : mm ≠ 3) (h : op.toNat < 16) : Sized m seg mm op a b := by
  have h3 : ¬mm.toNat = 3 := toNat_ne hm
  refine forall_op 0 (Q := (Sized m seg mm · a b)) (forall_lt_sixteen ⟨?_, ?_, ?_, ?_, ?_, ?_, ?_, ?_, ?_, ?_, ?_, ?_,
    ?_, ?_, ?_, ?_⟩) (Nat.zero_le _) h
  case refine_13 =>
    intro w1 w2 w3
    simpa [decRows, decRow0, wordsOf, h3] using formed_table1b hm w1 w2 w3 b
  case refine_14 =>
    intro w1 w2 w3
    simpa [decRows, decRow0, wordsOf, h3] using formed_table1w hm w1 w2 w3 b
  case refine_15 =>
    intro w1 w2 w3
    simpa [decRows, decRow0, wordsOf, h3] using formed_epa hm w1 w2 w3 0x0E a b
  case refine_16 =>
    intro w1 w2 w3
    simpa [decRows, decRow0, wordsOf, h3] using formed_epa hm w1 w2 w3 0x0F a b
  all_goals
    exact sized_F2 hm (by decide) (fun _ _ _ _ _ => rfl) (fun _ _ => rfl) (fun w1 w2 => by simp [wordsOf, h3, immExtra])

/-- The source of LD. -/
theorem formed_ld (hm : mm ≠ 3) {n : Nat} (hn : n = 8 ∨ n = 16 ∨ n = 32) {w1 w2 : Word} {mk : LdSrc n → Instr}
    {k : Nat} {ba : BitVec 6} (he : ∀ src, encode (mk src) = encLdSrc op ba b src)
    (hk : k = countF mm.toNat seg a w1 (immExtra n)) :
    Holds (Formed mm op a b k) (decLd mm.toNat seg n a w1 w2 mk) := by
  have mem {o : Mem} (f : Fits seg mm a w1 (immExtra n) o.coding) : Formed mm op a b k (mk (.mem (.mem o))) :=
    formed_put f (mid := []) (by rw [he]; exact encMem_eq_put _ _ _ _) (by simpa using hk)
  obtain rfl | rfl | rfl := mode_cases hm
  · refine (holds_ok _ _).mpr ?_
    split_ifs with ha
    · refine ⟨by rw [firstWord, he, ha]; rfl, ?_⟩
      rw [he, hk]; simp [encLdSrc, countF, ha, immWords_length hn, Nat.add_comm]
    · exact mem ⟨rfl, rfl, by rw [countF, if_neg (fun c => ha c.2)]; rfl⟩
  · exact holds_withDaX (k := fun o _ => .ok (mk (.mem (.mem o)))) (fun o f => (holds_ok _ _).mpr (mem f))
  · exact (holds_ok _ _).mpr ⟨by rw [firstWord, he]; rfl, by rw [he, hk]; rfl⟩

/-- Bit instructions. -/
theorem formed_bit (hm : mm ≠ 3) {w1 w2 : Word} {static : Loc → BitVec 4 → Instr} {dyn : BitVec 4 → BitVec 4 → Instr}
    (hs : ∀ l, encode (static l b) = encLoc op b l) (hd : ∀ d, (encode (dyn d b)).length = 2)
    (hf : ∀ d, firstWord (dyn d b) = asm 0 op 0 b) {n : Nat} (hn : n = countF mm.toNat seg a w1 1) :
    Holds (Formed mm op a b n) (decBit mm.toNat seg a b w1 w2 static dyn) := by
  unfold decBit
  rw [holds_ite]
  refine ⟨fun h => ?_, fun h => formed_loc hm hs ?_⟩
  · obtain rfl : mm = 0 := BitVec.eq_of_toNat_eq h.1
    obtain rfl := h.2
    unfold withField2
    rw [holds_ite]
    exact ⟨fun _ => (holds_ok _ _).mpr ⟨hf _, by rw [hd, hn]; rfl⟩, fun _ => holds_error _ _⟩
  · rw [hn, countF, countF, if_neg h, if_neg h]

theorem sized_row2 (hm : mm ≠ 3) (hl : 0x20 ≤ op.toNat) (hu : op.toNat < 0x20 + 16) : Sized m seg mm op a b := by
  have h3 : ¬mm.toNat = 3 := toNat_ne hm
  have f2 : BitVec.toNat (2 : BitVec 2) = 2 := rfl
  refine forall_op 0x20 (Q := (Sized m seg mm · a b)) (forall_lt_sixteen ⟨?_, ?_, ?_, ?_, ?_, ?_, ?_, ?_, ?_, ?_, ?_, ?_,
    ?_, ?_, ?_, ?_⟩) hl hu
  all_goals
    intro w1 w2 w3
    simp [decRows, decRow2, -holds_ite, -holds_ok]
  case refine_1 | refine_2 => exact formed_ld hm (by decide) (fun _ => rfl) (by simp [wordsOf, h3, immExtra])
  case refine_3 | refine_4 | refine_5 | refine_6 | refine_7 | refine_8 =>
    exact formed_bit hm (fun _ => rfl) (fun _ => rfl) (fun _ => rfl) (by simp [wordsOf, h3])
  case refine_9 | refine_10 | refine_11 | refine_12 | refine_13 | refine_14 =>
    exact formed_loc hm (fun _ => rfl) (by simp [wordsOf, h3])
  case refine_15 | refine_16 =>
    by_cases h2 : mm = 2
    · subst h2; simp [Formed, firstWord, encode, wordsOf, countF]
    · have h2' : ¬mm.toNat = 2 := toNat_ne h2
      simp only [h2', if_false]
      exact formed_mem hm h2 (mid := []) (fun _ => rfl) (by simp [wordsOf, h3])

theorem sized_row1 (hm : mm ≠ 3) (hl : 0x10 ≤ op.toNat) (hu : op.toNat < 0x10 + 16) : Sized m seg mm op a b := by
  have h3 : ¬mm.toNat = 3 := toNat_ne hm
  refine forall_op 0x10 (Q := (Sized m seg mm · a b)) (forall_lt_sixteen ⟨?_, ?_, ?_, ?_, ?_, ?_, ?_, ?_, ?_, ?_, ?_, ?_,
    ?_, ?_, ?_, ?_⟩) hl hu
  case refine_1 | refine_3 | refine_7 | refine_9 | refine_10 | refine_11 | refine_12 =>
    exact sized_F2 hm (by decide) (fun _ _ _ _ _ => rfl) (fun _ _ => rfl) (fun w1 w2 => by simp [wordsOf, h3, immExtra])
  all_goals
    intro w1 w2 w3
    simp [decRows, decRow1, -holds_ite, -holds_ok]
  case refine_2 | refine_4 | refine_6 | refine_8 =>
    exact formed_stack hm (fun _ => rfl) (by simp [wordsOf, h3])
  case refine_5 => exact formed_ld hm (by decide) (fun _ => rfl) (by simp [wordsOf, h3, immExtra])
  case refine_13 => exact formed_table2 hm w1 w2 w3 b
  case refine_14 | refine_15 =>
    by_cases h2 : mm = 2
    · subst h2; simp +contextual [zeroField, Formed, firstWord, encode, wordsOf, countF]
    · have h2' : ¬mm.toNat = 2 := toNat_ne h2
      simp only [h2', if_false]
      exact formed_mem hm h2 (mid := []) (fun _ => rfl) (by simp [wordsOf, h3])
  case refine_16 =>
    by_cases h2 : mm = 2
    · subst h2; simp [Formed, firstWord, encode, wordsOf, countF]
    · have h2' : ¬mm.toNat = 2 := toNat_ne h2
      simp only [h2', if_false, holds_ite]
      refine ⟨fun hb => ?_, fun _ => holds_error _ _⟩
      subst hb
      exact formed_mem hm h2 (mid := []) (fun _ => rfl) (by simp [wordsOf, h3])

/-- Every row of the op code map. -/
theorem sized_rows (hm : mm ≠ 3) : Sized m seg mm op a b := by
  by_cases h1 : op.toNat < 0x10
  · exact sized_row0 hm h1
  by_cases h2 : op.toNat < 0x20
  · exact sized_row1 hm (by omega) h2
  by_cases h3 : op.toNat < 0x30
  · exact sized_row2 hm (by omega) h3
  obtain rfl | rfl | rfl := mode_cases hm
  · exact sized_row3 (by omega)
  · exact sized_row7 (by omega)
  · exact sized_rowB (by omega)

/-! ## The compact formats of mode bits 11 -/

theorem word_of_nibbles (w : Word) : nib3 w ++ nib2 w ++ loByte w = w := by
  unfold nib3 nib2 loByte
  apply BitVec.eq_of_getLsbD_eq; intro i hi
  simp only [BitVec.getLsbD_append, BitVec.getLsbD_extractLsb']
  interval_cases i <;> simp

theorem word_of_nibble (w : Word) : (nib3 w ++ w.extractLsb' 0 12 : Word) = w := by
  unfold nib3
  apply BitVec.eq_of_getLsbD_eq; intro i hi
  simp only [BitVec.getLsbD_append, BitVec.getLsbD_extractLsb']
  interval_cases i <;> simp

theorem word_of_djnz (w : Word) (u : BitVec 1) (h : w.getLsbD 7 = u.getLsbD 0) :
    (nib3 w ++ nib2 w ++ u ++ w.extractLsb' 0 7 : Word) = w := by
  have h : u[0] = w[7] := by simpa using h.symm
  unfold nib3 nib2
  apply BitVec.eq_of_getLsbD_eq; intro i hi
  simp only [BitVec.getLsbD_append, BitVec.getLsbD_extractLsb']
  interval_cases i <;> simp [h]

/-- The first nibble of a word of mode bits 11. -/
theorem nib3_compact_cases {w : Word} (h : fMode w = 3) : nib3 w = 12 ∨ nib3 w = 13 ∨ nib3 w = 14 ∨ nib3 w = 15 := by
  rw [fMode_eq_nib3] at h
  revert h; generalize nib3 w = n; revert n; decide

theorem holds_compact {w : Word} (h : fMode w = 3) :
    Holds (fun i => firstWord i = w ∧ (encode i).length = 1) (decCompact w) := by
  have nibbles := word_of_nibbles w
  have nibble := word_of_nibble w
  have djnz := word_of_djnz w
  unfold decCompact
  obtain e | e | e | e := nib3_compact_cases h <;> rw [e] at nibbles nibble djnz ⊢
  · exact (holds_ok _ _).mpr ⟨nibbles, rfl⟩
  · exact (holds_ok _ _).mpr ⟨nibble, rfl⟩
  · exact (holds_ok _ _).mpr ⟨nibbles, rfl⟩
  · refine (holds_ite _ _ _).mpr ⟨fun hb => (holds_ok _ _).mpr ⟨djnz _ (by rw [hb]; rfl), rfl⟩,
      fun hb => (holds_ok _ _).mpr ⟨djnz _ ?_, rfl⟩⟩
    rw [Bool.eq_false_iff.mpr hb]; rfl

/-- What is decoded has the word it was decoded from as its first, and as many words as are called for. -/
theorem decodeRaw_words {m : EpaMap} {seg : Bool} {i : Instr} {w0 w1 w2 w3 : Word}
    (h : decodeRaw m seg w0 w1 w2 w3 = .ok i) :
    firstWord i = w0 ∧ (encode i).length = wordsOf seg w0 w1 w2 := by
  by_cases hm : fMode w0 = 3
  · have e : (fMode w0).toNat = 3 := by rw [hm]; rfl
    unfold decodeRaw at h
    rw [if_pos e] at h
    have count : wordsOf seg w0 w1 w2 = 1 := by unfold wordsOf; rw [if_pos e]
    rw [count]
    exact holds_compact hm i h
  · rw [decodeRaw_rows m seg hm] at h
    have := sized_rows (m := m) (seg := seg) (a := nib1 w0) (b := nib0 w0) (op := fOp w0) hm w1 w2 w3
    rw [asm_fields] at this
    obtain ⟨first, len⟩ := this i h
    exact ⟨by rw [first, asm_fields], len⟩

end Sys2Proof

open Sys2Proof

/-- Settles O10: what is accepted is well formed by the decoder's own test, and has the words called for by the rows of
the op code map. -/
theorem decodedIsWellFormed : Obligations.DecodedIsWellFormed := by
  intro m seg i w0 w1 w2 w3 h
  obtain ⟨raw, wf⟩ := decode_ok h
  obtain ⟨first, len⟩ := decodeRaw_words raw
  obtain ⟨hl, hu⟩ := wordsOf_bounds seg w0 w1 w2
  exact ⟨wf, len ▸ hl, len ▸ hu, len, first⟩
end
section
/-!
PROOF. A property that every operation of an instruction keeps, except for what an exception and the control
instructions of system mode do, is kept by every instruction and by the run of the CPU: one case analysis over the
instructions, for the two statements about what every step keeps.
-/
namespace Sys2Proof.Machine

/-- Two FCWs agree but for their flags (10_state.md R27). -/
structure SameControl (f g : Fcw) : Prop where
  seg  : f.seg = g.seg
  sn   : f.sn = g.sn
  epa  : f.epa = g.epa
  vie  : f.vie = g.vie
  nvie : f.nvie = g.nvie

theorem sameControl_refl (f : Fcw) : SameControl f f := ⟨rfl, rfl, rfl, rfl, rfl⟩

theorem sameControl_flags (f : Fcw) (c z s v d h : Bool) :
    SameControl ⟨f.seg, f.sn, f.epa, f.vie, f.nvie, c, z, s, v, d, h⟩ f := ⟨rfl, rfl, rfl, rfl, rfl⟩

theorem sameControl_arith (f : Fcw) (d : Bool) {n : Nat} (x : Alu n) : SameControl (f.arith d x) f := by
  unfold Fcw.arith; split <;> exact ⟨rfl, rfl, rfl, rfl, rfl⟩

theorem sameControl_logic (f : Fcw) {n : Nat} (r : BitVec n) : SameControl (f.logic r) f := by
  unfold Fcw.logic; split <;> exact ⟨rfl, rfl, rfl, rfl, rfl⟩

/-- The instructions that write what only system mode may (43_cpu_control.md), and IRET. -/
def isControl : Instr → Bool
  | .di _ _ | .ei _ _ | .halt | .iret | .ldctlTo _ _ | .ldps _ | .mbit | .mreq _ | .mres | .mset => true
  | _ => false

/-- I is kept by what the operations of an instruction do, and gives P at its end; what an exception or a control
instruction in system mode does gives P at once. -/
structure Kept (I P : State → Prop) : Prop extends Carried I P where
  done     : ∀ s, I s → P s
  reg      : ∀ s r v, I s → I (s.setRegW r v)
  flags    : ∀ s u f, I s → I u → SameControl f u.fcw → I (s.withFcw f)
  pc       : ∀ s u a, I s → I u → u.isZ8001 = true ∨ a.seg = u.pc.seg → I { s with pc := a }
  script   : ∀ s e, I s → e.bus = s.env.bus → I { s with env := e }
  entry    : ∀ s k id saved, I s → Ends P (s.enter k id saved)
  control  : ∀ s i, I s → s.fcw.sn = true → isControl i = true → Ends P (exec i s)
  sampling : ∀ s n c d v nv, I s →
    I { s with nmiLatch := n, cpuState := c, sampleDue := d, sampleVie := v, sampleNvie := nv }
  refresh  : ∀ s k, I s → I (s.refreshCycles k)
  hold     : ∀ s w, I s → P { s.popBus.enterStop with heldWord := some w }

/-- In normal mode a privileged instruction is its trap (60_exceptions.md R481). -/
theorem exec_privileged_normal {i : Instr} (hi : isPrivileged i = true) {s : State} (hs : s.fcw.sn = false) :
    exec i s = s.enter .privilegedInstruction (firstWord i) (s.pc.plus 2) := by
  have trap (j : Instr) (k : Out) : privileged j s k = s.enter .privilegedInstruction (firstWord j) (s.pc.plus 2) :=
    if_neg (by simp [hs])
  cases i <;> first | exact trap _ _ | cases hi

theorem isControl_privileged {i : Instr} (h : isControl i = true) : isPrivileged i = true := by
  cases i <;> first | rfl | cases h

section
variable {I P : State → Prop}

/-! ## Updates of the state -/

theorem Kept.bytes (K : Kept I P) {s : State} (hs : I s) (r : RegNo) (v : Byte) : I (s.setRegB r v) := K.reg _ _ _ hs
theorem Kept.pair (K : Kept I P) {s : State} (hs : I s) (r : RegNo) (v : Long) : I (s.setRegL r v) :=
  K.reg _ _ _ (K.reg _ _ _ hs)
theorem Kept.quad (K : Kept I P) {s : State} (hs : I s) (r : RegNo) (v : Quad) : I (s.setRegQ r v) :=
  K.pair (K.pair hs _ _) _ _

theorem Kept.regN (K : Kept I P) {s : State} (hs : I s) {n : Nat} (r : RegNo) (v : BitVec n) : I (s.setReg r v) := by
  unfold State.setReg
  split_ifs
  · exact K.bytes hs _ _
  · exact K.reg _ _ _ hs
  · exact K.pair hs _ _
  · exact K.quad hs _ _

theorem Kept.regRun (K : Kept I P) {s : State} (hs : I s) (r : RegNo) (ws : List Word) : I (s.setRegRun r ws) := by
  induction ws generalizing s r with
  | nil => exact hs
  | cons w ws ih => exact ih (K.reg _ _ _ hs) _

theorem Kept.stepReg (K : Kept I P) {s : State} (hs : I s) (r : RegNo) (k : Word) : I (s.stepReg r k) := K.reg _ _ _ hs
theorem Kept.countDown (K : Kept I P) {s : State} (hs : I s) (r : RegNo) : I (s.countDown r) := K.reg _ _ _ hs
theorem Kept.move (K : Kept I P) {s : State} (hs : I s) {a : Addr} (ha : s.isZ8001 = true ∨ a.seg = s.pc.seg) :
    I { s with pc := a } := K.pc s s a hs hs ha
theorem Kept.skip (K : Kept I P) {s : State} (hs : I s) (n : Nat) : I (s.skip n) := K.move hs (.inr rfl)

theorem Kept.blockPc (K : Kept I P) {s : State} (hs : I s) (b : Bool) : I (s.blockPc b) := by
  unfold State.blockPc; split_ifs
  · exact K.skip hs 2
  · exact hs

/-- In nonsegmented mode a branch keeps the segment, and on a Z8002 there is no other mode. -/
theorem Kept.jump (K : Kept I P) {s : State} (hs : I s) (a : Addr) : I (s.jump a) := by
  refine K.move hs ?_
  unfold State.segmented
  cases s.isZ8001
  · exact .inr rfl
  · exact .inl rfl

theorem Kept.dropBus (K : Kept I P) {s : State} (hs : I s) : I s.dropBus := K.script _ _ hs rfl

/-- The end of an instruction that writes flags and goes on to the next. -/
theorem Kept.flagsSkip (K : Kept I P) {t : State} (ht : I t) {u : State} (hu : I u) {f : Fcw} (hf : SameControl f u.fcw)
    (n : Nat) : Ends P (.next ((t.withFcw f).skip n)) :=
  (ends_next _ _).mpr (K.done _ (K.skip (K.flags t u f ht hu hf) n))

theorem Kept.nextSkip (K : Kept I P) {t : State} (ht : I t) (n : Nat) : Ends P (.next (t.skip n)) :=
  (ends_next _ _).mpr (K.done _ (K.skip ht n))

theorem ends_checked {o : Out} (as : List Addr) (h : Ends P o) : Ends P (checked as o) :=
  fun t ht => h t (checked_next ht).2

/-- A privileged instruction does P in system mode, or it is its trap. -/
theorem Kept.privileged (K : Kept I P) {s : State} (hs : I s) (i : Instr) {o : Out} (h : Ends P o) :
    Ends P (privileged i s o) := by
  intro t ht
  obtain ⟨-, ht⟩ | ⟨-, ht⟩ := privileged_next ht
  · exact h t ht
  · exact K.entry _ _ _ _ hs t ht

/-! ## Shared operations -/

variable {s : State}

theorem Kept.addSrc (K : Kept I P) (hs : I s) {n : Nat} (d : RegNo) (src : Src n) : Ends P (s.addSrc d src) :=
  ends_checked _ (fetch_src_ends K.toCarried hs src fun _ _ hu =>
    K.flagsSkip (K.regN hu _ _) hs (sameControl_arith _ _ _) _)

theorem Kept.subSrc (K : Kept I P) (hs : I s) {n : Nat} (d : RegNo) (src : Src n) : Ends P (s.subSrc d src) :=
  ends_checked _ (fetch_src_ends K.toCarried hs src fun _ _ hu =>
    K.flagsSkip (K.regN hu _ _) hs (sameControl_arith _ _ _) _)

theorem Kept.compareSrc (K : Kept I P) (hs : I s) {n : Nat} (d : RegNo) (src : Src n) : Ends P (s.compareSrc d src) :=
  ends_checked _ (fetch_src_ends K.toCarried hs src fun _ _ hu => K.flagsSkip hu hs (sameControl_flags ..) _)

theorem Kept.compareMem (K : Kept I P) (hs : I s) {n : Nat} (m : Mem) (v : BitVec n) : Ends P (s.compareMem m v) :=
  ends_checked _ (load_ends K.toCarried hs _ _ _ fun _ _ hu => K.flagsSkip hu hs (sameControl_flags ..) _)

theorem Kept.modify (K : Kept I P) (hs : I s) (n : Nat) (dst : Loc) {f : BitVec n → BitVec n × Fcw}
    (hf : ∀ v, SameControl (f v).2 s.fcw) : Ends P (s.modify n dst f) :=
  ends_checked _ (fetch_loc_ends K.toCarried hs n dst fun _ _ hu =>
    write_loc_ends K.toCarried hu dst _ (fun _ => K.regN hu _ _) fun _ hx => K.flagsSkip hx hs (hf _) _)

theorem Kept.logicSrc (K : Kept I P) (hs : I s) {n : Nat} (f : BitVec n → BitVec n → BitVec n) (d : RegNo) (src : Src n) :
    Ends P (s.logicSrc f d src) :=
  ends_checked _ (fetch_src_ends K.toCarried hs src fun _ _ hu =>
    K.flagsSkip (K.regN hu _ _) hs (sameControl_logic _ _) _)

theorem Kept.testLoc (K : Kept I P) (hs : I s) (n : Nat) (dst : Loc) {f : BitVec n → Fcw}
    (hf : ∀ v, SameControl (f v) s.fcw) : Ends P (s.testLoc n dst f) :=
  ends_checked _ (fetch_loc_ends K.toCarried hs n dst fun _ _ hu => K.flagsSkip hu hs (hf _) _)

theorem Kept.testBit (K : Kept I P) (hs : I s) (n : Nat) (dst : Loc) (k words : Nat) :
    Ends P (s.testBit n dst k words) :=
  ends_checked _ (fetch_loc_ends K.toCarried hs n dst fun _ _ hu => K.flagsSkip hu hs (sameControl_flags ..) _)

theorem Kept.modifyBit (K : Kept I P) (hs : I s) (n : Nat) (dst : Loc) (f : BitVec n → BitVec n) (words : Nat) :
    Ends P (s.modifyBit n dst f words) :=
  ends_checked _ (fetch_loc_ends K.toCarried hs n dst fun _ _ hu =>
    write_loc_ends K.toCarried hu dst _ (fun _ => K.regN hu _ _) fun _ hx => K.nextSkip hx _)

theorem Kept.resetBit (K : Kept I P) (hs : I s) (n : Nat) (dst : Loc) (k words : Nat) :
    Ends P (s.resetBit n dst k words) := K.modifyBit hs n dst _ words

theorem Kept.setBit (K : Kept I P) (hs : I s) (n : Nat) (dst : Loc) (k words : Nat) :
    Ends P (s.setBit n dst k words) := K.modifyBit hs n dst _ words

theorem Kept.testAndSet (K : Kept I P) (hs : I s) (n : Nat) (dst : Loc) : Ends P (s.testAndSet n dst) :=
  ends_checked _ (fetch_loc_ends K.toCarried hs n dst fun _ _ hu =>
    writeLocked_loc_ends K.toCarried hu dst _ (fun _ => K.regN hu _ _) fun _ hx =>
      K.flagsSkip hx hs (sameControl_flags ..) _)

theorem Kept.setOnCondition (K : Kept I P) (hs : I s) (n : Nat) (c : Cc) (d : RegNo) :
    Ends P (s.setOnCondition n c d) := by
  refine K.nextSkip ?_ 1
  split_ifs
  · exact K.regN hs _ _
  · exact hs

theorem Kept.rotate (K : Kept I P) (hs : I s) (n : Nat) (f : Shift n → Shift n) (d : RegNo) (two : Bool) :
    Ends P (s.rotate n f d two) := K.flagsSkip (K.regN hs _ _) hs (sameControl_flags ..) _

theorem Kept.shiftArith (K : Kept I P) (hs : I s) (n : Nat) (f : Shift n → Shift n) (d : RegNo) (k : Nat) :
    Ends P (s.shiftArith n f d k) := K.flagsSkip (K.regN hs _ _) hs (sameControl_flags ..) _

theorem Kept.shiftLogical (K : Kept I P) (hs : I s) (n : Nat) (f : Shift n → Shift n) (d : RegNo) (k : Nat) :
    Ends P (s.shiftLogical n f d k) := K.flagsSkip (K.regN hs _ _) hs (sameControl_flags ..) _

theorem withCount_ends (n : Nat) (r : RegNo) {k : Int → Out} (h : ∀ c, Ends P (k c)) : Ends P (s.withCount n r k) := by
  unfold State.withCount
  dsimp only
  split_ifs
  · exact ends_fault _ _
  · exact h _

theorem Kept.shiftDynArith (K : Kept I P) (hs : I s) (n : Nat) (d r : RegNo) : Ends P (s.shiftDynArith n d r) := by
  refine withCount_ends n r fun c => ?_
  split_ifs
  · exact K.shiftArith hs _ _ _ _
  · exact K.shiftArith hs _ _ _ _

theorem Kept.shiftDynLogical (K : Kept I P) (hs : I s) (n : Nat) (d r : RegNo) : Ends P (s.shiftDynLogical n d r) := by
  refine withCount_ends n r fun c => ?_
  split_ifs
  · exact K.shiftLogical hs _ _ _ _
  · exact K.shiftLogical hs _ _ _ _

theorem Kept.digits (K : Kept I P) (hs : I s) (l r : RegNo) (x y : Byte) : Ends P (s.digits l r x y) :=
  K.flagsSkip (K.bytes (K.bytes hs _ _) _ _) hs (sameControl_flags ..) _

theorem Kept.clearLoc (K : Kept I P) (hs : I s) (n : Nat) (dst : Loc) : Ends P (s.clearLoc n dst) :=
  ends_checked _ (write_loc_ends K.toCarried hs dst _ (fun _ => K.regN hs _ _) fun _ hu => K.nextSkip hu _)

theorem Kept.exchange (K : Kept I P) (hs : I s) (n : Nat) (d : RegNo) (src : Loc) : Ends P (s.exchange n d src) :=
  ends_checked _ (fetch_loc_ends K.toCarried hs n src fun _ _ hu =>
    write_loc_ends K.toCarried hu src _ (fun _ => K.regN hu _ _) fun _ hx => K.nextSkip (K.regN hx _ _) _)

theorem Kept.loadReg (K : Kept I P) (hs : I s) {n : Nat} (d : RegNo) (src : LdSrc n) : Ends P (s.loadReg d src) :=
  ends_checked _ (fetch_ldSrc_ends K.toCarried hs src fun _ _ hu => K.nextSkip (K.regN hu _ _) _)

theorem Kept.storeAt (K : Kept I P) (hs : I s) {n : Nat} (sp : Space) (a : Addr) (v : BitVec n) (words : Nat) :
    Ends P (s.storeAt sp a v words) :=
  ends_checked _ (store_ends K.toCarried hs _ _ _ fun _ hu => K.nextSkip hu _)

theorem Kept.loadAddr (K : Kept I P) (hs : I s) (d : RegNo) (a : Addr) (words : Nat) :
    Ends P (s.loadAddr d a words) := by
  refine K.nextSkip ?_ _
  split_ifs
  · exact K.reg _ _ _ (K.reg _ _ _ hs)
  · exact K.reg _ _ _ hs

theorem Kept.loadRel (K : Kept I P) (hs : I s) (n : Nat) (d : RegNo) (disp : Word) : Ends P (s.loadRel n d disp) :=
  ends_checked _ (load_ends K.toCarried hs _ _ _ fun _ _ hu => K.nextSkip (K.regN hu _ _) _)

theorem Kept.popTo (K : Kept I P) (hs : I s) (n : Nat) (dst : Loc) (sp : RegNo) : Ends P (s.popTo n dst sp) :=
  ends_checked _ (load_ends K.toCarried hs _ _ _ fun _ _ hu =>
    write_loc_ends K.toCarried hu dst _ (fun _ => K.regN hu _ _) fun _ hx => K.nextSkip (K.stepReg hx _ _) _)

theorem Kept.pushVal (K : Kept I P) (hs : I s) {n : Nat} (sp : RegNo) (v : BitVec n) (words : Nat) :
    Ends P (s.pushVal sp v words) :=
  store_ends K.toCarried (K.stepReg hs _ _) _ _ _ fun _ hu => K.nextSkip hu _

theorem Kept.pushLoc (K : Kept I P) (hs : I s) (n : Nat) (sp : RegNo) (src : Loc) : Ends P (s.pushLoc n sp src) :=
  ends_checked _ (fetch_loc_ends K.toCarried hs n src fun _ _ hu => K.pushVal hu _ _ _)

theorem withBlockCount_ends (n : Nat) (r : RegNo) {o : Out} (h : Ends P o) : Ends P (s.withBlockCount n r o) := by
  unfold State.withBlockCount; split_ifs
  · exact ends_fault _ _
  · exact h

/-- The end of a basic operation of a block instruction. -/
theorem Kept.blockEnd (K : Kept I P) {t : State} (ht : I t) (hs : I s) {f : Fcw} (hf : SameControl f s.fcw) (b : Bool) :
    Ends P (.next ((t.withFcw f).blockPc b)) :=
  (ends_next _ _).mpr (K.done _ (K.blockPc (K.flags t s f ht hs hf) b))

theorem Kept.compareElement (K : Kept I P) (hs : I s) (n : Nat) (rs r rd : RegNo) (cc : Cc) (step : Word) (rep : Bool) :
    Ends P (s.compareElement n rs r rd cc step rep) :=
  withBlockCount_ends n r (ends_checked _ (load_ends K.toCarried hs _ _ _ fun _ _ hu =>
    K.blockEnd (K.countDown (K.stepReg hu _ _) _) hs (sameControl_flags ..) _))

theorem Kept.compareStrings (K : Kept I P) (hs : I s) (n : Nat) (rs r rd : RegNo) (cc : Cc) (step : Word) (rep : Bool) :
    Ends P (s.compareStrings n rs r rd cc step rep) :=
  withBlockCount_ends n r (ends_checked _ (load_ends K.toCarried hs _ _ _ fun _ _ hu =>
    load_ends K.toCarried hu _ _ _ fun _ _ hx =>
      K.blockEnd (K.countDown (K.stepReg (K.stepReg hx _ _) _ _) _) hs (sameControl_flags ..) _))

theorem Kept.moveElement (K : Kept I P) (hs : I s) (n : Nat) (rs r rd : RegNo) (step : Word) (rep : Bool) :
    Ends P (s.moveElement n rs r rd step rep) :=
  withBlockCount_ends n r (ends_checked _ (load_ends K.toCarried hs _ _ _ fun _ _ hu =>
    store_ends K.toCarried hu _ _ _ fun _ hx =>
      K.blockEnd (K.countDown (K.stepReg (K.stepReg hx _ _) _ _) _) hs (sameControl_flags ..) _))

theorem Kept.loadEntry (K : Kept I P) (hs : I s) (ra rb : RegNo) {k : Byte → State → Out}
    (hk : ∀ v u, I u → Ends P (k v u)) : Ends P (s.loadEntry ra rb k) :=
  loadByte_ends K.toCarried hs _ _ fun _ _ hu => loadByte_ends K.toCarried hu _ _ hk

theorem Kept.translate (K : Kept I P) (hs : I s) (rd r rs : RegNo) (step : Word) (rep : Bool) :
    Ends P (s.translate rd r rs step rep) :=
  K.loadEntry hs rd rs fun _ _ hu => store_ends K.toCarried hu _ _ _ fun _ hx =>
    K.blockEnd (K.bytes (K.countDown (K.stepReg hx _ _) _) _ _) hs (sameControl_flags ..) _

theorem Kept.translateTest (K : Kept I P) (hs : I s) (ra r rb : RegNo) (step : Word) (rep : Bool) :
    Ends P (s.translateTest ra r rb step rep) :=
  K.loadEntry hs ra rb fun _ _ hu =>
    K.blockEnd (K.bytes (K.countDown (K.stepReg hu _ _) _) _ _) hs (sameControl_flags ..) _

theorem Kept.ioRead (K : Kept I P) (hs : I s) (n : Nat) (io : IoSpace) (port : Word) {k : BitVec n → State → Out}
    (hk : ∀ v u, I u → Ends P (k v u)) : Ends P (s.ioRead n io port k) :=
  turn_ends K.toCarried hs fun _ hu => hk _ _ (K.record _ _ (K.dropBus hu))

theorem Kept.ioWrite (K : Kept I P) (hs : I s) {n : Nat} (io : IoSpace) (port : Word) (v : BitVec n) {k : State → Out}
    (hk : ∀ u, I u → Ends P (k u)) : Ends P (s.ioWrite io port v k) :=
  turn_ends K.toCarried hs fun _ hu => hk _ (K.record _ _ hu)

theorem Kept.input (K : Kept I P) (hs : I s) (n : Nat) (io : IoSpace) (d : RegNo) (port : Word) (words : Nat) :
    Ends P (s.input n io d port words) := K.ioRead hs n io port fun _ _ hu => K.nextSkip (K.regN hu _ _) _

theorem Kept.output (K : Kept I P) (hs : I s) (n : Nat) (io : IoSpace) (port : Word) (r : RegNo) (words : Nat) :
    Ends P (s.output n io port r words) := K.ioWrite hs io port _ fun _ hu => K.nextSkip hu _

theorem Kept.blockIn (K : Kept I P) (hs : I s) (n : Nat) (io : IoSpace) (rs r rd : RegNo) (step : Word) (rep : Bool) :
    Ends P (s.blockIn n io rs r rd step rep) :=
  withBlockCount_ends n r (ends_checked _ (K.ioRead hs _ _ _ fun _ _ hu => store_ends K.toCarried hu _ _ _ fun _ hx =>
    K.blockEnd (K.countDown (K.stepReg hx _ _) _) hs (sameControl_flags ..) _))

theorem Kept.blockOut (K : Kept I P) (hs : I s) (n : Nat) (io : IoSpace) (rs r rd : RegNo) (step : Word) (rep : Bool) :
    Ends P (s.blockOut n io rs r rd step rep) :=
  withBlockCount_ends n r (ends_checked _ (load_ends K.toCarried hs _ _ _ fun _ _ hu => K.ioWrite hu _ _ _ fun _ hx =>
    K.blockEnd (K.countDown (K.stepReg hx _ _) _) hs (sameControl_flags ..) _))

theorem Kept.callTo (K : Kept I P) (hs : I s) (a : Addr) (words : Nat) : Ends P (s.callTo a words) :=
  ends_checked _ (storeWords_ends K.toCarried (K.reg _ _ _ hs) _ _ _ fun _ hu =>
    (ends_next _ _).mpr (K.done _ (K.jump hu a)))

theorem Kept.loadReturn (K : Kept I P) (hs : I s) {k : Addr → State → Out} (hk : ∀ a u, I u → Ends P (k a u)) :
    Ends P (s.loadReturn k) := by
  unfold State.loadReturn; split_ifs
  · exact loadWord_ends K.toCarried hs _ _ fun _ _ hu => loadWord_ends K.toCarried hu _ _ fun _ _ hx => hk _ _ hx
  · exact loadWord_ends K.toCarried hs _ _ fun _ _ hu => hk _ _ hu

theorem Kept.decrementJump (K : Kept I P) (hs : I s) (n : Nat) (r : RegNo) (disp : BitVec 7) :
    Ends P (s.decrementJump n r disp) := by
  refine (ends_next _ _).mpr (K.done _ ?_)
  have ht := K.skip (K.regN hs r (s.reg n r - 1)) 1
  split_ifs
  · exact ht
  · exact K.move ht (.inr rfl)

/-- An extended instruction is its trap, or the EPU gets its words. -/
theorem Kept.extended (K : Kept I P) (hs : I s) (i : Instr) {k : State → Out} (hk : ∀ u, I u → Ends P (k u)) :
    Ends P (extended i s k) := by
  unfold Machine.extended; split_ifs
  · obtain ⟨saved, -, e⟩ := extendedTrap_eq s (firstWord i) (some (encode i).length)
    rw [e]; exact K.entry _ _ _ _ hs
  · exact ends_refused _ _
  · exact hk _ (K.record _ _ hs)

theorem Kept.storeSupplied (K : Kept I P) (hs : I s) (sp : Space) (a : Addr) (i n : Nat) {k : State → Out}
    (hk : ∀ u, I u → Ends P (k u)) : Ends P (s.storeSupplied sp a i n k) := by
  induction n generalizing s a i with
  | zero => exact hk _ hs
  | succ n ih =>
    exact turn_ends K.toCarried hs fun _ hu =>
      ih (wroteWord_carried K.toCarried (K.record _ _ (K.dropBus hu)) _ _ _) _ _

theorem Kept.captureMem (K : Kept I P) (hs : I s) (sp : Space) (a : Addr) (n : Nat) {k : State → Out}
    (hk : ∀ u, I u → Ends P (k u)) : Ends P (s.captureMem sp a n k) := by
  induction n generalizing s a with
  | zero => exact hk _ hs
  | succ n ih => exact loadWord_ends K.toCarried hs _ _ fun _ _ hu => ih (K.record _ _ hu) _

theorem Kept.supplyRegs (K : Kept I P) (hs : I s) (r : RegNo) (i n : Nat) {k : State → Out}
    (hk : ∀ u, I u → Ends P (k u)) : Ends P (s.supplyRegs r i n k) := by
  induction n generalizing s r i with
  | zero => exact hk _ hs
  | succ n ih =>
    exact turn_ends K.toCarried hs fun _ hu => ih (K.reg _ _ _ (K.record _ _ (K.dropBus hu))) _ _

theorem Kept.captureWords (K : Kept I P) (hs : I s) (ws : List Word) {k : State → Out}
    (hk : ∀ u, I u → Ends P (k u)) : Ends P (s.captureWords ws k) := by
  induction ws generalizing s with
  | nil => exact hk _ hs
  | cons w ws ih => exact turn_ends K.toCarried hs fun _ hu => ih (K.record _ _ hu)

theorem Kept.div (K : Kept I P) (hs : I s) (d : RegNo) (src : Src 16) : Ends P (execDiv d src s) := by
  refine ends_checked _ (fetch_src_ends K.toCarried hs src fun v t ht => ?_)
  cases divide 16 (s.regL d).toInt v.toInt with
  | some qr => exact K.flagsSkip (K.pair ht _ _) hs (sameControl_flags ..) _
  | none => exact K.flagsSkip (K.pair ht _ _) hs (sameControl_flags ..) _

theorem Kept.divl (K : Kept I P) (hs : I s) (d : RegNo) (src : Src 32) : Ends P (execDivl d src s) := by
  refine ends_checked _ (fetch_src_ends K.toCarried hs src fun v t ht => ?_)
  cases divide 32 (s.regQ d).toInt v.toInt with
  | some qr => exact K.flagsSkip (K.quad ht _ _) hs (sameControl_flags ..) _
  | none => exact K.flagsSkip (K.quad ht _ _) hs (sameControl_flags ..) _

theorem Kept.dab (K : Kept I P) (hs : I s) (d : RegNo) : Ends P (execDab d s) := by
  unfold execDab
  cases dabRow s.fcw (s.regB d) with
  | some row => exact K.flagsSkip (K.bytes hs _ _) hs (sameControl_flags ..) _
  | none => exact K.flagsSkip (K.bytes hs _ _) hs (sameControl_flags ..) _

/-- A jump taken or not. -/
theorem Kept.branch (K : Kept I P) {c : Prop} [Decidable c] {t u : State} (ht : I t) (hu : I u) :
    Ends P (.next (if c then t else u)) := by
  split_ifs
  · exact (ends_next _ _).mpr (K.done _ ht)
  · exact (ends_next _ _).mpr (K.done _ hu)

theorem Kept.ret (K : Kept I P) (hs : I s) (c : Cc) : Ends P (execRet c s) := by
  unfold execRet; split_ifs
  · exact ends_checked _ (K.loadReturn hs fun a u hu => (ends_next _ _).mpr (K.done _ (K.jump (K.reg _ _ _ hu) a)))
  · exact K.nextSkip hs 1

theorem Kept.ldctlFrom (K : Kept I P) (hs : I s) (d : RegNo) (c : CtlReg) : Ends P (execLdctlFrom d c s) := by
  refine K.privileged hs _ ?_
  cases s.readCtl c with
  | some w => exact K.nextSkip (K.reg _ _ _ hs) 1
  | none => exact ends_refused _ _

/-! ## Every instruction -/

theorem Kept.exec (K : Kept I P) (hs : I s) (i : Instr) : Ends P (exec i s) := by
  have next {t : State} (ht : I t) (n : Nat) : Ends P (.next (t.skip n)) := K.nextSkip ht n
  by_cases hc : isControl i = true
  · by_cases hsn : s.fcw.sn = true
    · exact K.control s i hs hsn hc
    · rw [exec_privileged_normal (isControl_privileged hc) (by simpa using hsn)]
      exact K.entry _ _ _ _ hs
  cases i with
  | di | ei | halt | iret | ldctlTo | ldps | mbit | mreq | mres | mset => exact absurd rfl hc
  | adcb d r | adc d r | sbcb d r | sbc d r =>
    exact K.flagsSkip (K.regN hs _ _) hs (sameControl_arith _ _ _) 1
  | addb d src | add d src | addl d src => exact K.addSrc hs d src
  | subb d src | sub d src | subl d src => exact K.subSrc hs d src
  | cpb d src | cp d src | cpl d src => exact K.compareSrc hs d src
  | cpbMem m v | cpMem m v => exact K.compareMem hs m v
  | dab d => exact K.dab hs d
  | incb l k | inc l k | decb l k | dec l k => exact K.modify hs _ l fun _ => sameControl_flags ..
  | negb l | neg l => exact K.modify hs _ l fun _ => sameControl_flags ..
  | extsb d => exact K.flagsSkip (K.reg _ _ _ hs) hs (sameControl_flags ..) 1
  | exts d => exact K.flagsSkip (K.pair hs _ _) hs (sameControl_flags ..) 1
  | extsl d => exact K.flagsSkip (K.quad hs _ _) hs (sameControl_flags ..) 1
  | div d src => exact K.div hs d src
  | divl d src => exact K.divl hs d src
  | mult d src =>
    exact ends_checked _ (fetch_src_ends K.toCarried hs src fun _ _ hu =>
      K.flagsSkip (K.pair hu _ _) hs (sameControl_flags ..) _)
  | multl d src =>
    exact ends_checked _ (fetch_src_ends K.toCarried hs src fun _ _ hu =>
      K.flagsSkip (K.quad hu _ _) hs (sameControl_flags ..) _)
  | andb d src | and d src | orb d src | or d src | xorb d src | xor d src => exact K.logicSrc hs _ d src
  | comb l | com l => exact K.modify hs _ l fun v => sameControl_logic s.fcw (~~~v)
  | testb l | test l => exact K.testLoc hs _ l fun _ => sameControl_logic _ _
  | testl l => exact K.testLoc hs _ l fun _ => sameControl_flags ..
  | tccb c d | tcc c d => exact K.setOnCondition hs _ c d
  | bitbStatic l b => exact K.testBit hs 8 l _ _
  | bitStatic l b => exact K.testBit hs 16 l _ _
  | bitbDyn d r => exact K.testBit hs 8 (.reg d) _ 2
  | bitDyn d r => exact K.testBit hs 16 (.reg d) _ 2
  | resbStatic l b => exact K.resetBit hs 8 l _ _
  | resStatic l b => exact K.resetBit hs 16 l _ _
  | resbDyn d r => exact K.resetBit hs 8 (.reg d) _ 2
  | resDyn d r => exact K.resetBit hs 16 (.reg d) _ 2
  | setbStatic l b => exact K.setBit hs 8 l _ _
  | setStatic l b => exact K.setBit hs 16 l _ _
  | setbDyn d r => exact K.setBit hs 8 (.reg d) _ 2
  | setDyn d r => exact K.setBit hs 16 (.reg d) _ 2
  | tsetb l | tset l => exact K.testAndSet hs _ l
  | rlb d t | rl d t | rlcb d t | rlc d t | rrb d t | rr d t | rrcb d t | rrc d t => exact K.rotate hs _ _ d t
  | rldb l r | rrdb l r => exact K.digits hs l r _ _
  | slab d k | sla d k | slal d k | srab d k | sra d k | sral d k => exact K.shiftArith hs _ _ d k
  | sllb d k | sll d k | slll d k | srlb d k | srl d k | srll d k => exact K.shiftLogical hs _ _ d k
  | sdab d r | sda d r | sdal d r => exact K.shiftDynArith hs _ d r
  | sdlb d r | sdl d r | sdll d r => exact K.shiftDynLogical hs _ d r
  | clrb l | clr l => exact K.clearLoc hs _ l
  | exb d l | ex d l => exact K.exchange hs _ d l
  | ldb d src | ld d src | ldl d src => exact K.loadReg hs d src
  | ldbStore m r | ldbImm m v | ldrbStore disp r => exact K.storeAt (n := 8) hs _ _ _ _
  | ldStore m r | ldImm m v | ldrStore disp r => exact K.storeAt (n := 16) hs _ _ _ _
  | ldlStore m r | ldrlStore disp r => exact K.storeAt (n := 32) hs _ _ _ _
  | ldrb d disp => exact K.loadRel hs 8 d disp
  | ldr d disp => exact K.loadRel hs 16 d disp
  | ldrl d disp => exact K.loadRel hs 32 d disp
  | ldbCompact d v => exact K.nextSkip (K.bytes hs _ _) 1
  | ldk d n => exact K.nextSkip (K.reg _ _ _ hs) 1
  | lda d src => exact K.loadAddr hs d _ _
  | ldar d disp => exact K.loadAddr hs d _ _
  | ldmLoad d m k =>
    exact ends_checked _ (loadWords_ends K.toCarried hs _ _ _ fun _ _ hu => K.nextSkip (K.regRun hu _ _) _)
  | ldmStore m r k => exact ends_checked _ (storeWords_ends K.toCarried hs _ _ _ fun _ hu => K.nextSkip hu _)
  | pop l sp | popl l sp => exact K.popTo hs _ l sp
  | push sp l | pushl sp l => exact K.pushLoc hs _ sp l
  | pushImm sp v => exact ends_checked _ (K.pushVal hs sp v 2)
  | cpib a r b c | cpirb a r b c | cpdb a r b c | cpdrb a r b c => exact K.compareElement hs 8 a r b c _ _
  | cpi a r b c | cpir a r b c | cpd a r b c | cpdr a r b c => exact K.compareElement hs 16 a r b c _ _
  | cpsib a r b c | cpsirb a r b c | cpsdb a r b c | cpsdrb a r b c => exact K.compareStrings hs 8 a r b c _ _
  | cpsi a r b c | cpsir a r b c | cpsd a r b c | cpsdr a r b c => exact K.compareStrings hs 16 a r b c _ _
  | ldib a r b | ldirb a r b | lddb a r b | lddrb a r b => exact K.moveElement hs 8 a r b _ _
  | ldi a r b | ldir a r b | ldd a r b | lddr a r b => exact K.moveElement hs 16 a r b _ _
  | trib a r b | trirb a r b | trdb a r b | trdrb a r b => exact K.translate hs a r b _ _
  | trtib a r b | trtirb a r b | trtdb a r b | trtdrb a r b => exact K.translateTest hs a r b _ _
  | comflg k | resflg k | setflg k | ldctlbTo r => exact K.flagsSkip hs hs (sameControl_flags ..) 1
  | nop => exact K.nextSkip hs 1
  | ldctlbFrom d => exact K.nextSkip (K.bytes hs _ _) 1
  | ldctlFrom d c => exact K.ldctlFrom hs d c
  | inb d p | sinb d p => exact K.privileged hs _ (K.input hs 8 _ d _ _)
  | inw d p | sin d p => exact K.privileged hs _ (K.input hs 16 _ d _ _)
  | outb p r | soutb p r => exact K.privileged hs _ (K.output hs 8 _ _ r _)
  | outw p r | sout p r => exact K.privileged hs _ (K.output hs 16 _ _ r _)
  | inib a r b | inirb a r b | indb a r b | indrb a r b | sinib a r b | sinirb a r b | sindb a r b | sindrb a r b =>
    exact K.privileged hs _ (K.blockIn hs 8 _ a r b _ _)
  | ini a r b | inir a r b | ind a r b | indr a r b | sini a r b | sinir a r b | sind a r b | sindr a r b =>
    exact K.privileged hs _ (K.blockIn hs 16 _ a r b _ _)
  | outib a r b | otirb a r b | outdb a r b | otdrb a r b | soutib a r b | sotirb a r b | soutdb a r b
  | sotdrb a r b => exact K.privileged hs _ (K.blockOut hs 8 _ a r b _ _)
  | outi a r b | otir a r b | outd a r b | otdr a r b | souti a r b | sotir a r b | soutd a r b | sotdr a r b =>
    exact K.privileged hs _ (K.blockOut hs 16 _ a r b _ _)
  | call m => exact K.callTo hs _ _
  | calr disp => exact K.callTo hs _ _
  | djnz r disp | dbjnz r disp => exact K.decrementJump hs _ r disp
  | jp c m => exact K.branch (K.jump hs _) (K.skip hs _)
  | jr c disp => exact K.branch (K.move (K.skip hs 1) (.inr rfl)) (K.skip hs 1)
  | ret c => exact K.ret hs c
  | sc v => exact K.entry _ _ _ _ hs
  | epaMemFromEpu sel lo m w1 =>
    exact K.extended hs _ fun _ hu => ends_checked _ (K.storeSupplied hu _ _ _ _ fun _ hx => K.nextSkip hx _)
  | epaEpuFromMem sel lo m w1 =>
    exact K.extended hs _ fun _ hu => ends_checked _ (K.captureMem hu _ _ _ fun _ hx => K.nextSkip hx _)
  | epaCpuFromEpu w0 w1 => exact K.extended hs _ fun _ hu => K.supplyRegs hu _ _ _ fun _ hx => K.nextSkip hx _
  | epaEpuFromCpu w0 w1 => exact K.extended hs _ fun _ hu => K.captureWords hu _ fun _ hx => K.nextSkip hx _
  | epaFcwFromEpu w0 w1 =>
    exact K.extended hs _ fun _ hu => turn_ends K.toCarried hu fun _ hx =>
      K.flagsSkip (K.reg _ _ _ (K.record _ _ (K.dropBus hx))) hs (sameControl_flags ..) _
  | epaEpuFromFcw w0 w1 =>
    exact K.extended hs _ fun _ hu => turn_ends K.toCarried hu fun _ hx => K.nextSkip (K.record _ _ hx) _
  | epaInternal w0 w1 => exact K.extended hs _ fun _ hu => K.nextSkip hu _
  | rsvd w => exact ends_refused _ _

/-! ## The run of the CPU -/

theorem Kept.fetchWord (K : Kept I P) (hs : I s) (k : Nat) {f : Word → State → Out}
    (hf : ∀ w u, I u → Ends P (f w u)) : Ends P (s.fetchWord k f) :=
  turn_ends K.toCarried hs fun _ hu => hf _ _ (K.record _ _ hu)

theorem Kept.fetchMore (K : Kept I P) (hs : I s) (ws : List Word) (n : Nat) {f : List Word → State → Out}
    (hf : ∀ w u, I u → Ends P (f w u)) : Ends P (s.fetchMore ws n f) := by
  induction n generalizing s ws with
  | zero => exact hf _ _ hs
  | succ n ih =>
    unfold State.fetchMore; split_ifs
    · exact K.fetchWord hs _ fun w u hu => ih hu _
    · exact hf _ _ hs

theorem Kept.runWords (K : Kept I P) (hs : I s) (ws : List Word) : Ends P (s.runWords ws) := by
  intro t h
  obtain ⟨i, -, h, -⟩ := runWords_next h
  exact K.exec hs i t h

theorem Kept.runFrom (K : Kept I P) (hs : I s) (w0 : Word) : Ends P (s.runFrom w0) := by
  intro t h
  obtain ⟨o, ho, h, -⟩ | ⟨-, -, rfl⟩ | ⟨-, h⟩ := runFrom_next h
  · obtain ⟨-, saved, -, rfl⟩ | ⟨-, rfl⟩ := firstWordTrap_some ho
    · exact K.entry _ _ _ _ hs t h
    · exact K.entry _ _ _ _ hs t h
  · exact K.hold _ _ hs
  · exact K.fetchMore hs _ _ (fun _ _ hu => K.runWords hu _) t h

theorem Kept.begin (K : Kept I P) (hs : I s) : I s.begin := K.sampling s s.nmiLatch s.cpuState _ _ _ hs

theorem Kept.runInstr (K : Kept I P) (hs : I s) : Ends P s.runInstr := by
  unfold State.runInstr; split_ifs
  · exact ends_fault _ _
  · exact K.fetchWord (K.begin hs) 0 fun w u hu => K.runFrom hu w

/-- A request accepted: the aborted fetch, the acknowledge and the entry. -/
theorem Kept.accept (K : Kept I P) (hs : I s) (k : Exc) (l : Lines) : Ends P (s.accept k l) :=
  turn_ends K.toCarried hs fun _ ht => turn_ends K.toCarried (K.record _ _ ht) fun u hu =>
    K.entry _ _ _ _ (K.sampling _ _ u.cpuState u.sampleDue u.sampleVie u.sampleNvie (K.record _ _ hu))

theorem Kept.stopFetch (K : Kept I P) (hs : I s) (l : Lines) : Ends P (s.stopFetch l) := by
  unfold State.stopFetch
  cases s.request l with
  | some k => exact K.accept hs k l
  | none =>
    have held (d : Bool) : P { s.enterStop with sampleDue := d } :=
      K.done _ (K.sampling (s.refreshCycles 1) s.nmiLatch .stopRefresh d s.sampleVie s.sampleNvie (K.refresh _ 1 hs))
    dsimp only
    split_ifs
    · exact (ends_next _ _).mpr (held _)
    · exact ends_fault _ _
    · exact (ends_next _ _).mpr (held false)

/-- The CPU runs with no reset reads to come. -/
theorem Kept.runWith (K : Kept I P) (hs : I { s with heldWord := none }) (hr : s.resetDue = false) (l : Lines) :
    Ends P (s.runWith l) := by
  intro t h
  obtain ⟨e, -⟩ | ⟨-, w0, -, h⟩ | ⟨-, hw, h⟩ := runWith_next h
  · rw [hr] at e; cases e
  · exact K.runFrom (K.begin hs) w0 t h
  · have hs : I s := by rwa [show ({ s with heldWord := none } : State) = s by rw [← hw]] at hs
    obtain ⟨k, -, h⟩ | ⟨-, -, rfl⟩ | ⟨-, -, h⟩ := h
    · exact K.accept hs k l t h
    · exact K.done _ hs
    · exact K.runInstr hs t h

end
end Sys2Proof.Machine
end
section
/-!
PROOF. Every step keeps the invariant of Safety.lean.
-/
namespace Sys2Proof.Machine

/-- The invariant as it holds between the transactions of a step: no first word is held and no reset is due. -/
structure Sound (p : Params) (s : State) : Prop where
  memory  : Memory.wf s.mem
  skipped : s.skipped ≤ 2
  noSeg   : s.isZ8001 = false → s.fcw.seg = false
  noSegPc : s.isZ8001 = false → s.pc.seg = 0
  held    : s.heldWord = none
  noReset : s.resetDue = false
  params  : s.params = p

theorem Sound.inv {p : Params} {s : State} (h : Sound p s) : Inv s :=
  ⟨h.memory, h.skipped, fun e => absurd h.held e, fun _ => h.held, h.noSeg, h.noSegPc⟩

theorem Sound.same_variant {p : Params} {s u : State} (hs : Sound p s) (hu : Sound p u) : u.isZ8001 = s.isZ8001 := by
  simp only [State.isZ8001, hs.params, hu.params]

/-- The skipped refreshes that a bus grant records stay at most two (60_exceptions.md R487). -/
theorem grantBus_skipped_le {s : State} (h : s.skipped ≤ 2) (n : Nat) (ws : List Host.Cell) :
    (s.grantBus n ws).skipped ≤ 2 := by
  unfold State.grantBus; dsimp only; split_ifs
  · exact Nat.min_le_left _ _
  · exact h

theorem inv_reset {s : State} (h : Memory.wf s.mem) : Inv s.resetState :=
  ⟨h, Nat.zero_le _, fun e => absurd rfl e, fun _ => rfl, fun _ => rfl, fun _ => rfl⟩

/-- An FCW and a PC loaded keep the rules of a Z8002: bit 15 is not set, and the segment is that of a PC before. -/
theorem Sound.loaded {p : Params} {u v : State} (hu : Sound p u) (hv : Sound p v) {w : Word} {pc : Addr}
    (hw : v.isZ8001 = false → w.getLsbD 15 = false) (hpc : u.isZ8001 = true ∨ pc.seg = u.pc.seg)
    (regs : Vector Word 18) : Sound p { v with fcw := Fcw.ofWord w, pc := pc, regs := regs } where
  memory := hv.memory
  skipped := hv.skipped
  noSeg := hw
  noSegPc := by
    intro z
    have z : u.isZ8001 = false := (hu.same_variant hv).symm.trans z
    obtain h | h := hpc
    · rw [z] at h; cases h
    · exact h.trans (hu.noSegPc z)
  held := hv.held
  noReset := hv.noReset
  params := hv.params

theorem sound_carried (p : Params) : Carried (Sound p) Inv where
  passed s u hs hu := by
    cases hu with
    | none => exact hs
    | pass => exact { hs with }
    | grant n ws => exact { hs with memory := wf_foldl_write ws hs.memory, skipped := Nat.zero_le _ }
  record s e hs := { hs with }
  stored s sp a v hs := { hs with memory := putByte_wf s sp a v hs.memory }
  reset s hs _ := inv_reset hs.memory

theorem sound_entry {p : Params} (s : State) (k : Exc) (id : Word) (saved : Addr) (hs : Sound p s) :
    Ends Inv (s.enter k id saved) :=
  enter_ends (sound_carried p) hs k id saved (fun _ hu => { hu with }) fun _ v _ _ hu hv hpc hw =>
    Sound.inv (p := p) { hu.loaded hv hw hpc v.regs with }

theorem sound_leave {p : Params} (s : State) (hs : Sound p s) : Ends Inv s.leave :=
  leave_ends (sound_carried p) hs fun _ _ _ _ hu hv hpc hw => (hu.loaded hv hw hpc _).inv

theorem sound_ldps {p : Params} (s : State) (hs : Sound p s) (m : Mem) : Ends Inv (execLdps m s) := by
  have c := sound_carried p
  intro t h
  obtain ⟨-, h⟩ | ⟨-, h⟩ := privileged_next h
  · obtain ⟨-, h⟩ := checked_next h
    split at h
    · next hz =>
      have hz : s.isZ8001 = true := by simp only [State.segmented, Bool.and_eq_true] at hz; exact hz.1
      exact loadWord_ends c hs _ _ (fun _ u hu => loadWord_ends c hu _ _ fun _ v hv => loadWord_ends c hv _ _
        fun _ x hx => loadFcw_ends _ _ fun hw => (ends_next _ _).mpr (hs.loaded hx hw (.inl hz) x.regs).inv) t h
    · exact loadWord_ends c hs _ _ (fun _ u hu => loadWord_ends c hu _ _ fun o x hx =>
        loadFcw_ends _ _ fun hw =>
          (ends_next _ _).mpr (hs.loaded (pc := ⟨s.pc.seg, o⟩) hx hw (.inr rfl) x.regs).inv) t h
  · exact sound_entry _ _ _ _ hs t h

/-- The instructions that write what only system mode may, in system mode. -/
theorem sound_control {p : Params} (s : State) (i : Instr) (hs : Sound p s) (hsn : s.fcw.sn = true)
    (hi : isControl i = true) : Ends Inv (exec i s) := by
  have sys {j : Instr} {o : Out} (h : Ends Inv o) : Ends Inv (privileged j s o) := by rwa [privileged_system hsn]
  cases i with
  | ei v n | di v n => exact sys ((ends_next _ _).mpr (Sound.inv (p := p) { hs with }))
  | halt | mset | mres | mbit => exact sys ((ends_next _ _).mpr (Sound.inv (p := p) { hs with }))
  | mreq d =>
    refine sys ?_
    split_ifs
    · exact (ends_next _ _).mpr (Sound.inv (p := p) { hs with })
    · exact (ends_next _ _).mpr (Sound.inv (p := p) { hs with })
  | iret => exact sys (sound_leave s hs)
  | ldps m => exact sound_ldps s hs m
  | ldctlTo c r =>
    refine sys ?_
    cases c with
    | fcw =>
      unfold State.writeCtl
      refine loadFcw_ends s (s.regW r) fun hw => (ends_next _ _).mpr ?_
      exact (hs.loaded (pc := s.pc.plus (BitVec.ofNat 16 (2 * 1))) hs hw (.inr rfl) s.regs).inv
    | refresh | psapOff | nspOff => exact (ends_next _ _).mpr (Sound.inv (p := p) { hs with })
    | psapSeg | nspSeg =>
      unfold State.writeCtl; dsimp only; split_ifs
      · exact (ends_next _ _).mpr (Sound.inv (p := p) { hs with })
      · exact ends_refused _ _
  | _ => cases hi

theorem sound_kept (p : Params) : Kept (Sound p) Inv where
  toCarried := sound_carried p
  done s hs := hs.inv
  reg s r v hs := { hs with }
  flags s u f hs hu hf := { hs with noSeg := fun z => hf.seg.trans (hu.noSeg ((hs.same_variant hu).trans z)) }
  pc s u a hs hu ha := { hs with
    noSegPc := fun z => by
      have z : u.isZ8001 = false := (hs.same_variant hu).trans z
      obtain h | h := ha
      · rw [z] at h; cases h
      · exact h.trans (hu.noSegPc z) }
  script s e hs _ := { hs with }
  entry := sound_entry
  control := sound_control
  sampling s n c d v nv hs := { hs with }
  refresh s k hs := { hs with }
  hold s w hs := ⟨hs.memory, hs.skipped, fun _ => rfl, fun e => absurd (hs.noReset.symm.trans e) (by decide), hs.noSeg,
    hs.noSegPc⟩

/-- Where no first word is held and no reset is due the invariant is the one between transactions. -/
theorem sound_of_inv {s : State} (h : Inv s) (hw : s.heldWord = none) (hr : s.resetDue = false) : Sound s.params s :=
  ⟨h.memory, h.skipped, h.noSeg, h.noSegPc, hw, hr, rfl⟩

theorem heldWord_of_inv {s : State} (h : Inv s) (hc : s.cpuState ≠ .stopRefresh) : s.heldWord = none := by
  by_contra e; exact hc (h.held e)

/-- The reset reads (70_reset_and_hazards.md R501). -/
theorem resetReads_inv {s : State} (h : Inv s) (hr : s.resetDue = true) : Ends Inv s.resetReads := by
  have c := sound_carried s.params
  have hs : Sound s.params { s with resetDue := false } :=
    ⟨h.memory, h.skipped, h.noSeg, h.noSegPc, h.noHeld hr, rfl, rfl⟩
  refine loadWord_ends c hs _ _ fun w t ht => ?_
  have ht : Sound s.params { t with pc := ⟨0, 0⟩ } := { ht with noSegPc := fun _ => rfl }
  exact loadPc_ends c ht _ _ fun pc u hu hpc => loadFcw_ends _ _ fun hw =>
    (ends_next _ _).mpr (Sound.inv (p := s.params) { ht.loaded hu hw hpc u.regs with })

theorem leaveBusDisconnect_inv {s : State} (h : Inv s) : Inv s.leaveBusDisconnect := by
  unfold State.leaveBusDisconnect
  split_ifs with hc
  · have hw : s.heldWord = none := heldWord_of_inv h (by simp [hc])
    exact ⟨h.memory, Nat.zero_le _, fun e => absurd hw e, fun _ => hw, h.noSeg, h.noSegPc⟩
  · exact h

@[simp] theorem leaveBusDisconnect_heldWord (s : State) : s.leaveBusDisconnect.heldWord = s.heldWord := by
  unfold State.leaveBusDisconnect; split_ifs <;> rfl
@[simp] theorem leaveBusDisconnect_resetDue (s : State) : s.leaveBusDisconnect.resetDue = s.resetDue := by
  unfold State.leaveBusDisconnect; split_ifs <;> rfl

/-- Out of the Stop/Refresh state the invariant holds but for a first word held. -/
theorem leaveStop_inv {s : State} (h : Inv s) : Inv { s.leaveStop with heldWord := none } := by
  unfold State.leaveStop
  split_ifs
  · exact ⟨h.memory, h.skipped, fun e => absurd rfl e, fun _ => rfl, h.noSeg, h.noSegPc⟩
  · exact ⟨h.memory, h.skipped, fun e => absurd rfl e, fun _ => rfl, h.noSeg, h.noSegPc⟩

@[simp] theorem leaveStop_resetDue (s : State) : s.leaveStop.resetDue = s.resetDue := by
  unfold State.leaveStop; split_ifs <;> rfl
@[simp] theorem leaveStop_heldWord (s : State) : s.leaveStop.heldWord = s.heldWord := by
  unfold State.leaveStop; split_ifs <;> rfl

/-- A run of the CPU. -/
theorem runWith_inv {s : State} (h : Inv { s with heldWord := none }) (hw : s.resetDue = true → s.heldWord = none)
    (l : Lines) : Ends Inv (s.runWith l) := by
  by_cases hr : s.resetDue = true
  · have h : Inv s := by rwa [show ({ s with heldWord := none } : State) = s by rw [← hw hr]] at h
    unfold State.runWith
    rw [if_pos hr]
    exact resetReads_inv h hr
  · have hr : s.resetDue = false := by simpa using hr
    exact (sound_kept s.params).runWith (sound_of_inv h rfl hr) hr l

/-- Every event keeps the invariant. -/
theorem handle_inv {s : State} (h : Inv s) (e : EnvEvent) : Ends Inv (s.handle e) := by
  have hb := leaveBusDisconnect_inv h
  cases e with
  | reset n =>
    unfold State.handle State.onReset; dsimp only; split_ifs
    · exact ends_fault _ _
    · exact (ends_next _ _).mpr (inv_reset h.memory)
  | nmiEdge => exact (ends_next _ _).mpr { h with }
  | busGrant n ws =>
    refine (ends_next _ _).mpr ?_
    unfold State.onBusGrant
    split_ifs with hc
    · exact { h with }
    · have hw : s.heldWord = none := heldWord_of_inv h hc
      exact ⟨wf_foldl_write ws h.memory, grantBus_skipped_le h.skipped n ws, fun e => absurd hw e, fun _ => hw, h.noSeg,
        h.noSegPc⟩
  | stop l =>
    unfold State.handle State.onStop; dsimp only
    split_ifs with hc hr
    · exact (ends_next _ _).mpr { h with }
    · exact resetReads_inv hb (by simpa using hr)
    · have hw : s.leaveBusDisconnect.heldWord = none := by rw [leaveBusDisconnect_heldWord, heldWord_of_inv h hc]
      exact (sound_kept _).stopFetch (sound_of_inv hb hw (by simpa using hr)) l
  | run l =>
    refine runWith_inv (leaveStop_inv hb) (fun e => ?_) l
    rw [leaveStop_heldWord]
    exact hb.noHeld (by simpa using e)

theorem popEvent_inv {s : State} (h : Inv s) : Inv s.popEvent := { h with }

end Sys2Proof.Machine

open Sys2Proof Sys2Proof.Machine

/-- Settles O55: every event keeps the invariant, and the step counts a draw besides. -/
theorem stepKeepsInvariant : Obligations.StepKeepsInvariant := by
  intro s t hs h
  obtain ⟨u, hu, rfl⟩ := step_next h
  have hu : Inv u := handle_inv (popEvent_inv hs) s.event u hu
  exact { hu with }
end
section
/-!
PROOF. A program in normal mode changes no control state except by taking an exception.
-/
namespace Sys2Proof.Machine
open Sys2Proof.Claims

/-! ## Where an exception's block lies (60_exceptions.md R460, R461) -/

theorem psa_eq_psaBase (s : State) : s.psa = psaBase s := by
  have low : wordOf (hiByte s.psapOff) 0 = s.psapOff &&& 0xFF00 := by
    unfold wordOf hiByte
    apply BitVec.eq_of_getLsbD_eq; intro i hi
    simp only [BitVec.getLsbD_append, BitVec.getLsbD_extractLsb', BitVec.getLsbD_and]
    interval_cases i <;> simp
  unfold State.psa psaBase
  rw [low]; rfl

theorem newFcwAt_eq_fcwPlace (s : State) (k : Exc) : s.newFcwAt k = fcwPlace s k := by
  unfold State.newFcwAt fcwPlace
  rw [psa_eq_psaBase]
  cases s.isZ8001 <;> cases k <;> rfl

theorem newPcAt_eq_pcPlace (s : State) (k : Exc) (id : Word) : s.newPcAt k id = pcPlace s k id := by
  have vector : (loByte id).setWidth 16 * 2 = BitVec.ofNat 16 (2 * (loByte id).toNat) := by
    apply BitVec.eq_of_toNat_eq; simp; omega
  unfold State.newPcAt pcPlace
  rw [newFcwAt_eq_fcwPlace, fcwPlace, plus_plus, BitVec.add_assoc, vector]

/-! ## Entries -/

/-- All an entry can do to a property, with one property for before the stack pointer moves and one for after. -/
theorem enter_ends_split {I J P : State → Prop} (c : Carried I P) (d : Carried J P) {s : State} (hs : I s) (k : Exc)
    (id : Word) (saved : Addr) (hsp : ∀ u, I u → J { u with regs := u.regs.set 17 (s.ssp.off - s.frameSize) })
    (hp : ∀ v f pc, J v → P (v.serve f pc)) : Ends P (s.enter k id saved) := by
  intro t h
  obtain ⟨-, h⟩ := checked_next h
  split at h
  · cases h
  · exact pushWords_ends c hs _ _ _ (fun u hu => loadWord_ends d (hsp u hu) _ _ (fun w v hv =>
      loadPc_ends d hv _ _ (fun pc x hx _ => loadFcw_ends _ _ (fun _ =>
        (ends_next _ _).mpr (hp x _ pc hx))))) t h

/-- With nothing between its transactions an entry takes its FCW from the exception's block. -/
theorem enter_fcw {s t : State} {k : Exc} {id : Word} {saved : Addr} (ha : Alone s) (h : s.enter k id saved = .next t) :
    t.fcw = Fcw.ofWord (t.wordAt ⟨.prog, true⟩ (fcwPlace s k)) := by
  obtain ⟨he, h'⟩ := checked_next h
  have hv : ¬(s.isZ8001 = true ∧ k = .vi ∧ id.getLsbD 0 = true) := by
    intro c; rw [if_pos c] at h'; cases h'
  rw [enter_alone ha (he _ (List.mem_singleton_self _)) k id saved hv] at h
  obtain ⟨-, h⟩ := loadFcw_next h
  rw [newFcwAt_eq_fcwPlace] at h
  cases h; rfl

/-! ## Normal mode -/

/-- What holds between the transactions of a step from s0 in normal mode. -/
structure Confined (s0 s : State) : Prop extends ControlKept s0 s where
  normal : s.fcw.sn = false
  bus    : ∀ n, .reset n ∉ s.env.bus
  alone  : Alone s0 → Alone s
  pcSeg  : s.isZ8001 = false → s.pc.seg = s0.pc.seg

/-- t is s0 after the exception k. -/
structure Taken (s0 t : State) (k : Exc) : Prop where
  fcw     : Alone s0 → t.fcw = Fcw.ofWord (t.wordAt ⟨.prog, true⟩ (fcwPlace s0 k))
  stack   : t.regs.get 17 = s0.regs.get 17 - (if s0.isZ8001 then 8 else 6)
  psapSeg : t.psapSeg = s0.psapSeg
  psapOff : t.psapOff = s0.psapOff
  mo      : t.moActive = s0.moActive
  re      : t.refresh.re = s0.refresh.re
  rate    : t.refresh.rate = s0.refresh.rate
  params  : t.params = s0.params

/-- Control state is kept, or an exception was taken. -/
def KeptOrTaken (s0 t : State) : Prop := ControlKept s0 t ∨ ∃ k, Taken s0 t k

theorem passed_bus {s u : State} (h : Passed s u) : u.env.bus = s.env.bus ∨ u.env.bus = s.env.bus.tail := by
  cases h with
  | none => exact .inl rfl
  | pass => exact .inr rfl
  | grant n ws => exact .inr rfl

theorem Confined.of_tail {s0 s u : State} (hs : Confined s0 s) (hk : ControlKept s0 u)
    (hb : u.env.bus = s.env.bus ∨ u.env.bus = s.env.bus.tail) (hf : u.fcw = s.fcw) (hp : u.pc = s.pc)
    (hz : u.isZ8001 = s.isZ8001) : Confined s0 u where
  toControlKept := hk
  normal := by rw [hf, hs.normal]
  bus n h := by
    obtain e | e := hb
    · exact hs.bus n (e ▸ h)
    · exact hs.bus n (List.mem_of_mem_tail (e ▸ h))
  alone ha := by
    have := hs.alone ha
    unfold Alone at this ⊢
    obtain e | e := hb <;> simp [e, this]
  pcSeg z := by rw [hp]; exact hs.pcSeg (hz ▸ z)

theorem Confined.sameVariant {s0 s : State} (hs : Confined s0 s) : s.isZ8001 = s0.isZ8001 := by
  simp only [State.isZ8001, hs.params]

theorem no_reset_passed {s u : State} (h : Passed s u) (hs : ∀ n, .reset n ∉ s.env.bus) (n : Nat) :
    .reset n ∉ u.env.bus := by
  obtain e | e := passed_bus h <;> rw [e]
  · exact hs n
  · exact fun c => hs n (List.mem_of_mem_tail c)

theorem confined_carried (s0 : State) (P : State → Prop) : Carried (Confined s0) P where
  passed s u hs hu := by
    refine hs.of_tail ?_ (passed_bus hu) ?_ ?_ ?_ <;> cases hu <;> first | rfl | exact { hs.toControlKept with }
  record s e hs := { hs with }
  stored s sp a v hs := { hs with }
  reset s hs h := absurd h.choose_spec (hs.bus _)

/-- The exception under way: the system stack pointer is lowered, and its other control state is that of s0. -/
structure Lowered (s0 s : State) : Prop where
  stack   : s.regs.get 17 = s0.regs.get 17 - (if s0.isZ8001 then 8 else 6)
  psapSeg : s.psapSeg = s0.psapSeg
  psapOff : s.psapOff = s0.psapOff
  mo      : s.moActive = s0.moActive
  re      : s.refresh.re = s0.refresh.re
  rate    : s.refresh.rate = s0.refresh.rate
  params  : s.params = s0.params
  bus     : ∀ n, .reset n ∉ s.env.bus

theorem lowered_carried (s0 : State) (P : State → Prop) : Carried (Lowered s0) P where
  passed s u hs hu := by
    have hb := no_reset_passed hu hs.bus
    cases hu <;> exact { hs with bus := hb }
  record s e hs := { hs with }
  stored s sp a v hs := { hs with }
  reset s hs h := absurd h.choose_spec (hs.bus _)

theorem fcwPlace_congr {s u : State} (k : Exc) (hz : u.isZ8001 = s.isZ8001) (hs : u.psapSeg = s.psapSeg)
    (ho : u.psapOff = s.psapOff) (hp : s.isZ8001 = false → u.pc.seg = s.pc.seg) : fcwPlace u k = fcwPlace s k := by
  unfold fcwPlace psaBase
  rw [hz, hs, ho]
  cases hc : s.isZ8001
  · rw [hp hc]
  · rfl

theorem ssp_off (s : State) : s.ssp.off = s.regs.get 17 := by unfold State.ssp; split_ifs <;> rfl

theorem regs_set_get (v : Vector Word 18) (w : Word) : (v.set 17 w).get 17 = w := Vector.getElem_set_self ..

theorem confined_entry {s0 : State} (s : State) (k : Exc) (id : Word) (saved : Addr) (hs : Confined s0 s) :
    Ends (KeptOrTaken s0) (s.enter k id saved) := by
  intro t h
  have low : Lowered s0 t := by
    refine enter_ends_split (confined_carried s0 _) (lowered_carried s0 _) hs k id saved (fun u hu => ?_)
      (fun v f pc hv => { hv with }) t h
    refine { hu with stack := ?_ }
    rw [regs_set_get, ssp_off, hs.r15, State.frameSize, hs.sameVariant]
  refine .inr ⟨k, { low with fcw := fun ha => ?_ }⟩
  rw [enter_fcw (hs.alone ha) h, fcwPlace_congr k hs.sameVariant hs.psapSeg hs.psapOff
    (fun z => hs.pcSeg (hs.sameVariant.trans z))]

/-- In normal mode no register number names the system copies. -/
theorem phys_lt_sixteen {s : State} (hs : s.fcw.sn = false) (r : RegNo) : (s.phys r).val < 16 := by
  unfold State.phys
  rw [if_neg (by simp [hs]), if_neg (by simp [hs])]
  exact r.isLt

theorem regs_setRegW_system {s : State} (hs : s.fcw.sn = false) (r : RegNo) (v : Word) {p : Fin 18} (hp : 16 ≤ p.val) :
    (s.setRegW r v).regs.get p = s.regs.get p := by
  rw [regs_setRegW, if_neg]
  intro e
  have := phys_lt_sixteen hs r
  rw [← e] at this; omega

theorem confined_kept (s0 : State) : Kept (Confined s0) (KeptOrTaken s0) where
  toCarried := confined_carried s0 _
  done s hs := .inl hs.toControlKept
  reg s r v hs := { hs with
    r14 := (regs_setRegW_system hs.normal r v (by decide)).trans hs.r14
    r15 := (regs_setRegW_system hs.normal r v (by decide)).trans hs.r15 }
  flags s u f hs hu hf := { hs with
    seg := hf.seg.trans hu.seg, sn := hf.sn.trans hu.sn, epa := hf.epa.trans hu.epa, vie := hf.vie.trans hu.vie
    nvie := hf.nvie.trans hu.nvie, normal := hf.sn.trans hu.normal }
  pc s u a hs hu ha := { hs with
    pcSeg := fun z => by
      have z : u.isZ8001 = false := (hu.sameVariant.trans hs.sameVariant.symm).trans z
      obtain h | h := ha
      · rw [z] at h; cases h
      · exact h.trans (hu.pcSeg z) }
  script s e hs he := { hs with
    bus := fun n => by show _ ∉ e.bus; rw [he]; exact hs.bus n
    alone := fun ha => by show e.bus = []; rw [he]; exact hs.alone ha }
  entry := confined_entry
  control s i hs hsn := by rw [hs.normal] at hsn; cases hsn
  sampling s n c d v nv hs := { hs with }
  refresh s k hs := { hs with }
  hold s w hs := .inl { hs.toControlKept with }

theorem confined_leaveBusDisconnect {s0 s : State} (hs : Confined s0 s) : Confined s0 s.leaveBusDisconnect := by
  unfold State.leaveBusDisconnect; split_ifs
  · exact { hs with }
  · exact hs

theorem confined_leaveStop {s0 s : State} (hs : Confined s0 s) : Confined s0 s.leaveStop := by
  unfold State.leaveStop; split_ifs
  · exact { hs with }
  · exact hs

/-- Every event but a reset keeps control state or takes an exception. -/
theorem confined_handle {s0 s : State} (hs : Confined s0 s) (hr : s.resetDue = false) {e : EnvEvent}
    (he : ∀ n, e ≠ .reset n) : Ends (KeptOrTaken s0) (s.handle e) := by
  have hb := confined_leaveBusDisconnect hs
  cases e with
  | reset n => exact absurd rfl (he n)
  | nmiEdge => exact (ends_next _ _).mpr (.inl { hs.toControlKept with })
  | busGrant n ws =>
    refine (ends_next _ _).mpr (.inl ?_)
    unfold State.onBusGrant; split_ifs
    · exact { hs.toControlKept with }
    · exact { hs.toControlKept with }
  | stop l =>
    unfold State.handle State.onStop; dsimp only
    rw [hr]
    split_ifs with hc hf
    · exact (ends_next _ _).mpr (.inl { hs.toControlKept with })
    · exact absurd hf (by decide)
    · exact (confined_kept s0).stopFetch hb l
  | run l =>
    exact (confined_kept s0).runWith { confined_leaveStop hb with } (by simpa using hr) l

/-- A state in normal mode with no reset in its script is confined by itself. -/
theorem confined_start {s : State} (hn : s.fcw.sn = false) (hb : ∀ n, .reset n ∉ s.env.bus) : Confined s s.popEvent :=
  ⟨⟨rfl, rfl, rfl, rfl, rfl, rfl, rfl, rfl, rfl, rfl, rfl, rfl, rfl, rfl⟩, hn, hb, fun h => h, fun _ => rfl⟩

end Sys2Proof.Machine

open Sys2Proof Sys2Proof.Machine

/-- Settles O56: control state is kept between the transactions of a step in normal mode, and what ends it is the end of
an instruction or an entry. -/
theorem normalModeIsConfined : Obligations.NormalModeIsConfined := by
  intro s t hn he hb hr h
  obtain ⟨u, hu, rfl⟩ := step_next h
  obtain hk | ⟨k, hk⟩ := confined_handle (confined_start hn hb) hr he u hu
  · exact .inl { hk with }
  · exact .inr ⟨k, hk.fcw, hk.stack, hk.psapSeg, hk.psapOff, hk.mo, hk.re, hk.rate, hk.params⟩
end
section
/-!
PROOF. Registers, memory, effective addresses and the state of a reset.
-/
namespace Sys2Proof.Machine

/-- A register write changes the register file alone. -/
theorem setReg_rest (s : State) {n : Nat} (r : RegNo) (v : BitVec n) : { s.setReg r v with regs := s.regs } = s := by
  unfold State.setReg; (repeat' split) <;> rfl

/-- A store changes memory alone. -/
theorem putMem_rest (s : State) {n : Nat} (sp : Space) (a : Addr) (v : BitVec n) :
    { s.putMem sp a v with mem := s.mem } = s := by simp

theorem putMem_onlyMem {n : Nat} (hn : n = 8 ∨ n = 16 ∨ n = 32) (s : State) (sp : Space) (a : Addr) (v : BitVec n) :
    OnlyMem s (s.putMem sp a v) sp a (n / 8) := fun sp' a' h => byteAt_putMem_ne hn s sp sp' a a' v h

/-! ## Banked stack pointers (10_state.md R22) -/

theorem phys_15 (s : State) : s.phys 15 = if s.fcw.sn then 17 else 15 := by
  unfold State.phys; cases s.fcw.sn <;> rfl

theorem phys_14 (s : State) : s.phys 14 = if s.fcw.sn && s.isZ8001 then 16 else 14 := by
  unfold State.phys; cases s.fcw.sn <;> cases s.isZ8001 <;> rfl

/-- The register r is held at p, and q is another place. -/
theorem banked {s : State} {r : RegNo} {p q : Fin 18} (hp : s.phys r = p) (hq : q ≠ p) (v : Word) :
    s.regW r = s.regs.get p ∧ (s.setRegW r v).regs.get p = v ∧ (s.setRegW r v).regs.get q = s.regs.get q := by
  refine ⟨by rw [State.regW, hp], ?_, ?_⟩
  · rw [regs_setRegW, hp, if_pos rfl]
  · rw [regs_setRegW, hp, if_neg hq]

/-! ## Views of registers (10_state.md R21) -/

theorem byteHome_high {k : RegNo} (h : k.toNat < 8) : byteHome k = k ∧ byteHome (k + 8) = k ∧
    k.getLsbD 3 = false ∧ (k + 8).getLsbD 3 = true := by
  revert h; revert k; decide

theorem long_high (v w : Word) : (v ++ w : Long).extractLsb' 16 16 = v := high_of_append v w
theorem long_low (v w : Word) : (v ++ w : Long).extractLsb' 0 16 = w := low_of_append v w

theorem quad_words (v w x y : Word) :
    ((v ++ w : Long) ++ (x ++ y : Long) : Quad).extractLsb' 48 16 = v ∧
    ((v ++ w : Long) ++ (x ++ y : Long) : Quad).extractLsb' 32 16 = w ∧
    ((v ++ w : Long) ++ (x ++ y : Long) : Quad).extractLsb' 16 16 = x ∧
    ((v ++ w : Long) ++ (x ++ y : Long) : Quad).extractLsb' 0 16 = y := by
  refine ⟨?_, ?_, ?_, ?_⟩ <;>
    · apply BitVec.eq_of_getLsbD_eq; intro i hi
      simp only [BitVec.getLsbD_append, BitVec.getLsbD_extractLsb']
      interval_cases i <;> simp

end Sys2Proof.Machine

open Sys2Proof Sys2Proof.Machine Sys2Proof.Claims

/-- Settles O3. -/
theorem registersHoldWhatIsWritten : Obligations.RegistersHoldWhatIsWritten := fun s _ r v hn =>
  ⟨reg_setReg_same hn s r v, setReg_onlyRegs hn s r v, fun h8 _ hc => regB_setReg_ne h8 s v hc, setReg_rest s r v⟩

/-- Settles O6. -/
theorem memoryHoldsWhatIsStored : Obligations.MemoryHoldsWhatIsStored := fun s _ sp a v hn =>
  ⟨readMem_putMem_same hn s sp a v, putMem_onlyMem hn s sp a v, putMem_wf s sp a v, putMem_rest s sp a v⟩

/-- Settles O4. -/
theorem registerViews : Obligations.RegisterViews := by
  intro s k
  have quad := quad_words (s.regW k) (s.regW (k + 1)) (s.regW (k + 2)) (s.regW (k + 2 + 1))
  rw [two_one] at quad
  refine ⟨fun h => ?_, long_high _ _, long_low _ _, ?_⟩
  · obtain ⟨home, home8, high, low⟩ := byteHome_high h
    unfold State.regB
    rw [high, low, home, home8]
    exact ⟨rfl, rfl⟩
  · unfold State.regQ State.regL
    rw [two_one]
    exact quad

/-- Settles O5: the place of register 15 and of register 14 in each mode. -/
theorem stackPointersAreBanked : Obligations.StackPointersAreBanked := by
  intro s v
  refine ⟨fun h => ?_, fun h => ?_, fun h hz => ?_, fun h => ?_⟩
  · exact banked (by rw [phys_15, h]; rfl) (by decide) v
  · exact banked (by rw [phys_15, h]; rfl) (by decide) v
  · exact banked (by rw [phys_14, h, hz]; rfl) (by decide) v
  · refine banked ?_ (by decide) v
    rw [phys_14]
    obtain h | h := h <;> simp [h]

/-- Settles O8. -/
theorem effectiveAddresses : Obligations.EffectiveAddresses := by
  intro s r x d off o8 g
  have relative : s.relative 2 d = relTo s d := by simp [State.relative, relTo, Addr.plus]
  refine ⟨fun h => ?_, fun h => ?_, rfl, rfl, rfl, rfl, relative⟩
  · have ptr : s.addrReg r = ⟨s.pc.seg, s.regW r⟩ := by simp [State.addrReg, h]
    exact ⟨ptr, rfl, rfl, congrArg (Addr.plus · d) ptr, congrArg (Addr.plus · (s.regW x)) ptr⟩
  · have ptr : s.addrReg r = ⟨(s.regW r).extractLsb' 8 7, s.regW (r + 1)⟩ := by simp [State.addrReg, h, segField]
    exact ⟨ptr, congrArg (Addr.plus · d) ptr, congrArg (Addr.plus · (s.regW x)) ptr⟩

/-- Settles O11: each word list is the encoding of a well-formed instruction. -/
theorem sampleWords : Obligations.SampleWords := by
  unfold Obligations.SampleWords
  refine ⟨?_, ?_, ?_, ?_, ?_, ?_, ?_, ?_, ?_, ?_, ?_⟩ <;> rfl

/-- Settles O12: RSVD of each such word is well formed, and its meaning is the refusal. -/
theorem reservedOpcodesAreRefused : Obligations.ReservedOpcodesAreRefused := by
  intro m seg s u lo w1 w2 w3 hu
  refine ⟨?_, rfl⟩
  have upper : rsvdUpper (u ++ lo) = true := by
    rw [rsvdUpper, upper_append]
    fin_cases hu <;> rfl
  have wf : WellFormed m seg (.rsvd (u ++ lo)) := require_none.mpr upper
  exact decode_of_raw wf (reads_rsvd upper _ _ _ _ (List.prefix_append _ _))

/-- Settles O54. -/
theorem resetHasInvariant : Obligations.ResetHasInvariant :=
  ⟨reset_mem_wf, Nat.zero_le _, fun h => absurd rfl h, fun _ => rfl, fun _ => rfl, fun _ => rfl⟩
end
section
/-!
PROOF. Arithmetic (40_arithmetic.md): the flags as the claims state them, and the instructions.
-/
namespace Sys2Proof.Machine
open Sys2Proof.Claims

/-! ## Sums and differences -/

section
variable {n : Nat} (hn : n = 8 ∨ n = 16 ∨ n = 32) (a b : BitVec n) (cin : Bool)

theorem addN_r : (addN a b cin).r = a + b + BitVec.ofNat n cin.toNat := by
  apply BitVec.eq_of_toNat_eq
  simp [addN, BitVec.toNat_add, Nat.add_mod]

theorem addN_z : (addN a b cin).z = decide ((a.toNat + b.toNat + cin.toNat) % 2 ^ n = 0) := by
  rw [Bool.eq_iff_iff]; simp [addN, BitVec.toNat_eq]

theorem subN_r : (subN a b cin).r = a - b - BitVec.ofNat n cin.toNat := rfl

theorem subN_z : (subN a b cin).z = decide (a = b + BitVec.ofNat n cin.toNat) := by
  rw [Bool.eq_iff_iff]
  simp [subN, BitVec.sub_eq_iff_eq_add, BitVec.add_comm]

include hn

/-- Operands of one sign give a sum of the other sign exactly when the exact sum does not fit. -/
theorem addN_v : (addN a b cin).v = !fitsSigned n (a.toInt + b.toInt + cin.toNat) := by
  have hc : cin.toNat ≤ 1 := Bool.toNat_le cin
  have ha := a.isLt
  have hb := b.isLt
  rw [Bool.eq_iff_iff]
  rcases hn with rfl | rfl | rfl <;>
    simp only [addN, fitsSigned, BitVec.msb_eq_decide, BitVec.toNat_ofNat, BitVec.toInt_eq_toNat_cond] <;>
    simp <;> split <;> split <;> omega

theorem subN_v : (subN a b cin).v = !fitsSigned n (a.toInt - b.toInt - cin.toNat) := by
  have hc : cin.toNat ≤ 1 := Bool.toNat_le cin
  have ha := a.isLt
  have hb := b.isLt
  rw [Bool.eq_iff_iff]
  rcases hn with rfl | rfl | rfl <;>
    simp only [subN, fitsSigned, BitVec.msb_eq_decide, BitVec.toNat_sub, BitVec.toNat_ofNat, BitVec.toInt_eq_toNat_cond] <;>
    simp <;> split <;> split <;> omega

theorem arith_addN (f : Fcw) : f.arith false (addN a b cin) = sumFlags f a b cin := by
  have hh : (addN a b cin).h = decide (16 ≤ a.toNat % 16 + b.toNat % 16 + cin.toNat) := rfl
  have hs : (addN a b cin).s = (addN a b cin).r.msb := rfl
  simp only [Fcw.arith, Fcw.czsvdh, Fcw.czsv, sumFlags, Claims.czsv, hh, hs, addN_r, addN_z, addN_v hn]
  split <;> rfl

theorem czsv_subN (f : Fcw) : f.czsv (subN a b cin) = diffCzsv f a b cin := by
  rw [Fcw.czsv, subN_z, subN_v hn]; rfl

theorem arith_subN (f : Fcw) : f.arith true (subN a b cin) = diffFlags f a b cin := by
  have hh : (subN a b cin).h = decide (a.toNat % 16 < b.toNat % 16 + cin.toNat) := rfl
  rw [Fcw.arith, diffFlags, ← czsv_subN hn]
  simp only [Fcw.czsvdh, Fcw.czsv, hh]

end

/-! ## Results of operations with a general operand -/

section
variable {n : Nat} {i : Instr} {s : State}

/-- A register is written from a general source. -/
theorem runsReg_of_src {m : Nat} (hm : m = 8 ∨ m = 16 ∨ m = 32 ∨ m = 64) {src : Src n} (hr : src.Ready s) (d : RegNo)
    (v : BitVec n → BitVec m) (f : BitVec n → Fcw) (words : Nat) (hf : (f (src.val s)).sn = s.fcw.sn)
    (h : exec i s = checked (src.evens s) (src.fetch s (fun x t =>
      .next (((t.setReg d (v x)).withFcw (f x)).skip words)))) :
    RunsReg i s d (v (src.val s)) (f (src.val s)) words (src.reads s) := by
  rw [checked_of_even (evens_src_ready hr), fetch_src_ready hr, logged_setReg] at h
  exact ⟨_, h, regResult_intro hm s d _ _ hf words _⟩

/-- Only flags are written from a general source. -/
theorem runsFlag_of_src {src : Src n} (hr : src.Ready s) (f : BitVec n → Fcw) (words : Nat)
    (h : exec i s = checked (src.evens s) (src.fetch s (fun x t => .next ((t.withFcw (f x)).skip words)))) :
    RunsFlag i s (f (src.val s)) words (src.reads s) := by
  rw [checked_of_even (evens_src_ready hr), fetch_src_ready hr] at h
  exact ⟨_, h, flagResult_intro s _ words _⟩

/-- Only flags are written from a general operand. -/
theorem runsFlag_of_loc {l : Loc} (hr : l.Ready s n) (f : BitVec n → Fcw) (words : Nat)
    (h : exec i s = checked (l.evens s n) (l.fetch s n (fun x t => .next ((t.withFcw (f x)).skip words)))) :
    RunsFlag i s (f (l.val s n)) words (l.reads s n) := by
  rw [checked_of_even (evens_loc_ready hr), fetch_loc_ready hr] at h
  exact ⟨_, h, flagResult_intro s _ words _⟩

/-- A general operand is read, changed and written back. -/
theorem runsLoc_of_modify (hn : n = 8 ∨ n = 16 ∨ n = 32) {l : Loc} (hr : l.Ready s n) (f : BitVec n → BitVec n × Fcw)
    (hf : (f (l.val s n)).2.sn = s.fcw.sn) (h : exec i s = s.modify n l f) :
    RunsLoc i s l (f (l.val s n)).1 (f (l.val s n)).2 (1 + l.extra) (l.writes s (f (l.val s n)).1 ++ l.reads s n) := by
  refine ⟨_, h.trans (modify_ready hr f), locResult_intro hn s l _ _ hf _ _ ?_⟩
  rintro r rfl; rfl

end

/-! ## ADD, SUB, CP and their kin -/

section
variable {n : Nat} (hn : n = 8 ∨ n = 16 ∨ n = 32)
include hn

theorem addsSource_of_exec {mk : RegNo → Src n → Instr} (h : ∀ s d src, exec (mk d src) s = s.addSrc d src) :
    addsSource mk := fun s d src hr => by
  have key := runsReg_of_src (by omega) hr d (fun x => (addN (s.reg n d) x false).r)
    (fun x => s.fcw.arith false (addN (s.reg n d) x false)) (1 + src.extra)
    (by simp only [Fcw.arith]; split <;> rfl) (h s d src)
  simpa [addN_r, arith_addN hn] using key

theorem subtractsSource_of_exec {mk : RegNo → Src n → Instr} (h : ∀ s d src, exec (mk d src) s = s.subSrc d src) :
    subtractsSource mk := fun s d src hr => by
  have key := runsReg_of_src (by omega) hr d (fun x => (subN (s.reg n d) x false).r)
    (fun x => s.fcw.arith true (subN (s.reg n d) x false)) (1 + src.extra)
    (by simp only [Fcw.arith]; split <;> rfl) (h s d src)
  simpa [subN_r, arith_subN hn] using key

theorem comparesSource_of_exec {mk : RegNo → Src n → Instr} (h : ∀ s d src, exec (mk d src) s = s.compareSrc d src) :
    comparesSource mk := fun s d src hr => by
  rw [← czsv_subN hn]
  exact runsFlag_of_src hr (fun x => s.fcw.czsv (subN (s.reg n d) x false)) _ (h s d src)

theorem comparesMem_of_exec {mk : Mem → BitVec n → Instr} (h : ∀ s m v, exec (mk m v) s = s.compareMem m v) :
    comparesMem mk := fun s m v he ha => by
  rw [← czsv_subN hn]
  exact runsFlag_of_loc (l := .mem m) ⟨he, ha⟩ (fun x => s.fcw.czsv (subN x v false)) _ (h s m v)

theorem addsCarry_of_exec {mk : RegNo → RegNo → Instr} (h : ∀ s d r, exec (mk d r) s =
      .next (s.aluReg d (addN (s.reg n d) (s.reg n r) s.fcw.c) (s.fcw.arith false (addN (s.reg n d) (s.reg n r) s.fcw.c)) 1)) :
    addsCarry n mk := fun s d r => by
  rw [← addN_r, ← arith_addN hn]
  exact ⟨_, h s d r, regResult_intro (by omega) s d _ _ (by simp only [Fcw.arith]; split <;> rfl) 1⟩

theorem subtractsBorrow_of_exec {mk : RegNo → RegNo → Instr} (h : ∀ s d r, exec (mk d r) s =
      .next (s.aluReg d (subN (s.reg n d) (s.reg n r) s.fcw.c) (s.fcw.arith true (subN (s.reg n d) (s.reg n r) s.fcw.c)) 1)) :
    subtractsBorrow n mk := fun s d r => by
  rw [← arith_subN hn]
  exact ⟨_, h s d r, regResult_intro (by omega) s d _ _ (by simp only [Fcw.arith]; split <;> rfl) 1⟩

end

/-! ## INC, DEC, NEG -/

section
variable {n : Nat} (hn : n = 8 ∨ n = 16)
include hn

theorem counted_toInt (k : BitVec 4) : (counted n k).toInt = k.toNat + 1 := by
  have := k.isLt
  rcases hn with rfl | rfl <;> simp only [counted, BitVec.toInt_eq_toNat_cond, BitVec.toNat_ofNat] <;> omega

theorem zsv_addN (f : Fcw) (x : BitVec n) (k : BitVec 4) : f.zsv (addN x (counted n k) false) =
    { f with z := decide (x + counted n k = 0), s := (x + counted n k).msb,
             pv := !fitsSigned n (x.toInt + (k.toNat + 1)) } := by
  have hr : (addN x (counted n k) false).r = x + counted n k := by simp [addN_r]
  have hz : (addN x (counted n k) false).z = ((addN x (counted n k) false).r == 0) := rfl
  have hs : (addN x (counted n k) false).s = (addN x (counted n k) false).r.msb := rfl
  have hv := addN_v (by omega) x (counted n k) false
  rw [Fcw.zsv, hz, hs, hr, hv, counted_toInt hn, beq_eq_decide]
  simp

theorem zsv_subN (f : Fcw) (x : BitVec n) (k : BitVec 4) : f.zsv (subN x (counted n k) false) =
    { f with z := decide (x = counted n k), s := (x - counted n k).msb,
             pv := !fitsSigned n (x.toInt - (k.toNat + 1)) } := by
  have hs : (subN x (counted n k) false).s = (subN x (counted n k) false).r.msb := rfl
  have hv := subN_v (by omega) x (counted n k) false
  rw [Fcw.zsv, hs, subN_z, hv, counted_toInt hn]
  simp [subN_r]

/-- The negative of x: a borrow unless x is zero, and an overflow for the most negative number alone. -/
theorem czsv_neg (f : Fcw) (x : BitVec n) : f.czsv (subN 0#n x false) =
    Claims.czsv f (decide (x ≠ 0)) (decide (x = 0)) (-x).msb (decide (x = BitVec.intMin n)) := by
  have hx := x.isLt
  have hc : decide ((0#n).toNat < x.toNat + Bool.toNat false) = decide (x ≠ 0) := by
    simp [BitVec.toNat_eq, Nat.pos_iff_ne_zero]
  have hz : decide (0#n = x + BitVec.ofNat n (Bool.toNat false)) = decide (x = 0) := by
    simp [eq_comm (a := 0#n)]
  have hm : (BitVec.intMin n).toNat = 2 ^ (n - 1) := by rcases hn with rfl | rfl <;> rfl
  have hv : (!fitsSigned n ((0#n).toInt - x.toInt - (Bool.toNat false : Int))) = decide (x = BitVec.intMin n) := by
    rw [Bool.eq_iff_iff, decide_eq_true_iff, BitVec.toNat_eq, hm]
    rcases hn with rfl | rfl <;> simp [fitsSigned, BitVec.toInt_eq_toNat_cond] <;> split <;> omega
  rw [czsv_subN (by omega), diffCzsv, hc, hz, hv]
  simp

theorem increments_of_exec {mk : Loc → BitVec 4 → Instr} (h : ∀ s l k, exec (mk l k) s = s.increment n l k) :
    increments n mk := fun s l k hr => by
  have key := runsLoc_of_modify (by omega) hr
    (fun x => ((addN x (counted n k) false).r, s.fcw.zsv (addN x (counted n k) false))) (by rfl) (h s l k)
  simpa [zsv_addN hn, addN_r] using key

theorem decrements_of_exec {mk : Loc → BitVec 4 → Instr} (h : ∀ s l k, exec (mk l k) s = s.decrement n l k) :
    decrements n mk := fun s l k hr => by
  have key := runsLoc_of_modify (by omega) hr
    (fun x => ((subN x (counted n k) false).r, s.fcw.zsv (subN x (counted n k) false))) (by rfl) (h s l k)
  simpa [zsv_subN hn, subN_r] using key

theorem negates_of_exec {mk : Loc → Instr} (h : ∀ s l, exec (mk l) s = s.negate n l) :
    negates n mk := fun s l hr => by
  have key := runsLoc_of_modify (by omega) hr
    (fun x => ((subN 0#n x false).r, s.fcw.czsv (subN 0#n x false))) (by rfl) (h s l)
  simpa [czsv_neg hn, subN_r] using key

end
end Sys2Proof.Machine

open Sys2Proof Sys2Proof.Machine Sys2Proof.Claims

/-- Settles O13: each form is one of the four shared operations at its width. -/
theorem addAndSubtract : Obligations.AddAndSubtract :=
  ⟨addsSource_of_exec (by simp) fun _ _ _ => rfl, addsSource_of_exec (by simp) fun _ _ _ => rfl,
    addsSource_of_exec (by simp) fun _ _ _ => rfl, subtractsSource_of_exec (by simp) fun _ _ _ => rfl,
    subtractsSource_of_exec (by simp) fun _ _ _ => rfl, subtractsSource_of_exec (by simp) fun _ _ _ => rfl,
    addsCarry_of_exec (by simp) fun _ _ _ => rfl, addsCarry_of_exec (by simp) fun _ _ _ => rfl,
    subtractsBorrow_of_exec (by simp) fun _ _ _ => rfl, subtractsBorrow_of_exec (by simp) fun _ _ _ => rfl⟩

/-- Settles O14. -/
theorem compare : Obligations.Compare :=
  ⟨comparesSource_of_exec (by simp) fun _ _ _ => rfl, comparesSource_of_exec (by simp) fun _ _ _ => rfl,
    comparesSource_of_exec (by simp) fun _ _ _ => rfl, comparesMem_of_exec (by simp) fun _ _ _ => rfl,
    comparesMem_of_exec (by simp) fun _ _ _ => rfl⟩

/-- Settles O15. -/
theorem incrementDecrementNegate : Obligations.IncrementDecrementNegate :=
  ⟨increments_of_exec (by simp) fun _ _ _ => rfl, increments_of_exec (by simp) fun _ _ _ => rfl,
    decrements_of_exec (by simp) fun _ _ _ => rfl, decrements_of_exec (by simp) fun _ _ _ => rfl,
    negates_of_exec (by simp) fun _ _ => rfl, negates_of_exec (by simp) fun _ _ => rfl⟩
end
section
/-!
PROOF. MULT, DIV, the sign extensions and DAB (40_arithmetic.md section 2).
-/
namespace Sys2Proof.Machine
open Sys2Proof.Claims

/-! ## MULT and MULTL -/

theorem mult_runs (s : State) (d : RegNo) (src : Src 16) (hr : src.Ready s) :
    RunsReg (.mult d src) s d (BitVec.ofInt 32 ((s.regW (d + 1)).toInt * (src.val s).toInt))
      (s.fcw.product 16 ((s.regW (d + 1)).toInt * (src.val s).toInt)) (1 + src.extra) (src.reads s) :=
  runsReg_of_src (by simp) hr d (fun x => BitVec.ofInt 32 ((s.regW (d + 1)).toInt * x.toInt))
    (fun x => s.fcw.product 16 ((s.regW (d + 1)).toInt * x.toInt)) _ rfl (by simp only [setReg_32]; rfl)

theorem multl_runs (s : State) (d : RegNo) (src : Src 32) (hr : src.Ready s) :
    RunsReg (.multl d src) s d (BitVec.ofInt 64 ((s.regL (d + 2)).toInt * (src.val s).toInt))
      (s.fcw.product 32 ((s.regL (d + 2)).toInt * (src.val s).toInt)) (1 + src.extra) (src.reads s) :=
  runsReg_of_src (by simp) hr d (fun x => BitVec.ofInt 64 ((s.regL (d + 2)).toInt * x.toInt))
    (fun x => s.fcw.product 32 ((s.regL (d + 2)).toInt * x.toInt)) _ rfl (by simp only [setReg_64]; rfl)

/-! ## DIV and DIVL -/

/-- Quotient and remainder are determined. -/
theorem dividesTo_unique {a b q r : Int} (h : DividesTo a b q r) : b ≠ 0 ∧ a.tdiv b = q ∧ a - a.tdiv b * b = r := by
  obtain ⟨hm, hlt, hs⟩ := h
  have hb : b ≠ 0 := by rintro rfl; simp at hlt
  have hq : a.tdiv b = q := by
    rcases Int.lt_or_le a 0 with ha | ha
    · exact ((Int.tdiv_tmod_unique' (r := r) ha.le hb).2 ⟨by rw [Int.mul_comm]; omega, by omega, by omega⟩).1
    · exact ((Int.tdiv_tmod_unique (r := r) ha hb).2 ⟨by rw [Int.mul_comm]; omega, by omega, by omega⟩).1
  exact ⟨hb, hq, by rw [hq]; omega⟩

theorem divide_fitting {n : Nat} {a b q r : Int} (h : DividesTo a b q r) (hf : fitsSigned n q = true) :
    divide n a b = some (q, r) := by
  obtain ⟨hb, hq, hr⟩ := dividesTo_unique h
  rw [divide, if_pos ⟨hb, by rw [hq]; exact hf⟩, hq, ← hr, hq]

theorem divide_none {n : Nat} {a b : Int} (h : b = 0 ∨ ∃ q r, DividesTo a b q r ∧ fitsSigned n q = false) :
    divide n a b = none := by
  refine if_neg ?_
  rintro ⟨hb, hf⟩
  obtain h0 | ⟨q, r, hd, hn⟩ := h
  · exact hb h0
  · rw [(dividesTo_unique hd).2.1, hn] at hf; cases hf

/-- A division reads its source and goes on by the two cases of `divide`. -/
def Divides (n wide : Nat) (mk : RegNo → Src n → Instr) : Prop :=
  ∀ s d (src : Src n), ∃ k, exec (mk d src) s = checked (src.evens s) (src.fetch s k) ∧
    (∀ x t q r, divide n (s.reg wide d).toInt x.toInt = some (q, r) →
      k x t = .next (((t.setReg d (BitVec.ofInt n r ++ BitVec.ofInt n q)).withFcw (s.fcw.quotient q)).skip (1 + src.extra))) ∧
    ∀ x t, divide n (s.reg wide d).toInt x.toInt = none →
      ∃ v : BitVec wide, k x t = .next (((t.setReg d v).withFcw s.undefQuotient).skip (1 + src.extra))

theorem div_divides : Divides 16 32 .div := fun s d src =>
  ⟨_, rfl, fun x t q r h => by simp only [← reg_32, h, setReg_32], fun x t h =>
    ⟨s.undefLong 0, by simp only [← reg_32, h, setReg_32]⟩⟩

theorem divl_divides : Divides 32 64 .divl := fun s d src =>
  ⟨_, rfl, fun x t q r h => by simp only [← reg_64, h, setReg_64], fun x t h =>
    ⟨s.undefLong 0 ++ s.undefLong 2, by simp only [← reg_64, h, setReg_64]⟩⟩

section
variable {n wide : Nat} {mk : RegNo → Src n → Instr} (h : Divides n wide mk)
include h

theorem dividesFitting_of_divides (hn : n = 16 ∨ n = 32) : dividesFitting wide mk := by
  intro s d src q r hr hd hf
  obtain ⟨k, he, hk, -⟩ := h s d src
  rw [checked_of_even (evens_src_ready hr), fetch_src_ready hr, hk _ _ q r (divide_fitting hd hf), logged_setReg] at he
  exact ⟨_, he, regResult_intro (n := n + n) (by omega) s d _ _ (by rfl) _ _⟩

theorem dividesOpen_of_divides (hw : wide = 32 ∨ wide = 64) : dividesOpen wide mk := by
  intro s d src hr hd
  obtain ⟨k, he, -, hk⟩ := h s d src
  obtain ⟨v, hv⟩ := hk (src.val s) (s.logged (src.reads s)) (divide_none hd)
  rw [checked_of_even (evens_src_ready hr), fetch_src_ready hr, hv, logged_setReg] at he
  exact ⟨v, s.undef1 .carry, s.undef1 .zero, s.undef1 .sign, _, he,
    regResult_intro (n := wide) (by omega) s d _ _ (by rfl) _ _⟩

end

/-! ## DAB -/

/-- A row of the claim as a row of the table. -/
def dabRowOf : Bool × Bool × Bool × (Nat × Nat) × (Nat × Nat) × Byte × Bool → DabRow
  | (d, c, h, (h0, h1), (l0, l1), add, cy) => ⟨d, c, h, h0, h1, l0, l1, add, cy⟩

theorem dabTable_eq : dabTable = dabRows.map dabRowOf := rfl

theorem applies_iff (row : DabRow) (f : Fcw) (b : Byte) : row.applies f b = true ↔
    f.d = row.d ∧ f.c = row.c ∧ f.h = row.h ∧ row.hi0 ≤ b.toNat / 16 ∧ b.toNat / 16 ≤ row.hi1 ∧
      row.lo0 ≤ b.toNat % 16 ∧ b.toNat % 16 ≤ row.lo1 := by
  simp only [DabRow.applies, Bool.and_eq_true, beq_iff_eq, decide_eq_true_iff, and_assoc,
    eq_comm (b := f.d), eq_comm (b := f.c), eq_comm (b := f.h)]

theorem applies_dabRowOf (row : Bool × Bool × Bool × (Nat × Nat) × (Nat × Nat) × Byte × Bool) (f : Fcw) (b : Byte) :
    (dabRowOf row).applies f b = true ↔ InRow f b row := applies_iff _ f b

/-- Two rows are for different flags, or for digits out of each other's ranges. -/
def apartRows (x y : Bool × Bool × Bool × (Nat × Nat) × (Nat × Nat) × Byte × Bool) : Bool :=
  match x, y with
  | (d, c, h, (h0, h1), (l0, l1), _), (d', c', h', (h0', h1'), (l0', l1'), _) =>
    d != d' || c != c' || h != h' || h1 < h0' || h1' < h0 || l1 < l0' || l1' < l0

theorem not_inRow_of_apart {x y : Bool × Bool × Bool × (Nat × Nat) × (Nat × Nat) × Byte × Bool} {f : Fcw} {b : Byte}
    (ha : apartRows x y = true) (hx : InRow f b x) : ¬InRow f b y := by
  obtain ⟨d, c, h, ⟨h0, h1⟩, ⟨l0, l1⟩, add, cy⟩ := x
  obtain ⟨d', c', h', ⟨h0', h1'⟩, ⟨l0', l1'⟩, add', cy'⟩ := y
  obtain ⟨rfl, rfl, rfl, hx⟩ := hx
  rintro ⟨rfl, rfl, rfl, hy⟩
  simp [apartRows] at ha
  omega

theorem dabRows_apart : dabRows.Pairwise (fun x y => apartRows x y = true) := by decide

/-- The row that is found is the one the flags and the byte are in: no two rows meet. -/
theorem dabRow_of_inRow {f : Fcw} {b : Byte} {row : Bool × Bool × Bool × (Nat × Nat) × (Nat × Nat) × Byte × Bool}
    (hm : row ∈ dabRows) (h : InRow f b row) : dabRow f b = some (dabRowOf row) := by
  obtain ⟨before, after, hl⟩ := List.append_of_mem hm
  have hp := dabRows_apart
  rw [hl, List.pairwise_append] at hp
  obtain ⟨-, -, hp⟩ := hp
  rw [dabRow, dabTable_eq, hl, List.map_append, List.map_cons, List.find?_eq_some_iff_append]
  refine ⟨(applies_dabRowOf row f b).2 h, _, _, rfl, fun x hx => ?_⟩
  obtain ⟨r, hr, rfl⟩ := List.mem_map.1 hx
  have hno : ¬(dabRowOf r).applies f b = true := fun ha =>
    not_inRow_of_apart (hp r hr row (by simp)) ((applies_dabRowOf r f b).1 ha) h
  simpa using hno

theorem dabRow_none {f : Fcw} {b : Byte} (h : ∀ row ∈ dabRows, ¬InRow f b row) : dabRow f b = none := by
  rw [dabRow, dabTable_eq, List.find?_eq_none]
  intro x hx
  obtain ⟨row, hm, rfl⟩ := List.mem_map.1 hx
  rw [applies_dabRowOf]
  exact h row hm

theorem exec_dab_row {s : State} {d : RegNo} {row : DabRow} (h : dabRow s.fcw (s.regB d) = some row) :
    exec (.dab d) s = .next ((((s.setReg d (s.regB d + row.add)).logged []).withFcw
      (czsv s.fcw row.cy (decide (s.regB d + row.add = 0)) (s.regB d + row.add).msb s.fcw.pv)).skip 1) := by
  have run : exec (.dab d) s = execDab d s := rfl
  rw [run, execDab, h, ← setReg_8]
  simp only [beq_eq_decide]; rfl

theorem exec_dab_none {s : State} {d : RegNo} (h : dabRow s.fcw (s.regB d) = none) :
    exec (.dab d) s = .next ((((s.setReg d (s.undef8 (.result 0))).logged []).withFcw
      (czsv s.fcw (s.undef1 .carry) (s.undef1 .zero) (s.undef1 .sign) s.fcw.pv)).skip 1) := by
  have run : exec (.dab d) s = execDab d s := rfl
  rw [run, execDab, h, ← setReg_8]; rfl

end Sys2Proof.Machine

open Sys2Proof Sys2Proof.Machine Sys2Proof.Claims

/-- Settles O16. -/
theorem multiply : Obligations.Multiply := ⟨mult_runs, multl_runs⟩

/-- Settles O17: a quotient and a remainder as stated are those the division computes. -/
theorem divide : Obligations.Divide :=
  ⟨dividesFitting_of_divides div_divides (by simp), dividesFitting_of_divides divl_divides (by simp),
    dividesOpen_of_divides div_divides (by simp), dividesOpen_of_divides divl_divides (by simp)⟩

/-- Settles O18. -/
theorem extendSign : Obligations.ExtendSign := by
  refine ⟨fun s d => ?_, fun s d => ?_, fun s d => ?_⟩ <;>
    refine ⟨s.undef1 .carry, s.undef1 .zero, s.undef1 .sign, s.undef1 .overflow, _, rfl, ?_⟩
  · have key := regResult_intro (n := 16) (by simp) s d ((loByte (s.regW d)).signExtend 16) s.undefCzsv rfl 1
    rw [setReg_16] at key; exact key
  · have key := regResult_intro (n := 32) (by simp) s d ((loWord (s.regL d)).signExtend 32) s.undefCzsv rfl 1
    rw [setReg_32] at key
    rw [← loWord_append (s.regW d) (s.regW (d + 1))]
    exact key
  · have key := regResult_intro (n := 64) (by simp) s d ((s.regL (d + 2)).signExtend 64) s.undefCzsv rfl 1
    rw [setReg_64] at key; exact key

/-- Settles O19: in a row the table finds that row, outside all of them it finds none. -/
theorem decimalAdjust : Obligations.DecimalAdjust := by
  refine ⟨fun s d row hm h => ?_, fun s d h => ?_⟩
  · exact ⟨_, exec_dab_row (dabRow_of_inRow hm h), regResult_intro (by simp) s d _ _ (by rfl) 1⟩
  · exact ⟨s.undef8 (.result 0), s.undef1 .carry, s.undef1 .zero, s.undef1 .sign, _, exec_dab_none (dabRow_none h),
      regResult_intro (by simp) s d _ _ (by rfl) 1⟩
end
section
/-!
PROOF. The logical instructions (46_logical.md) and bit manipulation (41_bit_manipulation.md).
-/
namespace Sys2Proof.Machine
open Sys2Proof.Claims

/-! ## Results that keep the FCW -/

theorem withFcw_self {s : State} {f : Fcw} (h : s.fcw = f) : s.withFcw f = s := by rw [← h]; rfl

section
variable {n : Nat}

theorem regResult_same_fcw (hn : n = 8 ∨ n = 16 ∨ n = 32 ∨ n = 64) (s : State) (d : RegNo) (v : BitVec n) (words : Nat)
    (log : List BusEvent := []) : RegResult s (((s.setReg d v).logged log).skip words) d v s.fcw words log := by
  have key := regResult_intro hn s d v s.fcw (by rfl) words log
  rwa [withFcw_self (by simp)] at key

theorem memResult_same_fcw (hn : n = 8 ∨ n = 16 ∨ n = 32) (s : State) (sp : Space) (a : Addr) (v : BitVec n)
    (words : Nat) (log : List BusEvent) :
    MemResult s (((s.putMem sp a v).logged log).skip words) sp a v s.fcw words log := by
  have key := memResult_intro hn s sp a v s.fcw words log
  rwa [withFcw_self (by simp)] at key

theorem putLoc_fcw (s : State) (l : Loc) (v : BitVec n) : (putLoc s l v).fcw = s.fcw := by cases l <;> simp [putLoc]

theorem locResult_same_fcw (hn : n = 8 ∨ n = 16 ∨ n = 32) (s : State) (l : Loc) (v : BitVec n) (words : Nat)
    (log : List BusEvent) (hl : ∀ r, l = .reg r → log = []) :
    LocResult s (((putLoc s l v).logged log).skip words) l v s.fcw words log := by
  have key := locResult_intro hn s l v s.fcw (by rfl) words log hl
  rwa [withFcw_self (by simp [putLoc_fcw])] at key

/-- A register is written its own value, or not at all. -/
theorem regResult_keep (s : State) (d : RegNo) (words : Nat) :
    RegResult s (s.skip words) d (s.reg n d) s.fcw words where
  value := by rfl
  flags := by rfl
  pc := by rfl
  regs := fun _ _ => by rfl
  bytes := fun _ _ _ => by rfl
  mem := fun _ _ => by rfl
  rest := ⟨by rfl, by rfl⟩

end

/-! ## Logic -/

theorem logic_sn (f : Fcw) {n : Nat} (r : BitVec n) : (f.logic r).sn = f.sn := by
  rw [logic_eq_logicFlags]; rfl

section
variable {n : Nat} (hn : n = 8 ∨ n = 16)
include hn

theorem combines_of_exec {mk : RegNo → Src n → Instr} {f : Bool → Bool → Bool} (g : BitVec n → BitVec n → BitVec n)
    (hg : ∀ x y, ∀ j < n, (g x y).getLsbD j = f (x.getLsbD j) (y.getLsbD j))
    (h : ∀ s d src, exec (mk d src) s = s.logicSrc g d src) : combines mk f := fun s d src hr => by
  have key := runsReg_of_src (by omega) hr d (fun x => g (s.reg n d) x) (fun x => s.fcw.logic (g (s.reg n d) x))
    (1 + src.extra) (logic_sn _ _) (h s d src)
  rw [logic_eq_logicFlags] at key
  exact ⟨_, hg _ _, key⟩

theorem complements_of_exec {mk : Loc → Instr} (h : ∀ s l, exec (mk l) s = s.complement n l) :
    complements n mk := fun s l hr => by
  have key := runsLoc_of_modify (by omega) hr (fun x => (~~~x, s.fcw.logic (~~~x))) (logic_sn _ _) (h s l)
  rw [logic_eq_logicFlags] at key
  exact ⟨_, fun j hj => by simp [hj], key⟩

omit hn in
theorem tests_of_exec {mk : Loc → Instr} (h : ∀ s l, exec (mk l) s = s.testLoc n l s.fcw.logic) :
    tests n mk := fun s l hr => by
  rw [← logic_eq_logicFlags]
  exact runsFlag_of_loc hr s.fcw.logic _ (h s l)

theorem setsOnCondition_of_exec {mk : Cc → RegNo → Instr} (h : ∀ s c d, exec (mk c d) s = s.setOnCondition n c d) :
    setsOnCondition n mk := fun s c d => by
  have hc := h s c d
  rw [State.setOnCondition] at hc
  cases hh : s.fcw.holds c with
  | true =>
    rw [if_pos hh] at hc
    refine ⟨s.reg n d ||| 1, fun j hj => ?_, _, hc, regResult_same_fcw (by omega) s d _ 1⟩
    by_cases h0 : j = 0
    · subst h0; simp [hj]
    · simp [h0]
  | false =>
    rw [if_neg (by simp [hh])] at hc
    exact ⟨s.reg n d, fun j hj => by split <;> simp_all, _, hc, regResult_keep s d 1⟩

/-! ## Bits -/

omit hn in
theorem testsBit_of_exec {static : Loc → BitVec 4 → Instr} {dyn : RegNo → RegNo → Instr}
    (h : ∀ s l k, exec (static l k) s = s.testBit n l (bitNumber n k.toNat) (1 + l.extra))
    (hd : ∀ s d r, exec (dyn d r) s = s.testBit n (.reg d) (bitNumber n (s.regW r).toNat) 2) :
    testsBit n static dyn :=
  ⟨fun s l k hr => runsFlag_of_loc hr (fun x => { s.fcw with z := !x.getLsbD (k.toNat % n) }) _ (h s l k),
    fun s d r => runsFlag_of_loc (l := .reg d) trivial (fun x => { s.fcw with z := !x.getLsbD ((s.regW r).toNat % n) }) 2
      (hd s d r)⟩

/-- What a bit instruction that writes its operand leaves. -/
theorem modifyBit_result {s : State} {l : Loc} (hr : l.Ready s n) (f : BitVec n → BitVec n) (words : Nat) :
    ∃ t, s.modifyBit n l f words = .next t ∧
      LocResult s t l (f (l.val s n)) s.fcw words (l.writes s (f (l.val s n)) ++ l.reads s n) := by
  refine ⟨_, ?_, locResult_same_fcw (by omega) s l _ words _ (by rintro r rfl; rfl)⟩
  rw [State.modifyBit, checked_of_even (evens_loc_ready hr), fetch_loc_ready hr, write_loc_ready hr]

/-- The operation on the operand that writes b into bit k. -/
def withBit (b : Bool) (k : Nat) (x : BitVec n) : BitVec n := if b then x ||| oneBit n k else x &&& ~~~(oneBit n k)

omit hn in
theorem bitIs_withBit (b : Bool) (k : Nat) (x : BitVec n) : BitIs x (withBit b k x) k b := by
  intro j hj
  have one : (oneBit n k).getLsbD j = decide (j = k) := by
    rw [oneBit, BitVec.getLsbD_shiftLeft, BitVec.getLsbD_one, Bool.eq_iff_iff]
    simp [hj]; omega
  cases b with
  | false =>
    rw [withBit, if_neg (by simp), BitVec.getLsbD_and, BitVec.getLsbD_not, one]
    by_cases h : j = k <;> simp [h, hj]
  | true =>
    rw [withBit, if_pos rfl, BitVec.getLsbD_or, one]
    by_cases h : j = k <;> simp [h]

theorem writesBit_of_exec (b : Bool) {static : Loc → BitVec 4 → Instr} {dyn : RegNo → RegNo → Instr}
    (h : ∀ s l k, exec (static l k) s = s.modifyBit n l (withBit b (bitNumber n k.toNat)) (1 + l.extra))
    (hd : ∀ s d r, exec (dyn d r) s = s.modifyBit n (.reg d) (withBit b (bitNumber n (s.regW r).toNat)) 2) :
    writesBit n b static dyn := by
  refine ⟨fun s l k hr => ⟨_, bitIs_withBit b _ _, ?_⟩, fun s d r => ⟨_, bitIs_withBit b _ _, ?_⟩⟩
  · rw [RunsLoc, h]; exact modifyBit_result hn hr _ _
  · rw [RunsReg, hd]; exact modifyBit_result hn (l := .reg d) trivial _ _

/-! ## TSET -/

theorem writeLocked_ready {s : State} {l : Loc} (h : l.Ready s n) (log : List BusEvent) (v : BitVec n)
    (k : State → Out) : l.writeLocked (s.logged log) v k = k ((putLoc s l v).logged (l.writes s v ++ log)) := by
  rw [← write_loc_ready h log v k]
  cases l with
  | reg r => rfl
  | mem m =>
    obtain ⟨-, ha⟩ := h
    have hl : Alone (s.logged log) := ha
    simp only [Loc.writeLocked, Loc.write, storeLocked_alone hl hn, store_alone hl]

theorem testsAndSets_of_exec {mk : Loc → Instr} (h : ∀ s l, exec (mk l) s = s.testAndSet n l) :
    testsAndSets n mk := fun s l hr => by
  have run := h s l
  rw [State.testAndSet, checked_of_even (evens_loc_ready hr), fetch_loc_ready hr, writeLocked_ready hn hr] at run
  exact ⟨_, run, locResult_intro (by omega) s l _ _ (by rfl) _ _ (by rintro r rfl; rfl)⟩

end
end Sys2Proof.Machine

open Sys2Proof Sys2Proof.Machine Sys2Proof.Claims

/-- Settles O20. -/
theorem logic : Obligations.Logic :=
  ⟨combines_of_exec (by simp) (· &&& ·) (by simp) fun _ _ _ => rfl,
    combines_of_exec (by simp) (· &&& ·) (by simp) fun _ _ _ => rfl,
    combines_of_exec (by simp) (· ||| ·) (by simp) fun _ _ _ => rfl,
    combines_of_exec (by simp) (· ||| ·) (by simp) fun _ _ _ => rfl,
    combines_of_exec (by simp) (· ^^^ ·) (by simp) fun _ _ _ => rfl,
    combines_of_exec (by simp) (· ^^^ ·) (by simp) fun _ _ _ => rfl,
    complements_of_exec (by simp) fun _ _ => rfl, complements_of_exec (by simp) fun _ _ => rfl⟩

/-- Settles O21. -/
theorem testAndTcc : Obligations.TestAndTcc :=
  ⟨tests_of_exec fun _ _ => rfl, tests_of_exec fun _ _ => rfl,
    fun s l hr => ⟨s.undef1 .overflow, runsFlag_of_loc hr
      (fun x => { s.fcw with z := x == 0, s := x.msb, pv := s.undef1 .overflow }) _ rfl⟩,
    setsOnCondition_of_exec (by simp) fun _ _ _ => rfl, setsOnCondition_of_exec (by simp) fun _ _ _ => rfl⟩

/-- Settles O22. -/
theorem bitManipulation : Obligations.BitManipulation :=
  ⟨testsBit_of_exec (fun _ _ _ => rfl) fun _ _ _ => rfl,
    testsBit_of_exec (fun _ _ _ => rfl) fun _ _ _ => rfl,
    writesBit_of_exec (by simp) false (fun _ _ _ => rfl) fun _ _ _ => rfl,
    writesBit_of_exec (by simp) false (fun _ _ _ => rfl) fun _ _ _ => rfl,
    writesBit_of_exec (by simp) true (fun _ _ _ => rfl) fun _ _ _ => rfl,
    writesBit_of_exec (by simp) true (fun _ _ _ => rfl) fun _ _ _ => rfl,
    testsAndSets_of_exec (by simp) fun _ _ => rfl, testsAndSets_of_exec (by simp) fun _ _ => rfl⟩
end
section
/-!
PROOF. The rotates and shifts (48_rotate_shift.md).
-/
namespace Sys2Proof.Machine
open Sys2Proof.Claims

/-! ## Rotates -/

theorem overflow_signRule {n : Nat} {x : BitVec n} {y : Shift n} (u middle : Bool)
    (h : y.changed = ((x.msb != middle) || (middle != y.r.msb))) :
    signRule x.msb middle y.r.msb (Shift.overflow x y u) := by
  intro hs
  rw [Shift.overflow, h, if_pos hs, hs]

/-- A rotate whose steps are those of `rot` and `out`. -/
theorem rotates_of_exec {n : Nat} (hn : n = 8 ∨ n = 16) {mk : RegNo → Bool → Instr} {f : Shift n → Shift n}
    {rot : Bool → BitVec n → Nat → BitVec n} {out : Bool → BitVec n → Nat → Bool}
    (h : ∀ s d two, exec (mk d two) s = s.rotate n f d two)
    (hf : ∀ y, f y = y.to (rot y.c y.r 1) (out y.c y.r 1))
    (h2 : ∀ c x, rot (out c x 1) (rot c x 1) 1 = rot c x 2 ∧ out (out c x 1) (rot c x 1) 1 = out c x 2) :
    rotates n mk rot out := by
  intro s d two
  have run := h s d two
  obtain ⟨hr, hc, hch⟩ : (times f (if two then 2 else 1) (s.shiftOf n d)).r = rot s.fcw.c (s.reg n d) (if two then 2 else 1) ∧
      (times f (if two then 2 else 1) (s.shiftOf n d)).c = out s.fcw.c (s.reg n d) (if two then 2 else 1) ∧
      (times f (if two then 2 else 1) (s.shiftOf n d)).changed =
        (((s.reg n d).msb != (rot s.fcw.c (s.reg n d) 1).msb) ||
          ((rot s.fcw.c (s.reg n d) 1).msb != (times f (if two then 2 else 1) (s.shiftOf n d)).r.msb)) := by
    cases two with
    | true => simp [times, hf, Shift.to, State.shiftOf, h2]
    | false => simp [times, hf, Shift.to, State.shiftOf]
  have key := regResult_intro (by omega) s d (times f (if two then 2 else 1) (s.shiftOf n d)).r
    (s.fcw.shifted (times f (if two then 2 else 1) (s.shiftOf n d)).r (times f (if two then 2 else 1) (s.shiftOf n d)).c
      (Shift.overflow (s.reg n d) (times f (if two then 2 else 1) (s.shiftOf n d)) (s.undef1 .overflow))) (by rfl) 1
  have sign := overflow_signRule (s.undef1 .overflow) _ hch
  rw [hr] at sign
  refine ⟨_, sign, _, run, ?_⟩
  rw [← hr, ← hc, ← beq_eq_decide]
  exact key

/-! Two places are two steps of one place. -/

section
variable {n : Nat} (hn : n = 8 ∨ n = 16)
include hn

theorem rotateLeft_twice (x : BitVec n) : (x.rotateLeft 1).rotateLeft 1 = x.rotateLeft 2 := by
  apply BitVec.eq_of_getLsbD_eq; intro i hi
  rcases hn with rfl | rfl <;> interval_cases i <;> simp

theorem rotateRight_twice (x : BitVec n) : (x.rotateRight 1).rotateRight 1 = x.rotateRight 2 := by
  apply BitVec.eq_of_getLsbD_eq; intro i hi
  rcases hn with rfl | rfl <;> interval_cases i <;> simp

theorem rotateLeft_carry_twice (y : BitVec (1 + n)) : (y.rotateLeft 1).rotateLeft 1 = y.rotateLeft 2 := by
  apply BitVec.eq_of_getLsbD_eq; intro i hi
  rcases hn with rfl | rfl <;> interval_cases i <;> simp

theorem rotateRight_carry_twice (y : BitVec (1 + n)) : (y.rotateLeft n).rotateLeft n = y.rotateLeft (n + 1 - 2) := by
  apply BitVec.eq_of_getLsbD_eq; intro i hi
  rcases hn with rfl | rfl <;> interval_cases i <;> simp

/-! One place, by the bits. -/

theorem rotateLeft_bit (x : BitVec n) : x.msb = (x.rotateLeft 1).getLsbD 0 := by
  rcases hn with rfl | rfl <;> simp [BitVec.msb_eq_getLsbD_last]

theorem rotateRight_bit (x : BitVec n) : x.getLsbD 0 = (x.rotateRight 1).msb := by
  rcases hn with rfl | rfl <;> simp [BitVec.msb_eq_getLsbD_last]

omit hn in
/-- The bits of an operand with the carry on top. -/
theorem carry_bit (c : Bool) (x : BitVec n) (i : Nat) :
    (BitVec.ofBool c ++ x).getLsbD i = if i = n then c else x.getLsbD i := by
  rw [BitVec.getLsbD_append, BitVec.getLsbD_ofBool]
  rcases Nat.lt_trichotomy i n with h | rfl | h
  · simp [h, h.ne]
  · simp
  · have : ¬i < n := by omega
    have : i - n ≠ 0 := by omega
    simp_all [h.ne']

omit hn in
/-- The operand rotated with the carry as one more bit. -/
theorem throughCarry_bit (c : Bool) (x : BitVec n) (k i : Nat) (hk : k < 1 + n) : (throughCarry c x k).getLsbD i =
    if i < k then (if 1 + n - k + i = n then c else x.getLsbD (1 + n - k + i))
    else decide (i < 1 + n) && (if i - k = n then c else x.getLsbD (i - k)) := by
  rw [throughCarry, BitVec.getLsbD_rotateLeft, Nat.mod_eq_of_lt hk, carry_bit, carry_bit, Bool.cond_decide]

theorem throughCarry_left (c : Bool) (x : BitVec n) :
    x <<< 1 ||| BitVec.ofNat n c.toNat = (throughCarry c x 1).setWidth n ∧ x.msb = (throughCarry c x 1).msb := by
  have low (i : Nat) : (BitVec.ofNat n c.toNat).getLsbD i = (decide (i = 0) && c) := by
    cases c
    · simp
    · simp [BitVec.getLsbD_one]; omega
  refine ⟨BitVec.eq_of_getLsbD_eq fun i hi => ?_, ?_⟩
  · rw [BitVec.getLsbD_setWidth, throughCarry_bit c x 1 i (by omega), BitVec.getLsbD_or, BitVec.getLsbD_shiftLeft, low]
    rcases i with _ | i
    · simp [hi]
    · have h1 : i ≠ n := by omega
      have h2 : i + 1 < 1 + n := by omega
      simp [hi, h1, h2]
  · rw [BitVec.msb_eq_getLsbD_last, BitVec.msb_eq_getLsbD_last, throughCarry_bit c x 1 _ (by omega)]
    have h1 : ¬n < 1 := by omega
    have h2 : n - 1 ≠ n := by omega
    simp [h1, h2]

theorem throughCarry_right (c : Bool) (x : BitVec n) :
    x >>> 1 ||| BitVec.ofNat n c.toNat <<< (n - 1) = (throughCarry c x n).setWidth n ∧
      x.getLsbD 0 = (throughCarry c x n).msb := by
  have low (i : Nat) : (BitVec.ofNat n c.toNat).getLsbD i = (decide (i = 0) && c) := by
    cases c
    · simp
    · simp [BitVec.getLsbD_one]; omega
  refine ⟨BitVec.eq_of_getLsbD_eq fun i hi => ?_, ?_⟩
  · rw [BitVec.getLsbD_setWidth, throughCarry_bit c x n i (by omega), BitVec.getLsbD_or, BitVec.getLsbD_ushiftRight,
      BitVec.getLsbD_shiftLeft, low]
    have h1 : 1 + n - n = 1 := by omega
    by_cases h : 1 + i = n
    · have h2 : i - (n - 1) = 0 := by omega
      simp [hi, h, h1, h2]; omega
    · have h2 : i < n - 1 := by omega
      simp [hi, h, h1, h2]
  · rw [BitVec.msb_eq_getLsbD_last, throughCarry_bit c x n _ (by omega)]
    have h2 : 0 ≠ n := by omega
    simp [h2]

end

theorem ofBool_msb_append {n : Nat} (y : BitVec (1 + n)) : BitVec.ofBool y.msb ++ y.setWidth n = y := by
  apply BitVec.eq_of_getLsbD_eq; intro i hi
  rw [BitVec.getLsbD_append, BitVec.getLsbD_setWidth]
  by_cases h : i < n
  · simp [h]
  · obtain rfl : i = n := by omega
    simp [BitVec.msb_eq_getLsbD_last]

/-- A second rotation through the carry begins with what the first left. -/
theorem throughCarry_again {n : Nat} (c : Bool) (x : BitVec n) (j k : Nat) :
    throughCarry (throughCarry c x j).msb ((throughCarry c x j).setWidth n) k = (throughCarry c x j).rotateLeft k := by
  rw [throughCarry, ofBool_msb_append]

section
variable {n : Nat} (hn : n = 8 ∨ n = 16) {mk : RegNo → Bool → Instr}
include hn

theorem throughCarry_left_twice (c : Bool) (x : BitVec n) :
    throughCarry (throughCarry c x 1).msb ((throughCarry c x 1).setWidth n) 1 = throughCarry c x 2 := by
  rw [throughCarry_again, throughCarry, rotateLeft_carry_twice hn]; rfl

theorem throughCarry_right_twice (c : Bool) (x : BitVec n) :
    throughCarry (throughCarry c x n).msb ((throughCarry c x n).setWidth n) n = throughCarry c x (n + 1 - 2) := by
  rw [throughCarry_again, throughCarry, rotateRight_carry_twice hn]; rfl

theorem rotatesLeft_of_exec (h : ∀ s d two, exec (mk d two) s = s.rotate n Shift.rl d two) :
    rotates n mk (fun _ x k => x.rotateLeft k) (fun _ x k => (x.rotateLeft k).getLsbD 0) :=
  rotates_of_exec hn h (fun y => by rw [← rotateLeft_bit hn]; rfl) fun _ x => by
    simp only [rotateLeft_twice hn, and_self]

theorem rotatesRight_of_exec (h : ∀ s d two, exec (mk d two) s = s.rotate n Shift.rr d two) :
    rotates n mk (fun _ x k => x.rotateRight k) (fun _ x k => (x.rotateRight k).msb) :=
  rotates_of_exec hn h (fun y => by rw [← rotateRight_bit hn]; rfl) fun _ x => by
    simp only [rotateRight_twice hn, and_self]

theorem rotatesLeftCarry_of_exec (h : ∀ s d two, exec (mk d two) s = s.rotate n Shift.rlc d two) :
    rotates n mk (fun c x k => (throughCarry c x k).setWidth n) (fun c x k => (throughCarry c x k).msb) :=
  rotates_of_exec hn h
    (fun y => by rw [← (throughCarry_left hn y.c y.r).1, ← (throughCarry_left hn y.c y.r).2]; rfl)
    fun c x => by simp only [throughCarry_left_twice hn, and_self]

theorem rotatesRightCarry_of_exec (h : ∀ s d two, exec (mk d two) s = s.rotate n Shift.rrc d two) :
    rotates n mk (fun c x k => (throughCarry c x (n + 1 - k)).setWidth n)
      (fun c x k => (throughCarry c x (n + 1 - k)).msb) :=
  rotates_of_exec hn h
    (fun y => by
      rw [Nat.add_sub_cancel, ← (throughCarry_right hn y.c y.r).1, ← (throughCarry_right hn y.c y.r).2]; rfl)
    fun c x => by simp only [Nat.add_sub_cancel, throughCarry_right_twice hn, and_self]

end

/-! ## Digits -/

/-- One change after another. -/
theorem onlyRegs_trans {s t u : State} {l m : List RegNo} (h1 : OnlyRegs s t l) (h2 : OnlyRegs t u m)
    (hp : ∀ r, t.phys r = s.phys r) : OnlyRegs s u (l ++ m) := fun p h => by
  rw [h2 p fun r hr => by rw [hp]; exact h r (List.mem_append_right _ hr),
    h1 p fun r hr => h r (List.mem_append_left _ hr)]

theorem digits_result {s : State} {l r : RegNo} (hlr : l ≠ r) (link src : Byte) :
    ∃ t sg, s.digits l r link src = .next t ∧ t.regB l = link ∧ t.regB r = src ∧
      t.fcw = { s.fcw with z := decide (t.regB l = 0), s := sg } ∧ Advances s t 1 ∧ SameMem s t ∧ Quiet s t ∧
      OnlyRegs s t (regsOf 8 l ++ regsOf 8 r) ∧ ∀ c, c ≠ l → c ≠ r → t.regB c = s.regB c := by
  have read (c : RegNo) : ((((s.setRegB l link).setRegB r src).withFcw
      { s.fcw with z := link == 0, s := s.undef1 .sign }).skip 1).regB c = ((s.setRegB l link).setRegB r src).regB c :=
    regB_congr (by rfl) (by simp) (by rfl) c
  have hl : ((s.setRegB l link).setRegB r src).regB l = link := by
    rw [regB_setRegB_ne _ _ hlr, regB_setRegB_same]
  refine ⟨_, s.undef1 .sign, rfl, ?_, ?_, ?_, rfl, fun sp a => ?_, ?_, ?_, ?_⟩
  · rw [read, hl]
  · rw [read, regB_setRegB_same]
  · rw [read, hl, ← beq_eq_decide]; rfl
  · exact byteAt_congr (by simp) (by simp) sp a
  · simp [quiet_iff]
  · have h1 := setReg_onlyRegs (n := 8) (by simp) s l link
    have h2 := setReg_onlyRegs (n := 8) (by simp) (s.setReg l link) r src
    rw [setReg_8] at h1 h2
    exact onlyRegs_trans h1 (by rwa [setReg_8] at h2) (by simp)
  · intro c h1 h2
    rw [read, regB_setRegB_ne _ _ h2, regB_setRegB_ne _ _ h1]

/-! ## Shifts -/

section
variable {n : Nat} (x : BitVec n) (c : Bool)

theorem shl_r (k : Nat) : (times Shift.shl k ⟨x, c, false⟩).r = x <<< k := by
  induction k with
  | zero => simp [times]
  | succ k ih => rw [times_succ, Shift.shl, Shift.to, ih, BitVec.shiftLeft_add]

theorem shl_c (k : Nat) (hk : k < n) : (times Shift.shl (k + 1) ⟨x, c, false⟩).c = x.getLsbD (n - (k + 1)) := by
  rw [times_succ, Shift.shl, Shift.to, shl_r, BitVec.msb_eq_getLsbD_last, BitVec.getLsbD_shiftLeft]
  have h1 : n - 1 < n := by omega
  have h2 : ¬n - 1 < k := by omega
  have h3 : n - 1 - k = n - (k + 1) := by omega
  simp [h1, h2, h3]

theorem shl_changed (k : Nat) : (times Shift.shl k ⟨x, c, false⟩).changed = true ↔
    ∃ j < k, (x <<< j).msb ≠ (x <<< (j + 1)).msb := by
  induction k with
  | zero => simp [times]
  | succ k ih =>
    rw [times_succ, Shift.shl, Shift.to]
    simp only [shl_r, Bool.or_eq_true, ih, bne_iff_ne, ← BitVec.shiftLeft_add]
    constructor
    · rintro (⟨j, hj, h⟩ | h)
      · exact ⟨j, by omega, h⟩
      · exact ⟨k, by omega, h⟩
    · rintro ⟨j, hj, h⟩
      rcases Nat.lt_or_ge j k with hjk | hjk
      · exact .inl ⟨j, hjk, h⟩
      · obtain rfl : j = k := by omega
        exact .inr h

theorem msb_shl_of_unchanged {k : Nat} (h : ∀ j < k, (x <<< j).msb = (x <<< (j + 1)).msb) : (x <<< k).msb = x.msb := by
  induction k with
  | zero => simp
  | succ k ih => rw [← h k (by omega), ih fun j hj => h j (by omega)]

/-- A step to the right that puts the sign, or zero, on top. -/
def shrStep (arith : Bool) : Shift n → Shift n := if arith then Shift.shrA else Shift.shrL

/-- The operand shifted right. -/
def shiftedRight (arith : Bool) (k : Nat) : BitVec n := if arith then x.sshiftRight k else x >>> k

theorem shr_r (arith : Bool) (k : Nat) : (times (shrStep arith) k ⟨x, c, false⟩).r = shiftedRight x arith k := by
  induction k with
  | zero => cases arith <;> simp [times, shiftedRight]
  | succ k ih =>
    rw [times_succ]
    cases arith with
    | true =>
      have h : (times (shrStep true) k ⟨x, c, false⟩).r = x.sshiftRight k := ih
      exact (congrArg (·.sshiftRight 1) h).trans (BitVec.sshiftRight_add ..).symm
    | false =>
      have h : (times (shrStep false) k ⟨x, c, false⟩).r = x >>> k := ih
      exact (congrArg (fun y : BitVec n => y >>> 1) h).trans (BitVec.shiftRight_add ..).symm

theorem shiftedRight_bit (arith : Bool) (k j : Nat) (hj : j < n) :
    (shiftedRight x arith k).getLsbD j = if j + k < n then x.getLsbD (j + k) else arith && x.msb := by
  cases arith with
  | true =>
    have h : ¬n ≤ j := by omega
    simp [shiftedRight, BitVec.getLsbD_sshiftRight, h, Nat.add_comm]
  | false =>
    simp only [shiftedRight, Bool.false_eq_true, if_false, BitVec.getLsbD_ushiftRight, Bool.false_and, Nat.add_comm]
    split
    · rfl
    · exact BitVec.getLsbD_of_ge _ _ (by omega)

theorem shr_c (arith : Bool) (k : Nat) (hk : k < n) :
    (times (shrStep arith) (k + 1) ⟨x, c, false⟩).c = x.getLsbD k := by
  have hc (y : Shift n) : (shrStep arith y).c = y.r.getLsbD 0 := by cases arith <;> rfl
  rw [times_succ, hc, shr_r, shiftedRight_bit x arith k 0 (by omega)]
  simp [hk]

theorem shrA_unchanged (k : Nat) : (times (shrStep true) k ⟨x, c, false⟩).changed = false := by
  induction k with
  | zero => rfl
  | succ k ih =>
    rw [times_succ]
    have hc (y : Shift n) : (shrStep true y).changed = (y.changed || y.r.msb != (y.r.sshiftRight 1).msb) := rfl
    rw [hc, ih]; simp [BitVec.msb_sshiftRight]

/-! The instructions -/

section
variable {n : Nat} (hn : n = 8 ∨ n = 16 ∨ n = 32) (s : State) (d : RegNo) (k : Nat)
include hn

omit hn in
theorem shl_carry (hk : k ≤ n) (h1 : 1 ≤ k) :
    s.shiftCarry (times Shift.shl k (s.shiftOf n d)) k = (s.reg n d).getLsbD (n - k) := by
  obtain ⟨j, rfl⟩ : ∃ j, k = j + 1 := ⟨k - 1, by omega⟩
  rw [State.shiftCarry, if_neg (by omega)]
  exact shl_c _ _ j (by omega)

omit hn in
theorem shr_carry (arith : Bool) (hk : k ≤ n) (h1 : 1 ≤ k) :
    s.shiftCarry (times (shrStep arith) k (s.shiftOf n d)) k = (s.reg n d).getLsbD (k - 1) := by
  obtain ⟨j, rfl⟩ : ∃ j, k = j + 1 := ⟨k - 1, by omega⟩
  rw [State.shiftCarry, if_neg (by omega)]
  exact shr_c _ _ arith j (by omega)

/-- What a shift leaves. -/
theorem shift_result (y : Shift n) (c v : Bool) :
    RegResult s (((s.setReg d y.r).withFcw (s.fcw.shifted y.r c v)).skip 2) d y.r
      (czsv s.fcw c (decide (y.r = 0)) y.r.msb v) 2 := by
  rw [← beq_eq_decide]
  exact regResult_intro (by omega) s d y.r (s.fcw.shifted y.r c v) (by rfl) 2

theorem shiftsLeft_arith (hk : k ≤ n) : ShiftsLeft n true s d k (s.shiftArith n Shift.shl d k) := by
  have hr := shl_r (s.reg n d) s.fcw.c k
  have hch := shl_changed (s.reg n d) s.fcw.c k
  have key := shift_result hn s d (times Shift.shl k (s.shiftOf n d)) (s.shiftCarry (times Shift.shl k (s.shiftOf n d)) k)
    (Shift.overflow (s.reg n d) (times Shift.shl k (s.shiftOf n d)) (s.undef1 .overflow))
  refine ⟨_, _, Shift.overflow (s.reg n d) (times Shift.shl k (s.shiftOf n d)) (s.undef1 .overflow), rfl,
    shl_carry s d k hk, fun _ hs hm => ?_, fun _ hs => ?_, ?_⟩
  · have h1 : (times Shift.shl k (s.shiftOf n d)).changed = true := hch.2 hs
    rw [Shift.overflow, h1, State.shiftOf, hr, if_pos (by simpa using hm)]
  · have h1 : (times Shift.shl k (s.shiftOf n d)).changed = false := by
      rw [← Bool.not_eq_true]
      exact fun h => by obtain ⟨j, hj, hne⟩ := hch.1 h; exact hne (hs j hj)
    rw [Shift.overflow, h1, State.shiftOf, hr, msb_shl_of_unchanged _ hs, if_pos (by simp)]
  · rw [← hr]; exact key

theorem shiftsLeft_logical (hk : k ≤ n) : ShiftsLeft n false s d k (s.shiftLogical n Shift.shl d k) := by
  have hr := shl_r (s.reg n d) s.fcw.c k
  have key := shift_result hn s d (times Shift.shl k (s.shiftOf n d)) (s.shiftCarry (times Shift.shl k (s.shiftOf n d)) k)
    (s.undef1 .overflow)
  refine ⟨_, _, s.undef1 .overflow, rfl, shl_carry s d k hk, nofun, nofun, ?_⟩
  rw [← hr]; exact key

theorem shiftsRight_arith (hk : k ≤ n) : ShiftsRight n true s d k (s.shiftArith n Shift.shrA d k) := by
  have hr := shr_r (s.reg n d) s.fcw.c true k
  have hch := shrA_unchanged (s.reg n d) s.fcw.c k
  refine ⟨_, _, Shift.overflow (s.reg n d) (times Shift.shrA k (s.shiftOf n d)) (s.undef1 .overflow), _, rfl,
    fun j hj => ?_, shr_carry s d k true hk, fun _ => ?_, shift_result hn s d _ _ _⟩
  · rw [← shiftedRight_bit _ _ _ _ hj, ← hr]; rfl
  · have h1 : (times Shift.shrA k (s.shiftOf n d)).changed = false := hch
    have h2 : (times Shift.shrA k (s.shiftOf n d)).r = (s.reg n d).sshiftRight k := hr
    rw [Shift.overflow, h1, h2, BitVec.msb_sshiftRight, if_pos (by simp)]

theorem shiftsRight_logical (hk : k ≤ n) : ShiftsRight n false s d k (s.shiftLogical n Shift.shrL d k) := by
  have hr := shr_r (s.reg n d) s.fcw.c false k
  refine ⟨_, _, s.undef1 .overflow, _, rfl, fun j hj => ?_, shr_carry s d k false hk, nofun, shift_result hn s d _ _ _⟩
  rw [← shiftedRight_bit _ _ _ _ hj, ← hr]; rfl

end

section
variable {n : Nat} (hn : n = 8 ∨ n = 16 ∨ n = 32) {left right : RegNo → Nat → Instr}
include hn

theorem shiftsImmediate_arith (hl : ∀ s d k, exec (left d k) s = s.shiftArith n Shift.shl d k)
    (hr : ∀ s d k, exec (right d k) s = s.shiftArith n Shift.shrA d k) : shiftsImmediate n true left right :=
  ⟨fun s d k hk => by rw [hl]; exact shiftsLeft_arith hn s d k hk,
    fun s d k _ hk => by rw [hr]; exact shiftsRight_arith hn s d k hk⟩

theorem shiftsImmediate_logical (hl : ∀ s d k, exec (left d k) s = s.shiftLogical n Shift.shl d k)
    (hr : ∀ s d k, exec (right d k) s = s.shiftLogical n Shift.shrL d k) : shiftsImmediate n false left right :=
  ⟨fun s d k hk => by rw [hl]; exact shiftsLeft_logical hn s d k hk,
    fun s d k _ hk => by rw [hr]; exact shiftsRight_logical hn s d k hk⟩

end

/-- A signed count in a register selects the shift to the left or to the right, and out of range it stops. -/
theorem shiftsByRegister_of_exec {n : Nat} {arith : Bool} {mk : RegNo → RegNo → Instr} (left right : State → RegNo → Nat → Out)
    (h : ∀ s d r, exec (mk d r) s = s.withCount n r (fun c =>
      if 0 ≤ c then left s d c.toNat else right s d (-c).toNat))
    (hl : ∀ s d k, k ≤ n → ShiftsLeft n arith s d k (left s d k))
    (hr : ∀ s d k, k ≤ n → ShiftsRight n arith s d k (right s d k)) : shiftsByRegister n arith mk := by
  refine ⟨fun s d r k hk hc => ?_, fun s d r k h1 hk hc => ?_, fun s d r hc => ?_⟩
  · rw [h, State.withCount, if_neg (by omega), hc, if_pos (by omega)]
    exact hl s d k hk
  · rw [h, State.withCount, if_neg (by omega), hc, if_neg (by omega), neg_neg]
    exact hr s d k hk
  · rw [h, State.withCount, if_pos (by omega)]

end

end Sys2Proof.Machine

open Sys2Proof Sys2Proof.Machine Sys2Proof.Claims

/-- Settles O23: each rotate is one or two steps of one place. -/
theorem rotates : Obligations.Rotates :=
  ⟨rotatesLeft_of_exec (by simp) fun _ _ _ => rfl, rotatesLeft_of_exec (by simp) fun _ _ _ => rfl,
    rotatesRight_of_exec (by simp) fun _ _ _ => rfl, rotatesRight_of_exec (by simp) fun _ _ _ => rfl,
    rotatesLeftCarry_of_exec (by simp) fun _ _ _ => rfl, rotatesLeftCarry_of_exec (by simp) fun _ _ _ => rfl,
    rotatesRightCarry_of_exec (by simp) fun _ _ _ => rfl, rotatesRightCarry_of_exec (by simp) fun _ _ _ => rfl⟩

/-- Settles O24. -/
theorem digitRotates : Obligations.DigitRotates := fun s l r hlr => by
  obtain ⟨t, sg, run, h⟩ := digits_result (s := s) hlr (highDigit (s.regB l) ++ highDigit (s.regB r))
    (lowDigit (s.regB r) ++ lowDigit (s.regB l))
  obtain ⟨t', sg', run', h'⟩ := digits_result (s := s) hlr (highDigit (s.regB l) ++ lowDigit (s.regB r))
    (lowDigit (s.regB l) ++ highDigit (s.regB r))
  exact ⟨⟨t, sg, run, h⟩, t', sg', run', h'⟩

/-- Settles O25. -/
theorem shiftsByCount : Obligations.ShiftsByCount :=
  ⟨shiftsImmediate_arith (by simp) (fun _ _ _ => rfl) (fun _ _ _ => rfl),
    shiftsImmediate_arith (by simp) (fun _ _ _ => rfl) (fun _ _ _ => rfl),
    shiftsImmediate_arith (by simp) (fun _ _ _ => rfl) (fun _ _ _ => rfl),
    shiftsImmediate_logical (by simp) (fun _ _ _ => rfl) (fun _ _ _ => rfl),
    shiftsImmediate_logical (by simp) (fun _ _ _ => rfl) (fun _ _ _ => rfl),
    shiftsImmediate_logical (by simp) (fun _ _ _ => rfl) (fun _ _ _ => rfl)⟩

/-- Settles O26. -/
theorem shiftsByRegister : Obligations.ShiftsByRegister :=
  ⟨shiftsByRegister_of_exec _ _ (fun _ _ _ => rfl) (shiftsLeft_arith (by simp)) (shiftsRight_arith (by simp)),
    shiftsByRegister_of_exec _ _ (fun _ _ _ => rfl) (shiftsLeft_arith (by simp)) (shiftsRight_arith (by simp)),
    shiftsByRegister_of_exec _ _ (fun _ _ _ => rfl) (shiftsLeft_arith (by simp)) (shiftsRight_arith (by simp)),
    shiftsByRegister_of_exec _ _ (fun _ _ _ => rfl) (shiftsLeft_logical (by simp)) (shiftsRight_logical (by simp)),
    shiftsByRegister_of_exec _ _ (fun _ _ _ => rfl) (shiftsLeft_logical (by simp)) (shiftsRight_logical (by simp)),
    shiftsByRegister_of_exec _ _ (fun _ _ _ => rfl) (shiftsLeft_logical (by simp)) (shiftsRight_logical (by simp))⟩
end
section
/-!
PROOF. Registers after changes to a few of them, and the load and exchange instructions (45_load_exchange.md).
-/
namespace Sys2Proof.Machine
open Sys2Proof.Claims

/-! ## Registers after changes to a few of them -/

theorem onlyRegs_refl (s : State) (l : List RegNo) : OnlyRegs s s l := fun _ _ => rfl

theorem onlyRegs_mono {s t : State} {l m : List RegNo} (h : OnlyRegs s t l) (hs : ∀ r ∈ l, r ∈ m) : OnlyRegs s t m :=
  fun p hp => h p fun r hr => hp r (hs r hr)

theorem setRegW_onlyRegs (s : State) (r : RegNo) (v : Word) : OnlyRegs s (s.setRegW r v) [r] := fun p h => by
  rw [regs_setRegW, if_neg (h r (List.mem_singleton_self r))]

/-- A register apart from those changed reads as before. -/
theorem regW_of_onlyRegs {s t : State} {l : List RegNo} (h : OnlyRegs s t l) (hp : ∀ r, t.phys r = s.phys r) {q : RegNo}
    (hq : ∀ r ∈ l, q ≠ r) : t.regW q = s.regW q := by
  rw [State.regW, State.regW, hp]
  exact h _ fun r hr he => hq r hr ((phys_inj s q r).1 he)

/-- A register operand whose word registers read as before reads as before. -/
theorem reg_of_words {s t : State} {n : Nat} (hn : n = 8 ∨ n = 16 ∨ n = 32) {r : RegNo}
    (h : ∀ q ∈ regsOf n r, t.regW q = s.regW q) : t.reg n r = s.reg n r := by
  rcases hn with rfl | rfl | rfl
  · rw [reg_8, reg_8, State.regB, State.regB, h _ (List.mem_singleton_self _)]
  · rw [reg_16, reg_16, h _ (List.mem_singleton_self _)]
  · rw [reg_32, reg_32, State.regL, State.regL, h r (by simp [regsOf]), h (r + 1) (by simp [regsOf])]

@[simp] theorem logged_addrReg (s : State) (l : List BusEvent) (r : RegNo) : (s.logged l).addrReg r = s.addrReg r := rfl

/-! ## Loads and stores -/

section
variable {n : Nat} (hn : n = 8 ∨ n = 16 ∨ n = 32)
include hn

theorem clears_of_exec {mk : Loc → Instr} (h : ∀ s l, exec (mk l) s = s.clearLoc n l) : clears n mk := fun s l hr => by
  have run := h s l
  have hw := write_loc_ready hr [] (0 : BitVec n) (fun t => .next (t.skip (1 + l.extra)))
  rw [logged_nil, List.append_nil] at hw
  rw [State.clearLoc, checked_of_even (evens_loc_ready hr), hw] at run
  exact ⟨_, run, locResult_same_fcw hn s l _ _ _ (by rintro r rfl; rfl)⟩

theorem loads_of_exec {mk : RegNo → LdSrc n → Instr} (h : ∀ s d src, exec (mk d src) s = s.loadReg d src) :
    loads mk := fun s d src hr => by
  have run := h s d src
  rw [State.loadReg, checked_of_even (evens_ldSrc_ready hr), fetch_ldSrc_ready hr, logged_setReg] at run
  exact ⟨_, run, regResult_same_fcw (by omega) s d _ _ _⟩

/-- A value goes to memory and nothing else changes. -/
theorem storeAt_result {s : State} {sp : Space} {a : Addr} (v : BitVec n) (words : Nat) (he : AllEven (evens n a))
    (ha : Alone s) : ∃ t, s.storeAt sp a v words = .next t ∧ MemResult s t sp a v s.fcw words (writeEvents sp a v) := by
  refine ⟨_, ?_, memResult_same_fcw hn s sp a v words _⟩
  rw [State.storeAt, checked_of_even he, store_alone ha]

theorem stores_of_exec {mk : LdMem → RegNo → Instr} (h : ∀ s m r, exec (mk m r) s = s.storeMem m (s.reg n r)) :
    stores n mk := fun s m r he ha => by
  rw [RunsMem, h]; exact storeAt_result hn _ _ he ha

theorem storesImmediate_of_exec {mk : Mem → BitVec n → Instr} (h : ∀ s m v, exec (mk m v) s = s.storeImm m v) :
    storesImmediate mk := fun s m v he ha => by
  rw [RunsMem, h]; exact storeAt_result hn _ _ he ha

omit hn in
theorem relative_eq_relTo (s : State) (disp : Word) : s.relative 2 disp = relTo s disp := rfl

theorem loadsRelative_of_exec {mk : RegNo → Word → Instr} (h : ∀ s d disp, exec (mk d disp) s = s.loadRel n d disp) :
    loadsRelative n mk := fun s d disp he ha => by
  have run := h s d disp
  rw [State.loadRel, relative_eq_relTo, checked_of_even he, load_alone ha, logged_setReg] at run
  exact ⟨_, run, regResult_same_fcw (by omega) s d _ 2 _⟩

theorem storesRelative_of_exec {mk : Word → RegNo → Instr}
    (h : ∀ s disp r, exec (mk disp r) s = s.storeRel disp (s.reg n r)) : storesRelative n mk := fun s disp r he ha => by
  rw [RunsMem, h]; exact storeAt_result hn _ _ he ha

end

theorem loadAddr_loads {i : Instr} {s : State} {d : RegNo} {a : Addr} {words : Nat}
    (h : exec i s = s.loadAddr d a words) : loadsAddress i s d a words := by
  refine ⟨_, h, by split <;> simp, by split <;> simp [Advances], fun sp b => byteAt_congr ?_ ?_ sp b, ?_, ?_⟩
  · split <;> simp
  · split <;> simp
  · rw [quiet_iff]; split <;> simp
  split_ifs with hs
  · have read (q : RegNo) : (((s.setRegW d (s.segWord .ldaSeg a.seg)).setRegW (d + 1) a.off).skip words).regW q =
        ((s.setRegW d (s.segWord .ldaSeg a.seg)).setRegW (d + 1) a.off).regW q := rfl
    refine ⟨?_, ?_, ?_⟩
    · rw [read, regW_setRegW_ne _ _ (succ_ne d).symm, regW_setRegW_same, segField_segWord]
    · rw [read, regW_setRegW_same]
    · exact onlyRegs_trans (setRegW_onlyRegs s d _) (setRegW_onlyRegs _ (d + 1) _) (by simp)
  · exact ⟨regW_setRegW_same s d a.off, setRegW_onlyRegs s d a.off⟩

/-! ## EX -/

theorem reg_setReg_ne {n : Nat} (hn : n = 8 ∨ n = 16) (s : State) {r q : RegNo} (v : BitVec n) (h : q ≠ r) :
    (s.setReg r v).reg n q = s.reg n q := by
  rcases hn with rfl | rfl
  · rw [reg_8, reg_8]; exact regB_setReg_ne rfl s v h
  · rw [reg_16, reg_16, setReg_16]; exact regW_setRegW_ne s v h

theorem exchanges_of_exec {n : Nat} (hn : n = 8 ∨ n = 16) {mk : RegNo → Loc → Instr}
    (h : ∀ s d l, exec (mk d l) s = s.exchange n d l) : exchanges n mk := fun s d l hr => by
  have run := h s d l
  rw [State.exchange, checked_of_even (evens_loc_ready hr), fetch_loc_ready hr, write_loc_ready hr, logged_setReg] at run
  have hd : ((putLoc s l (s.reg n d)).setReg d (l.val s n)).reg n d = l.val s n :=
    reg_setReg_same (by omega) _ d _
  have hf : ((putLoc s l (s.reg n d)).setReg d (l.val s n)).fcw = s.fcw := by rw [setReg_fcw, putLoc_fcw]
  have regs := setReg_onlyRegs (by omega) (putLoc s l (s.reg n d)) d (l.val s n)
  refine ⟨_, run, hd, hf, ?_, ?_, ?_⟩
  · cases l <;> simp [Advances, putLoc]
  · cases l <;> simp [quiet_iff, putLoc]
  cases l with
  | reg r =>
    refine ⟨?_, ?_, fun sp a => byteAt_congr (by simp [putLoc]) (by simp [putLoc]) sp a, fun h8 c hcd hcr => ?_⟩
    · by_cases hrd : r = d
      · subst hrd; exact hd
      · exact (reg_setReg_ne hn _ _ hrd).trans (reg_setReg_same (by omega) s r _)
    · exact onlyRegs_mono (onlyRegs_trans (setReg_onlyRegs (by omega) s r (s.reg n d)) regs (by simp))
        (by simp [or_comm])
    · exact (regB_setReg_ne h8 _ _ hcd).trans (regB_setReg_ne h8 s _ hcr)
  | mem m =>
    refine ⟨?_, fun p hp => ?_, fun sp a ha => ?_, fun h8 c hcd => ?_⟩
    · exact (readMem_congr (by simp [putLoc]) (by simp [putLoc]) n _ _).trans
        (readMem_putMem_same (by omega) s s.dataSp (m.addr s) (s.reg n d))
    · exact (regs p (by simpa [putLoc] using hp)).trans (by simp [putLoc])
    · exact (byteAt_congr (by simp [putLoc]) (by simp [putLoc]) sp a).trans
        (putMem_onlyMem (by omega) s s.dataSp (m.addr s) (s.reg n d) sp a ha)
    · exact (regB_setReg_ne h8 _ _ hcd).trans (regB_congr (by simp [putLoc]) (by simp [putLoc]) (by simp [putLoc]) c)

/-! ## PUSH and POP -/

theorem stepReg_onlyRegs (s : State) (r : RegNo) (k : Word) : OnlyRegs s (s.stepReg r k) [s.offReg r] :=
  setRegW_onlyRegs s _ _

theorem regW_stepReg_same (s : State) (r : RegNo) (k : Word) :
    (s.stepReg r k).regW (s.offReg r) = s.regW (s.offReg r) + k := regW_setRegW_same s _ _

theorem offReg_congr {s t : State} (h : t.segmented = s.segmented) (r : RegNo) : t.offReg r = s.offReg r := by
  rw [State.offReg, State.offReg, h]

/-- A value pushed. -/
theorem pushVal_pushes {n : Nat} (hn : n = 8 ∨ n = 16 ∨ n = 32) {i : Instr} {s : State} {sp : RegNo} (ha : Alone s)
    (v : BitVec n) (words : Nat) (log : List BusEvent) (h : exec i s = (s.logged log).pushVal sp v words) :
    Pushes i s sp v words log := by
  have hl : Alone ((s.stepReg sp (-(BitVec.ofNat 16 (n / 8)))).logged log) := alone_of_env ha (by simp)
  rw [State.pushVal, logged_stepReg, store_alone hl] at h
  refine ⟨_, h, by simp, by simp [Advances], by simp [quiet_iff], ?_, ?_, ?_, ?_⟩
  · rw [sub_eq_add_neg, ← regW_stepReg_same]
    exact regW_congr (by simp) (by simp) (by simp) _
  · exact fun p hp => (by simp : _ = (s.stepReg sp (-(BitVec.ofNat 16 (n / 8)))).regs.get p).trans
      (stepReg_onlyRegs s sp _ p hp)
  · exact readMem_putMem_same hn ((s.stepReg sp _).logged log) _ _ v
  · intro sp' a' hb
    exact (putMem_onlyMem hn _ _ _ v sp' a' (by simpa using hb)).trans (byteAt_congr (by simp) (by simp) _ _)

theorem pushLoc_pushes {n : Nat} (hn : n = 16 ∨ n = 32) {mk : RegNo → Loc → Instr}
    (h : ∀ s sp l, exec (mk sp l) s = s.pushLoc n sp l) (s : State) (sp : RegNo) (l : Loc)
    (he : AllEven (s.addrReg sp :: l.evens s n)) (ha : Alone s) :
    Pushes (mk sp l) s sp (l.val s n) (1 + l.extra) (l.reads s n) := by
  have hr : l.Ready s n := by
    cases l with
    | reg r => trivial
    | mem m => exact ⟨fun a h => he a (List.mem_cons_of_mem _ h), ha⟩
  refine pushVal_pushes (by omega) ha _ _ _ ?_
  rw [h, State.pushLoc, checked_of_even he, fetch_loc_ready hr]

theorem apart_of_stackIll {seg : Bool} {n : Nat} {sp : RegNo} {l : Loc} (h : stackIll seg n sp l = none) :
    apart (addrRegs seg sp) (l.regs seg n) = true := by
  obtain ⟨-, h⟩ := firstReason_none h
  obtain ⟨-, h⟩ := firstReason_none h
  obtain ⟨h, -⟩ := firstReason_none h
  simpa [require] using h

theorem dataRegs_eq_regsOf {n : Nat} (hn : n = 16 ∨ n = 32) (r : RegNo) : dataRegs n r = regsOf n r := by
  rcases hn with rfl | rfl <;> rfl

/-- The stack pointer is apart from a register that is popped. -/
theorem putLoc_regW_offReg {n : Nat} (hn : n = 16 ∨ n = 32) {s : State} {sp : RegNo} {l : Loc} {v : BitVec n}
    (h : stackIll s.segmented n sp l = none) : (putLoc s l v).regW (s.offReg sp) = s.regW (s.offReg sp) := by
  cases l with
  | reg r =>
    refine regW_of_onlyRegs (setReg_onlyRegs (by omega) s r v) (by simp) fun q hq => ?_
    exact ne_of_apart (apart_of_stackIll h) (offReg_mem s sp) (by rwa [Loc.regs, dataRegs_eq_regsOf hn])
  | mem m => exact regW_congr (by simp [putLoc]) (by simp [putLoc]) (by simp [putLoc]) _

theorem pops_of_exec {n : Nat} (hn : n = 16 ∨ n = 32) {mk : Loc → RegNo → Instr}
    (h : ∀ s l sp, exec (mk l sp) s = s.popTo n l sp) : pops n mk := fun s l sp hi he ha => by
  have hr : l.Ready s n := by
    cases l with
    | reg r => trivial
    | mem m => exact ⟨fun a h => he a (List.mem_cons_of_mem _ h), ha⟩
  have run := h s l sp
  rw [State.popTo, checked_of_even he, load_alone ha, write_loc_ready hr, logged_stepReg] at run
  generalize hv : s.readMem n s.stackSp (s.addrReg sp) = v at run ⊢
  have hoff : (putLoc s l v).offReg sp = s.offReg sp := offReg_congr (by cases l <;> simp [putLoc]) sp
  have step := regW_stepReg_same (putLoc s l v) sp (BitVec.ofNat 16 (n / 8))
  have regs := stepReg_onlyRegs (putLoc s l v) sp (BitVec.ofNat 16 (n / 8))
  rw [hoff] at step regs
  refine ⟨_, run, by simp [putLoc_fcw], ?_, ?_, ?_, ?_⟩
  · cases l <;> simp [Advances, putLoc]
  · cases l <;> simp [quiet_iff, putLoc]
  · refine step.trans ?_
    rw [putLoc_regW_offReg hn hi]
  cases l with
  | reg r =>
    refine ⟨?_, ?_, fun p a => byteAt_congr (by simp [putLoc]) (by simp [putLoc]) p a⟩
    · refine (reg_of_words (by omega) fun q hq => ?_).trans (reg_setReg_same (by omega) s r v)
      refine regW_of_onlyRegs (s := putLoc s (.reg r) v) regs (by simp) fun q' hq' => ?_
      rw [List.mem_singleton] at hq'
      rw [hq', ne_comm]
      exact ne_of_apart (apart_of_stackIll hi) (offReg_mem s sp) (by rwa [Loc.regs, dataRegs_eq_regsOf hn])
    · exact onlyRegs_mono (onlyRegs_trans (setReg_onlyRegs (by omega) s r v) regs (by simp)) (by simp [or_comm])
  | mem m =>
    refine ⟨?_, fun p hp => ?_, fun sp' a' hb => ?_⟩
    · exact (readMem_congr (by simp [putLoc]) (by simp [putLoc]) n _ _).trans
        (readMem_putMem_same (by omega) s s.dataSp (m.addr s) v)
    · exact (regs p (by simpa [putLoc] using hp)).trans (by simp [putLoc])
    · exact (byteAt_congr (by simp [putLoc]) (by simp [putLoc]) sp' a').trans
        (putMem_onlyMem (by omega) s s.dataSp (m.addr s) v sp' a' hb)

end Sys2Proof.Machine

open Sys2Proof Sys2Proof.Machine Sys2Proof.Claims

/-- Settles O28. -/
theorem loadRegister : Obligations.LoadRegister :=
  ⟨loads_of_exec (by simp) fun _ _ _ => rfl, loads_of_exec (by simp) fun _ _ _ => rfl,
    loads_of_exec (by simp) fun _ _ _ => rfl,
    fun s d v => ⟨_, by rw [setReg_8]; rfl, regResult_same_fcw (by simp) s d v 1⟩,
    fun s d k => ⟨_, by rw [setReg_16]; rfl, regResult_same_fcw (by simp) s d (k.setWidth 16) 1⟩⟩

/-- Settles O29. -/
theorem storeMemory : Obligations.StoreMemory :=
  ⟨stores_of_exec (by simp) fun _ _ _ => rfl, stores_of_exec (by simp) fun _ _ _ => rfl,
    stores_of_exec (by simp) fun _ _ _ => rfl, storesImmediate_of_exec (by simp) fun _ _ _ => rfl,
    storesImmediate_of_exec (by simp) fun _ _ _ => rfl⟩

/-- Settles O30. -/
theorem loadAddress : Obligations.LoadAddress :=
  ⟨fun _ _ _ => loadAddr_loads rfl, fun _ _ _ => loadAddr_loads rfl⟩

/-- Settles O32. -/
theorem loadRelative : Obligations.LoadRelative :=
  ⟨loadsRelative_of_exec (by simp) fun _ _ _ => rfl, loadsRelative_of_exec (by simp) fun _ _ _ => rfl,
    loadsRelative_of_exec (by simp) fun _ _ _ => rfl, storesRelative_of_exec (by simp) fun _ _ _ => rfl,
    storesRelative_of_exec (by simp) fun _ _ _ => rfl, storesRelative_of_exec (by simp) fun _ _ _ => rfl⟩

/-- Settles O27. -/
theorem clearAndExchange : Obligations.ClearAndExchange :=
  ⟨clears_of_exec (by simp) fun _ _ => rfl, clears_of_exec (by simp) fun _ _ => rfl,
    exchanges_of_exec (by simp) fun _ _ _ => rfl, exchanges_of_exec (by simp) fun _ _ _ => rfl⟩

/-- Settles O33. -/
theorem pushAndPop : Obligations.PushAndPop :=
  ⟨pops_of_exec (by simp) fun _ _ _ => rfl, pops_of_exec (by simp) fun _ _ _ => rfl,
    pushLoc_pushes (by simp) fun _ _ _ => rfl, pushLoc_pushes (by simp) fun _ _ _ => rfl,
    fun s sp v he ha => pushVal_pushes (by simp) ha v 2 [] (by
      have run : exec (.pushImm sp v) s = checked [s.addrReg sp] (s.pushVal sp v 2) := rfl
      rw [run, checked_of_even (by simpa [AllEven] using he), logged_nil])⟩
end
section
/-!
PROOF. LDM (45_load_exchange.md R322, R323) and the block instructions (42_block_transfer_string.md).
-/
namespace Sys2Proof.Machine
open Sys2Proof.Claims

/-! ## LDM -/

/-- Successive registers written change no other. -/
theorem setRegRun_onlyRegs {ws : List Word} (s : State) (d : RegNo) {k : BitVec 4} (hl : ws.length = k.toNat + 1) :
    OnlyRegs s (s.setRegRun d ws) (runOfRegs d k) := fun p h =>
  regs_setRegRun_ne ws s d p fun j hj => h _ (List.mem_map.2 ⟨j, by simp; omega, rfl⟩)

theorem ldmLoad_runs (s : State) (d : RegNo) (m : Mem) (k : BitVec 4) (he : (m.addr s).off.getLsbD 0 = false)
    (ha : Alone s) : ∃ t, exec (.ldmLoad d m k) s = .next t ∧ t.fcw = s.fcw ∧ Advances s t (2 + m.extra) ∧ SameMem s t ∧
      Quiet s t (readRun s s.dataSp (m.addr s) (k.toNat + 1)) ∧ OnlyRegs s t (runOfRegs d k) ∧
      ∀ j ≤ k.toNat, t.regW (d + BitVec.ofNat 4 j) = s.wordAt s.dataSp ((m.addr s).plus (BitVec.ofNat 16 (2 * j))) := by
  have run : exec (.ldmLoad d m k) s = execLdmLoad d m k s := rfl
  rw [execLdmLoad, checked_of_even (by simpa [AllEven] using he), loadWords_alone ha, logged_setRegRun] at run
  refine ⟨_, run, by simp, by simp [Advances], fun sp a => byteAt_congr (by simp) (by simp) sp a, by simp [quiet_iff],
    setRegRun_onlyRegs s d (by simp), fun j hj => ?_⟩
  have hk := k.isLt
  have key := setRegRun_regW ((List.range (k.toNat + 1)).map fun j => s.wordAt s.dataSp ((m.addr s).plus (BitVec.ofNat 16 (2 * j))))
    s d (by simp; omega) j (by simp; omega)
  rw [List.getElem?_map, List.getElem?_range (by omega)] at key
  exact Option.some.inj key

theorem ldmStore_runs (s : State) (r : RegNo) (m : Mem) (k : BitVec 4) (he : (m.addr s).off.getLsbD 0 = false)
    (ha : Alone s) : ∃ t, exec (.ldmStore m r k) s = .next t ∧ t.fcw = s.fcw ∧ Advances s t (2 + m.extra) ∧ t.regs = s.regs ∧
      Quiet s t (writeRun s.dataSp (m.addr s) ((List.range (k.toNat + 1)).map (fun j => s.regW (r + BitVec.ofNat 4 j)))) ∧
      OnlyMem s t s.dataSp (m.addr s) (2 * (k.toNat + 1)) ∧
      ∀ j ≤ k.toNat, t.wordAt s.dataSp ((m.addr s).plus (BitVec.ofNat 16 (2 * j))) = s.regW (r + BitVec.ofNat 4 j) := by
  have run : exec (.ldmStore m r k) s = execLdmStore m r k s := rfl
  rw [execLdmStore, checked_of_even (by simpa [AllEven] using he), storeWords_alone ha] at run
  refine ⟨_, run, by simp, by simp [Advances], by simp, by simp [quiet_iff, State.regRun], fun sp a h => ?_, fun j hj => ?_⟩
  · exact byteAt_putWords_ne (s.regRun r (k.toNat + 1)) s s.dataSp sp (m.addr s) a (by simpa using h)
  · have hk := k.isLt
    have key := putWords_wordAt (s.regRun r (k.toNat + 1)) s s.dataSp (m.addr s) (by simp; omega) j (by simp; omega)
    rw [regRun_getElem? _ _ _ _ (by omega)] at key
    exact Option.some.inj key

/-! ## One basic operation -/

theorem phys_of_same {s t : State} (hf : t.fcw = s.fcw) (hp : t.params = s.params) (r : RegNo) : t.phys r = s.phys r :=
  phys_congr (by rw [hf]) hp r

theorem segmented_of_same {s t : State} (hf : t.fcw = s.fcw) (hp : t.params = s.params) : t.segmented = s.segmented := by
  rw [State.segmented, State.segmented, State.isZ8001, State.isZ8001, hf, hp]

theorem blockPc_pc (s : State) (last : Bool) : (s.blockPc last).pc = if last then s.pc.plus 4 else s.pc := by
  cases last <;> rfl

/-- Address registers stepped in order. -/
def stepAll (s : State) (ps : List RegNo) (step : Word) : State := ps.foldl (fun t p => t.stepReg p step) s

section
variable (s : State) (ps : List RegNo) (step : Word)

@[simp] theorem stepAll_fcw : (stepAll s ps step).fcw = s.fcw := by
  induction ps generalizing s with
  | nil => rfl
  | cons p ps ih => exact (ih (s.stepReg p step)).trans (by simp)

@[simp] theorem stepAll_params : (stepAll s ps step).params = s.params := by
  induction ps generalizing s with
  | nil => rfl
  | cons p ps ih => exact (ih (s.stepReg p step)).trans (by simp)

@[simp] theorem stepAll_pc : (stepAll s ps step).pc = s.pc := by
  induction ps generalizing s with
  | nil => rfl
  | cons p ps ih => exact (ih (s.stepReg p step)).trans (by simp)

theorem stepAll_onlyRegs : OnlyRegs s (stepAll s ps step) (ps.map s.offReg) := by
  induction ps generalizing s with
  | nil => exact onlyRegs_refl _ _
  | cons p ps ih =>
    have off : (s.stepReg p step).offReg = s.offReg := funext (offReg_congr (by simp))
    have rest := ih (s.stepReg p step)
    rw [off] at rest
    exact onlyRegs_trans (stepReg_onlyRegs s p step) rest (by simp)

theorem regW_stepAll (hd : (ps.map s.offReg).Nodup) :
    ∀ p ∈ ps, (stepAll s ps step).regW (s.offReg p) = s.regW (s.offReg p) + step := by
  induction ps generalizing s with
  | nil => simp
  | cons p ps ih =>
    have off : (s.stepReg p step).offReg = s.offReg := funext (offReg_congr (by simp))
    obtain ⟨hp, hd⟩ := List.nodup_cons.1 hd
    have rest := stepAll_onlyRegs (s.stepReg p step) ps step
    have ih := ih (s.stepReg p step) (by rwa [off])
    rw [off] at rest ih
    intro q hq
    rcases List.mem_cons.1 hq with rfl | hq
    · refine (regW_of_onlyRegs rest (phys_of_same (by simp) (by simp)) fun r hr => ?_).trans (regW_stepReg_same s q step)
      rintro rfl; exact hp hr
    · refine (ih q hq).trans ?_
      rw [State.stepReg, regW_setRegW_ne]
      intro he
      exact hp (he ▸ List.mem_map_of_mem hq)

end

/-- A basic operation: pointers stepped, the count down, and a change to other registers; the flags and the PC
written last. -/
theorem blockStep_intro {s u w : State} (hr : u.regs = s.regs) (hf : u.fcw = s.fcw) (hp : u.params = s.params)
    (hpc : w.pc = s.pc) {ps extra : List RegNo} {r : RegNo} {step : Word}
    (hw : OnlyRegs ((stepAll u ps step).countDown r) w extra) (hwf : w.fcw = s.fcw) (hwp : w.params = s.params)
    (hd : (ps.map s.offReg).Nodup) (hpr : ∀ p ∈ ps, s.offReg p ≠ r)
    (hx : ∀ x ∈ extra, r ≠ x ∧ ∀ p ∈ ps, s.offReg p ≠ x) {f : Fcw} (hsn : f.sn = s.fcw.sn) (last : Bool) :
    BlockStep s ((w.withFcw f).blockPc last) ps step r extra last := by
  have off : u.offReg = s.offReg := funext (offReg_congr (segmented_of_same hf hp))
  have same (q : RegNo) : u.regW q = s.regW q := regW_congr hr (by rw [hf]) hp q
  have read (q : RegNo) : ((w.withFcw f).blockPc last).regW q = w.regW q :=
    regW_congr (by simp) (by simp [hwf, hsn]) (by simp) q
  have stepped := stepAll_onlyRegs u ps step
  have hph (q : RegNo) : w.phys q = ((stepAll u ps step).countDown r).phys q :=
    phys_of_same (by simp [hwf, hf]) (by simp [hwp, hp]) q
  rw [off] at stepped
  refine ⟨fun p hm => ?_, ?_, ?_, ?_⟩
  · rw [read, regW_of_onlyRegs hw hph fun x h => (hx x h).2 p hm, State.countDown, regW_setRegW_ne _ _ (hpr p hm)]
    have key := regW_stepAll u ps step (by rwa [off]) p hm
    rwa [off, same] at key
  · rw [read, regW_of_onlyRegs hw hph fun x h => (hx x h).1, State.countDown, regW_setRegW_same,
      regW_of_onlyRegs stepped (phys_of_same (by simp) (by simp)), same]
    intro q hq
    obtain ⟨p, hm, rfl⟩ := List.mem_map.1 hq
    exact (hpr p hm).symm
  · have counted : OnlyRegs (stepAll u ps step) ((stepAll u ps step).countDown r) [r] := setRegW_onlyRegs _ r _
    have all := onlyRegs_trans (onlyRegs_trans stepped counted (phys_of_same (by simp) (by simp))) hw
      (phys_of_same (by simp) (by simp))
    intro q hq
    rw [← hr]
    exact (by simp : _ = w.regs.get q).trans
      (all q fun x h => by rw [phys_of_same hf hp]; exact hq x (by simpa using h))
  · rw [blockPc_pc]; simp [hpc]

/-- The two pointers and the count are apart. -/
theorem apart_of_twoPointersIll {s : State} {rs r rd : RegNo} (h : twoPointersIll s.segmented rs r rd = none) :
    s.offReg rs ≠ r ∧ s.offReg rd ≠ r ∧ s.offReg rd ≠ s.offReg rs := by
  obtain ⟨-, h⟩ := firstReason_none h
  obtain ⟨-, h⟩ := firstReason_none h
  obtain ⟨h, -⟩ := firstReason_none h
  obtain ⟨h1, h2, h3⟩ := apart_of_blockIll h
  exact ⟨ne_of_apart h1 (offReg_mem s rs) (by simp), (ne_of_apart h3 (by simp) (offReg_mem s rd)).symm,
    (ne_of_apart h2 (offReg_mem s rs) (offReg_mem s rd)).symm⟩

@[simp] theorem logged_readEvents (s : State) (l : List BusEvent) (n : Nat) (sp : Space) (a : Addr) :
    readEvents (s.logged l) n sp a = readEvents s n sp a := rfl

theorem logged_putMem (s : State) (l : List BusEvent) {n : Nat} (sp : Space) (a : Addr) (v : BitVec n) :
    (s.logged l).putMem sp a v = (s.putMem sp a v).logged l := by
  unfold State.putMem; split_ifs <;> rfl

/-! ## CPI, CPD, CPSI, CPSD -/

theorem elementMatch_eq_hit {n : Nat} (hn : n = 8 ∨ n = 16) (f : Fcw) (cc : Cc) (a b : BitVec n) :
    elementMatch cc a b = hit f cc a b := by
  rw [hit, ← czsv_subN (by omega)]; rfl

theorem matchFlags_eq (s : State) (r : RegNo) (z : Bool) :
    s.matchFlags r z = czsv s.fcw (s.undef1 .carry) z (s.undef1 .sign) (decide (s.regW r = 1)) := by
  rw [State.matchFlags, countAfter_zero]; rfl

section
variable {n : Nat} (hn : n = 8 ∨ n = 16) {step : Word} {rep : Bool}
include hn

theorem comparesElement_of_exec {mk : RegNo → RegNo → RegNo → Cc → Instr}
    (h : ∀ s rs r rd cc, exec (mk rs r rd cc) s = s.compareElement n rs r rd cc step rep) :
    comparesElement n mk step rep := by
  intro s rs r rd cc hi hc he ha
  obtain ⟨-, hi⟩ := firstReason_none hi
  obtain ⟨hi, -⟩ := firstReason_none hi
  obtain ⟨hap, -, -⟩ := apart_of_blockIll hi
  have hpr : s.offReg rs ≠ r := ne_of_apart hap (offReg_mem s rs) (by simp)
  have run := h s rs r rd cc
  rw [State.compareElement, withBlockCount_ok hc, checked_of_even he, load_alone ha] at run
  simp only [elementMatch_eq_hit hn s.fcw, countAfter_zero, matchFlags_eq] at run
  refine ⟨_, s.undef1 .carry, s.undef1 .sign, run, fun sp a => byteAt_congr (by simp) (by simp) sp a, by simp [quiet_iff],
    by simp, ?_⟩
  exact blockStep_intro (s := s) (ps := [rs]) (u := s.logged (readEvents s n s.dataSp (s.addrReg rs))) (by simp) (by simp) (by simp) (by simp)
    (onlyRegs_refl _ _) (by simp) (by simp) (by simp) (by simpa using hpr) (by simp) (by rfl) _

theorem comparesStrings_of_exec {mk : RegNo → RegNo → RegNo → Cc → Instr}
    (h : ∀ s rs r rd cc, exec (mk rs r rd cc) s = s.compareStrings n rs r rd cc step rep) :
    comparesStrings n mk step rep := by
  intro s rs r rd cc hi hc he ha
  obtain ⟨h1, h2, h3⟩ := apart_of_twoPointersIll hi
  have run := h s rs r rd cc
  have hl : Alone (s.logged (readEvents s n s.dataSp (s.addrReg rd))) := ha
  rw [State.compareStrings, withBlockCount_ok hc, checked_of_even he, load_alone ha, load_alone hl] at run
  simp only [elementMatch_eq_hit hn s.fcw, countAfter_zero, matchFlags_eq, logged_logged, logged_readMem,
    logged_readEvents] at run
  refine ⟨_, s.undef1 .carry, s.undef1 .sign, run, fun sp a => byteAt_congr (by simp) (by simp) sp a, by simp [quiet_iff],
    by simp, ?_⟩
  exact blockStep_intro (s := s) (ps := [rd, rs]) (u := s.logged _) (by simp) (by simp) (by simp) (by simp)
    (onlyRegs_refl _ _) (by simp) (by simp) (by simpa using h3) (by simp [h1, h2]) (by simp) (by rfl) _

/-! ## LDI, LDD -/

theorem movesElement_of_exec {mk : RegNo → RegNo → RegNo → Instr}
    (h : ∀ s rs r rd, exec (mk rs r rd) s = s.moveElement n rs r rd step rep) :
    movesElement n mk step rep := by
  intro s rs r rd hi hc he ha
  obtain ⟨h1, h2, h3⟩ := apart_of_twoPointersIll hi
  have run := h s rs r rd
  have hl : Alone (s.logged (readEvents s n s.dataSp (s.addrReg rs))) := ha
  rw [State.moveElement, withBlockCount_ok hc, checked_of_even he, load_alone ha, store_alone hl] at run
  simp only [countAfter_zero, logged_putMem, logged_logged] at run
  have wide : n = 8 ∨ n = 16 ∨ n = 32 := by omega
  refine ⟨_, run, by simp [quiet_iff], by simp, ?_, fun sp a hb => ?_, ?_⟩
  · exact (readMem_congr (by simp) (by simp) n _ _).trans (readMem_putMem_same wide s _ _ _)
  · exact (byteAt_congr (by simp) (by simp) sp a).trans 
      (putMem_onlyMem wide s _ _ (s.readMem n s.dataSp (s.addrReg rs)) sp a hb)
  · exact blockStep_intro (s := s) (ps := [rd, rs]) (u := (s.putMem _ _ _).logged _) (by simp) (by simp) (by simp) (by simp)
      (onlyRegs_refl _ _) (by simp) (by simp) (by simpa using h3) (by simp [h1, h2]) (by simp) (by rfl) _

end

/-! ## TRIB, TRDB, TRTIB, TRTDB -/

/-- The pointer, its offset register and the count are apart from each other and from R1. -/
theorem apart_of_translateIll {s : State} {ra r rb : RegNo} (h : translateIll s.segmented ra r rb = none) :
    s.offReg ra ≠ r ∧ s.offReg ra ≠ 1 ∧ r ≠ 1 := by
  obtain ⟨ha, h⟩ := firstReason_none h
  obtain ⟨-, h⟩ := firstReason_none h
  obtain ⟨h1, h⟩ := firstReason_none h
  obtain ⟨h, -⟩ := firstReason_none h
  obtain ⟨hap, -, -⟩ := apart_of_blockIll h
  have hz : ra ≠ 0 := by rintro rfl; simp [addrRegIll] at ha
  have h1 : ra ≠ 1 ∧ r ≠ 1 ∧ rb ≠ 1 := by simpa [require, and_assoc] using h1
  refine ⟨ne_of_apart hap (offReg_mem s ra) (by simp), ?_, h1.2.1⟩
  rw [State.offReg]
  split_ifs
  · intro he; apply hz; bv_omega
  · exact h1.1

theorem entryAt_eq (s : State) (ra rb : RegNo) :
    (s.addrReg rb).plus ((s.byteAt s.dataSp (s.addrReg ra)).setWidth 16) = entryAt s ra rb := by
  have hb := (s.byteAt s.dataSp (s.addrReg ra)).isLt
  have off : (s.addrReg rb).off + (s.byteAt s.dataSp (s.addrReg ra)).setWidth 16 =
      BitVec.ofNat 16 ((s.addrReg rb).off.toNat + (s.byteAt s.dataSp (s.addrReg ra)).toNat) := by
    apply BitVec.eq_of_toNat_eq
    simp only [BitVec.toNat_add, BitVec.toNat_setWidth, BitVec.toNat_ofNat]; omega
  rw [Addr.plus, off]; rfl

theorem readEvents_8 (s : State) (sp : Space) (a : Addr) :
    readEvents s 8 sp a = [.memRead sp true a ((s.byteAt sp a).setWidth 16)] := rfl

/-- The byte and its table entry are read. -/
theorem loadEntry_alone {s : State} (h : Alone s) (ra rb : RegNo) (k : Byte → State → Out) :
    s.loadEntry ra rb k = k (entryOf s ra rb) (s.logged (entryReads s ra rb)) := by
  have hl : Alone (s.logged (readEvents s 8 s.dataSp (s.addrReg ra))) := h
  rw [State.loadEntry, loadByte_alone h, ← readEvents_8, loadByte_alone hl, entryAt_eq]
  rfl

/-- A byte put into RH1 changes R1 alone, and RL1 stays. -/
theorem rh1_written (s : State) (v : Byte) :
    OnlyRegs s (s.setRegB 1 v) [1] ∧ (s.setRegB 1 v).regB 1 = v ∧ (s.setRegB 1 v).regB 9 = s.regB 9 := by
  have h := setReg_onlyRegs (n := 8) (by simp) s 1 v
  rw [setReg_8] at h
  exact ⟨h, regB_setRegB_same s 1 v, regB_setRegB_ne s v (by decide)⟩

theorem regB_9 (s : State) : s.regB 9 = loByte (s.regW 1) := rfl

/-- RL1 after a basic operation. -/
theorem rl1_kept {s u : State} (hr : u.regs = s.regs) (hf : u.fcw = s.fcw) (hp : u.params = s.params) {ra r rb : RegNo}
    (h : translateIll s.segmented ra r rb = none) (step : Word) (v : Byte) :
    ((((u.stepReg ra step).countDown r)).setRegB 1 v).regB 9 = s.regB 9 := by
  obtain ⟨-, h1, h2⟩ := apart_of_translateIll h
  rw [(rh1_written _ v).2.2, regB_9, regB_9, State.countDown, regW_setRegW_ne _ _ h2.symm, State.stepReg,
    offReg_congr (segmented_of_same hf hp), regW_setRegW_ne _ _ h1.symm, regW_congr hr (by rw [hf]) hp]

theorem regB_finished (w : State) {f : Fcw} (hf : f.sn = w.fcw.sn) (last : Bool) (q : RegNo) :
    ((w.withFcw f).blockPc last).regB q = w.regB q := regB_congr (by simp) (by simpa using hf) (by simp) q

section
variable {step : Word} {rep : Bool} {mk : RegNo → RegNo → RegNo → Instr}

theorem translates_of_exec (h : ∀ s rd r rs, exec (mk rd r rs) s = s.translate rd r rs step rep) :
    translates mk step rep := by
  intro s rd r rs hi ha
  obtain ⟨h1, h2, h3⟩ := apart_of_translateIll hi
  have hl : Alone (s.logged (entryReads s rd rs)) := ha
  have run := h s rd r rs
  rw [State.translate, loadEntry_alone ha, store_alone hl, logged_putMem, logged_logged, countAfter_zero] at run
  refine ⟨_, s.undef1 .zero, run, by simp [quiet_iff], by simp, ?_, ?_, fun sp a hb => ?_, ?_⟩
  · rw [regB_finished _ (by simp)]
    exact rl1_kept (by simp) (by simp) (by simp) hi step _
  · refine (byteAt_congr (by simp) (by simp) _ _).trans ((readMem_8 _ _ _).symm.trans
      (readMem_putMem_same (by simp) s s.dataSp (s.addrReg rd) (entryOf s rd rs)))
  · exact (byteAt_congr (by simp) (by simp) sp a).trans
      (putMem_onlyMem (n := 8) (by simp) s _ _ (entryOf s rd rs) sp a hb)
  · exact blockStep_intro (s := s) (ps := [rd]) (u := (s.putMem _ _ _).logged _) (by simp) (by simp) (by simp) (by simp)
      (rh1_written _ _).1 (by simp) (by simp) (by simp) (by simpa using h1) 
      (List.forall_mem_singleton.2 ⟨h3, List.forall_mem_singleton.2 h2⟩) (by rfl) _

theorem translatesTest_of_exec (h : ∀ s ra r rb, exec (mk ra r rb) s = s.translateTest ra r rb step rep) :
    translatesTest mk step rep := by
  intro s ra r rb hi ha
  obtain ⟨h1, h2, h3⟩ := apart_of_translateIll hi
  have run := h s ra r rb
  have entry : (entryOf s ra rb != 0) = decide (entryOf s ra rb ≠ 0) := by rw [Bool.eq_iff_iff]; simp
  rw [State.translateTest, loadEntry_alone ha, countAfter_zero, beq_eq_decide, entry] at run
  refine ⟨_, run, by simp [quiet_iff], fun sp a => byteAt_congr (by simp) (by simp) sp a, by simp, ?_, ?_, ?_⟩
  · rw [regB_finished _ (by simp)]
    exact (rh1_written _ _).2.1
  · rw [regB_finished _ (by simp)]
    exact rl1_kept (by simp) (by simp) (by simp) hi step _
  · exact blockStep_intro (s := s) (ps := [ra]) (u := s.logged _) (by simp) (by simp) (by simp) (by simp)
      (rh1_written _ _).1 (by simp) (by simp) (by simp) (by simpa using h1)
      (List.forall_mem_singleton.2 ⟨h3, List.forall_mem_singleton.2 h2⟩) (by rfl) _

end

end Sys2Proof.Machine

open Sys2Proof Sys2Proof.Machine Sys2Proof.Claims

/-- Settles O31. -/
theorem loadMultiple : Obligations.LoadMultiple := ⟨ldmLoad_runs, ldmStore_runs⟩

/-- Settles O34. -/
theorem compareBlock : Obligations.CompareBlock := by
  refine ⟨?_, ?_, ?_, ?_, ?_, ?_, ?_, ?_, ?_, ?_, ?_, ?_, ?_, ?_, ?_, ?_⟩
  iterate 8 exact comparesElement_of_exec (by simp) fun _ _ _ _ _ => rfl
  iterate 8 exact comparesStrings_of_exec (by simp) fun _ _ _ _ _ => rfl

/-- Settles O35. -/
theorem moveBlock : Obligations.MoveBlock := by
  refine ⟨?_, ?_, ?_, ?_, ?_, ?_, ?_, ?_⟩
  iterate 8 exact movesElement_of_exec (by simp) fun _ _ _ _ => rfl

/-- Settles O36. -/
theorem translateBlock : Obligations.TranslateBlock :=
  ⟨translates_of_exec fun _ _ _ _ => rfl, translates_of_exec fun _ _ _ _ => rfl, translates_of_exec fun _ _ _ _ => rfl,
    translates_of_exec fun _ _ _ _ => rfl, translatesTest_of_exec fun _ _ _ _ => rfl,
    translatesTest_of_exec fun _ _ _ _ => rfl, translatesTest_of_exec fun _ _ _ _ => rfl,
    translatesTest_of_exec fun _ _ _ _ => rfl⟩
end
section
/-!
PROOF. CPU control (43_cpu_control.md).
-/
namespace Sys2Proof.Machine
open Sys2Proof.Claims

/-! ## Flags -/

theorem runsFlag_intro {i : Instr} {s : State} {f : Fcw} {words : Nat} (h : exec i s = .next ((s.withFcw f).skip words)) :
    RunsFlag i s f words := ⟨_, h, flagResult_intro s f words⟩

theorem flagByte_bits (f : Fcw) (u : Word) : (f.flagByte u).getLsbD 7 = f.c ∧ (f.flagByte u).getLsbD 6 = f.z ∧
    (f.flagByte u).getLsbD 5 = f.s ∧ (f.flagByte u).getLsbD 4 = f.pv ∧ (f.flagByte u).getLsbD 3 = f.d ∧
    (f.flagByte u).getLsbD 2 = f.h := by
  refine ⟨?_, ?_, ?_, ?_, ?_, ?_⟩ <;> simp only [Fcw.flagByte, BitVec.getLsbD_append] <;> simp

/-! ## Privileged instructions in system mode -/

section
variable {s : State} (hs : s.fcw.sn = true)
include hs

theorem exec_mreq_granted {d : RegNo} {rest : List Bool} (h : s.env.miLow = true :: rest) :
    exec (.mreq d) s = .next { s with pc := s.pc.plus 2, fcw := { s.fcw with z := false, s := false },
                                      env := { s.env with miLow := rest } } := by
  have run : exec (.mreq d) s = execMreq d s := rfl
  rw [run, execMreq, privileged_system hs, if_pos (by simp [State.miAt, h]), State.dropMi, h]
  rfl

theorem exec_mreq_request {d : RegNo} {low : Bool} {rest : List Bool} (h : s.env.miLow = false :: low :: rest) :
    ∃ t, exec (.mreq d) s = .next t ∧ t.fcw = { s.fcw with z := true, s := low } ∧ t.moActive = low ∧
      t.regW d = 0 ∧ OnlyRegs s t [d] ∧ t.mem = s.mem ∧
      { t with regs := s.regs, fcw := s.fcw, moActive := s.moActive } =
        { s with pc := s.pc.plus 2, env := { s.env with miLow := rest } } := by
  have run : exec (.mreq d) s = execMreq d s := rfl
  have h0 : s.miAt 0 = false := by simp [State.miAt, h]
  have h1 : s.miAt 1 = low := by simp [State.miAt, h]
  rw [execMreq, privileged_system hs, h0, h1, if_neg (by simp), State.dropMi, h] at run
  refine ⟨_, run, rfl, rfl, ?_, ?_, rfl, rfl⟩
  · exact regW_setRegW_same { s with env := { s.env with miLow := rest } } d 0
  · exact setRegW_onlyRegs { s with env := { s.env with miLow := rest } } d 0

/-! ## LDCTL and LDPS -/

theorem ldctlFrom_runs {d : RegNo} {c : CtlReg} {w : Word} (h : s.readCtl c = some w) :
    RunsReg (.ldctlFrom d c) s d w s.fcw 1 := by
  have run : exec (.ldctlFrom d c) s = execLdctlFrom d c s := rfl
  refine ⟨(s.setReg d w).skip 1, ?_, regResult_same_fcw (by simp) s d w 1⟩
  rw [run, execLdctlFrom, privileged_system hs, h, setReg_16]

theorem exec_ldctlTo {c : CtlReg} {d : RegNo} :
    exec (.ldctlTo c d) s = s.writeCtl c (s.regW d) (fun t => .next (t.skip 1)) := privileged_system hs _ _

end

theorem loadFcw_ok {s : State} {w : Word} (h : s.isZ8001 = true ∨ w.getLsbD 15 = false) (k : Fcw → Out) :
    s.loadFcw w k = k (Fcw.ofWord w) := by
  rw [State.loadFcw, if_neg]
  rcases h with h | h
  · rw [h]; exact Bool.false_ne_true
  · rw [h, Bool.and_false]; exact Bool.false_ne_true

/-- REFRESH as it is read: RE and RATE, and ROW where refresh is off and ROW is even. -/
theorem refreshWord_fields (s : State) : s.refreshWord.getLsbD 15 = s.refresh.re ∧
    s.refreshWord.extractLsb' 9 6 = s.refresh.rate ∧
    (s.refresh.re = false → s.refresh.row.getLsbD 0 = false → s.refreshWord.extractLsb' 0 9 = s.refresh.row) := by
  refine ⟨?_, ?_, fun hre hrow => ?_⟩
  · simp only [State.refreshWord, BitVec.getLsbD_append]; simp
  · apply BitVec.eq_of_getLsbD_eq; intro i hi
    simp only [State.refreshWord, BitVec.getLsbD_extractLsb', BitVec.getLsbD_append]
    interval_cases i <;> simp
  · have row : s.rowRead = s.refresh.row := by
      rw [State.rowRead, if_neg (fun h => by rw [hrow] at h; exact absurd h.1 (by decide)), if_neg (by rw [hre]; decide)]
    rw [State.refreshWord, low_of_append, row]

end Sys2Proof.Machine

open Sys2Proof Sys2Proof.Machine Sys2Proof.Claims

/-- Settles O37. -/
theorem flagControl : Obligations.FlagControl := by
  refine ⟨fun s k => runsFlag_intro rfl, fun s k => runsFlag_intro rfl, fun s k => runsFlag_intro rfl,
    fun s => runsFlag_intro rfl, fun s d => ?_, fun s r => runsFlag_intro rfl⟩
  obtain ⟨hc, hz, hsg, hv, hd, hh⟩ := flagByte_bits s.fcw (s.undef16 .fcwUnused)
  exact ⟨_, hc, hz, hsg, hv, hd, hh, _, by rw [setReg_8]; rfl, regResult_same_fcw (n := 8) (by simp) s d _ 1⟩

/-- Settles O38. -/
theorem systemControl : Obligations.SystemControl := fun s hs =>
  ⟨fun v n => runsFlag_intro (privileged_system hs _ _), fun v n => runsFlag_intro (privileged_system hs _ _),
    privileged_system hs _ _, privileged_system hs _ _, privileged_system hs _ _,
    fun low rest h => (privileged_system hs _ _).trans (by simp only [State.dropMi, State.miAt, h]; rfl),
    fun _ _ h => exec_mreq_granted hs h, fun _ _ _ h => exec_mreq_request hs h⟩

/-- Settles O39. -/
theorem controlRegisters : Obligations.ControlRegisters := by
  intro s d hs
  obtain ⟨re, rate, row⟩ := refreshWord_fields s
  refine ⟨⟨s.fcwWord, ofWord_toWord _ _, ldctlFrom_runs hs rfl⟩, ⟨s.refreshWord, re, rate, row, ldctlFrom_runs hs rfl⟩,
    fun hz => ldctlFrom_runs hs (if_pos hz), ldctlFrom_runs hs rfl, fun hz => ldctlFrom_runs hs (if_pos hz),
    ldctlFrom_runs hs rfl, fun h => runsFlag_intro ?_, exec_ldctlTo hs, fun hz => ?_, exec_ldctlTo hs, fun hz => ?_,
    exec_ldctlTo hs⟩
  · rw [exec_ldctlTo hs]
    show s.loadFcw (s.regW d) (fun f => .next ((s.withFcw f).skip 1)) = _
    exact loadFcw_ok h _
  · rw [exec_ldctlTo hs]; exact if_pos hz
  · rw [exec_ldctlTo hs]; exact if_pos hz
end
section
/-!
PROOF. LDPS (43_cpu_control.md R250), input and output (44_input_output.md), jumps, calls and returns
(47_program_control.md).
-/
namespace Sys2Proof.Machine
open Sys2Proof.Claims

/-! ## LDPS -/

section
variable {s : State} {m : Mem} (hs : s.fcw.sn = true) (he : (m.addr s).off.getLsbD 0 = false) (ha : Alone s)
include hs he ha

theorem exec_ldps_nonsegmented (hg : s.segmented = false)
    (h15 : s.isZ8001 = true ∨ (s.wordAt s.dataSp (m.addr s)).getLsbD 15 = false) :
    exec (.ldps m) s = .next { s with
      fcw    := Fcw.ofWord (s.wordAt s.dataSp (m.addr s))
      pc     := ⟨s.pc.seg, s.wordAt s.dataSp ((m.addr s).plus 2)⟩
      busLog := readRun s s.dataSp (m.addr s) 2 ++ s.busLog } := by
  have run : exec (.ldps m) s = execLdps m s := rfl
  rw [run, execLdps, privileged_system hs, checked_of_even (by simpa [AllEven] using he), hg, if_neg (by simp),
    loadWord_alone ha, loadWord_alone (by exact ha), logged_loadFcw, logged_loadFcw, loadFcw_ok h15]
  simp only [logged_wordAt, logged_logged]
  simp [readRun, List.range_succ, State.withFcw, State.logged]

theorem exec_ldps_segmented (hg : s.segmented = true) :
    exec (.ldps m) s = .next { s with
      fcw    := Fcw.ofWord (s.wordAt s.dataSp ((m.addr s).plus 2))
      pc     := ⟨(s.wordAt s.dataSp ((m.addr s).plus 4)).extractLsb' 8 7, s.wordAt s.dataSp ((m.addr s).plus 6)⟩
      busLog := readRun s s.dataSp ((m.addr s).plus 2) 3 ++ s.busLog } := by
  have run : exec (.ldps m) s = execLdps m s := rfl
  have hz : s.isZ8001 = true := by rw [State.segmented, Bool.and_eq_true] at hg; exact hg.1
  rw [run, execLdps, privileged_system hs, checked_of_even (by simpa [AllEven] using he), hg, if_pos rfl,
    loadWord_alone ha, loadWord_alone (by exact ha), loadWord_alone (by exact ha), logged_loadFcw, logged_loadFcw,
    logged_loadFcw, loadFcw_ok (.inl hz)]
  simp only [logged_wordAt, logged_logged]
  simp [readRun, List.range_succ, plus_plus, State.withFcw, State.logged, segField]

end

/-! ## Input and output -/

theorem ioRead_alone {s : State} (h : Alone s) (n : Nat) (io : IoSpace) (port : Word) (k : BitVec n → State → Out) :
    s.ioRead n io port k = k ((s.busWord 0).setWidth n)
      (s.dropBus.logged [.ioRead io (n == 8) port (((s.busWord 0).setWidth n).setWidth 16)]) := by
  rw [State.ioRead, turn_alone h]; rfl

theorem ioWrite_alone {s : State} (h : Alone s) {n : Nat} (io : IoSpace) (port : Word) (v : BitVec n)
    (k : State → Out) : s.ioWrite io port v k = k (s.logged [.ioWrite io (n == 8) port (v.setWidth 16)]) := by
  rw [State.ioWrite, turn_alone h]; rfl

theorem supplied_busWord (s : State) (n : Nat) : Supplied s ((s.busWord 0).setWidth n) := by
  intro w ws h; simp [State.busWord, h]

theorem ioFlags_eq (s : State) (r : RegNo) :
    s.ioFlags r = { s.fcw with z := s.undef1 .zero, pv := decide (s.regW r = 1) } := by
  rw [State.ioFlags, countAfter_zero]

section
variable {n : Nat} (hn : n = 8 ∨ n = 16) {io : IoSpace}

include hn in
theorem inputs_of_exec {i : Instr} {s : State} {d : RegNo} {port : Word} {words : Nat}
    (h : s.fcw.sn = true → exec i s = s.input n io d port words) : inputs n io i s d port words := by
  intro hs ha
  have run := h hs
  rw [State.input, ioRead_alone ha, logged_setReg] at run
  have res := regResult_same_fcw (n := n) (by omega) s.dropBus d ((s.busWord 0).setWidth n) words
    [.ioRead io (n == 8) port (((s.busWord 0).setWidth n).setWidth 16)]
  exact ⟨_, _, run, supplied_busWord s n, res.value, res.flags, res.pc, res.regs, res.bytes, res.mem,
    by rw [quietCpu_iff]; simp, by simp, by simp [dropOne, State.dropBus]⟩

theorem outputs_of_exec {i : Instr} {s : State} {r : RegNo} {port : Word} {words : Nat}
    (h : s.fcw.sn = true → exec i s = s.output n io port r words) : outputs n io i s port r words := by
  intro hs ha
  have run := h hs
  rw [State.output, ioWrite_alone ha] at run
  exact ⟨_, run, by simp, by simp [Advances], by simp, fun sp a => byteAt_congr (by simp) (by simp) sp a,
    by rw [quietCpu_iff]; simp, by simp, by simp⟩

/-- The pointer and the count of a block input are apart. -/
theorem apart_of_blockInIll {s : State} {rs r rd : RegNo} (h : blockInIll s.segmented rs r rd = none) :
    s.offReg rd ≠ r := by
  obtain ⟨-, h⟩ := firstReason_none h
  obtain ⟨-, h⟩ := firstReason_none h
  obtain ⟨h, -⟩ := firstReason_none h
  exact (ne_of_apart (apart_of_blockIll h).2.2 (by simp) (offReg_mem s rd)).symm

/-- The pointer and the count of a block output are apart. -/
theorem apart_of_blockOutIll {s : State} {rs r rd : RegNo} (h : blockOutIll s.segmented rs r rd = none) :
    s.offReg rs ≠ r := by
  obtain ⟨-, h⟩ := firstReason_none h
  obtain ⟨-, h⟩ := firstReason_none h
  obtain ⟨h, -⟩ := firstReason_none h
  exact ne_of_apart (apart_of_blockIll h).1 (offReg_mem s rs) (by simp)

variable {step : Word} {rep : Bool} {mk : RegNo → RegNo → RegNo → Instr}
include hn

theorem inputsBlock_of_exec (h : ∀ s rs r rd, s.fcw.sn = true → exec (mk rs r rd) s = s.blockIn n io rs r rd step rep) :
    inputsBlock n io mk step rep := by
  intro s rs r rd hs hi hc he ha
  have run := h s rs r rd hs
  have hl : Alone (s.dropBus.logged [.ioRead io (n == 8) (s.regW rs) (((s.busWord 0).setWidth n).setWidth 16)]) := ha
  rw [State.blockIn, withBlockCount_ok hc, checked_of_even he, ioRead_alone ha, store_alone hl, logged_putMem,
    logged_logged, countAfter_zero, ioFlags_eq] at run
  have wide : n = 8 ∨ n = 16 ∨ n = 32 := by omega
  refine ⟨_, _, s.undef1 .zero, run, supplied_busWord s n, by simp, ?_, fun sp a hb => ?_, by rw [quietCpu_iff]; simp,
    by simp, by simp [dropOne, State.dropBus], ?_⟩
  · exact (readMem_congr (by simp) (by simp) n _ _).trans (readMem_putMem_same wide s.dropBus _ _ _)
  · exact (byteAt_congr (by simp) (by simp) sp a).trans
      (putMem_onlyMem wide s.dropBus _ _ ((s.busWord 0).setWidth n) sp a hb)
  · exact blockStep_intro (s := s) (ps := [rd]) (u := (s.dropBus.putMem _ _ _).logged _) (by simp) (by simp) (by simp)
      (by simp) (onlyRegs_refl _ _) (by simp) (by simp) (by simp) (by simpa using apart_of_blockInIll hi) (by simp)
      (by rfl) _

omit hn in
theorem outputsBlock_of_exec (h : ∀ s rs r rd, s.fcw.sn = true → exec (mk rs r rd) s = s.blockOut n io rs r rd step rep) :
    outputsBlock n io mk step rep := by
  intro s rs r rd hs hi hc he ha
  have run := h s rs r rd hs
  have hl : Alone (s.logged (readEvents s n s.dataSp (s.addrReg rs))) := ha
  rw [State.blockOut, withBlockCount_ok hc, checked_of_even he, load_alone ha, ioWrite_alone hl, logged_logged,
    countAfter_zero, ioFlags_eq] at run
  refine ⟨_, s.undef1 .zero, run, by simp, fun sp a => byteAt_congr (by simp) (by simp) sp a, by rw [quietCpu_iff]; simp,
    by simp, by simp, ?_⟩
  exact blockStep_intro (s := s) (ps := [rs]) (u := s.logged _) (by simp) (by simp) (by simp) (by simp)
    (onlyRegs_refl _ _) (by simp) (by simp) (by simp) (by simpa using apart_of_blockOutIll hi) (by simp) (by rfl) _

end

/-! ## Calls and returns -/

theorem sp_off (s : State) : s.sp.off = s.regW 15 := by rw [State.sp]; split <;> rfl

/-- A return address as it lies on the stack. -/
def returnWords (s : State) (a : Addr) : List Word :=
  if s.segmented then [s.segWord .segWord a.seg, a.off] else [a.off]

/-- s with a return address on its stack. -/
def returnPushed (s : State) (a : Addr) : State :=
  (s.setRegW 15 (s.sp.plus (-s.retSize)).off).putWords s.stackSp (s.sp.plus (-s.retSize)) (returnWords s a)

theorem pushReturn_alone {s : State} (h : Alone s) (a : Addr) (k : State → Out) :
    s.pushReturn a k =
      k ((returnPushed s a).logged (writeRun s.stackSp (s.sp.plus (-s.retSize)) (returnWords s a))) :=
  storeWords_alone (s := s.setRegW 15 (s.sp.plus (-s.retSize)).off) h _ _ _ _

theorem returnPushed_onlyRegs (s : State) (a : Addr) : OnlyRegs s (returnPushed s a) [15] := fun p hp => by
  simpa [returnPushed] using setRegW_onlyRegs s 15 (s.sp.plus (-s.retSize)).off p hp

theorem returnPushed_regW_15 (s : State) (a : Addr) : (returnPushed s a).regW 15 = s.regW 15 - s.retSize :=
  calc (returnPushed s a).regW 15 = (s.setRegW 15 (s.sp.plus (-s.retSize)).off).regW 15 :=
        regW_congr (by simp [returnPushed]) (by simp [returnPushed]) (by simp [returnPushed]) 15
    _ = s.regW 15 - s.retSize := by rw [regW_setRegW_same, plus_off, sp_off, BitVec.sub_eq_add_neg]

theorem returnWords_length (s : State) (a : Addr) : (returnWords s a).length = if s.segmented then 2 else 1 := by
  rw [returnWords]; split <;> rfl

theorem returnPushed_wordAt (s : State) (a : Addr) (j : Nat) (hj : j < (returnWords s a).length) :
    some ((returnPushed s a).wordAt s.stackSp ((s.sp.plus (-s.retSize)).plus (BitVec.ofNat 16 (2 * j)))) =
      (returnWords s a)[j]? := by
  refine putWords_wordAt (returnWords s a) _ _ _ ?_ j hj
  rw [returnWords_length]; split <;> omega

theorem returnPushed_onlyMem (s : State) (a : Addr) :
    OnlyMem s (returnPushed s a) s.stackSp (s.sp.plus (-s.retSize)) (2 * (returnWords s a).length) :=
  fun sp b h => byteAt_putWords_ne (returnWords s a) _ s.stackSp sp _ b (by simpa using h)

/-- What a return address on the stack says, by mode. -/
theorem returnPushed_words (s : State) (a : Addr) :
    (returnPushed s a).wordAt s.stackSp (s.sp.plus (-2)) = a.off ∧
    (s.segmented = true → (returnPushed s a).wordAt s.stackSp (s.sp.plus (-4)) = s.segWord .segWord a.seg) := by
  cases hg : s.segmented
  · have w0 := returnPushed_wordAt s a 0 (by simp [returnWords_length, hg])
    simp only [returnWords, hg, State.retSize] at w0
    exact ⟨by simpa using w0, fun h => absurd h (by simp)⟩
  · have w0 := returnPushed_wordAt s a 0 (by simp [returnWords_length, hg])
    have w1 := returnPushed_wordAt s a 1 (by simp [returnWords_length, hg])
    simp only [returnWords, hg, State.retSize] at w0 w1
    exact ⟨by simpa [plus_plus] using w1, fun _ => by simpa using w0⟩

/-- A call with an even stack pointer: the return address is pushed and the target jumped to. -/
theorem calls_of_exec {i : Instr} {s : State} {a : Addr} {words : Nat} (h : exec i s = s.callTo a words)
    (he : (s.regW 15).getLsbD 0 = false) (ha : Alone s) : Calls i s a words := by
  have run := h
  rw [State.callTo, checked_of_even (by simpa [AllEven, sp_off] using he), pushReturn_alone ha] at run
  obtain ⟨woff, wseg⟩ := returnPushed_words s (s.skip words).pc
  have same (b : Addr) : ((((returnPushed s (s.skip words).pc).logged (writeRun s.stackSp (s.sp.plus (-s.retSize))
      (returnWords s (s.skip words).pc)))).jump a).wordAt s.stackSp b = (returnPushed s (s.skip words).pc).wordAt s.stackSp b :=
    wordAt_congr (by simp) (by simp) _ _
  refine ⟨_, run, by simp [returnPushed], ?_, fun p hp => by simpa using returnPushed_onlyRegs s _ p hp, ?_, ?_, ?_, ?_, ?_⟩
  · simp [State.jump, branchTo, returnPushed]
  · have log : (if s.segmented then
          writeRun s.stackSp (s.sp.plus (-4))
            [(returnPushed s (s.skip words).pc).wordAt s.stackSp (s.sp.plus (-4)), (s.skip words).pc.off]
        else writeRun s.stackSp (s.sp.plus (-2)) [(s.skip words).pc.off]) =
        writeRun s.stackSp (s.sp.plus (-s.retSize)) (returnWords s (s.skip words).pc) := by
      rw [State.retSize, returnWords]
      split
      · next hg => rw [wseg hg]
      · rfl
    rw [same, same, woff, log, quiet_iff]
    simp [returnPushed]
  · exact (regW_congr (by rfl) (by rfl) (by rfl) 15).trans (returnPushed_regW_15 s (s.skip words).pc)
  · rw [same, woff]; rfl
  · intro hg; rw [same, wseg hg, segField_segWord]; rfl
  · intro sp b hb
    refine (byteAt_congr (by rfl) (by rfl) sp b).trans (returnPushed_onlyMem s (s.skip words).pc sp b ?_)
    rw [returnWords_length, State.retSize]
    cases hg : s.segmented <;> simpa [hg] using hb

/-- A return takes the address from the stack. -/
theorem exec_ret_taken {s : State} {c : Cc} (hc : s.fcw.holds c = true) (he : (s.regW 15).getLsbD 0 = false)
    (ha : Alone s) : exec (.ret c) s = .next { s.setRegW 15 (s.regW 15 + if s.segmented then 4 else 2) with
      pc := if s.segmented then
          ⟨(s.wordAt s.stackSp s.sp).extractLsb' 8 7, s.wordAt s.stackSp (s.sp.plus 2)⟩
        else ⟨s.pc.seg, s.wordAt s.stackSp s.sp⟩
      busLog := readRun s s.stackSp s.sp (if s.segmented then 2 else 1) ++ s.busLog } := by
  have run : exec (.ret c) s = execRet c s := rfl
  rw [run, execRet, if_pos hc, checked_of_even (by simpa [AllEven, sp_off] using he), State.loadReturn]
  cases hg : s.segmented
  · rw [if_neg (by simp), loadWord_alone ha, sp_off, State.retSize, logged_setRegW]
    simp [readRun, hg, State.jump]
  · rw [if_pos rfl, loadWord_alone ha, loadWord_alone (by exact ha), sp_off, State.retSize, logged_setRegW]
    rw [logged_setRegW]; simp [readRun, hg, State.jump, List.range_succ, segField]

/-! ## Jumps -/

theorem branchBack (s : State) (d : Word) : ((s.pc.plus 2).plus (-(2 * d))) = ⟨s.pc.seg, s.pc.off + 2 - 2 * d⟩ := by
  rw [plus_plus, Addr.plus, BitVec.sub_eq_add_neg, BitVec.add_assoc]

/-- DJNZ and DBJNZ. -/
theorem decrementJump_eq (s : State) {n : Nat} (r : RegNo) (disp : BitVec 7) : s.decrementJump n r disp =
    .next { s.setReg r (s.reg n r - 1) with
      pc := if s.reg n r = 1 then s.pc.plus 2 else ⟨s.pc.seg, s.pc.off + 2 - 2 * disp.setWidth 16⟩ } := by
  rw [State.decrementJump, ← branchBack]
  have zero : s.reg n r - 1 = 0 ↔ s.reg n r = 1 := by rw [BitVec.sub_eq_iff_eq_add]; simp
  simp only [zero]
  split <;> simp [State.skip]

end Sys2Proof.Machine

open Sys2Proof Sys2Proof.Machine Sys2Proof.Claims

/-- Settles O40. -/
theorem loadProgramStatus : Obligations.LoadProgramStatus := fun _ _ hs he ha =>
  ⟨exec_ldps_nonsegmented hs he ha, exec_ldps_segmented hs he ha⟩

/-- Settles O41. -/
theorem inputOutput : Obligations.InputOutput := fun _ _ _ _ _ =>
  ⟨inputs_of_exec (by simp) fun hs => privileged_system hs _ _, inputs_of_exec (by simp) fun hs => privileged_system hs _ _,
    inputs_of_exec (by simp) fun hs => privileged_system hs _ _, inputs_of_exec (by simp) fun hs => privileged_system hs _ _,
    outputs_of_exec fun hs => privileged_system hs _ _, outputs_of_exec fun hs => privileged_system hs _ _,
    outputs_of_exec fun hs => privileged_system hs _ _, outputs_of_exec fun hs => privileged_system hs _ _⟩

/-- Settles O42. -/
theorem blockInput : Obligations.BlockInput := by
  refine ⟨?_, ?_, ?_, ?_, ?_, ?_, ?_, ?_, ?_, ?_, ?_, ?_, ?_, ?_, ?_, ?_⟩
  iterate 16 exact inputsBlock_of_exec (by simp) fun _ _ _ _ hs => privileged_system hs _ _

/-- Settles O43. -/
theorem blockOutput : Obligations.BlockOutput := by
  refine ⟨?_, ?_, ?_, ?_, ?_, ?_, ?_, ?_, ?_, ?_, ?_, ?_, ?_, ?_, ?_, ?_⟩
  iterate 16 exact outputsBlock_of_exec fun _ _ _ _ hs => privileged_system hs _ _

/-- Settles O44. -/
theorem callAndReturn : Obligations.CallAndReturn := by
  refine ⟨fun s m he ha => calls_of_exec rfl he ha, fun s disp he ha => calls_of_exec ?_ he ha,
    fun s c => ⟨exec_ret_taken, fun hc => (if_neg (by simp [hc]) : execRet c s = _)⟩⟩
  exact congrArg (fun a => s.callTo a 1) (branchBack s _)

/-- Settles O45. -/
theorem branch : Obligations.Branch := by
  refine ⟨fun s c m => ?_, fun s c disp => ?_, fun s r disp => ?_, fun s r disp => ?_⟩
  · have run : exec (.jp c m) s = execJp c m s := rfl
    rw [run, execJp]; split <;> rfl
  · have run : exec (.jr c disp) s = execJr c disp s := rfl
    rw [run, execJr]; split <;> rfl
  · rw [← reg_16, ← setReg_16]; exact decrementJump_eq s r disp
  · rw [← reg_8, ← setReg_8]; exact decrementJump_eq s r disp
end
section
/-!
PROOF. Taking an exception and returning from one (60_exceptions.md sections 3 and 4).
-/
namespace Sys2Proof.Machine
open Sys2Proof.Claims

/-! ## The frame -/

theorem framed_wordAt (s : State) (id : Word) (saved : Addr) (sp : Space) (a : Addr) :
    (framed s id saved).wordAt sp a = (s.putBelow ⟨.stack, true⟩ s.ssp (s.frame id saved)).wordAt sp a := rfl

theorem framed_params (s : State) (id : Word) (saved : Addr) : (framed s id saved).params = s.params := by simp [framed]
theorem framed_busLog (s : State) (id : Word) (saved : Addr) : (framed s id saved).busLog = s.busLog := by simp [framed]

/-- The frame changes memory and the system stack pointer alone. -/
theorem framed_rest (s : State) (id : Word) (saved : Addr) :
    { framed s id saved with regs := s.regs, mem := s.mem } = s := by simp [framed]

/-- Word j of the frame, counted from the top. -/
theorem framed_frame (s : State) (id : Word) (saved : Addr) (j : Nat) (hj : j < (s.frame id saved).length) :
    some ((framed s id saved).wordAt ⟨.stack, true⟩ (s.ssp.plus (-(BitVec.ofNat 16 (2 * (j + 1)))))) =
      (s.frame id saved)[j]? := by
  refine putBelow_wordAt (s.frame id saved) s _ s.ssp ?_ j hj
  rw [frame_length]; split <;> omega

theorem framed_z8001 {s : State} (hz : s.isZ8001 = true) (id : Word) (saved : Addr) :
    (framed s id saved).wordAt ⟨.stack, true⟩ (s.ssp.plus (-2)) = saved.off ∧
    (framed s id saved).wordAt ⟨.stack, true⟩ (s.ssp.plus (-4)) = s.segWord .segWord saved.seg ∧
    (framed s id saved).wordAt ⟨.stack, true⟩ (s.ssp.plus (-6)) = s.fcwWord ∧
    (framed s id saved).wordAt ⟨.stack, true⟩ (s.ssp.plus (-8)) = id := by
  have w := framed_frame s id saved
  rw [frame_length, hz, if_pos rfl] at w
  have frame : s.frame id saved = [saved.off, s.segWord .segWord saved.seg, s.fcwWord, id] := if_pos hz
  rw [frame] at w
  exact ⟨Option.some.inj (w 0 (by omega)), Option.some.inj (w 1 (by omega)), Option.some.inj (w 2 (by omega)),
    Option.some.inj (w 3 (by omega))⟩

theorem framed_z8002 {s : State} (hz : s.isZ8001 = false) (id : Word) (saved : Addr) :
    (framed s id saved).wordAt ⟨.stack, true⟩ (s.ssp.plus (-2)) = saved.off ∧
    (framed s id saved).wordAt ⟨.stack, true⟩ (s.ssp.plus (-4)) = s.fcwWord ∧
    (framed s id saved).wordAt ⟨.stack, true⟩ (s.ssp.plus (-6)) = id := by
  have w := framed_frame s id saved
  rw [frame_length, hz, if_neg Bool.false_ne_true] at w
  have frame : s.frame id saved = [saved.off, s.fcwWord, id] := if_neg (by simp [hz])
  rw [frame] at w
  exact ⟨Option.some.inj (w 0 (by omega)), Option.some.inj (w 1 (by omega)), Option.some.inj (w 2 (by omega))⟩

theorem framed_ident (s : State) (id : Word) (saved : Addr) :
    (framed s id saved).wordAt ⟨.stack, true⟩ (frameBase s) = id := by
  rw [frameBase]
  cases hz : s.isZ8001
  · exact (framed_z8002 hz id saved).2.2
  · exact (framed_z8001 hz id saved).2.2.2

theorem framed_savedFcw (s : State) (id : Word) (saved : Addr) :
    (framed s id saved).wordAt ⟨.stack, true⟩ (s.ssp.plus (if s.isZ8001 then -6 else -4)) = s.fcwWord := by
  cases hz : s.isZ8001
  · exact (framed_z8002 hz id saved).2.1
  · exact (framed_z8001 hz id saved).2.2.1

theorem framed_savedOff (s : State) (id : Word) (saved : Addr) :
    (framed s id saved).wordAt ⟨.stack, true⟩ (s.ssp.plus (-2)) = saved.off := by
  cases hz : s.isZ8001
  · exact (framed_z8002 hz id saved).1
  · exact (framed_z8001 hz id saved).1

theorem framed_onlyMem (s : State) (id : Word) (saved : Addr) :
    OnlyMem s (framed s id saved) ⟨.stack, true⟩ (frameBase s) (if s.isZ8001 then 8 else 6) := by
  intro sp a h
  have far := byteAt_putBelow_far (s.frame id saved) s ⟨.stack, true⟩ sp s.ssp a
  rw [frame_length] at far
  cases hz : s.isZ8001
  · simp only [hz, frameBase] at far h
    exact far (by simp) (by simpa using h)
  · simp only [hz, frameBase] at far h
    exact far (by simp) (by simpa using h)

/-- The writes of the frame, from its lowest word up. -/
theorem frameWrites_eq (s : State) (id : Word) (saved : Addr) : frameWrites s id saved =
    (List.range (if s.isZ8001 then 4 else 3)).map (fun j =>
      .memWrite ⟨.stack, true⟩ false ((frameBase s).plus (BitVec.ofNat 16 (2 * j)))
        ((framed s id saved).wordAt ⟨.stack, true⟩ ((frameBase s).plus (BitVec.ofNat 16 (2 * j))))) := by
  rw [frameWrites, frame_length, frameBase]
  cases hz : s.isZ8001
  · obtain ⟨w0, w1, w2⟩ := framed_z8002 hz id saved
    simp at w0 w1 w2
    simp [List.range_succ, plus_plus, w0, w1, w2, State.frame, hz]
  · obtain ⟨w0, w1, w2, w3⟩ := framed_z8001 hz id saved
    simp at w0 w1 w2 w3
    simp [List.range_succ, plus_plus, w0, w1, w2, w3, State.frame, hz]

/-! ## What an entry leaves -/

/-- All that an entry does where nothing comes between its transactions. -/
theorem entered_of_enter {s t : State} {k : Exc} {id : Word} {saved : Addr} (ha : Alone s)
    (h : s.enter k id saved = .next t) : Entered s t k id saved := by
  obtain ⟨he, h'⟩ := checked_next h
  have hv : ¬(s.isZ8001 = true ∧ k = .vi ∧ id.getLsbD 0 = true) := by
    intro c; rw [if_pos c] at h'; cases h'
  rw [enter_alone ha (he _ (List.mem_singleton_self _)) k id saved hv] at h
  obtain ⟨-, h⟩ := loadFcw_next h
  rw [newFcwAt_eq_fcwPlace, newPcAt_eq_pcPlace, frameWrites_eq] at h
  have regs : s.regs.set 17 (s.ssp.off - s.frameSize) = t.regs := by cases h; rfl
  have mem : (framed s id saved).mem = t.mem := by cases h; rfl
  have params : s.params = t.params := by cases h; exact (framed_params s id saved).symm
  have word (sp : Space) (a : Addr) : t.wordAt sp a = (framed s id saved).wordAt sp a :=
    wordAt_congr mem.symm (by rw [← params, framed_params]) sp a
  exact {
    savedOff := (word _ _).trans (framed_savedOff s id saved)
    savedSeg := fun hz => by rw [word, (framed_z8001 hz id saved).2.1, segField_segWord]
    savedFcw := by rw [word, framed_savedFcw]; exact ofWord_toWord _ _
    ident := (word _ _).trans (framed_ident s id saved)
    sysStack := by rw [← regs]; exact regs_set_get _ _
    regs := fun p hp => by
      rw [← regs]
      exact Vector.getElem_set_ne (by simp) p.isLt (fun e => hp (Fin.ext e.symm))
    mem := fun sp a hb => (byteAt_congr mem.symm (by rw [← params, framed_params]) sp a).trans
      (framed_onlyMem s id saved sp a hb)
    newFcw := by rw [word]; cases h; rfl
    newPc := by rw [word, word]; cases h; rfl
    awake := by cases h; rfl
    sample := by cases h; exact ⟨rfl, rfl, rfl⟩
    log := by
      cases h
      exact congrArg (_ ++ ·) (framed_busLog s id saved)
    rest := by
      cases h
      exact congrArg (fun u : State => { u with
        fcw := s.fcw, pc := s.pc, halted := s.halted, busLog := s.busLog,
        sampleDue := s.sampleDue, sampleVie := s.sampleVie, sampleNvie := s.sampleNvie }) (framed_rest s id saved) }

/-- An entry that is ready goes on to its end. -/
theorem enter_ready {s : State} {k : Exc} {id : Word} {saved : Addr} (h : EntryReady s k id saved) :
    ∃ t, s.enter k id saved = .next t ∧ Entered s t k id saved := by
  obtain ⟨he, hv, h15, ha⟩ := h
  have vector : ¬(s.isZ8001 = true ∧ k = .vi ∧ id.getLsbD 0 = true) := fun ⟨hz, hk, hid⟩ => by
    rw [hv hz hk] at hid; exact Bool.false_ne_true hid
  have bit15 : (framed s id saved).isZ8001 = true ∨
      ((framed s id saved).wordAt ⟨.prog, true⟩ (s.newFcwAt k)).getLsbD 15 = false := by
    cases hz : s.isZ8001
    · right; rw [newFcwAt_eq_fcwPlace]; exact h15 hz
    · left; rw [State.isZ8001, framed_params]; exact hz
  have done : ∃ t, s.enter k id saved = .next t := by
    rw [enter_alone ha he k id saved vector, loadFcw_ok bit15]
    exact ⟨_, rfl⟩
  obtain ⟨t, ht⟩ := done
  exact ⟨t, ht, entered_of_enter ha ht⟩

/-- The word on top of the system stack after an entry is the identifier. -/
theorem ident_of_enter {s t : State} {k : Exc} {id : Word} {saved : Addr} (ha : Alone s)
    (h : s.enter k id saved = .next t) : t.wordAt ⟨.stack, true⟩ ⟨s.ssp.seg, t.regs.get 17⟩ = id := by
  have e := entered_of_enter ha h
  have top : (⟨s.ssp.seg, t.regs.get 17⟩ : Addr) = frameBase s := by
    rw [e.sysStack, frameBase, Addr.plus, BitVec.sub_eq_add_neg]
    cases s.isZ8001 <;> rfl
  rw [top, e.ident]

/-! ## Extended instructions with EPA = 0 -/

/-- The PC an Extended Instruction Trap saves (60_exceptions.md R441). -/
def extendedSaved (s : State) (n : Option Nat) : Addr :=
  match s.params.eitSavedPc, n with
  | .secondWord, _ => s.pc.plus 2
  | .nextInstruction, some k => s.pc.plus (BitVec.ofNat 16 (2 * k))
  | .nextInstruction, none => { s.pc with off := s.undef16 .savedPc }

theorem extendedTrap_enter (s : State) (w : Word) (n : Option Nat) :
    s.extendedTrap w n = s.enter .extendedInstruction w (extendedSaved s n) := rfl

theorem extendedSaved_second {s : State} (h : s.params.eitSavedPc = .secondWord) (n : Option Nat) :
    extendedSaved s n = s.pc.plus 2 := by
  unfold extendedSaved; rw [h]

theorem extendedSaved_next {s : State} (h : s.params.eitSavedPc = .nextInstruction) (k : Nat) :
    extendedSaved s (some k) = s.pc.plus (BitVec.ofNat 16 (2 * k)) := by
  unfold extendedSaved; rw [h]

theorem extendedSaved_seg (s : State) (n : Option Nat) : (extendedSaved s n).seg = s.pc.seg := by
  unfold extendedSaved; split <;> rfl

/-- Every extended instruction is `extended`. -/
theorem exec_extended {i : Instr} (hi : isExtended i = true) (s : State) : ∃ k, exec i s = extended i s k := by
  cases i
  case epaMemFromEpu sel lo m w1 => exact ⟨_, execEpaMemFromEpu.eq_1 sel lo m w1 s⟩
  case epaEpuFromMem sel lo m w1 => exact ⟨_, execEpaEpuFromMem.eq_1 sel lo m w1 s⟩
  case epaCpuFromEpu w0 w1 => exact ⟨_, execEpaCpuFromEpu.eq_1 w0 w1 s⟩
  case epaEpuFromCpu w0 w1 => exact ⟨_, execEpaEpuFromCpu.eq_1 w0 w1 s⟩
  case epaFcwFromEpu w0 w1 => exact ⟨_, execEpaFcwFromEpu.eq_1 w0 w1 s⟩
  case epaEpuFromFcw w0 w1 => exact ⟨_, execEpaEpuFromFcw.eq_1 w0 w1 s⟩
  case epaInternal w0 w1 => exact ⟨_, execEpaInternal.eq_1 w0 w1 s⟩
  all_goals cases hi

/-- With EPA = 0 an extended instruction is its trap. -/
theorem exec_extended_trapped {i : Instr} (hi : isExtended i = true) {s : State} (hs : s.fcw.epa = false) :
    exec i s = s.enter .extendedInstruction (firstWord i) (extendedSaved s (some (encode i).length)) := by
  obtain ⟨k, run⟩ := exec_extended hi s
  rw [run, extended, if_pos hs, extendedTrap_enter]

/-! ## A step at an instruction -/

theorem fetched_eq (s : State) (k : Nat) : fetched s k = s.instrWord s.pc k := rfl

/-- The store rule and the count of draws are what a step adds to an outcome. -/
theorem bump_guardStore (s : State) (words : Nat) (o : Out) : bump (guardStore s words o) = asStep s words o := by
  cases o with
  | next t => rw [guardStore, asStep]; split <;> rfl
  | fault f => rfl
  | refused r => rfl

theorem afterFetch_alone {s : State} (h : Alone s) (n : Nat) : Alone (afterFetch s n) := h

/-- A step that goes to the fetch. -/
theorem step_atFetch {s : State} {l : Lines} (h : AtFetch s l) (hpc : s.pc.off.getLsbD 0 = false) :
    step s = bump (s.popEvent.begin.fetchWord 0 (fun w0 t => t.runFrom w0)) := by
  obtain ⟨he, hc, hr, hw, hq, hh⟩ := h
  have hr' : s.popEvent.resetDue = false := hr
  have hw' : s.popEvent.heldWord = none := hw
  have hq' : s.popEvent.request l = none := hq
  have hh' : s.popEvent.halted = false := hh
  have hpc' : s.popEvent.pc.off.getLsbD 0 = false := hpc
  simp only [step_running he hc, State.runWith, hr', hw', hq', hh', State.runInstr, hpc', if_neg Bool.false_ne_true]

theorem step_atInstruction {s : State} {l : Lines} (h : AtInstruction s l) :
    step s = bump ((afterFetch s 1).runFrom (fetched s 0)) := by
  rw [step_atFetch h.atFetch h.even, fetchWord_alone (by exact h.alone)]
  rfl

/-- A first word that takes its trap takes it in the step. -/
theorem step_trapped {s : State} {l : Lines} (h : AtInstruction s l) {o : Out}
    (ht : (afterFetch s 1).firstWordTrap (fetched s 0) = some o) :
    step s = asStep (afterFetch s 1) (s.lengthAt s.pc) o := by
  rw [step_atInstruction h, State.runFrom, ht]
  exact bump_guardStore _ _ _

theorem trap_privileged {s : State} (h : privilegedUpper (fetched s 0) = true) (hs : s.fcw.sn = false) :
    (afterFetch s 1).firstWordTrap (fetched s 0) =
      some ((afterFetch s 1).enter .privilegedInstruction (fetched s 0) (s.pc.plus 2)) := by
  have apart : extendedUpper (fetched s 0) = false := by
    generalize fetched s 0 = w at h
    unfold privilegedUpper at h; unfold extendedUpper
    revert h
    generalize hiByte w = b
    revert b; decide
  rw [State.firstWordTrap, apart, Bool.false_and, if_neg Bool.false_ne_true, h]
  exact if_pos (by rw [Bool.true_and]; exact congrArg not hs)

theorem trap_extended {s : State} (h : extendedUpper (fetched s 0) = true) (hs : s.fcw.epa = false) :
    (afterFetch s 1).firstWordTrap (fetched s 0) =
      some ((afterFetch s 1).enter .extendedInstruction (fetched s 0) (extendedSaved (afterFetch s 1)
        (templateWords s.params.epaMap s.segmented (fetched s 0) (fetched s 2)))) := by
  rw [State.firstWordTrap, h]
  exact if_pos (by rw [Bool.true_and]; exact congrArg not hs)

/-- Words put below an address depend on memory and parameters alone. -/
theorem putBelow_mem_congr {s t : State} (hm : t.mem = s.mem) (hp : t.params = s.params) (sp : Space) (a : Addr)
    (ws : List Word) : (t.putBelow sp a ws).mem = (s.putBelow sp a ws).mem := by
  induction ws generalizing s t a with
  | nil => exact hm
  | cons w ws ih =>
    rw [State.putBelow, State.putBelow]
    refine ih ?_ (by rw [putWord_params, putWord_params, hp]) _
    simp only [State.putWord, State.putByte, State.key, hm, hp]

/-- A fetch leaves an entry ready. -/
theorem entryReady_afterFetch {s : State} {k : Exc} {id : Word} {saved : Addr} (h : EntryReady s k id saved) (n : Nat) :
    EntryReady (afterFetch s n) k id saved := by
  obtain ⟨he, hv, h15, ha⟩ := h
  refine ⟨he, hv, fun hz => ?_, ha⟩
  rw [← h15 hz]
  exact congrArg (BitVec.getLsbD · 15) (wordAt_congr (putBelow_mem_congr (by rfl) (by rfl) _ _ _) (by simp; rfl) _ _)

end Sys2Proof.Machine

open Sys2Proof Sys2Proof.Machine Sys2Proof.Claims

/-- Settles O46. -/
theorem systemCall : Obligations.SystemCall := fun _ _ h => enter_ready h

/-- Settles O47. -/
theorem privilegedTrap : Obligations.PrivilegedTrap := by
  refine ⟨fun s i hi hs h => ?_, fun s l h hp hs hr => ?_⟩
  · rw [exec_privileged_normal hi hs]; exact enter_ready h
  · obtain ⟨t, ht, e⟩ := enter_ready (entryReady_afterFetch hr 1)
    exact ⟨t, by rw [step_trapped h (trap_privileged hp hs), ht], e⟩

/-- Settles O48. -/
theorem extendedTrap : Obligations.ExtendedTrap := by
  refine ⟨fun s i hi hs => ⟨fun hp h => ?_, fun hp h => ?_⟩, fun s l h hx hs hr => ?_⟩
  · rw [exec_extended_trapped hi hs, extendedSaved_second hp]; exact enter_ready h
  · rw [exec_extended_trapped hi hs, extendedSaved_next hp]; exact enter_ready h
  · obtain ⟨t, ht, e⟩ := enter_ready (entryReady_afterFetch (hr (extendedSaved (afterFetch s 1)
      (templateWords s.params.epaMap s.segmented (fetched s 0) (fetched s 2)))) 1)
    refine ⟨t, _, by rw [step_trapped h (trap_extended hx hs), ht], e, extendedSaved_seg _ _, fun hp => ?_,
      fun n hp hn => ?_⟩
    · exact extendedSaved_second hp _
    · rw [hn]; exact extendedSaved_next hp n
end
section
/-!
PROOF. The identifier word, the return from an exception, and the step at a decoded instruction (60_exceptions.md
sections 3 and 4, 30_encoding.md R137).
-/
namespace Sys2Proof.Machine
open Sys2Proof.Claims

/-! ## The identifier -/

/-- A step whose first word takes a trap enters it with that word as identifier. -/
theorem step_trapsFirst {s t : State} {l : Lines} (h : AtInstruction s l) (ht : trapsFirst s = true)
    (hn : step s = .next t) : t.wordAt ⟨.stack, true⟩ ⟨s.ssp.seg, t.regs.get 17⟩ = fetched s 0 := by
  have entry : ∃ k saved, (afterFetch s 1).firstWordTrap (fetched s 0) =
      some ((afterFetch s 1).enter k (fetched s 0) saved) := by
    rw [trapsFirst, Bool.or_eq_true, Bool.and_eq_true, Bool.and_eq_true, Bool.not_eq_true', Bool.not_eq_true'] at ht
    rcases ht with ⟨hx, he⟩ | ⟨hp, hs⟩
    · exact ⟨_, _, trap_extended hx he⟩
    · exact ⟨_, _, trap_privileged hp hs⟩
  obtain ⟨k, saved, trap⟩ := entry
  rw [step_trapped h trap, ← bump_guardStore] at hn
  obtain ⟨u, hu, rfl⟩ := bump_next hn
  obtain ⟨he, -⟩ := guardStore_next hu
  have top := ident_of_enter (afterFetch_alone h.alone 1) he
  exact top

theorem accept_ident {s t : State} {k : Exc} {l : Lines} (ha : Alone s) (h : s.accept k l = .next t) :
    t.wordAt ⟨.stack, true⟩ ⟨s.ssp.seg, t.regs.get 17⟩ = l.ackId := by
  rw [State.accept, turn_alone ha, turn_alone (by exact ha)] at h
  exact ident_of_enter (s := { (s.record _).record _ with nmiLatch := _ }) ha h

/-- The vector is the low byte of the identifier. -/
theorem newPcAt_congr (s : State) (k : Exc) {id id' : Word} (h : loByte id = loByte id' ∨ k ≠ .vi) :
    s.newPcAt k id = s.newPcAt k id' := by
  unfold State.newPcAt
  rcases h with h | h
  · rw [h]
  · rw [if_neg h, if_neg h]

/-- The words above the identifier do not depend on it. -/
theorem wordAt_above_putWord (s : State) (sp : Space) (a : Addr) (w : Word) {i : Word} (h : i = 2 ∨ i = 4 ∨ i = 6) :
    (s.putWord sp a w).wordAt sp (a.plus i) = s.wordAt sp (a.plus i) := by
  have apart : ∀ x ∈ [0#16, 1#16], ∀ y ∈ [0#16, 1#16], i + y ≠ 0#16 + x := by
    rcases h with rfl | rfl | rfl <;> simp
  have key := wordAt_putWord_plus s sp a w i 0#16 apart
  rwa [plus_zero] at key

/-- A return does not depend on the identifier. -/
theorem leave_putIdent {s : State} (ha : Alone s) (w : Word) :
    (∀ t, s.leave = .next t → ∃ u, (s.putWord ⟨.stack, true⟩ s.ssp w).leave = .next u ∧
      u.mem = (t.putWord ⟨.stack, true⟩ s.ssp w).mem ∧ { u with mem := t.mem, busLog := t.busLog } = t) ∧
    ∀ f, s.leave = .fault f → (s.putWord ⟨.stack, true⟩ s.ssp w).leave = .fault f := by
  have hz : (s.putWord ⟨.stack, true⟩ s.ssp w).isZ8001 = s.isZ8001 := putWord_isZ8001 ..
  have hssp : (s.putWord ⟨.stack, true⟩ s.ssp w).ssp = s.ssp := by simp [State.ssp]
  by_cases hs : s.isZ8001 = true ∧ s.fcw.seg = false
  · rw [State.leave, if_pos hs, State.leave, if_pos (by simpa using hs)]
    exact ⟨fun t h => (by cases h), fun f h => h⟩
  · by_cases he : s.ssp.off.getLsbD 0 = false
    · rw [leave_alone ha hs he, leave_alone (alone_of_env ha (putWord_env ..)) (by simpa using hs) (by rw [hssp]; exact he),
        hssp, wordAt_above_putWord _ _ _ _ (.inl rfl), wordAt_above_putWord _ _ _ _ (.inr (.inl rfl)),
        wordAt_above_putWord _ _ _ _ (.inr (.inr rfl)), hz]
      refine ⟨fun t h => ?_, fun f h => ?_⟩
      · obtain ⟨h15, h⟩ := loadFcw_next h
        have ok : (s.putWord ⟨.stack, true⟩ s.ssp w).isZ8001 = true ∨
            (s.wordAt ⟨.stack, true⟩ (s.ssp.plus 2)).getLsbD 15 = false := by
          rw [hz]
          cases hv : s.isZ8001
          · exact .inr (h15 hv)
          · exact .inl rfl
        rw [loadFcw_ok ok]
        cases h
        refine ⟨_, rfl, rfl, ?_⟩
        simp [State.frameSize]
      · unfold State.loadFcw at h ⊢
        rw [hz]
        split at h
        · next c => rw [if_pos c]; exact h
        · cases h
    · have odd (u : State) (hu : u.ssp = s.ssp) (hn : ¬(u.isZ8001 = true ∧ u.fcw.seg = false)) :
          u.leave = .fault .oddAddress := by
        rw [State.leave, if_neg hn, checked, if_neg (by simpa [hu] using he)]
      rw [odd s rfl hs, odd _ hssp (by simpa using hs)]
      exact ⟨fun t h => (by cases h), fun f h => h⟩

/-! ## The return -/

section
variable {s : State} (hs : s.fcw.sn = true)
include hs

theorem exec_iret : exec .iret s = s.leave := privileged_system hs _ _

theorem regW_15_system : s.regW 15 = s.ssp.off := by
  rw [ssp_off, State.regW, State.phys, if_pos ⟨rfl, hs⟩]

/-- The system stack pointer of a state in system mode, and segmented on a Z8001, with its frame popped. -/
theorem iret_z8001 (hz : s.isZ8001 = true) (hg : s.fcw.seg = true) (he : s.ssp.off.getLsbD 0 = false) (ha : Alone s) :
    exec .iret s = .next { s with
      fcw := Fcw.ofWord (s.wordAt ⟨.stack, true⟩ (s.ssp.plus 2))
      pc := ⟨(s.wordAt ⟨.stack, true⟩ (s.ssp.plus 4)).extractLsb' 8 7, s.wordAt ⟨.stack, true⟩ (s.ssp.plus 6)⟩
      busLog := readRun s ⟨.stack, true⟩ s.ssp 4 ++ s.busLog
      regs := s.regs.set 17 (s.regW 15 + 8) } := by
  rw [exec_iret hs, leave_alone ha (fun h => by rw [hg] at h; cases h.2) he, loadFcw_ok (.inl hz), hz, State.frameSize, hz,
    regW_15_system hs]
  rfl

theorem iret_z8002 (hz : s.isZ8001 = false) (he : s.ssp.off.getLsbD 0 = false) (ha : Alone s)
    (h15 : (s.wordAt ⟨.stack, true⟩ (s.ssp.plus 2)).getLsbD 15 = false) :
    exec .iret s = .next { s with
      fcw := Fcw.ofWord (s.wordAt ⟨.stack, true⟩ (s.ssp.plus 2))
      pc := ⟨s.pc.seg, s.wordAt ⟨.stack, true⟩ (s.ssp.plus 4)⟩
      busLog := readRun s ⟨.stack, true⟩ s.ssp 3 ++ s.busLog
      regs := s.regs.set 17 (s.regW 15 + 6) } := by
  rw [exec_iret hs, leave_alone ha (fun h => by rw [hz] at h; cases h.1) he, loadFcw_ok (.inr h15), hz, State.frameSize, hz,
    regW_15_system hs]
  rfl

end

/-- The register file that an entry and its return leave. -/
theorem regs_restored {s t : State} {k : Exc} {id : Word} {saved : Addr} (e : Entered s t k id saved) {n : Word}
    (hn : n = if s.isZ8001 then 8 else 6) : t.regs.set 17 (t.regs.get 17 + n) = s.regs := by
  apply Vector.ext
  intro i hi
  rw [Vector.getElem_set]
  split
  · next h =>
    subst h
    rw [e.sysStack, ← hn, BitVec.sub_add_cancel, ssp_off]; rfl
  · next h => exact e.regs ⟨i, hi⟩ fun he => h (by simpa using (congrArg Fin.val he).symm)

theorem even_plus {a : Addr} {i : Word} (ha : a.off.getLsbD 0 = false) (hi : i.getLsbD 0 = false) :
    (a.plus i).off.getLsbD 0 = false := by
  rw [plus_off, BitVec.getLsbD_add (by decide), ha, hi, BitVec.carry_zero]; rfl

/-- An entry in a state that can return, and the return. -/
theorem iret_of_entered {s t : State} {k : Exc} {id : Word} {saved : Addr} (ha : Alone s) (he : s.ssp.off.getLsbD 0 = false)
    (e : Entered s t k id saved) (hpc : s.isZ8001 = false → s.pc.seg = 0 ∧ saved.seg = 0)
    (hseg : s.isZ8001 = false → s.fcw.seg = false) (hsn : t.fcw.sn = true) (hg : s.isZ8001 = true → t.fcw.seg = true) :
    ∃ u, exec .iret t = .next u ∧ u.fcw = s.fcw ∧ u.pc = saved ∧ u.regs = s.regs ∧
      OnlyMem s u ⟨.stack, true⟩ (frameBase s) (if s.isZ8001 then 8 else 6) := by
  have rest := e.rest
  have params : t.params = s.params := by have p := congrArg State.params rest; exact p
  have hat : Alone t := alone_of_env ha (by have p := congrArg State.env rest; exact p)
  have hzt : t.isZ8001 = s.isZ8001 := by rw [State.isZ8001, params]; rfl
  have r15 : t.regW 15 = t.regs.get 17 := (regW_15_system hsn).trans (ssp_off t)
  have even : t.ssp = frameBase s → t.ssp.off.getLsbD 0 = false := fun top => by
    rw [top, frameBase]; exact even_plus he (by split <;> rfl)
  have pops (n : Word) (hn : n = if s.isZ8001 then 8 else 6) : t.regs.set 17 (t.regW 15 + n) = s.regs := by
    rw [r15]; exact regs_restored e hn
  have f := e.savedFcw
  have sys := e.sysStack
  have newPc := e.newPc
  have high (hz : s.isZ8001 = true) := e.savedSeg hz
  cases hz : s.isZ8001
  · simp only [hz, if_neg Bool.false_ne_true] at f sys newPc pops
    have top : t.ssp = s.ssp.plus (-6) := by
      rw [State.ssp, hzt, hz, if_neg Bool.false_ne_true, sys, newPc, State.ssp, hz, if_neg Bool.false_ne_true,
        BitVec.sub_eq_add_neg]
      rfl
    have at2 : t.ssp.plus 2 = s.ssp.plus (-4) := by rw [top, plus_plus]; rfl
    have at4 : t.ssp.plus 4 = s.ssp.plus (-2) := by rw [top, plus_plus]; rfl
    have bit15 : (t.wordAt ⟨.stack, true⟩ (t.ssp.plus 2)).getLsbD 15 = false := by
      rw [at2]; exact (congrArg Fcw.seg f).trans (hseg hz)
    have base : t.ssp = frameBase s := by rw [top, frameBase, hz]; rfl
    refine ⟨_, iret_z8002 hsn (hzt.trans hz) (even base) hat bit15, by rw [at2]; exact f, ?_, pops 6 rfl, ?_⟩
    · obtain ⟨hp, hq⟩ := hpc hz
      show Addr.mk t.pc.seg (t.wordAt _ (t.ssp.plus 4)) = saved
      rw [at4, e.savedOff, newPc, hp, ← hq]
    · have mem := e.mem; rw [hz] at mem; exact mem
  · simp only [hz, if_pos] at f sys newPc pops
    have r14 : t.regs.get 16 = s.regs.get 16 := e.regs 16 (by decide)
    have top : t.ssp = s.ssp.plus (-8) := by
      rw [State.ssp, hzt, hz, if_pos rfl, sys, r14, State.ssp, hz, if_pos rfl, BitVec.sub_eq_add_neg]
      rfl
    have at2 : t.ssp.plus 2 = s.ssp.plus (-6) := by rw [top, plus_plus]; rfl
    have at4 : t.ssp.plus 4 = s.ssp.plus (-4) := by rw [top, plus_plus]; rfl
    have at6 : t.ssp.plus 6 = s.ssp.plus (-2) := by rw [top, plus_plus]; rfl
    have base : t.ssp = frameBase s := by rw [top, frameBase, hz]; rfl
    refine ⟨_, iret_z8001 hsn (hzt.trans hz) (hg hz) (even base) hat, by rw [at2]; exact f, ?_, pops 8 rfl, ?_⟩
    · show Addr.mk (segField (t.wordAt _ (t.ssp.plus 4))) (t.wordAt _ (t.ssp.plus 6)) = saved
      rw [at4, at6, e.savedOff, high hz]
    · have mem := e.mem; rw [hz] at mem; exact mem

end Sys2Proof.Machine

open Sys2Proof Sys2Proof.Machine Sys2Proof.Claims

/-- Settles O50. -/
theorem interruptReturn : Obligations.InterruptReturn := fun _ hs =>
  ⟨iret_z8001 hs, iret_z8002 hs, fun hz hg => by rw [exec_iret hs, State.leave, if_pos ⟨hz, hg⟩]⟩

/-- Settles O51. -/
theorem returnUndoesEntry : Obligations.ReturnUndoesEntry := fun _ _ _ _ _ ha h hpc hseg hsn hg =>
  iret_of_entered ha ((checked_next h).1 _ (List.mem_singleton_self _)) (entered_of_enter ha h) hpc hseg hsn hg
end
section
/-!
PROOF. The step at a decoded instruction (30_encoding.md R137), and the identifier of the trap of a first word.
-/
namespace Sys2Proof

/-! ## Upper bytes of first words -/

theorem fMode_hiByte (w : Word) : fMode w = (hiByte w).extractLsb' 6 2 := by
  unfold fMode hiByte
  apply BitVec.eq_of_getLsbD_eq; intro i hi
  interval_cases i <;> simp

theorem fOp_hiByte (w : Word) : fOp w = (hiByte w).extractLsb' 0 6 := by
  unfold fOp hiByte
  apply BitVec.eq_of_getLsbD_eq; intro i hi
  interval_cases i <;> simp

/-- The two op code fields of an extended upper byte. -/
theorem fields_of_extendedUpper {w : Word} (h : Machine.extendedUpper w = true) :
    fMode w ≠ 3 ∧ (fOp w = 0x0E ∨ fOp w = 0x0F) := by
  rw [fMode_hiByte, fOp_hiByte]
  unfold Machine.extendedUpper at h
  revert h; generalize hiByte w = b; revert b; decide

/-- The two op code fields of a privileged upper byte. -/
theorem fields_of_privilegedUpper {w : Word} (h : Machine.privilegedUpper w = true) :
    (fMode w = 0 ∧ fOp w ∈ [0x39#6, 0x3A#6, 0x3B#6, 0x3C#6, 0x3D#6, 0x3E#6, 0x3F#6]) ∨
    (fMode w = 1 ∧ fOp w ∈ [0x39#6, 0x3A#6, 0x3B#6, 0x3C#6, 0x3D#6]) := by
  rw [fMode_hiByte, fOp_hiByte]
  unfold Machine.privilegedUpper at h
  revert h; generalize hiByte w = b; revert b; decide

section
variable {m : EpaMap} {seg : Bool} {w0 : Word} (w1 w2 w3 : Word)

/-- What is decoded from an extended upper byte is extended, of the length of its template. -/
theorem holds_extended (h : Machine.extendedUpper w0 = true) :
    Holds (fun i => Machine.isExtended i = true ∧ templateWords m seg w0 w2 = some (wordsOf seg w0 w1 w2))
      (decodeRaw m seg w0 w1 w2 w3) := by
  obtain ⟨hm, ho⟩ := fields_of_extendedUpper h
  have h3 : ¬(fMode w0).toNat = 3 := toNat_ne hm
  have row : decodeRaw m seg w0 w1 w2 w3 = decEpa m (fMode w0).toNat seg w0 w1 w2 w3 := by
    rcases ho with e | e <;> simp [decodeRaw, e, h3, decRow0]
  have count : wordsOf seg w0 w1 w2 = countTwo (fMode w0).toNat seg w2 := by
    rcases ho with e | e <;> simp [wordsOf, e, h3]
  have mode2 : (fMode w0).toNat = 2 ↔ fMode w0 = 2 := ⟨mode_two, fun e => by rw [e]; rfl⟩
  rw [row, count]
  have mem {mk : Mem → Instr} (he : ∀ o, Machine.isExtended (mk o) = true)
      (ht : templateWords m seg w0 w2 = if fMode w0 = 2 then none else some (countTwo (fMode w0).toNat seg w2)) :
      Holds (fun i => Machine.isExtended i = true ∧ templateWords m seg w0 w2 = some (countTwo (fMode w0).toNat seg w2))
        (decEpaMem (fMode w0).toNat seg (nib1 w0) w2 w3 mk) := by
    unfold decEpaMem
    rw [holds_ite, mode2]
    refine ⟨fun _ => holds_error _ _, fun h2 => holds_decMem (n := 0) hm h2 fun o _ => ⟨he o, ?_⟩⟩
    rw [ht, if_neg h2]
  have reg {i : Instr} (he : Machine.isExtended i = true)
      (ht : templateWords m seg w0 w2 = if fMode w0 = 2 then some 2 else none) :
      Holds (fun i => Machine.isExtended i = true ∧ templateWords m seg w0 w2 = some (countTwo (fMode w0).toNat seg w2))
        (decEpaReg (fMode w0).toNat i) := by
    unfold decEpaReg
    rw [holds_ite, mode2]
    refine ⟨fun h2 => (holds_ok _ _).mpr ⟨he, ?_⟩, fun _ => holds_error _ _⟩
    rw [ht, if_pos h2, h2]; rfl
  unfold decEpa
  split
  · next e => exact mem (fun _ => rfl) (by rw [templateWords, e])
  · next e => exact mem (fun _ => rfl) (by rw [templateWords, e])
  iterate 5
    next e => exact reg rfl (by rw [templateWords, e])
  exact holds_error _ _

/-- What is decoded from a privileged upper byte is privileged. -/
theorem holds_privileged (h : Machine.privilegedUpper w0 = true) :
    Holds (fun i => Machine.isPrivileged i = true) (decodeRaw m seg w0 w1 w2 w3) := by
  rcases fields_of_privilegedUpper h with ⟨hm, ho⟩ | ⟨hm, ho⟩
  · have row : decodeRaw m seg w0 w1 w2 w3 = decRow3 (fOp w0).toNat w0 w1 := by
      simp only [List.mem_cons, List.not_mem_nil, or_false] at ho
      rcases ho with e | e | e | e | e | e | e <;> simp [decodeRaw, hm, e]
    rw [row]
    unfold decRow3
    generalize nib0 w0 = b
    simp only [List.mem_cons, List.not_mem_nil, or_false] at ho
    rcases ho with e | e | e | e | e | e | e <;> rw [e]
    case inl => simp [withIr, Machine.isPrivileged]
    case inr.inl =>
      revert b; refine forall_nib ?_
      simp [decTable3b, decBlock, withBlock, Machine.isPrivileged]
    case inr.inr.inl =>
      revert b; refine forall_nib ?_
      simp [decTable3w, decBlock, withBlock, Machine.isPrivileged]
    all_goals simp [withIr, Machine.isPrivileged]
  · have row : decodeRaw m seg w0 w1 w2 w3 = decRow7 (fOp w0).toNat seg w0 w1 w2 := by
      simp only [List.mem_cons, List.not_mem_nil, or_false] at ho
      rcases ho with e | e | e | e | e <;> simp [decodeRaw, hm, e]
    rw [row]
    unfold decRow7
    generalize nib0 w0 = b
    simp only [List.mem_cons, List.not_mem_nil, or_false] at ho
    rcases ho with e | e | e | e | e <;> rw [e]
    case inl =>
      refine (holds_ite _ _ _).mpr ⟨fun _ => ?_, fun _ => holds_error _ _⟩
      exact holds_withDaX (n := 0) (k := fun o _ => .ok (.ldps o)) fun o _ => (holds_ok _ _).mpr rfl
    case inr.inl => simp [zeroField, Machine.isPrivileged]
    all_goals
      revert b; refine forall_nib ?_
      simp [decTable6, decEiDi, decTable7, zeroField, Machine.isPrivileged]

end

namespace Machine
open Sys2Proof.Claims

theorem decoded_raw {s : State} {i : Instr} (h : decoded s = .ok i) : decodeRaw s.params.epaMap s.segmented (fetched s 0)
    (fetched s 1) (fetched s 2) (fetched s 3) = .ok i := (decode_ok h).1

/-- A decoded instruction is as long as the words at the PC call for. -/
theorem decoded_length {s : State} {i : Instr} (h : decoded s = .ok i) : (encode i).length = s.lengthAt s.pc :=
  (decodeRaw_words (decoded_raw h)).2

/-- Where the first word takes a trap, the decoded instruction is that trap. -/
theorem trap_of_decoded {s : State} {i : Instr} (h : decoded s = .ok i) (ht : trapsFirst s = true) :
    (afterFetch s 1).firstWordTrap (fetched s 0) = some (exec i (afterFetch s 1)) := by
  have raw := decoded_raw h
  obtain ⟨first, len⟩ := decodeRaw_words raw
  rw [trapsFirst, Bool.or_eq_true, Bool.and_eq_true, Bool.and_eq_true, Bool.not_eq_true', Bool.not_eq_true'] at ht
  rcases ht with ⟨hx, he⟩ | ⟨hp, hs⟩
  · obtain ⟨ext, template⟩ := holds_extended (fetched s 1) (fetched s 2) (fetched s 3) hx i raw
    rw [trap_extended hx he, template, ← len, ← first, exec_extended_trapped (s := afterFetch s 1) ext he]
  · have priv := holds_privileged (fetched s 1) (fetched s 2) (fetched s 3) hp i raw
    rw [trap_privileged hp hs, exec_privileged_normal (s := afterFetch s 1) priv hs, first]; rfl

/-! ## The step -/

/-- The fetches of the words of an instruction. -/
theorem fetchRun_cons {s : State} {n : Nat} (h : 1 ≤ n) : fetchRun s 1 n ++ fetchRun s 0 1 = fetchRun s 0 n := by
  obtain ⟨k, rfl⟩ : ∃ k, n = k + 1 := ⟨n - 1, by omega⟩
  simp [fetchRun, List.range'_succ]

/-- Without a trap of the first word a step fetches the words called for and runs them. -/
theorem step_untrapped {s : State} {l : Lines} (h : AtInstruction s l) (ht : trapsFirst s = false) :
    step s = bump ((afterFetch s (s.lengthAt s.pc)).runWords (wordsAtPc s (s.lengthAt s.pc))) := by
  have none : (afterFetch s 1).firstWordTrap (fetched s 0) = none := by
    rw [trapsFirst, Bool.or_eq_false_iff] at ht
    rw [State.firstWordTrap]
    show (if (extendedUpper (fetched s 0) && !s.fcw.epa) = true then _
      else if (privilegedUpper (fetched s 0) && !s.fcw.sn) = true then _ else _) = _
    rw [ht.1, ht.2]; rfl
  have going : (afterFetch s 1).stopAhead (fetched s 0) = false := by
    rw [State.stopAhead, show (afterFetch s 1).env.bus = [] from h.alone]; simp
  obtain ⟨hl, hu⟩ : 1 ≤ s.lengthAt s.pc ∧ s.lengthAt s.pc ≤ 4 := wordsOf_bounds ..
  rw [step_atInstruction h, State.runFrom, none]
  show bump (if (afterFetch s 1).stopAhead (fetched s 0) = true then _ else _) = _
  rw [going, if_neg Bool.false_ne_true]
  refine congrArg bump ((fetchMore_alone (s := afterFetch s 1) (afterFetch_alone h.alone 1) _ 3 1 (Nat.le_refl 1) hl
    (show s.lengthAt s.pc ≤ 4 from hu)).trans ?_)
  have log : (afterFetch s 1).logged (fetchRun (afterFetch s 1) 1 (s.lengthAt s.pc)) = afterFetch s (s.lengthAt s.pc) := by
    show { afterFetch s 1 with busLog := fetchRun s 1 (s.lengthAt s.pc) ++ (fetchRun s 0 1 ++ s.busLog) } = _
    rw [← List.append_assoc, fetchRun_cons hl]; rfl
  exact congrArg (fun t : State => t.runWords (wordsAtPc s (s.lengthAt s.pc))) log

theorem decodeFetched_atPc (s : State) (n m : Nat) :
    (afterFetch s n).decodeFetched (wordsAtPc s m) = decoded s := decodeFetched_words (afterFetch s n) m

theorem step_decoded {s : State} {i : Instr} {l : Lines} (h : AtInstruction s l) (hd : decoded s = .ok i) :
    step s = asStep (afterFetch s (if trapsFirst s then 1 else (encode i).length)) (encode i).length
      (exec i (afterFetch s (if trapsFirst s then 1 else (encode i).length))) := by
  rw [decoded_length hd]
  cases ht : trapsFirst s
  · rw [step_untrapped h ht, State.runWords, decodeFetched_atPc, hd, if_neg Bool.false_ne_true, ← bump_guardStore,
      ← decoded_length hd]
  · exact step_trapped h (trap_of_decoded hd ht)

/-- Words that are no instruction and take no trap are refused by name. -/
theorem step_rejected {s : State} {r : Reject} {l : Lines} (h : AtInstruction s l) (ht : trapsFirst s = false)
    (hd : decoded s = .error r) : step s = .refused (.encoding r) := by
  rw [step_untrapped h ht, State.runWords, decodeFetched_atPc, hd]; rfl

theorem firstWord_eq (i : Instr) : firstWord i = (encode i).getD 0 0 := by
  rw [firstWord]; cases encode i <;> rfl

end Machine
end Sys2Proof

open Sys2Proof Sys2Proof.Machine Sys2Proof.Claims

/-- Settles O49. -/
theorem identifierWord : Obligations.IdentifierWord := by
  refine ⟨fun s t v ha h => ident_of_enter ha h, fun s t i hi hs ha h => ?_, fun s t i hi hs ha h => ?_,
    fun s t l h ht hn => step_trapsFirst h ht hn, fun s l r h ht hd => step_rejected h ht hd,
    fun s t k l ha h => accept_ident ha h, fun s k id id' h => newPcAt_congr s k h, fun s w ha => leave_putIdent ha w⟩
  · rw [exec_privileged_normal hi hs] at h
    rw [← firstWord_eq]; exact ident_of_enter ha h
  · rw [exec_extended_trapped hi hs] at h
    rw [← firstWord_eq]; exact ident_of_enter ha h

/-- Settles O53. -/
theorem stepRunsTheDecodedInstruction : Obligations.StepRunsTheDecodedInstruction := fun _ _ _ h hd => step_decoded h hd
end
section
/-!
PROOF. Reset (70_reset_and_hazards.md section 1) and requests (60_exceptions.md section 2).
-/
namespace Sys2Proof.Machine
open Sys2Proof.Claims

/-! ## Reset -/

theorem onReset_short {n : Nat} (h : n < 5) (s : State) : s.onReset n = .fault .shortReset := if_pos h
theorem onReset_done {n : Nat} (h : 5 ≤ n) (s : State) : s.onReset n = .next s.resetState := if_neg (by omega)

/-- A reset event. -/
theorem step_reset {s : State} {n : Nat} (h : s.event = .reset n) : step s = bump (s.popEvent.onReset n) := by
  rw [step, h]; rfl

/-- The reset reads with nothing between them. -/
theorem resetReads_alone {s : State} (ha : Alone s)
    (h15 : s.isZ8001 = true ∨ (s.wordAt ⟨.prog, true⟩ ⟨0, 2⟩).getLsbD 15 = false) :
    s.resetReads = .next { s with
      fcw := Fcw.ofWord (s.wordAt ⟨.prog, true⟩ ⟨0, 2⟩)
      pc := if s.isZ8001 then
          ⟨(s.wordAt ⟨.prog, true⟩ ⟨0, 4⟩).extractLsb' 8 7, s.wordAt ⟨.prog, true⟩ ⟨0, 6⟩⟩
        else ⟨0, s.wordAt ⟨.prog, true⟩ ⟨0, 4⟩⟩
      resetDue := false
      sampleVie := (s.wordAt ⟨.prog, true⟩ ⟨0, 2⟩).getLsbD 12
      sampleNvie := (s.wordAt ⟨.prog, true⟩ ⟨0, 2⟩).getLsbD 11
      busLog := readRun s ⟨.prog, true⟩ ⟨0, 2⟩ (if s.isZ8001 then 3 else 2) ++ s.busLog } := by
  rw [State.resetReads, loadWord_alone (by exact ha), loadPc_alone (by exact ha)]
  show State.loadFcw _ (s.wordAt ⟨.prog, true⟩ ⟨0, 2⟩) _ = _
  rw [loadFcw_ok (by exact h15)]
  have log : readRun s ⟨.prog, true⟩ ⟨0, 4⟩ (if s.isZ8001 then 2 else 1) ++ readRun s ⟨.prog, true⟩ ⟨0, 2⟩ 1 =
      readRun s ⟨.prog, true⟩ ⟨0, 2⟩ (if s.isZ8001 then 3 else 2) := by
    cases s.isZ8001 <;> simp [readRun, List.range_succ, Addr.plus]
  rw [← log, List.append_assoc, readRun_one s _ ⟨0, 2⟩]
  rfl

/-! The point before a transaction for which the script has something. -/

section
variable {s : State} {rest : List BusAction}

theorem turn_pass (h : s.env.bus = .pass :: rest) (k : State → Out) : s.turn k = k s.popBus := by rw [State.turn, h]

theorem turn_reset {n : Nat} (h : s.env.bus = .reset n :: rest) (k : State → Out) : s.turn k = s.popBus.onReset n := by
  rw [State.turn, h]

theorem turn_grant {n : Nat} {ws : List Host.Cell} (h : s.env.bus = .grant n ws :: rest) (k : State → Out) :
    s.turn k = k (s.popBus.grantBus n ws).regainBus := by rw [State.turn, h]

end

/-- A reset before the second word of a run of stores. -/
theorem storeWords_reset {s : State} {n : Nat} {rest : List BusAction} (hb : s.env.bus = .pass :: .reset n :: rest)
    (sp : Space) (a : Addr) (v w : Word) (ws : List Word) (k : State → Out) :
    s.storeWords sp a (v :: w :: ws) k = ((s.popBus.wroteWord sp a v).popBus).onReset n := by
  have next : (s.popBus.wroteWord sp a v).env.bus = .reset n :: rest := by
    simp [State.wroteWord, State.popBus, hb]
  rw [State.storeWords, State.storeWord, turn_pass hb, State.storeWords, State.storeWord, turn_reset next]

/-- As `storeWords_reset`, downward. -/
theorem pushWords_reset {s : State} {n : Nat} {rest : List BusAction} (hb : s.env.bus = .pass :: .reset n :: rest)
    (sp : Space) (a : Addr) (v w : Word) (ws : List Word) (k : State → Out) :
    s.pushWords sp a (v :: w :: ws) k = ((s.popBus.wroteWord sp (a.plus (-2)) v).popBus).onReset n := by
  have next : (s.popBus.wroteWord sp (a.plus (-2)) v).env.bus = .reset n :: rest := by
    simp [State.wroteWord, State.popBus, hb]
  rw [State.pushWords, State.storeWord, turn_pass hb, State.pushWords, State.storeWord, turn_reset next]

/-- What is left of a write that a reset follows. -/
theorem reset_after_word (s : State) (sp : Space) (a : Addr) (v : Word) :
    ((s.popBus.wroteWord sp a v).popBus.resetState).resetDue = true ∧
    ((s.popBus.wroteWord sp a v).popBus.resetState).regs = State.reset.regs ∧
    ((s.popBus.wroteWord sp a v).popBus.resetState).wordAt sp a = v ∧
    OnlyMem s ((s.popBus.wroteWord sp a v).popBus.resetState) sp a 2 := by
  have mem : ((s.popBus.wroteWord sp a v).popBus.resetState).mem = (s.putWord sp a v).mem := rfl
  have params : ((s.popBus.wroteWord sp a v).popBus.resetState).params = (s.putWord sp a v).params := rfl
  refine ⟨rfl, rfl, (wordAt_congr mem params sp a).trans (wordAt_putWord_same s sp a v), fun sp' b h => ?_⟩
  have h0 := h 0 (by omega); have h1 := h 1 (by omega)
  exact (byteAt_congr mem params sp' b).trans (byteAt_putWord_ne s sp sp' a b v (by simpa using h0) (by simpa using h1))

/-- A reset between the first two stores of LDM. -/
theorem exec_ldmStore_reset {s : State} {m : Mem} {r : RegNo} {k : BitVec 4} {n : Nat} {rest : List BusAction}
    (he : (m.addr s).off.getLsbD 0 = false) (hk : k ≠ 0) (hb : s.env.bus = .pass :: .reset n :: rest) :
    exec (.ldmStore m r k) s = (s.popBus.wroteWord s.dataSp (m.addr s) (s.regW r)).popBus.onReset n := by
  have run : exec (.ldmStore m r k) s = execLdmStore m r k s := rfl
  obtain ⟨j, hj⟩ : ∃ j, k.toNat = j + 1 := ⟨k.toNat - 1, by bv_omega⟩
  rw [run, execLdmStore, checked_of_even (by simpa [AllEven] using he), hj, State.regRun, List.range_succ_eq_map,
    List.range_succ_eq_map, List.map_cons, List.map_cons, List.map_cons, storeWords_reset hb]
  simp

/-- A reset between the first two pushes of an entry. -/
theorem enter_reset {s : State} {k : Exc} {id : Word} {saved : Addr} {n : Nat} {rest : List BusAction}
    (he : s.ssp.off.getLsbD 0 = false) (hv : s.isZ8001 = true → k = .vi → id.getLsbD 0 = false)
    (hb : s.env.bus = .pass :: .reset n :: rest) :
    s.enter k id saved = (s.popBus.wroteWord ⟨.stack, true⟩ (s.ssp.plus (-2)) saved.off).popBus.onReset n := by
  have vector : ¬(s.isZ8001 = true ∧ k = .vi ∧ id.getLsbD 0 = true) := fun ⟨hz, hk, hid⟩ => by
    rw [hv hz hk] at hid; exact Bool.false_ne_true hid
  rw [State.enter, checked_of_even (by simpa [AllEven] using he), if_neg vector, State.frame]
  split <;> exact pushWords_reset hb _ _ _ _ _ _

/-! ## Requests -/

theorem pick_eq (s : State) (l : Lines) : s.pick l =
    if s.nmiLatch then some .nmi else if l.segt = true ∧ s.isZ8001 = true then some .segmentTrap
    else if l.vi = true ∧ s.sampleVie = true then some .vi
    else if l.nvi = true ∧ s.sampleNvie = true then some .nvi else none := by
  simp only [State.pick, Bool.and_eq_true]

/-- s with its event consumed, the fetch aborted and the request acknowledged. -/
def acknowledged (s : State) (k : Exc) (id : Word) : State :=
  { s with
    env := { s.env with events := s.env.events.tail }
    busLog := .acknowledge k id :: .abortedFetch s.progSp s.pc :: s.busLog
    nmiLatch := if k = .nmi then false else s.nmiLatch }

theorem entryReady_acknowledged {s : State} {k : Exc} {id : Word} {saved : Addr} (h : EntryReady s k id saved) :
    EntryReady (acknowledged s k id) k id saved := by
  obtain ⟨he, hv, h15, ha⟩ := h
  refine ⟨he, hv, fun hz => ?_, ha⟩
  rw [← h15 hz]
  exact congrArg (BitVec.getLsbD · 15) (wordAt_congr (putBelow_mem_congr (by rfl) (by rfl) _ _ _) (by simp; rfl) _ _)

theorem accept_alone {s : State} (ha : Alone s) (k : Exc) (l : Lines) :
    s.popEvent.accept k l = (acknowledged s k l.ackId).enter k l.ackId s.pc := by
  rw [State.accept, turn_alone (by exact ha), turn_alone (by exact ha)]; rfl

/-- A request, STOP Low or not, is accepted. -/
theorem step_request {s : State} {l : Lines} {k : Exc} (he : s.event = .run l ∨ s.event = .stop l)
    (hc : s.cpuState = .running) (hr : s.resetDue = false) (hw : s.heldWord = none) (hk : s.request l = some k) :
    step s = bump (s.popEvent.accept k l) := by
  have hk' : s.popEvent.request l = some k := hk
  rcases he with he | he
  · rw [step_running he hc, State.runWith]
    show bump (if s.resetDue = true then _ else match s.heldWord with | some w0 => _ | none => _) = _
    rw [hr, if_neg Bool.false_ne_true, hw]
    show bump (match s.popEvent.request l with | some k => _ | none => _) = _
    rw [hk']
  · rw [step, he]
    show bump (s.popEvent.onStop l) = _
    rw [State.onStop]
    show bump (if s.cpuState = .stopRefresh then _ else if s.resetDue = true then _ else _) = _
    rw [hc, if_neg (by simp), hr, if_neg Bool.false_ne_true, State.leaveBusDisconnect]
    show bump (State.stopFetch (if s.cpuState = .busDisconnect then _ else _) l) = _
    rw [hc, if_neg (by simp), State.stopFetch, hk']

end Sys2Proof.Machine

open Sys2Proof Sys2Proof.Machine Sys2Proof.Claims

/-- Settles O57. -/
theorem resetSequence : Obligations.ResetSequence := by
  refine ⟨fun s n he => ⟨fun hn => ?_, fun hn => ?_⟩, fun s l he hc hr ha h15 => ?_,
    fun s m r k n rest he hk hb => ⟨fun hn => ?_, fun hn => ?_⟩, fun s k id saved n rest hn he hv hb => ?_⟩
  · rw [step_reset he, onReset_short hn]; rfl
  · rw [step_reset he, onReset_done hn]; rfl
  · rw [step_running he hc, State.runWith, if_pos (by exact hr), resetReads_alone (by exact ha) (by exact h15)]; rfl
  · rw [exec_ldmStore_reset he hk hb, onReset_short hn]
  · rw [exec_ldmStore_reset he hk hb, onReset_done hn]
    exact ⟨_, rfl, reset_after_word s _ _ _⟩
  · rw [enter_reset he hv hb, onReset_done hn]
    exact ⟨_, rfl, reset_after_word s _ _ _⟩

/-- Settles O58. -/
theorem interruptRequests : Obligations.InterruptRequests := by
  refine ⟨fun s he => by rw [step, he]; rfl, fun s l hd => ?_, fun s l hd => ?_,
    fun s l k he hc hr hw hk hready => ?_⟩
  · rw [State.request, hd]; rfl
  · rw [State.request, hd, if_pos rfl, pick_eq]
  · obtain ⟨t, ht, e⟩ := enter_ready (entryReady_acknowledged hready)
    refine ⟨t, _, ?_, e, rfl⟩
    rw [step_request he hc hr hw hk, accept_alone hready.2.2.2, ht]; rfl
end
section
/-!
PROOF. The extended instructions with EPA = 1 (49_extended_epa.md).
-/
namespace Sys2Proof.Machine
open Sys2Proof.Claims

/-! ## Words the EPU supplies -/

/-- n words from the script, the open words number i on where it has ended. -/
def suppliedWords (s : State) (i n : Nat) : List Word :=
  (List.range n).map (fun j => s.env.busIn.getD j (s.undef16 (.bus (i + j))))

/-- n words taken from the script. -/
def dropped (s : State) (n : Nat) : State := { s with env := { s.env with busIn := s.env.busIn.drop n } }

@[simp] theorem suppliedWords_length (s : State) (i n : Nat) : (suppliedWords s i n).length = n := by simp [suppliedWords]

theorem suppliedWords_succ (s : State) (i n : Nat) :
    suppliedWords s i (n + 1) = s.busWord i :: suppliedWords s.dropBus (i + 1) n := by
  rw [suppliedWords, List.range_succ_eq_map, List.map_cons, List.map_map]
  congr 1
  refine List.map_congr_left fun j _ => ?_
  rw [Function.comp_apply, Nat.add_assoc, Nat.add_comm 1 j]
  simp [State.dropBus, State.undef16]

theorem suppliedWords_congr {s t : State} (he : t.env.busIn = s.env.busIn) (hd : t.draws = s.draws) (i n : Nat) :
    suppliedWords t i n = suppliedWords s i n := by simp only [suppliedWords, State.undef16, he, hd]

theorem suppliedWords_script (s : State) (n : Nat) : EpuWords s n (suppliedWords s 0 n) := by
  refine ⟨suppliedWords_length s 0 n, fun j w hj hw => ?_⟩
  rw [suppliedWords, List.getElem?_map, List.getElem?_range hj]
  simp [hw]

theorem dropped_dropBus (s : State) (n : Nat) : dropped s.dropBus n = dropped s (n + 1) := by
  simp [dropped, State.dropBus]

theorem logged_dropped (s : State) (l : List BusEvent) (n : Nat) : dropped (s.logged l) n = (dropped s n).logged l := rfl

theorem logged_putWords (s : State) (l : List BusEvent) (sp : Space) (a : Addr) (ws : List Word) :
    (s.logged l).putWords sp a ws = (s.putWords sp a ws).logged l := by
  induction ws generalizing s a with
  | nil => rfl
  | cons w ws ih => rw [State.putWords, logged_putWord, ih]; rfl

theorem dropBus_eq_dropped (s : State) : s.dropBus = dropped s 1 := rfl

theorem dropped_putWord (s : State) (n : Nat) (sp : Space) (a : Addr) (v : Word) :
    (dropped s n).putWord sp a v = dropped (s.putWord sp a v) n := rfl

theorem dropped_putWords (s : State) (n : Nat) (sp : Space) (a : Addr) (ws : List Word) :
    (dropped s n).putWords sp a ws = dropped (s.putWords sp a ws) n := by
  induction ws generalizing s a with
  | nil => rfl
  | cons w ws ih => exact ih (s.putWord sp a w) _

theorem dropped_setRegRun (s : State) (n : Nat) (r : RegNo) (ws : List Word) :
    (dropped s n).setRegRun r ws = dropped (s.setRegRun r ws) n := by
  induction ws generalizing s r with
  | nil => rfl
  | cons w ws ih => exact ih (s.setRegW r w) _


/-! ## Runs of transactions with the EPU -/

theorem inTurn_succ (n : Nat) (f : Nat → List BusEvent) :
    inTurn (n + 1) f = inTurn n (fun j => f (j + 1)) ++ (f 0).reverse := by
  simp [inTurn, List.range_succ_eq_map, List.flatMap_map]

/-- The transactions that store supplied words. -/
def storesSupplied (sn : Bool) (sp : Space) (a : Addr) (ws : List Word) (j : Nat) : List BusEvent :=
  [.epuSupply sn (ws.getD j 0), .memWrite sp false (a.plus (BitVec.ofNat 16 (2 * j))) (ws.getD j 0)]

theorem storesSupplied_cons (sn : Bool) (sp : Space) (a : Addr) (w : Word) (ws : List Word) (n : Nat) :
    inTurn (n + 1) (storesSupplied sn sp a (w :: ws)) =
      inTurn n (storesSupplied sn sp (a.plus 2) ws) ++ [.memWrite sp false a w, .epuSupply sn w] := by
  rw [inTurn_succ]
  congr 1
  · refine congrArg (inTurn n) (funext fun j => ?_)
    simp only [storesSupplied, List.getD_cons_succ]
    rw [← plus_two]; rfl
  · simp [storesSupplied]

theorem storeSupplied_alone {s : State} (h : Alone s) (sp : Space) (a : Addr) (i n : Nat) (k : State → Out) :
    s.storeSupplied sp a i n k = k ((dropped (s.putWords sp a (suppliedWords s i n)) n).logged
      (inTurn n (storesSupplied s.fcw.sn sp a (suppliedWords s i n)))) := by
  induction n generalizing s a i with
  | zero => rfl
  | succ n ih =>
    rw [State.storeSupplied, turn_alone h, suppliedWords_succ, storesSupplied_cons]
    have first : (s.dropBus.record (.epuSupply s.fcw.sn (s.busWord i))).wroteWord sp a (s.busWord i) =
        (dropped (s.putWord sp a (s.busWord i)) 1).logged [.memWrite sp false a (s.busWord i), .epuSupply s.fcw.sn (s.busWord i)] := by
      rw [State.wroteWord, record_eq_logged, record_eq_logged, logged_putWord, logged_logged, dropBus_eq_dropped,
        dropped_putWord]
      rfl
    have ha : Alone ((dropped (s.putWord sp a (s.busWord i)) 1).logged
        [.memWrite sp false a (s.busWord i), .epuSupply s.fcw.sn (s.busWord i)]) := by simpa [Alone, dropped] using h
    rw [first, ih ha, logged_putWords, dropped_putWords, logged_dropped, logged_logged]
    have same : suppliedWords ((dropped (s.putWord sp a (s.busWord i)) 1).logged
        [.memWrite sp false a (s.busWord i), .epuSupply s.fcw.sn (s.busWord i)]) (i + 1) n =
        suppliedWords s.dropBus (i + 1) n := suppliedWords_congr (by simp [dropped, State.dropBus]) (by simp [dropped]) _ _
    have sn : ((dropped (s.putWord sp a (s.busWord i)) 1).logged
        [.memWrite sp false a (s.busWord i), .epuSupply s.fcw.sn (s.busWord i)]).fcw = s.fcw := by simp [dropped]
    rw [same, sn, ← dropBus_eq_dropped, dropped_dropBus]
    rfl

theorem captureMem_alone {s : State} (h : Alone s) (sp : Space) (a : Addr) (n : Nat) (k : State → Out) :
    s.captureMem sp a n k = k (s.logged (inTurn n (fun j =>
      readEvents s 16 sp (a.plus (BitVec.ofNat 16 (2 * j))) ++
        [.epuCapture s.fcw.sn (s.wordAt sp (a.plus (BitVec.ofNat 16 (2 * j))))]))) := by
  induction n generalizing s a with
  | zero => rfl
  | succ n ih =>
    rw [State.captureMem, loadWord_alone h, record_eq_logged, logged_logged, ih (by exact h), logged_logged, inTurn_succ]
    have shift (j : Nat) : (a.plus 2).plus (BitVec.ofNat 16 (2 * j)) = a.plus (BitVec.ofNat 16 (2 * (j + 1))) :=
      plus_two a j
    simp only [shift, logged_readEvents, logged_wordAt, logged_fcw]
    simp [readEvents]

theorem supplyRegs_alone {s : State} (h : Alone s) (r : RegNo) (i n : Nat) (k : State → Out) :
    s.supplyRegs r i n k = k ((dropped (s.setRegRun r (suppliedWords s i n)) n).logged
      (inTurn n (fun j => [.epuSupply s.fcw.sn ((suppliedWords s i n).getD j 0)]))) := by
  induction n generalizing s r i with
  | zero => rfl
  | succ n ih =>
    rw [State.supplyRegs, turn_alone h, suppliedWords_succ, inTurn_succ]
    have first : (s.dropBus.record (.epuSupply s.fcw.sn (s.busWord i))).setRegW r (s.busWord i) =
        (dropped (s.setRegW r (s.busWord i)) 1).logged [.epuSupply s.fcw.sn (s.busWord i)] := rfl
    have ha : Alone ((dropped (s.setRegW r (s.busWord i)) 1).logged [.epuSupply s.fcw.sn (s.busWord i)]) := h
    rw [first, ih ha, logged_setRegRun, dropped_setRegRun, logged_dropped, logged_logged]
    have same : suppliedWords ((dropped (s.setRegW r (s.busWord i)) 1).logged [.epuSupply s.fcw.sn (s.busWord i)]) (i + 1) n =
        suppliedWords s.dropBus (i + 1) n := suppliedWords_congr rfl rfl _ _
    rw [same, ← dropBus_eq_dropped, dropped_dropBus]
    rfl

theorem captureWords_alone {s : State} (h : Alone s) (ws : List Word) (k : State → Out) :
    s.captureWords ws k = k (s.logged (inTurn ws.length (fun j => [.epuCapture s.fcw.sn (ws.getD j 0)]))) := by
  induction ws generalizing s with
  | nil => rfl
  | cons w ws ih =>
    rw [State.captureWords, turn_alone h, record_eq_logged, ih (by exact h), logged_logged, List.length_cons, inTurn_succ]
    simp

/-! ## The templates -/

theorem epaCount_eq (w1 : Word) : epaCount w1 = epaN w1 := by
  simp [epaCount, epaN, nib0, BitVec.extractLsb'_toNat]

/-- Both op code words go to the EPU. -/
def handing (i : Instr) : List BusEvent := [.epuInstruction ((encode i).getD 0 0) ((encode i).getD 1 0)]

theorem extended_fitted {s : State} (he : s.fcw.epa = true) (hf : s.params.epuFitted = true) (i : Instr)
    (k : State → Out) : extended i s k = k (s.logged (handing i)) := by
  rw [extended, if_neg (by simp [he]), if_neg (by simp [hf]), firstWord_eq]; rfl

theorem extended_unfitted {s : State} (he : s.fcw.epa = true) (hf : s.params.epuFitted = false) (i : Instr)
    (k : State → Out) : extended i s k = .refused .noEpu := by
  rw [extended, if_neg (by simp [he]), if_pos hf]

/-- An instruction that took n words and had the transactions of a log, and changed otherwise what it may. -/
theorem epuDone_intro {i : Instr} {s u : State} {n words : Nat} (log : List BusEvent) (hb : u.busLog = s.busLog)
    (he : u.env = (dropped s n).env) (hp : u.pc = s.pc) (hq : QuietCpu s u) :
    EpuDone i s ((u.logged (log ++ handing i)).skip words) log n words := by
  refine ⟨by simp [handing, hb], he, by rw [Advances, skip_pc, logged_pc, hp], ?_⟩
  rw [quietCpu_iff] at hq ⊢
  simpa using hq

theorem logged_suppliedWords (s : State) (l : List BusEvent) (i n : Nat) :
    suppliedWords (s.logged l) i n = suppliedWords s i n := rfl

@[simp] theorem dropped_busLog (s : State) (n : Nat) : (dropped s n).busLog = s.busLog := rfl
@[simp] theorem dropped_pc (s : State) (n : Nat) : (dropped s n).pc = s.pc := rfl
@[simp] theorem dropped_fcw (s : State) (n : Nat) : (dropped s n).fcw = s.fcw := rfl
@[simp] theorem dropped_regs (s : State) (n : Nat) : (dropped s n).regs = s.regs := rfl
@[simp] theorem dropped_mem (s : State) (n : Nat) : (dropped s n).mem = s.mem := rfl
@[simp] theorem dropped_params (s : State) (n : Nat) : (dropped s n).params = s.params := rfl

theorem quietCpu_dropped {s u : State} (h : QuietCpu s u) (n : Nat) : QuietCpu s (dropped u n) := h

theorem dropped_zero (s : State) : (dropped s 0).env = s.env := rfl

section
variable {s : State} (he : s.fcw.epa = true) (hf : s.params.epuFitted = true) (ha : Alone s)
include he hf ha

/-- Load Memory from EPU. -/
theorem epaMemFromEpu_runs (sel : BitVec 6) (lo : BitVec 4) (m : Mem) (w1 : Word) (hm : (m.addr s).off.getLsbD 0 = false) :
    ∃ t ws, exec (.epaMemFromEpu sel lo m w1) s = .next t ∧ EpuWords s (epaN w1) ws ∧
      EpuDone (.epaMemFromEpu sel lo m w1) s t (inTurn (epaN w1) (storesSupplied s.fcw.sn s.dataSp (m.addr s) ws))
        (epaN w1) (2 + m.extra) ∧
      t.fcw = s.fcw ∧ t.regs = s.regs ∧ OnlyMem s t s.dataSp (m.addr s) (2 * epaN w1) ∧
      ∀ j < epaN w1, some (t.wordAt s.dataSp ((m.addr s).plus (BitVec.ofNat 16 (2 * j)))) = ws[j]? := by
  have run : exec (.epaMemFromEpu sel lo m w1) s = execEpaMemFromEpu sel lo m w1 s := rfl
  rw [execEpaMemFromEpu, extended_fitted he hf, checked_of_even (by simpa [AllEven] using hm),
    storeSupplied_alone (by exact ha), epaCount_eq, logged_suppliedWords, logged_putWords, logged_dropped, logged_logged] at run
  have small : epaN w1 ≤ 16 := by unfold epaN; omega
  refine ⟨_, _, run, suppliedWords_script s _, epuDone_intro _ (by simp) (by simp [dropped]) (by simp)
    (quietCpu_dropped (by rw [quietCpu_iff]; simp) _), by simp, by simp, fun sp b hb => ?_, fun j hj => ?_⟩
  · exact (byteAt_congr (by simp) (by simp) sp b).trans
      (byteAt_putWords_ne (suppliedWords s 0 (epaN w1)) s s.dataSp sp (m.addr s) b (by simpa using hb))
  · exact (congrArg some (wordAt_congr (by simp) (by simp) _ _)).trans
      (putWords_wordAt (suppliedWords s 0 (epaN w1)) s s.dataSp (m.addr s) (by simpa) j (by simpa))

/-- Load EPU from Memory. -/
theorem epaEpuFromMem_runs (sel : BitVec 6) (lo : BitVec 4) (m : Mem) (w1 : Word) (hm : (m.addr s).off.getLsbD 0 = false) :
    ∃ t, exec (.epaEpuFromMem sel lo m w1) s = .next t ∧ t.fcw = s.fcw ∧ t.regs = s.regs ∧ SameMem s t ∧
      EpuDone (.epaEpuFromMem sel lo m w1) s t (inTurn (epaN w1) (fun j =>
        readEvents s 16 s.dataSp ((m.addr s).plus (BitVec.ofNat 16 (2 * j))) ++
          [.epuCapture s.fcw.sn (s.wordAt s.dataSp ((m.addr s).plus (BitVec.ofNat 16 (2 * j))))])) 0 (2 + m.extra) := by
  have run : exec (.epaEpuFromMem sel lo m w1) s = execEpaEpuFromMem sel lo m w1 s := rfl
  rw [execEpaEpuFromMem, extended_fitted he hf, checked_of_even (by simpa [AllEven] using hm),
    captureMem_alone (by exact ha), epaCount_eq, logged_logged] at run
  exact ⟨_, run, by simp, by simp, fun sp b => byteAt_congr (by simp) (by simp) sp b,
    epuDone_intro (u := s) _ rfl (dropped_zero s).symm rfl (by rw [quietCpu_iff]; simp)⟩

/-- Load CPU from EPU. -/
theorem epaCpuFromEpu_runs (w0 w1 : Word) :
    ∃ t ws, exec (.epaCpuFromEpu w0 w1) s = .next t ∧ EpuWords s (epaN w1) ws ∧
      EpuDone (.epaCpuFromEpu w0 w1) s t (inTurn (epaN w1) (fun j => [.epuSupply s.fcw.sn (ws.getD j 0)])) (epaN w1) 2 ∧
      t.fcw = s.fcw ∧ SameMem s t ∧ OnlyRegs s t (runOfRegs (w1.extractLsb' 8 4) (w1.extractLsb' 0 4)) ∧
      ∀ j < epaN w1, some (t.regW (w1.extractLsb' 8 4 + BitVec.ofNat 4 j)) = ws[j]? := by
  have run : exec (.epaCpuFromEpu w0 w1) s = execEpaCpuFromEpu w0 w1 s := rfl
  rw [execEpaCpuFromEpu, extended_fitted he hf, supplyRegs_alone (by exact ha), epaCount_eq, logged_suppliedWords,
    logged_setRegRun, logged_dropped, logged_logged] at run
  have small : epaN w1 ≤ 16 := by unfold epaN; omega
  have count : (suppliedWords s 0 (epaN w1)).length = (w1.extractLsb' 0 4).toNat + 1 :=
    (suppliedWords_length _ _ _).trans (epaCount_eq w1).symm
  refine ⟨_, _, run, suppliedWords_script s _, epuDone_intro _ (by simp) (by simp [dropped]) (by simp)
    (quietCpu_dropped (by rw [quietCpu_iff]; simp) _), by simp, fun sp b => byteAt_congr (by simp) (by simp) sp b,
    fun p hp => ?_, fun j hj => ?_⟩
  · exact (by simp : _ = (s.setRegRun (nib2 w1) (suppliedWords s 0 (epaN w1))).regs.get p).trans
      (setRegRun_onlyRegs s (nib2 w1) count p hp)
  · exact (congrArg some (regW_congr (by simp) (by simp) (by simp) _)).trans
      (setRegRun_regW (suppliedWords s 0 (epaN w1)) s (nib2 w1) (by simpa) j (by simpa))

/-- Load EPU from CPU. -/
theorem epaEpuFromCpu_runs (w0 w1 : Word) :
    ∃ t, exec (.epaEpuFromCpu w0 w1) s = .next t ∧ t.fcw = s.fcw ∧ t.regs = s.regs ∧ SameMem s t ∧
      EpuDone (.epaEpuFromCpu w0 w1) s t (inTurn (epaN w1) (fun j =>
        [.epuCapture s.fcw.sn (s.regW (w1.extractLsb' 8 4 + BitVec.ofNat 4 j))])) 0 2 := by
  have run : exec (.epaEpuFromCpu w0 w1) s = execEpaEpuFromCpu w0 w1 s := rfl
  rw [execEpaEpuFromCpu, extended_fitted he hf, captureWords_alone (by exact ha), epaCount_eq, logged_logged,
    regRun_length] at run
  have log : inTurn (epaN w1) (fun j => [BusEvent.epuCapture s.fcw.sn ((s.regRun (nib2 w1) (epaN w1)).getD j 0)]) =
      inTurn (epaN w1) (fun j => [.epuCapture s.fcw.sn (s.regW (w1.extractLsb' 8 4 + BitVec.ofNat 4 j))]) := by
    unfold inTurn
    congr 1
    refine List.flatMap_congr fun j hj => ?_
    rw [List.getD_eq_getElem?_getD, regRun_getElem? _ _ _ _ (List.mem_range.1 hj)]; rfl
  refine ⟨_, run, by simp, by simp, fun sp b => byteAt_congr (by simp) (by simp) sp b, ?_⟩
  rw [← log]
  exact epuDone_intro (u := s) _ rfl (dropped_zero s).symm rfl (by rw [quietCpu_iff]; simp)

/-- Load FCW from EPU. -/
theorem epaFcwFromEpu_runs (w0 w1 : Word) :
    ∃ (t : State) (b : Byte), exec (.epaFcwFromEpu w0 w1) s = .next t ∧ Supplied s b ∧
      t.fcw = { s.fcw with c := b.getLsbD 7, z := b.getLsbD 6, s := b.getLsbD 5, pv := b.getLsbD 4,
                           d := b.getLsbD 3, h := b.getLsbD 2 } ∧
      OnlyRegs s t [0] ∧ SameMem s t ∧ EpuDone (.epaFcwFromEpu w0 w1) s t [.epuSupplyByte s.fcw.sn b] 1 2 := by
  have run : exec (.epaFcwFromEpu w0 w1) s = execEpaFcwFromEpu w0 w1 s := rfl
  rw [execEpaFcwFromEpu, extended_fitted he hf, turn_alone (by exact ha)] at run
  have supplied : Supplied s (loByte (s.busWord 0)) := by
    intro w ws h
    rw [State.busWord, h]
    apply BitVec.eq_of_getLsbD_eq; intro i hi
    simp [loByte, hi]
  have regs := setRegW_onlyRegs s 0 (s.undef16 (.result 0))
  refine ⟨_, loByte (s.busWord 0), run, supplied, rfl, regs, fun sp b => byteAt_congr (by rfl) (by rfl) sp b, ?_⟩
  exact epuDone_intro (u := (dropped (s.setRegW 0 (s.undef16 (.result 0))) 1).withFcw
    (s.fcw.withFlagByte (loByte (s.busWord 0)))) [.epuSupplyByte s.fcw.sn (loByte (s.busWord 0))] (by rfl) (by rfl) (by rfl)
    (by rw [quietCpu_iff]; simp [dropped])

/-- Load EPU from FCW. -/
theorem epaEpuFromFcw_runs (w0 w1 : Word) :
    ∃ (t : State) (b : Byte), exec (.epaEpuFromFcw w0 w1) s = .next t ∧
      s.fcw = { s.fcw with c := b.getLsbD 7, z := b.getLsbD 6, s := b.getLsbD 5, pv := b.getLsbD 4,
                           d := b.getLsbD 3, h := b.getLsbD 2 } ∧
      t.fcw = s.fcw ∧ t.regs = s.regs ∧ SameMem s t ∧
      EpuDone (.epaEpuFromFcw w0 w1) s t [.epuCaptureByte s.fcw.sn b] 0 2 := by
  have run : exec (.epaEpuFromFcw w0 w1) s = execEpaEpuFromFcw w0 w1 s := rfl
  rw [execEpaEpuFromFcw, extended_fitted he hf, turn_alone (by exact ha)] at run
  obtain ⟨hc, hz, hsg, hv, hd, hh⟩ := flagByte_bits s.fcw (s.undef16 .fcwUnused)
  refine ⟨_, s.fcw.flagByte (s.undef16 .fcwUnused), run, by rw [hc, hz, hsg, hv, hd, hh], by rfl, by rfl,
    fun sp b => byteAt_congr (by rfl) (by rfl) sp b, ?_⟩
  exact epuDone_intro (u := s) [.epuCaptureByte s.fcw.sn (s.fcw.flagByte (s.undef16 .fcwUnused))] rfl
    (dropped_zero s).symm rfl (by rw [quietCpu_iff]; simp)

omit ha in
/-- Internal EPU Operation. -/
theorem epaInternal_runs (w0 w1 : Word) :
    ∃ t, exec (.epaInternal w0 w1) s = .next t ∧ t.fcw = s.fcw ∧ t.regs = s.regs ∧ SameMem s t ∧
      EpuDone (.epaInternal w0 w1) s t [] 0 2 := by
  have run : exec (.epaInternal w0 w1) s = execEpaInternal w0 w1 s := rfl
  rw [execEpaInternal, extended_fitted he hf] at run
  exact ⟨_, run, by rfl, by rfl, fun sp b => byteAt_congr (by rfl) (by rfl) sp b,
    epuDone_intro (u := s) [] rfl (dropped_zero s).symm rfl (by rw [quietCpu_iff]; simp)⟩

end

end Sys2Proof.Machine

open Sys2Proof Sys2Proof.Machine Sys2Proof.Claims

/-- Settles O52. -/
theorem extendedInstructions : Obligations.ExtendedInstructions := by
  refine fun s he => ⟨fun hf => ⟨fun sel lo m w1 hm ha => epaMemFromEpu_runs he hf ha sel lo m w1 hm,
    fun sel lo m w1 hm ha => epaEpuFromMem_runs he hf ha sel lo m w1 hm, fun w0 w1 ha => epaCpuFromEpu_runs he hf ha w0 w1,
    fun w0 w1 ha => epaEpuFromCpu_runs he hf ha w0 w1, fun w0 w1 ha => epaFcwFromEpu_runs he hf ha w0 w1,
    fun w0 w1 ha => epaEpuFromFcw_runs he hf ha w0 w1, fun w0 w1 => epaInternal_runs he hf w0 w1⟩, fun hf i hi => ?_⟩
  obtain ⟨k, run⟩ := exec_extended hi s
  rw [run, extended_unfitted he hf]
end
section
/-!
PROOF. The Stop/Refresh and Bus-Disconnect states, and bus grants inside an instruction (60_exceptions.md sections 6
and 7, 20_memory.md section 7).
-/
namespace Sys2Proof.Machine
open Sys2Proof.Claims

/-! ## The CPU states -/

theorem leaveBusDisconnect_of_ne {s : State} (h : s.cpuState ≠ .busDisconnect) : s.leaveBusDisconnect = s := if_neg h
theorem leaveStop_of_ne {s : State} (h : s.cpuState ≠ .stopRefresh) : s.leaveStop = s := if_neg h

theorem step_stop {s : State} {l : Lines} (he : s.event = .stop l) : step s = bump (s.popEvent.onStop l) := by
  rw [step, he]; rfl

theorem step_run {s : State} {l : Lines} (he : s.event = .run l) :
    step s = bump (s.popEvent.leaveBusDisconnect.leaveStop.runWith l) := by
  rw [step, he]; rfl

/-- STOP at a fetch with no request. -/
theorem onStop_running {s : State} {l : Lines} (hc : s.cpuState = .running) (hr : s.resetDue = false)
    (hk : s.request l = none) : s.popEvent.onStop l =
      if s.halted then .next { s.popEvent.enterStop with sampleDue := s.sampleDue }
      else if s.pc.off.getLsbD 0 then .fault .oddPc else .next s.popEvent.enterStop := by
  have hc' : s.popEvent.cpuState = .running := hc
  have hr' : s.popEvent.resetDue = false := hr
  have hk' : s.popEvent.request l = none := hk
  rw [State.onStop, hc', if_neg (by simp), hr', if_neg Bool.false_ne_true, leaveBusDisconnect_of_ne (by rw [hc']; simp),
    State.stopFetch, hk']
  rfl

/-- s with the bus its own again. -/
theorem step_leaveBusDisconnect {s : State} {l : Lines} (he : s.event = .run l ∨ s.event = .stop l)
    (hc : s.cpuState = .busDisconnect) : step s = step { s.regainBus with cpuState := .running } := by
  have leave : s.popEvent.leaveBusDisconnect = { s.popEvent.regainBus with cpuState := .running } := if_pos hc
  have same : State.leaveBusDisconnect { s.popEvent.regainBus with cpuState := .running } =
      { s.popEvent.regainBus with cpuState := .running } := leaveBusDisconnect_of_ne (by simp)
  rcases he with he | he
  · have he' : State.event { s.regainBus with cpuState := .running } = .run l := he
    rw [step_run he, leave, step_run he']
    exact congrArg (fun t : State => bump (t.leaveStop.runWith l)) same.symm
  · have he' : State.event { s.regainBus with cpuState := .running } = .stop l := he
    rw [step_stop he, step_stop he', State.onStop, if_neg (by rw [show s.popEvent.cpuState = _ from hc]; simp), leave]
    refine congrArg bump ?_
    show _ = State.onStop { s.popEvent.regainBus with cpuState := .running } l
    rw [State.onStop, same]
    rfl

/-- STOP is High again. -/
theorem step_leaveStop {s : State} {l : Lines} (he : s.event = .run l) (hc : s.cpuState = .stopRefresh) :
    step s = step { s.refreshCycles 1 with cpuState := .running } := by
  have he' : State.event { s.refreshCycles 1 with cpuState := .running } = .run l := he
  have leave : s.popEvent.leaveStop = { s.popEvent.refreshCycles 1 with cpuState := .running } := if_pos hc
  have same : State.leaveStop { s.popEvent.refreshCycles 1 with cpuState := .running } =
      { s.popEvent.refreshCycles 1 with cpuState := .running } := leaveStop_of_ne (by simp)
  have same' : State.leaveBusDisconnect { s.popEvent.refreshCycles 1 with cpuState := .running } =
      { s.popEvent.refreshCycles 1 with cpuState := .running } := leaveBusDisconnect_of_ne (by simp)
  rw [step_run he, leaveBusDisconnect_of_ne (by rw [show s.popEvent.cpuState = _ from hc]; simp), leave, step_run he']
  show _ = bump (State.runWith (State.leaveStop (State.leaveBusDisconnect { s.popEvent.refreshCycles 1 with cpuState := .running })) l)
  rw [same', same]

/-- A halted CPU with no request. -/
theorem step_halted {s : State} {l : Lines} (he : s.event = .run l) (hc : s.cpuState = .running)
    (hr : s.resetDue = false) (hw : s.heldWord = none) (hh : s.halted = true) (hk : s.request l = none) :
    step s = bump (.next s.popEvent) := by
  have hr' : s.popEvent.resetDue = false := hr
  have hw' : s.popEvent.heldWord = none := hw
  have hk' : s.popEvent.request l = none := hk
  have hh' : s.popEvent.halted = true := hh
  rw [step_running he hc, State.runWith, hr', if_neg Bool.false_ne_true, hw']
  show bump (match s.popEvent.request l with | some k => _ | none => _) = _
  rw [hk']
  show bump (if s.popEvent.halted = true then _ else _) = _
  rw [hh', if_pos rfl]

/-! ## STOP before the second word of an extended instruction -/

theorem not_privilegedUpper {w : Word} (h : extendedUpper w = true) : privilegedUpper w = false := by
  unfold extendedUpper at h; unfold privilegedUpper
  revert h; generalize hiByte w = b; revert b; decide

/-- An extended first word with EPA = 1 takes no trap. -/
theorem firstWordTrap_extended {s : State} {w : Word} (h : extendedUpper w = true) (he : s.fcw.epa = true) :
    s.firstWordTrap w = none := by
  rw [State.firstWordTrap, h, he, not_privilegedUpper h]; rfl

/-- s with the first word fetched, after one action of the environment. -/
def fetchedBefore (s : State) : State :=
  { afterFetch s 1 with env := { s.env with events := s.env.events.tail, bus := s.env.bus.tail } }

theorem step_stopAhead {s : State} {l : Lines} {rest : List BusAction} (h : AtFetch s l) (hpc : s.pc.off.getLsbD 0 = false)
    (hx : extendedUpper (fetched s 0) = true) (he : s.fcw.epa = true) (hb : s.env.bus = .pass :: .stop :: rest) :
    step s = .next { afterFetch s 1 with
      refresh := { s.refresh with row := s.refresh.row + 2 }, cpuState := .stopRefresh, sampleDue := false,
      heldWord := some (fetched s 0), draws := s.draws + 1,
      env := { s.env with events := s.env.events.tail, bus := rest } } := by
  have hb' : s.popEvent.begin.env.bus = .pass :: .stop :: rest := hb
  rw [step_atFetch h hpc, State.fetchWord, turn_pass hb']
  show bump (State.runFrom (fetchedBefore s) (fetched s 0)) = _
  rw [State.runFrom, firstWordTrap_extended hx (by exact he)]
  show bump (if (fetchedBefore s).stopAhead (fetched s 0) = true then _ else _) = _
  have stop : (fetchedBefore s).stopAhead (fetched s 0) = true := by
    rw [State.stopAhead, hx, show (fetchedBefore s).env.bus = s.env.bus.tail from rfl, hb]; rfl
  have script : s.env.bus.tail.tail = rest := by rw [hb]; rfl
  rw [if_pos stop, ← script]
  simp [bump, State.enterStop, State.refreshCycles, State.popBus, fetchedBefore, afterFetch]

/-! ## A held first word -/

/-- The first word w0 and the words after it at the PC, m words together. -/
def heldWords (s : State) (w0 : Word) (m : Nat) : List Word := w0 :: (List.range' 1 (m - 1)).map (s.instrWord s.pc)

theorem wordsOf_extended {seg : Bool} {w0 : Word} (h : extendedUpper w0 = true) (w1 w2 : Word) :
    wordsOf seg w0 w1 w2 = countTwo (fMode w0).toNat seg w2 := by
  obtain ⟨hm, ho⟩ := fields_of_extendedUpper h
  have h3 : ¬(fMode w0).toNat = 3 := toNat_ne hm
  rcases ho with e | e <;> simp [wordsOf, e, h3]

/-- The further words of a held extended instruction are fetched. -/
theorem fetchMore_held {s : State} (h : Alone s) {w0 : Word} (hx : extendedUpper w0 = true) (f : List Word → State → Out) :
    s.fetchMore [w0] 3 f = f (heldWords s w0 (wordsOf s.segmented w0 (fetched s 1) (fetched s 2)))
      (s.logged (fetchRun s 1 (wordsOf s.segmented w0 (fetched s 1) (fetched s 2)))) := by
  have one : 1 < wordsOf s.segmented w0 0 0 := by rw [wordsOf_extended hx, countTwo]; split <;> omega
  rw [State.fetchMore]
  show (if 1 < wordsOf s.segmented w0 0 0 then s.fetchWord 1 _ else _) = _
  rw [if_pos one, fetchWord_alone h, State.fetchMore]
  show (if 2 < wordsOf s.segmented w0 (fetched s 1) 0 then State.fetchWord (s.logged _) 2 _ else _) = _
  rw [wordsOf_extended hx, wordsOf_extended hx]
  by_cases hm : (fMode w0).toNat = 1
  · have count (w : Word) : countTwo (fMode w0).toNat s.segmented w = 2 + adrCount s.segmented w := by
      rw [countTwo, if_pos hm]
    have zero : adrCount s.segmented 0 = 1 := by simp [adrCount]
    rw [count, count, zero, if_pos (by omega), fetchWord_alone (by exact h), State.fetchMore]
    show (if 3 < wordsOf s.segmented w0 (fetched s 1) (fetched s 2) then State.fetchWord (State.logged (s.logged _) _) 3 _ else _) = _
    rw [wordsOf_extended hx, count]
    obtain e | e : adrCount s.segmented (fetched s 2) = 1 ∨ adrCount s.segmented (fetched s 2) = 2 := by
      have := adrCount_bounds s.segmented (fetched s 2); omega
    · rw [e, if_neg (by omega), logged_logged]; rfl
    · rw [e, if_pos (by omega), fetchWord_alone (by exact h), State.fetchMore, logged_logged, logged_logged]; rfl
  · have count (w : Word) : countTwo (fMode w0).toNat s.segmented w = 2 := by rw [countTwo, if_neg hm]
    rw [count, count, if_neg (by omega)]
    rfl

theorem heldWords_getD (s : State) (w0 : Word) (m k : Nat) :
    (heldWords s w0 m).getD (k + 1) (s.instrWord s.pc (k + 1)) = s.instrWord s.pc (k + 1) := by
  rw [heldWords, List.getD_cons_succ, List.getD_eq_getElem?_getD, List.getElem?_map]
  by_cases hk : k < m - 1
  · rw [List.getElem?_range' hk, Nat.one_mul, Nat.add_comm]; rfl
  · rw [List.getElem?_eq_none (by simpa using hk)]; rfl

/-- The held first word and the words at the PC decode as all four do. -/
theorem decodeFetched_held (s : State) (w0 : Word) (m : Nat) : s.decodeFetched (heldWords s w0 m) =
    decode s.params.epaMap s.segmented w0 (fetched s 1) (fetched s 2) (fetched s 3) := by
  unfold State.decodeFetched
  simp only [heldWords_getD]
  rfl

/-- s when the further words of a held instruction of k words are fetched. -/
def afterHeld (s : State) (k : Nat) : State :=
  { afterFetch s 0 with heldWord := none, busLog := fetchRun s 1 k ++ s.busLog }

theorem step_held {s : State} {l : Lines} {w0 : Word} {i : Instr} (he : s.event = .run l) (hc : s.cpuState = .running)
    (hr : s.resetDue = false) (hw : s.heldWord = some w0) (hx : extendedUpper w0 = true) (hepa : s.fcw.epa = true)
    (ha : Alone s)
    (hd : decode s.params.epaMap s.segmented w0 (fetched s 1) (fetched s 2) (fetched s 3) = .ok i) :
    step s = asStep (afterHeld s (encode i).length) (encode i).length (exec i (afterHeld s (encode i).length)) := by
  have hr' : s.popEvent.resetDue = false := hr
  have hw' : s.popEvent.heldWord = some w0 := hw
  have run : s.popEvent.runWith l = State.runFrom { afterFetch s 0 with heldWord := none } w0 := by
    simp only [State.runWith, hr', hw', if_neg Bool.false_ne_true]; rfl
  have going : State.stopAhead { afterFetch s 0 with heldWord := none } w0 = false := by
    rw [State.stopAhead, show (afterFetch s 0).env.bus = [] from ha]; simp
  obtain ⟨-, len⟩ := decodeRaw_words (decode_ok hd).1
  rw [step_running he hc, run, State.runFrom, firstWordTrap_extended hx (by exact hepa)]
  show bump (if State.stopAhead { afterFetch s 0 with heldWord := none } w0 = true then _ else _) = _
  rw [going, if_neg Bool.false_ne_true, fetchMore_held (by exact ha) hx]
  show bump (State.runWords (afterHeld s (wordsOf s.segmented w0 (fetched s 1) (fetched s 2)))
    (heldWords (afterHeld s (wordsOf s.segmented w0 (fetched s 1) (fetched s 2))) w0 _)) = _
  rw [State.runWords, decodeFetched_held, ← len]
  show bump (match decode s.params.epaMap s.segmented w0 (fetched s 1) (fetched s 2) (fetched s 3) with
    | .ok i => _ | .error r => _) = _
  rw [hd]
  exact bump_guardStore _ _ _

/-! ## Bus grants inside an instruction -/

theorem wordAt_wroteWord_same (s : State) (sp : Space) (a : Addr) (v : Word) :
    (s.wroteWord sp a v).wordAt sp a = v := wordAt_putWord_same s sp a v

theorem wroteWord_onlyMem (s : State) (sp : Space) (a : Addr) (v : Word) : OnlyMem s (s.wroteWord sp a v) sp a 2 :=
  fun sp' b h => byteAt_putWord_ne s sp sp' a b v (by simpa using h 0 (by omega)) (by simpa using h 1 (by omega))

/-- s after another bus master wrote. -/
def written (s : State) (ws : List Host.Cell) : State :=
  { s with mem := ws.foldl (fun m c => memWrite m c.1 c.2) s.mem }

/-- A word written, then the flags and the PC: the word is read back. -/
theorem stored_wordAt (g : State) (sp : Space) (a : Addr) (v : Word) (f : Fcw) (n : Nat) :
    (((g.wroteWord sp a v).withFcw f).skip n).wordAt sp a = v :=
  (wordAt_congr (t := g.wroteWord sp a v) (by simp) (by simp) _ _).trans (wordAt_wroteWord_same g sp a v)

/-- A word written, then the flags and the PC: every other byte stays. -/
theorem stored_onlyMem (g : State) (sp : Space) (a : Addr) (v : Word) (f : Fcw) (n : Nat) :
    OnlyMem g (((g.wroteWord sp a v).withFcw f).skip n) sp a 2 := fun sp' b h =>
  (byteAt_congr (t := g.wroteWord sp a v) (by simp) (by simp) sp' b).trans (wroteWord_onlyMem g sp a v sp' b h)

section
variable {s : State} {m : Mem} {n : Nat} {ws : List Host.Cell} {rest : List BusAction}
  (he : (m.addr s).off.getLsbD 0 = false) (hb : s.env.bus = .pass :: .grant n ws :: rest)
include he hb

/-- s when the word at the operand is read. -/
def operandRead (s : State) (m : Mem) : State :=
  s.popBus.logged [.memRead s.dataSp false (m.addr s) (s.wordAt s.dataSp (m.addr s))]

omit he in
theorem loadWord_before_grant (k : Word → State → Out) : s.loadWord s.dataSp (m.addr s) k =
    k (s.wordAt s.dataSp (m.addr s)) (operandRead s m) := by
  rw [State.loadWord, turn_pass hb]; rfl

omit he in
theorem operandRead_bus : (operandRead s m).env.bus = .grant n ws :: rest := by
  show s.env.bus.tail = _; rw [hb]; rfl

/-- The two halves of LDL are of different times. -/
theorem ldl_granted (d : RegNo) : ∃ t, exec (.ldl d (.mem (.mem m))) s = .next t ∧
    t.reg 32 d = s.wordAt s.dataSp (m.addr s) ++ (written s ws).wordAt s.dataSp ((m.addr s).plus 2) := by
  have run : exec (.ldl d (.mem (.mem m))) s = s.loadReg d (.mem (.mem m) : LdSrc 32) := rfl
  have fetch (k : BitVec 32 → State → Out) : LdSrc.fetch s (.mem (.mem m) : LdSrc 32) k =
      s.loadWord s.dataSp (m.addr s) (fun h t => t.loadWord s.dataSp ((m.addr s).plus 2) (fun l u => k ((h ++ l).setWidth 32) u)) := rfl
  rw [State.loadReg, checked_of_even (by simpa [AllEven, LdSrc.evens, evens, LdMem.addr] using he), fetch,
    loadWord_before_grant hb, State.loadWord, turn_grant (operandRead_bus hb)] at run
  refine ⟨_, run, ?_⟩
  refine (reg_congr (by rfl) (by rfl) (by rfl) 32 d).trans ((reg_setReg_same (by simp) _ d _).trans ?_)
  rw [BitVec.setWidth_eq]
  exact congrArg (s.wordAt s.dataSp (m.addr s) ++ ·) (wordAt_congr (by rfl) (by rfl) _ _)

/-- INC writes what it made of the word it read before. -/
theorem inc_granted (k : BitVec 4) : ∃ t, exec (.inc (.mem m) k) s = .next t ∧
    t.wordAt s.dataSp (m.addr s) = s.wordAt s.dataSp (m.addr s) + counted 16 k ∧
    OnlyMem (written s ws) t s.dataSp (m.addr s) 2 := by
  have run : exec (.inc (.mem m) k) s = s.increment 16 (.mem m) k := rfl
  have fetch (k : BitVec 16 → State → Out) : Loc.fetch s 16 (.mem m) k =
      s.loadWord s.dataSp (m.addr s) (fun v t => k (v.setWidth 16) t) := rfl
  have write (v : BitVec 16) (k : State → Out) : Loc.write (operandRead s m) (.mem m) v k =
      (operandRead s m).storeWord s.dataSp (m.addr s) (v.setWidth 16) k := by cases m <;> rfl
  rw [State.increment, State.modify, checked_of_even (by simpa [AllEven, Loc.evens, evens] using he), fetch,
    loadWord_before_grant hb, write, State.storeWord, turn_grant (operandRead_bus hb)] at run
  generalize hg : ((operandRead s m).popBus.grantBus n ws).regainBus = g at run
  have gm : g.mem = (written s ws).mem := by rw [← hg]; rfl
  have gp : g.params = (written s ws).params := by rw [← hg]; rfl
  refine ⟨_, run, ?_, fun sp b h => ?_⟩
  · refine (stored_wordAt g _ _ _ _ _).trans ?_
    simp [addN_r, counted]
  · refine (stored_onlyMem g _ _ _ _ _ sp b ?_).trans (byteAt_congr gm gp sp b)
    intro j hj
    rw [key_of_params gp, key_of_params gp]; exact h j hj

/-- TSET keeps the bus from its read to its write. -/
theorem tset_granted : ∃ t, exec (.tset (.mem m)) s = .next t ∧
    t.wordAt s.dataSp (m.addr s) = BitVec.allOnes 16 ∧
    t.fcw = { s.fcw with s := (s.wordAt s.dataSp (m.addr s)).msb } ∧ OnlyMem s t s.dataSp (m.addr s) 2 ∧
    t.env.bus = .grant n ws :: rest := by
  have run : exec (.tset (.mem m)) s = s.testAndSet 16 (.mem m) := rfl
  have fetch (k : BitVec 16 → State → Out) : Loc.fetch s 16 (.mem m) k =
      s.loadWord s.dataSp (m.addr s) (fun v t => k (v.setWidth 16) t) := rfl
  have locked (k : State → Out) : (operandRead s m).lockedTurn k = k (operandRead s m) := by
    rw [State.lockedTurn, operandRead_bus hb]
  have write (v : BitVec 16) (k : State → Out) : Loc.writeLocked (operandRead s m) (.mem m) v k =
      (operandRead s m).lockedTurn (fun t => k (t.wroteWord s.dataSp (m.addr s) (v.setWidth 16))) := by cases m <;> rfl
  rw [State.testAndSet, checked_of_even (by simpa [AllEven, Loc.evens, evens] using he), fetch,
    loadWord_before_grant hb, write, locked] at run
  refine ⟨_, run, ?_, by simp, fun sp b h => ?_, ?_⟩
  · exact (stored_wordAt (operandRead s m) _ _ _ _ _).trans (BitVec.setWidth_eq _)
  · exact stored_onlyMem (operandRead s m) _ _ _ _ _ sp b h
  · simpa using operandRead_bus hb

end

end Sys2Proof.Machine

open Sys2Proof Sys2Proof.Machine Sys2Proof.Claims

/-- Settles O59. -/
theorem refreshAndPauses : Obligations.RefreshAndPauses := by
  refine ⟨fun s l he hc hr hh hk hpc => ?_, fun s l he hc hr hh hk => ?_, fun s l he hc => ?_,
    fun s l he hc => step_leaveStop he hc, fun s l rest h hpc hx hepa hb => step_stopAhead h hpc hx hepa hb,
    fun s l w0 i he hc hr hw hx hepa ha hd => step_held he hc hr hw hx hepa ha hd, fun s n ws he hc => ?_,
    fun s l he hc => step_leaveBusDisconnect he hc,
    fun s m n ws rest he hb => ⟨fun d _ => ldl_granted he hb d, fun k => inc_granted he hb k, tset_granted he hb⟩,
    fun s l he hc hr hw hh hk => step_halted he hc hr hw hh hk⟩
  · rw [step_stop he, onStop_running hc hr hk, if_neg (by simp [hh]), if_neg (Bool.eq_false_iff.mp hpc)]; rfl
  · rw [step_stop he, onStop_running hc hr hk, if_pos hh]; rfl
  · rw [step_stop he, State.onStop, if_pos (by exact hc)]; rfl
  · rw [step, he]
    show bump (.next (s.popEvent.onBusGrant n ws)) = _
    rw [State.onBusGrant, if_neg (by exact hc)]; rfl
end
section
/-!
PROOF. The stops (20_memory.md sections 3 and 7, 93_implementation_defined.md): where an operand or a run has no meaning
the machine names the fault.
-/
namespace Sys2Proof.Machine
open Sys2Proof.Claims

/-! ## Odd addresses (log entry 15) -/

theorem checked_of_odd {as : List Addr} {a : Addr} (ha : a ∈ as) (h : OddAddr a) (k : Out) :
    checked as k = .fault .oddAddress := by
  refine if_neg fun all => ?_
  have even := List.all_eq_true.mp all a ha
  rw [show a.off.getLsbD 0 = true from h] at even
  cases even

theorem mem_evens {n : Nat} (hn : n ≠ 8) (a : Addr) : a ∈ evens n a := by
  rw [evens, if_neg hn]; exact List.mem_singleton_self a

/-- An instruction whose first check is of an odd address. -/
theorem exec_odd {i : Instr} {s : State} {as : List Addr} {k : Out} (run : exec i s = checked as k) {a : Addr}
    (h : OddAddr a) (ha : a ∈ as) : exec i s = .fault .oddAddress := run.trans (checked_of_odd ha h k)

theorem oddSource_of_exec {n : Nat} (hn : n ≠ 8) {mk : RegNo → Src n → Instr} {k : State → RegNo → Mem → Out}
    (run : ∀ s d m, exec (mk d (.mem m)) s = checked (evens n (m.addr s)) (k s d m)) : oddSource mk :=
  fun s d m h => exec_odd (run s d m) h (mem_evens hn _)

theorem oddOperand_of_exec {n : Nat} (hn : n ≠ 8) {mk : Loc → Instr} {k : State → Mem → Out}
    (run : ∀ s m, exec (mk (.mem m)) s = checked (evens n (m.addr s)) (k s m)) : oddOperand mk :=
  fun s m h => exec_odd (run s m) h (mem_evens hn _)

/-- PUSH and POP of a memory operand: its address is checked after that of the stack. -/
theorem oddOperand_of_stack {n : Nat} (hn : n ≠ 8) {mk : Loc → Instr} {d : RegNo} {k : State → Mem → Out}
    (run : ∀ s m, exec (mk (.mem m)) s = checked (s.addrReg d :: evens n (m.addr s)) (k s m)) : oddOperand mk :=
  fun s m h => exec_odd (run s m) h (List.mem_cons_of_mem _ (mem_evens hn _))

/-- The extended instructions that pass words between memory and a fitted EPU. -/
theorem epaMemory_odd {s : State} (he : s.fcw.epa = true) (hf : s.params.epuFitted = true) {m : Mem}
    (h : OddAddr (m.addr s)) (sel : BitVec 6) (lo : BitVec 4) (w1 : Word) :
    exec (.epaMemFromEpu sel lo m w1) s = .fault .oddAddress ∧
    exec (.epaEpuFromMem sel lo m w1) s = .fault .oddAddress := by
  have stored : exec (.epaMemFromEpu sel lo m w1) s = execEpaMemFromEpu sel lo m w1 s := rfl
  have captured : exec (.epaEpuFromMem sel lo m w1) s = execEpaEpuFromMem sel lo m w1 s := rfl
  constructor
  · rw [stored, execEpaMemFromEpu, extended_fitted he hf, checked_of_odd (List.mem_singleton_self _) h]
  · rw [captured, execEpaEpuFromMem, extended_fitted he hf, checked_of_odd (List.mem_singleton_self _) h]

theorem enter_odd {s : State} (h : OddAddr s.ssp) (k : Exc) (id : Word) (saved : Addr) :
    s.enter k id saved = .fault .oddAddress := checked_of_odd (List.mem_singleton_self _) h _

theorem iret_odd {s : State} (hs : s.fcw.sn = true) (hg : s.segmented = true ∨ s.isZ8001 = false) (h : OddAddr s.ssp) :
    exec .iret s = .fault .oddAddress := by
  have defined : ¬(s.isZ8001 = true ∧ s.fcw.seg = false) := by
    rintro ⟨hz, hf⟩; simp [State.segmented, hz, hf] at hg
  rw [exec_iret hs, State.leave, if_neg defined]
  exact checked_of_odd (List.mem_singleton_self _) h _

/-- A step with an odd PC. -/
theorem step_oddPc {s : State} {l : Lines} (h : AtFetch s l) (hpc : OddAddr s.pc) : step s = .fault .oddPc := by
  obtain ⟨he, hc, hr, hw, hq, hh⟩ := h
  have hr' : s.popEvent.resetDue = false := hr
  have hw' : s.popEvent.heldWord = none := hw
  have hq' : s.popEvent.request l = none := hq
  have hh' : s.popEvent.halted = false := hh
  have hpc' : s.popEvent.pc.off.getLsbD 0 = true := hpc
  simp only [step_running he hc, State.runWith, hr', hw', hq', hh', State.runInstr, hpc', if_neg Bool.false_ne_true]
  rfl

/-! ## Block counts (log entry 28) -/

theorem withBlockCount_bad {s : State} {r : RegNo} (h : ¬CountOk 16 s r) (k : Out) :
    s.withBlockCount 16 r k = .fault .blockCount := by
  refine if_pos ⟨rfl, ?_⟩
  have zero : (s.regW r).toNat = 0 → s.regW r = 0 := fun e => BitVec.eq_of_toNat_eq e
  unfold CountOk at h
  by_cases e : (s.regW r).toNat = 0
  · exact .inl (zero e)
  · right; omega

/-- A word block instruction checks its count and then its pointers. -/
theorem wordBlockStops_of_exec {system : Bool} {mk : RegNo → RegNo → RegNo → Instr}
    {pointers checks : State → RegNo → RegNo → List Addr} {k : State → RegNo → RegNo → RegNo → Out}
    (run : ∀ s rs r rd, (system = true → s.fcw.sn = true) →
      exec (mk rs r rd) s = s.withBlockCount 16 r (checked (checks s rs rd) (k s rs r rd)))
    (among : ∀ s rs rd, ∀ a ∈ pointers s rs rd, a ∈ checks s rs rd) : wordBlockStops system mk pointers := by
  intro s rs r rd hs
  rw [run s rs r rd hs]
  exact ⟨fun h => withBlockCount_bad h _, fun hc ⟨a, ha, h⟩ =>
    (withBlockCount_ok hc _).trans (checked_of_odd (among s rs rd a ha) h _)⟩

section
variable {mk : RegNo → RegNo → RegNo → Instr} {step : Word} {rep : Bool}

theorem wordBlockStops_compare {cc : Cc} (h : ∀ s rs r rd, exec (mk rs r rd) s = s.compareElement 16 rs r rd cc step rep) :
    wordBlockStops false mk (fun s rs _ => [s.addrReg rs]) :=
  wordBlockStops_of_exec (fun s rs r rd _ => h s rs r rd) fun _ _ _ _ ha => ha

theorem wordBlockStops_strings {cc : Cc} (h : ∀ s rs r rd, exec (mk rs r rd) s = s.compareStrings 16 rs r rd cc step rep) :
    wordBlockStops false mk (fun s rs rd => [s.addrReg rs, s.addrReg rd]) :=
  wordBlockStops_of_exec (checks := fun s rs rd => [s.addrReg rd, s.addrReg rs]) (fun s rs r rd _ => h s rs r rd)
    fun _ _ _ _ ha => (List.Perm.swap _ _ _).mem_iff.mp ha

theorem wordBlockStops_move (h : ∀ s rs r rd, exec (mk rs r rd) s = s.moveElement 16 rs r rd step rep) :
    wordBlockStops false mk (fun s rs rd => [s.addrReg rs, s.addrReg rd]) :=
  wordBlockStops_of_exec (fun s rs r rd _ => h s rs r rd) fun _ _ _ _ ha => ha

theorem wordBlockStops_in {io : IoSpace}
    (h : ∀ s rs r rd, s.fcw.sn = true → exec (mk rs r rd) s = s.blockIn 16 io rs r rd step rep) :
    wordBlockStops true mk (fun s _ rd => [s.addrReg rd]) :=
  wordBlockStops_of_exec (fun s rs r rd hs => h s rs r rd (hs rfl)) fun _ _ _ _ ha => ha

theorem wordBlockStops_out {io : IoSpace}
    (h : ∀ s rs r rd, s.fcw.sn = true → exec (mk rs r rd) s = s.blockOut 16 io rs r rd step rep) :
    wordBlockStops true mk (fun s rs _ => [s.addrReg rs]) :=
  wordBlockStops_of_exec (fun s rs r rd hs => h s rs r rd (hs rfl)) fun _ _ _ _ ha => ha

end

/-! ## An FCW with bit 15 set on a Z8002 (log entry 11) -/

section
variable {s : State} (hz : s.isZ8001 = false)
include hz

theorem loadFcw_bad {w : Word} (h : w.getLsbD 15 = true) (k : Fcw → Out) : s.loadFcw w k = .fault .segBitOnZ8002 :=
  if_pos (by rw [hz, h]; rfl)

theorem not_segmented : s.segmented = false := by rw [State.segmented, hz]; rfl

theorem ldps_segBit (ha : Alone s) (hs : s.fcw.sn = true) {m : Mem} (he : ¬OddAddr (m.addr s))
    (h : (s.wordAt s.dataSp (m.addr s)).getLsbD 15 = true) : exec (.ldps m) s = .fault .segBitOnZ8002 := by
  have even : AllEven [m.addr s] := by simpa [AllEven, OddAddr] using he
  refine (privileged_system hs _ _).trans ?_
  rw [checked_of_even even, not_segmented hz, if_neg Bool.false_ne_true, loadWord_alone ha, loadWord_alone (by exact ha)]
  exact loadFcw_bad (s := (s.logged _).logged _) hz h _

theorem iret_segBit (ha : Alone s) (hs : s.fcw.sn = true) (he : ¬OddAddr s.ssp)
    (h : (s.wordAt ⟨.stack, true⟩ (s.ssp.plus 2)).getLsbD 15 = true) : exec .iret s = .fault .segBitOnZ8002 := by
  rw [exec_iret hs, leave_alone ha (fun c => by rw [hz] at c; cases c.1) (Bool.not_eq_true _ ▸ he), loadFcw_bad hz h]

theorem enter_segBit (ha : Alone s) (he : ¬OddAddr s.ssp) {k : Exc} {id : Word} {saved : Addr}
    (h : ((s.putBelow ⟨.stack, true⟩ s.ssp (s.frame id saved)).wordAt ⟨.prog, true⟩ (fcwPlace s k)).getLsbD 15 = true) :
    s.enter k id saved = .fault .segBitOnZ8002 := by
  have z : (framed s id saved).isZ8001 = false := by rw [State.isZ8001, framed_params]; exact hz
  rw [enter_alone ha (Bool.not_eq_true _ ▸ he) k id saved (fun c => by rw [hz] at c; cases c.1), newFcwAt_eq_fcwPlace,
    framed_wordAt, loadFcw_bad z h]

theorem resetReads_segBit (ha : Alone s) (h : (s.wordAt ⟨.prog, true⟩ ⟨0, 2⟩).getLsbD 15 = true) :
    s.resetReads = .fault .segBitOnZ8002 := by
  rw [State.resetReads, loadWord_alone (by exact ha), loadPc_alone (by exact ha)]
  exact loadFcw_bad (by exact hz) h _

end

/-! ## The segment registers of a Z8002 (log entry 36) -/

theorem noControlRegister {s : State} (hs : s.fcw.sn = true) (hz : s.isZ8001 = false) (d : RegNo) {c : CtlReg}
    (hc : c ∈ [CtlReg.psapSeg, CtlReg.nspSeg]) :
    exec (.ldctlFrom d c) s = .refused .noControlRegister ∧ exec (.ldctlTo c d) s = .refused .noControlRegister := by
  have absent : s.readCtl c = none ∧ ∀ w k, s.writeCtl c w k = .refused .noControlRegister := by
    simp only [List.mem_cons, List.not_mem_nil, or_false] at hc
    rcases hc with rfl | rfl <;> exact ⟨if_neg (by simp [hz]), fun _ _ => if_neg (by simp [hz])⟩
  refine ⟨(privileged_system hs _ _).trans (by rw [absent.1]), ?_⟩
  rw [exec_ldctlTo hs, absent.2]

/-! ## An odd vector on a Z8001 (log entry 48) -/

theorem enter_oddVector {s : State} {id : Word} (hz : s.isZ8001 = true) (he : ¬OddAddr s.ssp) (h : id.getLsbD 0 = true)
    (saved : Addr) : s.enter .vi id saved = .fault .oddVector := by
  rw [State.enter, checked_of_even (by simpa [AllEven, OddAddr] using he), if_pos ⟨hz, rfl, h⟩]

/-! ## A store into the next instruction (log entry 24) -/

theorem length_adrWords (a : Adr) : a.words.length = a.extra := by cases a <;> rfl

theorem length_encMem (op : BitVec 6) (m : Mem) (b : BitVec 4) : (encMem op m b []).length = 1 + m.extra := by
  cases m with
  | ir r => rfl
  | da a => rw [encMem, List.nil_append, List.length_cons, length_adrWords, Nat.add_comm]; rfl
  | x a r => rw [encMem, List.nil_append, List.length_cons, length_adrWords, Nat.add_comm]; rfl

theorem length_encode_ldStore (m : LdMem) (r : RegNo) : (encode (.ldStore m r)).length = 1 + m.extra := by
  cases m with
  | mem m => exact length_encMem _ m r
  | ba b disp => rfl
  | bx b x => rfl

/-- The next byte of an even address has the next key. -/
theorem key_plus_one (s : State) (sp : Space) {a : Addr} (h : a.off.getLsbD 0 = false) :
    s.key sp (a.plus 1) = s.key sp a + 1 := by
  have even : a.off.toNat % 2 = 0 := by
    rw [BitVec.getLsbD, Nat.testBit_zero] at h; simpa using h
  have bound := a.off.isLt
  have off : (a.plus 1).off.toNat = a.off.toNat + 1 := by
    rw [plus_off, BitVec.toNat_add]
    exact Nat.mod_eq_of_lt (by simp; omega)
  have seg : (a.plus 1).seg = a.seg := rfl
  rw [State.key, State.key, seg, off, ← Nat.add_assoc]

/-- A word store that changes a word whose two bytes are among the keys. -/
theorem storeChanges_of_word {s : State} {keys : List Nat} {sp : Space} {a : Addr} {v : Word}
    (h0 : s.key sp a ∈ keys) (h1 : s.key sp (a.plus 1) ∈ keys) (hv : v ≠ s.wordAt sp a) :
    storeChanges s keys s.mem [.memWrite sp false a v] = true := by
  have differs : hiByte v ≠ s.byteAt sp a ∨ loByte v ≠ s.byteAt sp (a.plus 1) := by
    by_contra same
    push Not at same
    exact hv (by rw [← wordOf_parts v, same.1, same.2]; rfl)
  rw [storeChanges, Bool.or_eq_true]
  left
  rcases differs with d | d
  · exact List.any_eq_true.mpr ⟨(s.key sp a, hiByte v), by simp [State.cellsOf], by
      simpa [h0, State.byteAt] using d.symm⟩
  · exact List.any_eq_true.mpr ⟨(s.key sp (a.plus 1), loByte v), by simp [State.cellsOf], by
      simpa [State.byteAt] using ⟨by simpa using h1, d.symm⟩⟩

/-- An instruction that stores a word over the first word after it, and changes that word, breaks the store rule. -/
theorem clobbers_of_word {u : State} {sp : Space} {a : Addr} {v : Word} {words : Nat} (hr : u.resetDue = false)
    (hpc : u.pc.off.getLsbD 0 = false) (he : a.off.getLsbD 0 = false)
    (hk : u.key sp a = u.key u.progSp (u.pc.plus (BitVec.ofNat 16 (2 * words)))) (hv : v ≠ u.wordAt sp a) :
    clobbers u ((u.wroteWord sp a v).skip words) words = true := by
  generalize ht : (u.wroteWord sp a v).skip words = t
  have pc : t.pc = u.pc.plus (BitVec.ofNat 16 (2 * words)) := by rw [← ht]; simp [State.skip]
  have key (sp : Space) (b : Addr) : t.key sp b = u.key sp b := by rw [← ht]; simp
  have prog : t.progSp = u.progSp := by rw [← ht]; simp
  have due : t.resetDue = false := by rw [← ht]; simpa using hr
  have log : transactions u t = [.memWrite sp false a v] := by rw [← ht]; simp [transactions, State.wroteWord, State.record]
  have even : t.pc.off.getLsbD 0 = false := by
    rw [pc]; exact even_plus hpc (by rw [BitVec.getLsbD_ofNat, Nat.testBit_zero]; simp)
  have next : t.pc ∈ followers u t words := by
    refine List.mem_filter.mpr ⟨?_, by rw [even]; rfl⟩
    split <;> exact List.mem_cons_self
  have among (j : Nat) (hj : j < 2) :
      u.key u.progSp (t.pc.plus (BitVec.ofNat 16 j)) ∈ (followers u t words).flatMap t.instrKeys := by
    have long := (wordsOf_bounds t.segmented (t.instrWord t.pc 0) (t.instrWord t.pc 1) (t.instrWord t.pc 2)).1
    refine List.mem_flatMap.mpr ⟨t.pc, next, List.mem_map.mpr ⟨j, List.mem_range.mpr ?_, by rw [key, prog]⟩⟩
    rw [State.lengthAt]; omega
  rw [← pc] at hk
  rw [clobbers, due, log]
  refine storeChanges_of_word ?_ ?_ hv
  · rw [hk]; simpa using among 0 (by omega)
  · rw [key_plus_one u sp he, hk, ← key_plus_one u u.progSp even]; exact among 1 (by omega)

/-- A step at a store by LD over the next instruction. -/
theorem step_storeIntoNext {s : State} {l : Lines} {m : LdMem} {r : RegNo} (h : AtInstruction s l)
    (hd : decoded s = .ok (.ldStore m r)) (he : ¬OddAddr (m.addr s))
    (hk : s.key s.dataSp (m.addr s) = s.key s.progSp (s.pc.plus (BitVec.ofNat 16 (2 * (1 + m.extra)))))
    (hv : s.regW r ≠ s.wordAt s.dataSp (m.addr s)) : step s = .fault .storeIntoNextInstruction := by
  have even : (m.addr s).off.getLsbD 0 = false := Bool.not_eq_true _ ▸ he
  rw [step_decoded h hd, length_encode_ldStore]
  generalize (if trapsFirst s then 1 else 1 + m.extra) = n
  have run : exec (.ldStore m r) (afterFetch s n) =
      .next (((afterFetch s n).wroteWord s.dataSp (m.addr s) (s.regW r)).skip (1 + m.extra)) := by
    have addr : m.addr (afterFetch s n) = m.addr s := by rfl
    have checks : AllEven (evens 16 (m.addr s)) := by simpa [AllEven, evens] using even
    show (afterFetch s n).storeAt (afterFetch s n).dataSp (m.addr (afterFetch s n)) ((afterFetch s n).reg 16 r) _ = _
    rw [addr, reg_16, State.storeAt, checked_of_even checks, State.store, if_neg (by decide), if_pos rfl,
      State.storeWord, turn_alone (by exact h.alone), BitVec.setWidth_eq]
    rfl
  rw [run, asStep, if_pos (clobbers_of_word (by exact h.atFetch.noReset) (by exact h.even) even (by exact hk) (by exact hv))]

end Sys2Proof.Machine

open Sys2Proof Sys2Proof.Machine Sys2Proof.Claims

/-- Settles O60. -/
theorem stops : Obligations.Stops := by
  refine ⟨?sources, ?operands, ?loads, ?others, ?relative, ?pushes, ?calls, ?entries, ?pc, ?compares, ?moves, ?inputs,
    ?outputs, ?registers, ?bit15, fun s id saved hz he hv => enter_oddVector hz he hv saved,
    fun s l m r h hd he hk hv => step_storeIntoNext h hd he hk hv⟩
  case sources =>
    have w : 16 ≠ 8 := by decide
    have l : 32 ≠ 8 := by decide
    exact ⟨oddSource_of_exec w (fun _ _ _ => rfl), oddSource_of_exec l (fun _ _ _ => rfl),
      oddSource_of_exec w (fun _ _ _ => rfl), oddSource_of_exec l (fun _ _ _ => rfl),
      oddSource_of_exec w (fun _ _ _ => rfl), oddSource_of_exec l (fun _ _ _ => rfl),
      oddSource_of_exec w (fun _ _ _ => rfl), oddSource_of_exec l (fun _ _ _ => rfl),
      oddSource_of_exec w (fun _ _ _ => rfl), oddSource_of_exec l (fun _ _ _ => rfl),
      oddSource_of_exec w (fun _ _ _ => rfl), oddSource_of_exec w (fun _ _ _ => rfl),
      oddSource_of_exec w (fun _ _ _ => rfl)⟩
  case operands =>
    have w : 16 ≠ 8 := by decide
    have l : 32 ≠ 8 := by decide
    exact ⟨oddOperand_of_exec w (fun _ _ => rfl), oddOperand_of_exec w (fun _ _ => rfl),
      oddOperand_of_exec w (fun _ _ => rfl), oddOperand_of_exec w (fun _ _ => rfl),
      oddOperand_of_exec l (fun _ _ => rfl), oddOperand_of_exec w (fun _ _ => rfl), fun k d =>
      ⟨oddOperand_of_exec w (fun _ _ => rfl), oddOperand_of_exec w (fun _ _ => rfl),
        oddOperand_of_exec w (fun _ _ => rfl), oddOperand_of_exec w (fun _ _ => rfl),
        oddOperand_of_exec w (fun _ _ => rfl), oddOperand_of_exec w (fun _ _ => rfl),
        oddOperand_of_stack w (fun _ _ => rfl), oddOperand_of_stack l (fun _ _ => rfl),
        oddOperand_of_stack w (fun _ _ => rfl), oddOperand_of_stack l (fun _ _ => rfl)⟩⟩
  case loads =>
    exact fun s d m h => ⟨exec_odd (by rfl) h (mem_evens (n := 16) (by decide) _),
      exec_odd (by rfl) h (mem_evens (n := 32) (by decide) _), exec_odd (by rfl) h (mem_evens (n := 16) (by decide) _),
      exec_odd (by rfl) h (mem_evens (n := 32) (by decide) _)⟩
  case others =>
    exact fun s d m v k h => ⟨exec_odd (by rfl) h (mem_evens (n := 16) (by decide) _),
      exec_odd (by rfl) h (mem_evens (n := 16) (by decide) _), exec_odd (by rfl) h (List.mem_singleton_self _),
      exec_odd (by rfl) h (List.mem_singleton_self _),
      fun hs => exec_odd (privileged_system hs _ _) h (List.mem_singleton_self _),
      fun he hf sel lo w1 => epaMemory_odd he hf h sel lo w1⟩
  case relative =>
    exact fun s d disp h => ⟨exec_odd (by rfl) h (mem_evens (n := 16) (by decide) _),
      exec_odd (by rfl) h (mem_evens (n := 32) (by decide) _), exec_odd (by rfl) h (mem_evens (n := 16) (by decide) _),
      exec_odd (by rfl) h (mem_evens (n := 32) (by decide) _)⟩
  case pushes =>
    exact fun s sp l v h => ⟨exec_odd (by rfl) h List.mem_cons_self, exec_odd (by rfl) h List.mem_cons_self,
      exec_odd (by rfl) h List.mem_cons_self, exec_odd (by rfl) h List.mem_cons_self,
      exec_odd (by rfl) h List.mem_cons_self⟩
  case calls =>
    exact fun s m disp c h => ⟨exec_odd (by rfl) h List.mem_cons_self, exec_odd (by rfl) h List.mem_cons_self,
      fun hc => exec_odd (if_pos hc) h List.mem_cons_self⟩
  case entries => exact fun s k id saved h => ⟨enter_odd h k id saved, fun hs hg => iret_odd hs hg h⟩
  case pc => exact fun s l h hpc => step_oddPc h hpc
  case compares =>
    exact fun cc => ⟨wordBlockStops_compare fun _ _ _ _ => rfl, wordBlockStops_compare fun _ _ _ _ => rfl,
      wordBlockStops_compare fun _ _ _ _ => rfl, wordBlockStops_compare fun _ _ _ _ => rfl,
      wordBlockStops_strings fun _ _ _ _ => rfl, wordBlockStops_strings fun _ _ _ _ => rfl,
      wordBlockStops_strings fun _ _ _ _ => rfl, wordBlockStops_strings fun _ _ _ _ => rfl⟩
  case moves =>
    intro mk h
    simp only [List.mem_cons, List.not_mem_nil, or_false] at h
    rcases h with rfl | rfl | rfl | rfl <;> exact wordBlockStops_move fun _ _ _ _ => rfl
  case inputs =>
    intro mk h
    simp only [List.mem_cons, List.not_mem_nil, or_false] at h
    rcases h with rfl | rfl | rfl | rfl | rfl | rfl | rfl | rfl <;>
      exact wordBlockStops_in fun _ _ _ _ hs => privileged_system hs _ _
  case outputs =>
    intro mk h
    simp only [List.mem_cons, List.not_mem_nil, or_false] at h
    rcases h with rfl | rfl | rfl | rfl | rfl | rfl | rfl | rfl <;>
      exact wordBlockStops_out fun _ _ _ _ hs => privileged_system hs _ _
  case registers => exact fun s d hs hz c hc => noControlRegister hs hz d hc
  case bit15 =>
    refine fun s hz => ⟨fun d hs h => ?_, fun ha => ⟨fun m hs he h => ldps_segBit hz ha hs he h,
      fun hs he h => iret_segBit hz ha hs he h, fun k id saved he h => enter_segBit hz ha he h, fun l he hc hr h => ?_⟩⟩
    · rw [exec_ldctlTo hs, State.writeCtl, loadFcw_bad hz h]
    · rw [step_running he hc, State.runWith, if_pos (by exact hr), resetReads_segBit (by exact hz) (by exact ha) (by exact h)]
      rfl
end
